-- ==== Sys2Proof/Word.lean ====
section
/-! DEFINITION. The words of the machine: 8-bit bytes, 16-bit addresses and pairs, 32-bit colours
(spec/00_scope.md R6, R8). -/

namespace Sys2Proof

/-- An 8-bit value: a register, a byte of memory, an immediate `d8`, `a8` or `e8`. -/
abbrev Byte := BitVec 8

/-- A 16-bit value: an address, a register pair, SP, PC (spec/00_scope.md R6). -/
abbrev Word := BitVec 16

/-- One 32-bit colour of the framebuffer (spec/00_scope.md R6). -/
abbrev Colour := BitVec 32

end Sys2Proof
end

