-- ==== Sys2Proof/Machine/Bits.lean ====
section
/-! DEFINITION. Bytes and words: halves, concatenation, extension, single bits (spec/00_scope.md R8). -/

namespace Sys2Proof

/-- `[hi, lo]` concatenated, `hi` in the high part (spec/00_scope.md R8). -/
def mk16 (hi lo : Byte) : Word := hi ++ lo

/-- `v[15:8]`. -/
def hiByte (v : Word) : Byte := v.extractLsb' 8 8

/-- `v[7:0]`. -/
def loByte (v : Word) : Byte := v.extractLsb' 0 8

/-- `zext_16(e)` (spec/00_scope.md R8). -/
def zext16 (e : Byte) : Word := e.setWidth 16

/-- `sext_16(e)`: e if e < 0x80, else e + 0xFF00 (spec/00_scope.md R8). -/
def sext16 (e : Byte) : Word := e.signExtend 16

/-- Bit i of a byte. -/
def bitOf (v : Byte) (i : Nat) : Bool := v.getLsbD i

/-- A bit as a byte, 0x00 or 0x01. -/
def byteOfBool (b : Bool) : Byte := if b then 0x01 else 0x00

end Sys2Proof
end

