-- ==== Sys2Proof/Config.lean ====
section
/-! DEFINITION. What spec/00_scope.md R6 fixes and what its R7 leaves to the implementation. The parameters that
a running machine consults are held in State (`params`), so that a statement about every state is a statement about
every value of them; the parameters that only reset consults are the fields of `Start` (log 1, 2, 3, 4). -/

namespace Sys2Proof.Config

/-- The fixed 4-colour ramp `COLOUR_RAMP`, shade 0 (lightest) to 3 (spec/00_scope.md R7). -/
structure Ramp where
  shade0 : Colour
  shade1 : Colour
  shade2 : Colour
  shade3 : Colour
  deriving DecidableEq, Repr

/-- The parameters of spec/00_scope.md R7 that a running machine consults. No step changes them. -/
structure Params where
  /-- `ECHO_READ`, what 0xE000-0xFDFF reads as (spec/20_memory.md R86). -/
  echoRead : Byte
  /-- `UNUSABLE_READ`, what 0xFEA0-0xFEFF reads as (spec/20_memory.md R88). -/
  unusableRead : Byte
  /-- `COLOUR_RAMP` (spec/61_video.md R487). -/
  ramp : Ramp
  /-- `FRAME_COUNTER_BITS`, the width at which the frame counter wraps (spec/61_video.md R494). -/
  frameCounterBits : Nat
  deriving DecidableEq, Repr

/-- The spec's default of `COLOUR_RAMP` for simulation (spec/00_scope.md R7). DESIGN CHOICE, log 1. -/
def defaultRamp : Ramp := ⟨0xFFFFFFFF, 0xFFAAAAAA, 0xFF555555, 0xFF000000⟩

/-- The spec's defaults for simulation (spec/00_scope.md R7). DESIGN CHOICE, log 1. -/
def defaultParams : Params :=
  { echoRead := 0x00, unusableRead := 0x00, ramp := defaultRamp, frameCounterBits := 32 }

/-- The eight buttons of the host's input `BUTTONS`, true = pressed (spec/60_exceptions.md R438). -/
structure Buttons where
  right : Bool
  left : Bool
  up : Bool
  down : Bool
  a : Bool
  b : Bool
  select : Bool
  start : Bool
  deriving DecidableEq, Repr

/-- No button pressed, the default of `BUTTONS` (spec/00_scope.md R7). -/
def noButtons : Buttons := ⟨false, false, false, false, false, false, false, false⟩

/-- Everything a run is started from: the cartridge image, the battery image and the other parameters of
spec/00_scope.md R7. A list shorter than its memory is followed by 0x00 bytes (log 2). -/
structure Start where
  /-- `CART`, the bytes of the loaded cartridge image. -/
  cart : List Byte
  /-- `BATTERY`, the 8192 bytes of external RAM bank 0, when a save exists. -/
  battery : Option (List Byte)
  initDiv : Word
  initVram : List Byte
  initWram : List Byte
  initHram : List Byte
  initOam : List Byte
  buttons : Buttons
  params : Params
  deriving DecidableEq, Repr

/-- Every parameter at the spec's default for simulation, and no cartridge (spec/00_scope.md R7; log 1, 2, 3, 4). -/
def defaultStart : Start :=
  { cart := [], battery := none, initDiv := 0xABCC, initVram := [], initWram := [], initHram := [],
    initOam := [], buttons := noButtons, params := defaultParams }

/-- Sprites on one line, at most (spec/00_scope.md R6). -/
def maxLineSprites : Nat := 10

/-- PPU ticks of one line (spec/00_scope.md R6). -/
def ticksPerLine : Nat := 456

/-- Ticks of the OAM scan (spec/00_scope.md R6). -/
def oamScanTicks : Nat := 80

/-- Visible pixels of a line (spec/00_scope.md R6). -/
def screenWidth : Nat := 160

/-- Visible lines of a frame (spec/00_scope.md R6). -/
def screenHeight : Nat := 144

/-- Bytes of a DMA transfer, the size of OAM (spec/00_scope.md R6). -/
def dmaLength : Nat := 160

/-- Bytes of a ROM bank (spec/00_scope.md R6). -/
def romBankSize : Nat := 16384

/-- Bytes of an external RAM bank (spec/00_scope.md R6). -/
def ramBankSize : Nat := 8192

end Sys2Proof.Config
end

