-- ==== Sys2Proof/Machine/Cells.lean ====
section
/-! DEFINITION. Memories as plain data: lists of (key, value) pairs in one canonical form, keys strictly rising and no
entry equal to what an unlisted key reads as. `d` is that default. Equal memories are equal lists. -/

namespace Sys2Proof

/-- A memory of bytes: Host.Cell pairs. Its unlisted keys read as `unlistedByte`. -/
abbrev Memory := List Host.Cell

/-- What an unlisted byte of RAM, of external RAM or of a cartridge image reads as: 0x00, the default of `INIT_VRAM`,
`INIT_WRAM`, `INIT_HRAM` and `INIT_OAM` (spec/00_scope.md R7) and the reset value of external RAM
(spec/10_state.md R51). Log 2. -/
def unlistedByte : Byte := 0x00

namespace Cells

variable {α : Type} [DecidableEq α]

/-- The value at a key. -/
def read (d : α) : List (Nat × α) → Nat → α
  | [], _ => d
  | (k', v) :: m, k => if k' = k then v else read d m k

/-- Put a value at its place in the order of the keys. -/
def put : List (Nat × α) → Nat → α → List (Nat × α)
  | [], k, v => [(k, v)]
  | (k', v') :: m, k, v =>
    if k < k' then (k, v) :: (k', v') :: m
    else if k = k' then (k, v) :: m
    else (k', v') :: put m k v

/-- Remove a key. -/
def erase : List (Nat × α) → Nat → List (Nat × α)
  | [], _ => []
  | (k', v') :: m, k => if k' = k then erase m k else (k', v') :: erase m k

/-- Write a value: the default removes the entry, so that the form stays canonical. -/
def write (d : α) (m : List (Nat × α)) (k : Nat) (v : α) : List (Nat × α) :=
  if v = d then erase m k else put m k v

/-- Canonical from key `lo` on: every key at least `lo`, keys strictly rising, no entry equal to the default. -/
def wfFrom (d : α) : Nat → List (Nat × α) → Bool
  | _, [] => true
  | lo, (k, v) :: m => decide (lo ≤ k) && decide (v ≠ d) && wfFrom d (k + 1) m

/-- The canonical form. -/
def wf (d : α) (m : List (Nat × α)) : Bool := wfFrom d 0 m

/-- The canonical memory that holds the values of a list from key `base` on. -/
def ofList (d : α) : Nat → List α → List (Nat × α)
  | _, [] => []
  | base, v :: vs => if v = d then ofList d (base + 1) vs else (base, v) :: ofList d (base + 1) vs

end Cells

/-- The byte at a key of a memory. -/
def Memory.read (m : Memory) (k : Nat) : Byte := Cells.read unlistedByte m k

/-- Write a byte at a key of a memory. -/
def Memory.write (m : Memory) (k : Nat) (v : Byte) : Memory := Cells.write unlistedByte m k v

/-- The canonical form of a memory. -/
def Memory.wf (m : Memory) : Bool := Cells.wf unlistedByte m

/-- The memory that holds the given bytes from key `base` on. -/
def Memory.ofBytes (base : Nat) (bs : List Byte) : Memory := Cells.ofList unlistedByte base bs

end Sys2Proof
end

