-- ==== Sys2Proof/Machine/State.lean ====
section
/-! DEFINITION. The state of the machine as plain data, every piece that spec/10_state.md and the table of
spec/70_reset_and_hazards.md R520 give it, the faults and refusals a step can end in, and the state after reset. -/

namespace Sys2Proof.Machine

open Sys2Proof

/-- Where an image that is not admitted fails (spec/20_memory.md R121): the offending header field that the refusal
records (spec/60_exceptions.md R411). -/
inductive HeaderField where
  /-- The image is shorter than 0x150 bytes and has no header (R111). -/
  | shortImage
  /-- The type code at 0x147 is not in the table of R114. -/
  | typeCode
  /-- The ROM-size code at 0x148 is not one of 0..8 (R112). -/
  | romSizeCode
  /-- The RAM-size code at 0x149 is not one of 0..5 (R113). -/
  | ramSizeCode
  deriving DecidableEq, Repr

/-- Why the machine stops with a fault. -/
inductive Fault where
  /-- The fatal decode error (spec/60_exceptions.md R410-R412), raised by `execIllegal` on one of the eleven illegal
  opcodes and by `step` on a machine that has already faulted; records the opcode's address and the opcode. Safe: it
  is the spec's own fault. -/
  | illegalOpcode (pc : Word) (opcode : Byte)
  deriving DecidableEq, Repr

/-- Why the machine has no meaning for what it meets. -/
inductive Refusal where
  /-- An instruction without a meaning yet, by its mnemonic in spec/opcode_table.json. Only an arm of `exec` raises
  it; no arm does. Safe. -/
  | notModelled (mnemonic : String)
  /-- STOP (spec/45_system.md R342, spec/60_exceptions.md R411), raised by `execStop`; records the opcode's address.
  Safe: the spec refuses it. -/
  | stop (pc : Word)
  /-- A cartridge that is not admitted (spec/20_memory.md R121, spec/60_exceptions.md R411), raised by `step` before the
  first instruction; records the offending header field and, as every refusal (spec/00_scope.md R11), the pc: PC as it
  stands, since nothing is fetched (log 19). Safe: the spec refuses it. -/
  | unsupportedCartridge (field : HeaderField) (pc : Word)
  deriving DecidableEq, Repr

/-- Run status (spec/10_state.md R29); the pc of `refused(reason, pc)` stands in the reason. -/
inductive RunStatus where
  | running
  | faulted (pc : Word) (opcode : Byte)
  | refused (reason : Refusal)
  deriving DecidableEq, Repr

/-- The CPU's registers and control state (spec/10_state.md R20-R28). -/
structure Cpu where
  a : Byte
  /-- The flags register: Z bit 7, N bit 6, H bit 5, C bit 4, bits 3:0 always 0 (R22). -/
  f : Byte
  b : Byte
  c : Byte
  d : Byte
  e : Byte
  h : Byte
  l : Byte
  sp : Word
  pc : Word
  /-- Interrupt master enable (R26). -/
  ime : Bool
  /-- The deferred-enable latch (R27). -/
  imePending : Bool
  halted : Bool
  deriving DecidableEq, Repr

/-- The timer (spec/10_state.md R34-R38). -/
structure Timer where
  div : Word
  tima : Byte
  tma : Byte
  /-- Bit 2 enable, bits 1:0 clock select (R38). -/
  tac : BitVec 3
  deriving DecidableEq, Repr

/-- The DMA engine (spec/10_state.md R39) and the DMA register byte (R50). -/
structure Dma where
  active : Bool
  /-- DMA ticks of the start delay still to come, 0..2. -/
  delay : Nat
  /-- Bytes copied so far, 0..160. -/
  offset : Nat
  /-- The latched source high byte. -/
  src : Byte
  /-- The byte read back at 0xFF46. -/
  reg : Byte
  deriving DecidableEq, Repr

/-- The LCD modes; STAT bits 1:0 show 0 H-blank, 1 V-blank, 2 OAM scan, 3 pixel transfer (spec/10_state.md R41). -/
inductive LcdMode where
  | hblank | vblank | oamScan | transfer
  deriving DecidableEq, Repr

/-- The pixel fetcher's states (spec/10_state.md R47, spec/61_video.md R466). -/
inductive FetchState where
  | tile | data0 | data1 | idle | push
  deriving DecidableEq, Repr

/-- The sprite height the OAM scan latches, 8 or 16 rows (spec/10_state.md R47). -/
inductive ObjHeight where
  | short | tall
  deriving DecidableEq, Repr

/-- One entry of the per-line sprite buffer: an OAM entry with its OAM index (spec/10_state.md R33, R47). -/
structure Sprite where
  y : Byte
  x : Byte
  tile : Byte
  attr : Byte
  index : Nat
  deriving DecidableEq, Repr

/-- The PPU: the LCD register block (spec/10_state.md R40-R46) and the internal state (R47). -/
structure Ppu where
  lcdc : Byte
  /-- STAT bits 6:3, the interrupt selects (R41). -/
  statSel : BitVec 4
  coincidence : Bool
  mode : LcdMode
  scy : Byte
  scx : Byte
  ly : Byte
  lyc : Byte
  bgp : Byte
  obp0 : Byte
  obp1 : Byte
  wy : Byte
  wx : Byte
  /-- Ticks elapsed in the current line, 0..456. -/
  lineTicks : Nat
  windowLine : Byte
  /-- At most ten sprites of the current line. -/
  lineSprites : List Sprite
  objHeight : ObjHeight
  fetchState : FetchState
  /-- Line coordinate of the next 8-pixel group to push. -/
  fetchX : Nat
  /-- Pixels popped this line. -/
  lineX : Nat
  /-- Pixels written to the framebuffer this line. -/
  pushedX : Nat
  /-- SCX mod 8 as latched at the start of pixel transfer. -/
  fineX : Nat
  /-- The pixel FIFO, oldest first, at most 16 colours. -/
  fifo : List Colour
  /-- The 160 x 144 framebuffer, key 160 * row + column, an unlisted pixel being `COLOUR_RAMP[0]` (log 7). -/
  framebuffer : List (Nat × Colour)
  frameCounter : Nat
  /-- LCDC bit 7 as last seen by the PPU. -/
  lcdWasOn : Bool
  deriving DecidableEq, Repr

/-- The bank-controller families (spec/20_memory.md R114). -/
inductive Family where
  | plain | familyA | familyB
  deriving DecidableEq, Repr

/-- The parsed cartridge header (spec/20_memory.md R111). Only the three codes affect the machine. -/
structure Header where
  entryVector : List Byte
  logo : List Byte
  title : List Byte
  newLicensee : List Byte
  sgbFlag : Byte
  typeCode : Byte
  romSizeCode : Byte
  ramSizeCode : Byte
  destination : Byte
  oldLicensee : Byte
  maskRomVersion : Byte
  headerChecksum : Byte
  globalChecksum : List Byte
  deriving DecidableEq, Repr

/-- The cartridge (spec/10_state.md R51): what loading fixes, and the bank controller's mutable state. -/
structure Cartridge where
  /-- The image, key = image offset; the bytes at `romLen` and beyond do not exist. -/
  rom : Memory
  romLen : Nat
  header : Option Header
  /-- The offending header field of an image that is not admitted (spec/20_memory.md R121). -/
  rejected : Option HeaderField
  family : Family
  battery : Bool
  romBanks : Nat
  ramBanks : Nat
  /-- External RAM, key = 8192 * bank + offset. -/
  ram : Memory
  ramEnabled : Bool
  /-- The ROM bank-select register: 5 bits for Family A, 7 bits for Family B. -/
  romSel : Byte
  ramSel : BitVec 2
  /-- Family A: false = ROM-banking, true = RAM-banking. -/
  bankMode : Bool
  needsSave : Bool
  deriving DecidableEq, Repr

/-- The machine. -/
structure State where
  cpu : Cpu
  status : RunStatus
  /-- IF, the pending flags, bit 0 V-blank, 1 LCD-status, 2 timer, 3 serial, 4 joypad (spec/10_state.md R30). -/
  intFlags : BitVec 5
  /-- IE, the enable byte (R31). -/
  intEnable : Byte
  /-- VRAM, WRAM, OAM and HRAM, key = bus address (R32). -/
  mem : Memory
  timer : Timer
  dma : Dma
  ppu : Ppu
  /-- P1 bits 5:4 as last written: bit 1 the action row, bit 0 the direction row, 0 = selected (R48). -/
  joySel : BitVec 2
  buttons : Config.Buttons
  sb : Byte
  sc : Byte
  cart : Cartridge
  /-- The run-time parameters of spec/00_scope.md R7; no step changes them (log 1). -/
  params : Config.Params
  deriving DecidableEq, Repr

/-- What an instruction's meaning and a step answer. -/
abbrev Answer := Host.Outcome State Fault Refusal

/-- No cartridge: the empty image, which is not admitted because it is shorter than a header
(spec/20_memory.md R111, R121; log 4). The controller state is that of R51's reset. -/
def Cartridge.absent : Cartridge :=
  { rom := [], romLen := 0, header := none, rejected := some .shortImage, family := .plain, battery := false,
    romBanks := 0, ramBanks := 0, ram := [], ramEnabled := false, romSel := 0x01, ramSel := 0, bankMode := false,
    needsSave := false }

/-- The machine right after reset, as the table of spec/70_reset_and_hazards.md R520 has it, with every parameter of
spec/00_scope.md R7 at its default and no cartridge (log 1, 2, 3, 4). -/
def State.reset : State :=
  { cpu := { a := 0x01, f := 0xB0, b := 0x00, c := 0x13, d := 0x00, e := 0xD8, h := 0x01, l := 0x4D,
             sp := 0xFFFE, pc := 0x0100, ime := false, imePending := false, halted := false }
    status := .running
    intFlags := 0x01
    intEnable := 0x00
    mem := []
    timer := { div := 0xABCC, tima := 0x00, tma := 0x00, tac := 0 }
    dma := { active := false, delay := 0, offset := 0, src := 0x00, reg := 0xFF }
    ppu := { lcdc := 0x91, statSel := 0, coincidence := true, mode := .oamScan, scy := 0x00, scx := 0x00,
             ly := 0x00, lyc := 0x00, bgp := 0xFC, obp0 := 0xFF, obp1 := 0xFF, wy := 0x00, wx := 0x00,
             lineTicks := 0, windowLine := 0x00, lineSprites := [], objHeight := .short, fetchState := .tile,
             fetchX := 0, lineX := 0, pushedX := 0, fineX := 0, fifo := [], framebuffer := [], frameCounter := 0,
             lcdWasOn := true }
    joySel := 0
    buttons := Config.noButtons
    sb := 0x00
    sc := 0x7E
    cart := Cartridge.absent
    params := Config.defaultParams }

end Sys2Proof.Machine
end

