-- ==== Sys2Proof/Syntax.lean ====
section
/-! DEFINITION. The instructions, one constructor per mnemonic of spec/opcode_table.json (spec/30_encoding.md R150, R152):
the table's 256 base rows (its eleven ILLEGAL rows are one constructor that carries the opcode) and its 256 CB rows.
Immediate bytes are arguments; registers, conditions, bit indices and RST targets are part of the constructor, as in
the table. -/

namespace Sys2Proof

/-- The 8-bit registers a 3-bit field selects, less `(HL)` (spec/30_encoding.md R142). -/
inductive Reg8 where
  | b | c | d | e | h | l | a
  deriving DecidableEq, Repr

/-- The pairs of field dd (spec/30_encoding.md R143). -/
inductive Pair where
  | bc | de | hl | sp
  deriving DecidableEq, Repr

/-- The pairs of field qq, which PUSH and POP name (spec/30_encoding.md R143). -/
inductive StackPair where
  | bc | de | hl | af
  deriving DecidableEq, Repr

/-- The conditions of field cc (spec/30_encoding.md R144). -/
inductive Cond where
  | nz | z | nc | c
  deriving DecidableEq, Repr

/-- The 8-bit ALU operations of field y (spec/30_encoding.md R147). -/
inductive AluOp where
  | add | adc | sub | sbc | and | xor | or | cp
  deriving DecidableEq, Repr

/-- The rotate and shift operations of CB class 0 (spec/30_encoding.md R149). -/
inductive RotOp where
  | rlc | rrc | rl | rr | sla | sra | swap | srl
  deriving DecidableEq, Repr

/-- An instruction of the opcode table: the rows with an immediate first (the runtime numbers the constructors
that carry data, and only so many), then the others, each in the table's order. -/
inductive Instr where
  /-- LD BC,d16 (R220) -/
  | ldBCImm (nn : Word)
  /-- LD B,d8 (R202) -/
  | ldBImm (n : Byte)
  /-- LD (a16),SP (R224) -/
  | ldAt16SP (nn : Word)
  /-- LD C,d8 (R202) -/
  | ldCImm (n : Byte)
  /-- LD DE,d16 (R220) -/
  | ldDEImm (nn : Word)
  /-- LD D,d8 (R202) -/
  | ldDImm (n : Byte)
  /-- JR e8 (R324) -/
  | jr (e : Byte)
  /-- LD E,d8 (R202) -/
  | ldEImm (n : Byte)
  /-- JR NZ,e8 (R325) -/
  | jrNZ (e : Byte)
  /-- LD HL,d16 (R220) -/
  | ldHLImm (nn : Word)
  /-- LD H,d8 (R202) -/
  | ldHImm (n : Byte)
  /-- JR Z,e8 (R325) -/
  | jrZ (e : Byte)
  /-- LD L,d8 (R202) -/
  | ldLImm (n : Byte)
  /-- JR NC,e8 (R325) -/
  | jrNC (e : Byte)
  /-- LD SP,d16 (R220) -/
  | ldSPImm (nn : Word)
  /-- LD (HL),d8 (R205) -/
  | ldAtHLImm (n : Byte)
  /-- JR C,e8 (R325) -/
  | jrC (e : Byte)
  /-- LD A,d8 (R202) -/
  | ldAImm (n : Byte)
  /-- JP NZ,a16 (R322) -/
  | jpNZ (nn : Word)
  /-- JP a16 (R321) -/
  | jp (nn : Word)
  /-- CALL NZ,a16 (R327) -/
  | callNZ (nn : Word)
  /-- ADD A,d8 (R243) -/
  | addAImm (n : Byte)
  /-- JP Z,a16 (R322) -/
  | jpZ (nn : Word)
  /-- CALL Z,a16 (R327) -/
  | callZ (nn : Word)
  /-- CALL a16 (R326) -/
  | call (nn : Word)
  /-- ADC A,d8 (R246) -/
  | adcAImm (n : Byte)
  /-- JP NC,a16 (R322) -/
  | jpNC (nn : Word)
  /-- ILLEGAL: one of the eleven opcodes with no instruction (R346) -/
  | illegal (op : Byte)
  /-- CALL NC,a16 (R327) -/
  | callNC (nn : Word)
  /-- SUB d8 (R249) -/
  | subImm (n : Byte)
  /-- JP C,a16 (R322) -/
  | jpC (nn : Word)
  /-- CALL C,a16 (R327) -/
  | callC (nn : Word)
  /-- SBC A,d8 (R252) -/
  | sbcAImm (n : Byte)
  /-- LDH (a8),A (R213) -/
  | ldhAt8A (n : Byte)
  /-- AND d8 (R255) -/
  | andImm (n : Byte)
  /-- ADD SP,e8 (R283) -/
  | addSPe (e : Byte)
  /-- LD (a16),A (R211) -/
  | ldAt16A (nn : Word)
  /-- XOR d8 (R258) -/
  | xorImm (n : Byte)
  /-- LDH A,(a8) (R212) -/
  | ldhAAt8 (n : Byte)
  /-- OR d8 (R261) -/
  | orImm (n : Byte)
  /-- LD HL,SP+e8 (R225) -/
  | ldHLSPe (e : Byte)
  /-- LD A,(a16) (R210) -/
  | ldAAt16 (nn : Word)
  /-- CP d8 (R264) -/
  | cpImm (n : Byte)
  /-- NOP (R340) -/
  | nop
  /-- LD (BC),A (R208) -/
  | ldAtBCA
  /-- INC BC (R281) -/
  | incBC
  /-- INC B (R265) -/
  | incB
  /-- DEC B (R267) -/
  | decB
  /-- RLCA (R291) -/
  | rlca
  /-- ADD HL,BC (R280) -/
  | addHLBC
  /-- LD A,(BC) (R206) -/
  | ldAAtBC
  /-- DEC BC (R282) -/
  | decBC
  /-- INC C (R265) -/
  | incC
  /-- DEC C (R267) -/
  | decC
  /-- RRCA (R292) -/
  | rrca
  /-- STOP (R342) -/
  | stop
  /-- LD (DE),A (R209) -/
  | ldAtDEA
  /-- INC DE (R281) -/
  | incDE
  /-- INC D (R265) -/
  | incD
  /-- DEC D (R267) -/
  | decD
  /-- RLA (R293) -/
  | rla
  /-- ADD HL,DE (R280) -/
  | addHLDE
  /-- LD A,(DE) (R207) -/
  | ldAAtDE
  /-- DEC DE (R282) -/
  | decDE
  /-- INC E (R265) -/
  | incE
  /-- DEC E (R267) -/
  | decE
  /-- RRA (R294) -/
  | rra
  /-- LD (HL+),A (R216) -/
  | ldAtHLIncA
  /-- INC HL (R281) -/
  | incHL
  /-- INC H (R265) -/
  | incH
  /-- DEC H (R267) -/
  | decH
  /-- DAA (R269) -/
  | daa
  /-- ADD HL,HL (R280) -/
  | addHLHL
  /-- LD A,(HL+) (R217) -/
  | ldAAtHLInc
  /-- DEC HL (R282) -/
  | decHL
  /-- INC L (R265) -/
  | incL
  /-- DEC L (R267) -/
  | decL
  /-- CPL (R270) -/
  | cpl
  /-- LD (HL-),A (R218) -/
  | ldAtHLDecA
  /-- INC SP (R281) -/
  | incSP
  /-- INC (HL) (R266) -/
  | incAtHL
  /-- DEC (HL) (R268) -/
  | decAtHL
  /-- SCF (R271) -/
  | scf
  /-- ADD HL,SP (R280) -/
  | addHLSP
  /-- LD A,(HL-) (R219) -/
  | ldAAtHLDec
  /-- DEC SP (R282) -/
  | decSP
  /-- INC A (R265) -/
  | incA
  /-- DEC A (R267) -/
  | decA
  /-- CCF (R272) -/
  | ccf
  /-- LD B,B (R201) -/
  | ldBB
  /-- LD B,C (R201) -/
  | ldBC
  /-- LD B,D (R201) -/
  | ldBD
  /-- LD B,E (R201) -/
  | ldBE
  /-- LD B,H (R201) -/
  | ldBH
  /-- LD B,L (R201) -/
  | ldBL
  /-- LD B,(HL) (R203) -/
  | ldBAtHL
  /-- LD B,A (R201) -/
  | ldBA
  /-- LD C,B (R201) -/
  | ldCB
  /-- LD C,C (R201) -/
  | ldCC
  /-- LD C,D (R201) -/
  | ldCD
  /-- LD C,E (R201) -/
  | ldCE
  /-- LD C,H (R201) -/
  | ldCH
  /-- LD C,L (R201) -/
  | ldCL
  /-- LD C,(HL) (R203) -/
  | ldCAtHL
  /-- LD C,A (R201) -/
  | ldCA
  /-- LD D,B (R201) -/
  | ldDB
  /-- LD D,C (R201) -/
  | ldDC
  /-- LD D,D (R201) -/
  | ldDD
  /-- LD D,E (R201) -/
  | ldDE
  /-- LD D,H (R201) -/
  | ldDH
  /-- LD D,L (R201) -/
  | ldDL
  /-- LD D,(HL) (R203) -/
  | ldDAtHL
  /-- LD D,A (R201) -/
  | ldDA
  /-- LD E,B (R201) -/
  | ldEB
  /-- LD E,C (R201) -/
  | ldEC
  /-- LD E,D (R201) -/
  | ldED
  /-- LD E,E (R201) -/
  | ldEE
  /-- LD E,H (R201) -/
  | ldEH
  /-- LD E,L (R201) -/
  | ldEL
  /-- LD E,(HL) (R203) -/
  | ldEAtHL
  /-- LD E,A (R201) -/
  | ldEA
  /-- LD H,B (R201) -/
  | ldHB
  /-- LD H,C (R201) -/
  | ldHC
  /-- LD H,D (R201) -/
  | ldHD
  /-- LD H,E (R201) -/
  | ldHE
  /-- LD H,H (R201) -/
  | ldHH
  /-- LD H,L (R201) -/
  | ldHL
  /-- LD H,(HL) (R203) -/
  | ldHAtHL
  /-- LD H,A (R201) -/
  | ldHA
  /-- LD L,B (R201) -/
  | ldLB
  /-- LD L,C (R201) -/
  | ldLC
  /-- LD L,D (R201) -/
  | ldLD
  /-- LD L,E (R201) -/
  | ldLE
  /-- LD L,H (R201) -/
  | ldLH
  /-- LD L,L (R201) -/
  | ldLL
  /-- LD L,(HL) (R203) -/
  | ldLAtHL
  /-- LD L,A (R201) -/
  | ldLA
  /-- LD (HL),B (R204) -/
  | ldAtHLB
  /-- LD (HL),C (R204) -/
  | ldAtHLC
  /-- LD (HL),D (R204) -/
  | ldAtHLD
  /-- LD (HL),E (R204) -/
  | ldAtHLE
  /-- LD (HL),H (R204) -/
  | ldAtHLH
  /-- LD (HL),L (R204) -/
  | ldAtHLL
  /-- HALT (R341) -/
  | halt
  /-- LD (HL),A (R204) -/
  | ldAtHLA
  /-- LD A,B (R201) -/
  | ldAB
  /-- LD A,C (R201) -/
  | ldAC
  /-- LD A,D (R201) -/
  | ldAD
  /-- LD A,E (R201) -/
  | ldAE
  /-- LD A,H (R201) -/
  | ldAH
  /-- LD A,L (R201) -/
  | ldAL
  /-- LD A,(HL) (R203) -/
  | ldAAtHL
  /-- LD A,A (R201) -/
  | ldAA
  /-- ADD A,B (R241) -/
  | addAB
  /-- ADD A,C (R241) -/
  | addAC
  /-- ADD A,D (R241) -/
  | addAD
  /-- ADD A,E (R241) -/
  | addAE
  /-- ADD A,H (R241) -/
  | addAH
  /-- ADD A,L (R241) -/
  | addAL
  /-- ADD A,(HL) (R242) -/
  | addAAtHL
  /-- ADD A,A (R241) -/
  | addAA
  /-- ADC A,B (R244) -/
  | adcAB
  /-- ADC A,C (R244) -/
  | adcAC
  /-- ADC A,D (R244) -/
  | adcAD
  /-- ADC A,E (R244) -/
  | adcAE
  /-- ADC A,H (R244) -/
  | adcAH
  /-- ADC A,L (R244) -/
  | adcAL
  /-- ADC A,(HL) (R245) -/
  | adcAAtHL
  /-- ADC A,A (R244) -/
  | adcAA
  /-- SUB B (R247) -/
  | subB
  /-- SUB C (R247) -/
  | subC
  /-- SUB D (R247) -/
  | subD
  /-- SUB E (R247) -/
  | subE
  /-- SUB H (R247) -/
  | subH
  /-- SUB L (R247) -/
  | subL
  /-- SUB (HL) (R248) -/
  | subAtHL
  /-- SUB A (R247) -/
  | subA
  /-- SBC A,B (R250) -/
  | sbcAB
  /-- SBC A,C (R250) -/
  | sbcAC
  /-- SBC A,D (R250) -/
  | sbcAD
  /-- SBC A,E (R250) -/
  | sbcAE
  /-- SBC A,H (R250) -/
  | sbcAH
  /-- SBC A,L (R250) -/
  | sbcAL
  /-- SBC A,(HL) (R251) -/
  | sbcAAtHL
  /-- SBC A,A (R250) -/
  | sbcAA
  /-- AND B (R253) -/
  | andB
  /-- AND C (R253) -/
  | andC
  /-- AND D (R253) -/
  | andD
  /-- AND E (R253) -/
  | andE
  /-- AND H (R253) -/
  | andH
  /-- AND L (R253) -/
  | andL
  /-- AND (HL) (R254) -/
  | andAtHL
  /-- AND A (R253) -/
  | andA
  /-- XOR B (R256) -/
  | xorB
  /-- XOR C (R256) -/
  | xorC
  /-- XOR D (R256) -/
  | xorD
  /-- XOR E (R256) -/
  | xorE
  /-- XOR H (R256) -/
  | xorH
  /-- XOR L (R256) -/
  | xorL
  /-- XOR (HL) (R257) -/
  | xorAtHL
  /-- XOR A (R256) -/
  | xorA
  /-- OR B (R259) -/
  | orB
  /-- OR C (R259) -/
  | orC
  /-- OR D (R259) -/
  | orD
  /-- OR E (R259) -/
  | orE
  /-- OR H (R259) -/
  | orH
  /-- OR L (R259) -/
  | orL
  /-- OR (HL) (R260) -/
  | orAtHL
  /-- OR A (R259) -/
  | orA
  /-- CP B (R262) -/
  | cpB
  /-- CP C (R262) -/
  | cpC
  /-- CP D (R262) -/
  | cpD
  /-- CP E (R262) -/
  | cpE
  /-- CP H (R262) -/
  | cpH
  /-- CP L (R262) -/
  | cpL
  /-- CP (HL) (R263) -/
  | cpAtHL
  /-- CP A (R262) -/
  | cpA
  /-- RET NZ (R329) -/
  | retNZ
  /-- POP BC (R223) -/
  | popBC
  /-- PUSH BC (R222) -/
  | pushBC
  /-- RST 00H (R330) -/
  | rst00
  /-- RET Z (R329) -/
  | retZ
  /-- RET (R328) -/
  | ret
  /-- PREFIX_CB: the byte 0xCB read as a row of its own; it is no instruction by itself (R345) -/
  | prefixCb
  /-- RST 08H (R330) -/
  | rst08
  /-- RET NC (R329) -/
  | retNC
  /-- POP DE (R223) -/
  | popDE
  /-- PUSH DE (R222) -/
  | pushDE
  /-- RST 10H (R330) -/
  | rst10
  /-- RET C (R329) -/
  | retC
  /-- RETI (R331) -/
  | reti
  /-- RST 18H (R330) -/
  | rst18
  /-- POP HL (R223) -/
  | popHL
  /-- LD (C),A (R215) -/
  | ldAtCA
  /-- PUSH HL (R222) -/
  | pushHL
  /-- RST 20H (R330) -/
  | rst20
  /-- JP HL (R323) -/
  | jpHL
  /-- RST 28H (R330) -/
  | rst28
  /-- POP AF (R223) -/
  | popAF
  /-- LD A,(C) (R214) -/
  | ldAAtC
  /-- DI (R343) -/
  | di
  /-- PUSH AF (R222) -/
  | pushAF
  /-- RST 30H (R330) -/
  | rst30
  /-- LD SP,HL (R221) -/
  | ldSPHL
  /-- EI (R344) -/
  | ei
  /-- RST 38H (R330) -/
  | rst38
  /-- RLC B (R295) -/
  | rlcB
  /-- RLC C (R295) -/
  | rlcC
  /-- RLC D (R295) -/
  | rlcD
  /-- RLC E (R295) -/
  | rlcE
  /-- RLC H (R295) -/
  | rlcH
  /-- RLC L (R295) -/
  | rlcL
  /-- RLC (HL) (R295) -/
  | rlcAtHL
  /-- RLC A (R295) -/
  | rlcA
  /-- RRC B (R296) -/
  | rrcB
  /-- RRC C (R296) -/
  | rrcC
  /-- RRC D (R296) -/
  | rrcD
  /-- RRC E (R296) -/
  | rrcE
  /-- RRC H (R296) -/
  | rrcH
  /-- RRC L (R296) -/
  | rrcL
  /-- RRC (HL) (R296) -/
  | rrcAtHL
  /-- RRC A (R296) -/
  | rrcA
  /-- RL B (R297) -/
  | rlB
  /-- RL C (R297) -/
  | rlC
  /-- RL D (R297) -/
  | rlD
  /-- RL E (R297) -/
  | rlE
  /-- RL H (R297) -/
  | rlH
  /-- RL L (R297) -/
  | rlL
  /-- RL (HL) (R297) -/
  | rlAtHL
  /-- RL A (R297) -/
  | rlA
  /-- RR B (R298) -/
  | rrB
  /-- RR C (R298) -/
  | rrC
  /-- RR D (R298) -/
  | rrD
  /-- RR E (R298) -/
  | rrE
  /-- RR H (R298) -/
  | rrH
  /-- RR L (R298) -/
  | rrL
  /-- RR (HL) (R298) -/
  | rrAtHL
  /-- RR A (R298) -/
  | rrA
  /-- SLA B (R299) -/
  | slaB
  /-- SLA C (R299) -/
  | slaC
  /-- SLA D (R299) -/
  | slaD
  /-- SLA E (R299) -/
  | slaE
  /-- SLA H (R299) -/
  | slaH
  /-- SLA L (R299) -/
  | slaL
  /-- SLA (HL) (R299) -/
  | slaAtHL
  /-- SLA A (R299) -/
  | slaA
  /-- SRA B (R300) -/
  | sraB
  /-- SRA C (R300) -/
  | sraC
  /-- SRA D (R300) -/
  | sraD
  /-- SRA E (R300) -/
  | sraE
  /-- SRA H (R300) -/
  | sraH
  /-- SRA L (R300) -/
  | sraL
  /-- SRA (HL) (R300) -/
  | sraAtHL
  /-- SRA A (R300) -/
  | sraA
  /-- SWAP B (R301) -/
  | swapB
  /-- SWAP C (R301) -/
  | swapC
  /-- SWAP D (R301) -/
  | swapD
  /-- SWAP E (R301) -/
  | swapE
  /-- SWAP H (R301) -/
  | swapH
  /-- SWAP L (R301) -/
  | swapL
  /-- SWAP (HL) (R301) -/
  | swapAtHL
  /-- SWAP A (R301) -/
  | swapA
  /-- SRL B (R302) -/
  | srlB
  /-- SRL C (R302) -/
  | srlC
  /-- SRL D (R302) -/
  | srlD
  /-- SRL E (R302) -/
  | srlE
  /-- SRL H (R302) -/
  | srlH
  /-- SRL L (R302) -/
  | srlL
  /-- SRL (HL) (R302) -/
  | srlAtHL
  /-- SRL A (R302) -/
  | srlA
  /-- BIT 0,B (R303) -/
  | bit0B
  /-- BIT 0,C (R303) -/
  | bit0C
  /-- BIT 0,D (R303) -/
  | bit0D
  /-- BIT 0,E (R303) -/
  | bit0E
  /-- BIT 0,H (R303) -/
  | bit0H
  /-- BIT 0,L (R303) -/
  | bit0L
  /-- BIT 0,(HL) (R303) -/
  | bit0AtHL
  /-- BIT 0,A (R303) -/
  | bit0A
  /-- BIT 1,B (R303) -/
  | bit1B
  /-- BIT 1,C (R303) -/
  | bit1C
  /-- BIT 1,D (R303) -/
  | bit1D
  /-- BIT 1,E (R303) -/
  | bit1E
  /-- BIT 1,H (R303) -/
  | bit1H
  /-- BIT 1,L (R303) -/
  | bit1L
  /-- BIT 1,(HL) (R303) -/
  | bit1AtHL
  /-- BIT 1,A (R303) -/
  | bit1A
  /-- BIT 2,B (R303) -/
  | bit2B
  /-- BIT 2,C (R303) -/
  | bit2C
  /-- BIT 2,D (R303) -/
  | bit2D
  /-- BIT 2,E (R303) -/
  | bit2E
  /-- BIT 2,H (R303) -/
  | bit2H
  /-- BIT 2,L (R303) -/
  | bit2L
  /-- BIT 2,(HL) (R303) -/
  | bit2AtHL
  /-- BIT 2,A (R303) -/
  | bit2A
  /-- BIT 3,B (R303) -/
  | bit3B
  /-- BIT 3,C (R303) -/
  | bit3C
  /-- BIT 3,D (R303) -/
  | bit3D
  /-- BIT 3,E (R303) -/
  | bit3E
  /-- BIT 3,H (R303) -/
  | bit3H
  /-- BIT 3,L (R303) -/
  | bit3L
  /-- BIT 3,(HL) (R303) -/
  | bit3AtHL
  /-- BIT 3,A (R303) -/
  | bit3A
  /-- BIT 4,B (R303) -/
  | bit4B
  /-- BIT 4,C (R303) -/
  | bit4C
  /-- BIT 4,D (R303) -/
  | bit4D
  /-- BIT 4,E (R303) -/
  | bit4E
  /-- BIT 4,H (R303) -/
  | bit4H
  /-- BIT 4,L (R303) -/
  | bit4L
  /-- BIT 4,(HL) (R303) -/
  | bit4AtHL
  /-- BIT 4,A (R303) -/
  | bit4A
  /-- BIT 5,B (R303) -/
  | bit5B
  /-- BIT 5,C (R303) -/
  | bit5C
  /-- BIT 5,D (R303) -/
  | bit5D
  /-- BIT 5,E (R303) -/
  | bit5E
  /-- BIT 5,H (R303) -/
  | bit5H
  /-- BIT 5,L (R303) -/
  | bit5L
  /-- BIT 5,(HL) (R303) -/
  | bit5AtHL
  /-- BIT 5,A (R303) -/
  | bit5A
  /-- BIT 6,B (R303) -/
  | bit6B
  /-- BIT 6,C (R303) -/
  | bit6C
  /-- BIT 6,D (R303) -/
  | bit6D
  /-- BIT 6,E (R303) -/
  | bit6E
  /-- BIT 6,H (R303) -/
  | bit6H
  /-- BIT 6,L (R303) -/
  | bit6L
  /-- BIT 6,(HL) (R303) -/
  | bit6AtHL
  /-- BIT 6,A (R303) -/
  | bit6A
  /-- BIT 7,B (R303) -/
  | bit7B
  /-- BIT 7,C (R303) -/
  | bit7C
  /-- BIT 7,D (R303) -/
  | bit7D
  /-- BIT 7,E (R303) -/
  | bit7E
  /-- BIT 7,H (R303) -/
  | bit7H
  /-- BIT 7,L (R303) -/
  | bit7L
  /-- BIT 7,(HL) (R303) -/
  | bit7AtHL
  /-- BIT 7,A (R303) -/
  | bit7A
  /-- RES 0,B (R304) -/
  | res0B
  /-- RES 0,C (R304) -/
  | res0C
  /-- RES 0,D (R304) -/
  | res0D
  /-- RES 0,E (R304) -/
  | res0E
  /-- RES 0,H (R304) -/
  | res0H
  /-- RES 0,L (R304) -/
  | res0L
  /-- RES 0,(HL) (R304) -/
  | res0AtHL
  /-- RES 0,A (R304) -/
  | res0A
  /-- RES 1,B (R304) -/
  | res1B
  /-- RES 1,C (R304) -/
  | res1C
  /-- RES 1,D (R304) -/
  | res1D
  /-- RES 1,E (R304) -/
  | res1E
  /-- RES 1,H (R304) -/
  | res1H
  /-- RES 1,L (R304) -/
  | res1L
  /-- RES 1,(HL) (R304) -/
  | res1AtHL
  /-- RES 1,A (R304) -/
  | res1A
  /-- RES 2,B (R304) -/
  | res2B
  /-- RES 2,C (R304) -/
  | res2C
  /-- RES 2,D (R304) -/
  | res2D
  /-- RES 2,E (R304) -/
  | res2E
  /-- RES 2,H (R304) -/
  | res2H
  /-- RES 2,L (R304) -/
  | res2L
  /-- RES 2,(HL) (R304) -/
  | res2AtHL
  /-- RES 2,A (R304) -/
  | res2A
  /-- RES 3,B (R304) -/
  | res3B
  /-- RES 3,C (R304) -/
  | res3C
  /-- RES 3,D (R304) -/
  | res3D
  /-- RES 3,E (R304) -/
  | res3E
  /-- RES 3,H (R304) -/
  | res3H
  /-- RES 3,L (R304) -/
  | res3L
  /-- RES 3,(HL) (R304) -/
  | res3AtHL
  /-- RES 3,A (R304) -/
  | res3A
  /-- RES 4,B (R304) -/
  | res4B
  /-- RES 4,C (R304) -/
  | res4C
  /-- RES 4,D (R304) -/
  | res4D
  /-- RES 4,E (R304) -/
  | res4E
  /-- RES 4,H (R304) -/
  | res4H
  /-- RES 4,L (R304) -/
  | res4L
  /-- RES 4,(HL) (R304) -/
  | res4AtHL
  /-- RES 4,A (R304) -/
  | res4A
  /-- RES 5,B (R304) -/
  | res5B
  /-- RES 5,C (R304) -/
  | res5C
  /-- RES 5,D (R304) -/
  | res5D
  /-- RES 5,E (R304) -/
  | res5E
  /-- RES 5,H (R304) -/
  | res5H
  /-- RES 5,L (R304) -/
  | res5L
  /-- RES 5,(HL) (R304) -/
  | res5AtHL
  /-- RES 5,A (R304) -/
  | res5A
  /-- RES 6,B (R304) -/
  | res6B
  /-- RES 6,C (R304) -/
  | res6C
  /-- RES 6,D (R304) -/
  | res6D
  /-- RES 6,E (R304) -/
  | res6E
  /-- RES 6,H (R304) -/
  | res6H
  /-- RES 6,L (R304) -/
  | res6L
  /-- RES 6,(HL) (R304) -/
  | res6AtHL
  /-- RES 6,A (R304) -/
  | res6A
  /-- RES 7,B (R304) -/
  | res7B
  /-- RES 7,C (R304) -/
  | res7C
  /-- RES 7,D (R304) -/
  | res7D
  /-- RES 7,E (R304) -/
  | res7E
  /-- RES 7,H (R304) -/
  | res7H
  /-- RES 7,L (R304) -/
  | res7L
  /-- RES 7,(HL) (R304) -/
  | res7AtHL
  /-- RES 7,A (R304) -/
  | res7A
  /-- SET 0,B (R305) -/
  | set0B
  /-- SET 0,C (R305) -/
  | set0C
  /-- SET 0,D (R305) -/
  | set0D
  /-- SET 0,E (R305) -/
  | set0E
  /-- SET 0,H (R305) -/
  | set0H
  /-- SET 0,L (R305) -/
  | set0L
  /-- SET 0,(HL) (R305) -/
  | set0AtHL
  /-- SET 0,A (R305) -/
  | set0A
  /-- SET 1,B (R305) -/
  | set1B
  /-- SET 1,C (R305) -/
  | set1C
  /-- SET 1,D (R305) -/
  | set1D
  /-- SET 1,E (R305) -/
  | set1E
  /-- SET 1,H (R305) -/
  | set1H
  /-- SET 1,L (R305) -/
  | set1L
  /-- SET 1,(HL) (R305) -/
  | set1AtHL
  /-- SET 1,A (R305) -/
  | set1A
  /-- SET 2,B (R305) -/
  | set2B
  /-- SET 2,C (R305) -/
  | set2C
  /-- SET 2,D (R305) -/
  | set2D
  /-- SET 2,E (R305) -/
  | set2E
  /-- SET 2,H (R305) -/
  | set2H
  /-- SET 2,L (R305) -/
  | set2L
  /-- SET 2,(HL) (R305) -/
  | set2AtHL
  /-- SET 2,A (R305) -/
  | set2A
  /-- SET 3,B (R305) -/
  | set3B
  /-- SET 3,C (R305) -/
  | set3C
  /-- SET 3,D (R305) -/
  | set3D
  /-- SET 3,E (R305) -/
  | set3E
  /-- SET 3,H (R305) -/
  | set3H
  /-- SET 3,L (R305) -/
  | set3L
  /-- SET 3,(HL) (R305) -/
  | set3AtHL
  /-- SET 3,A (R305) -/
  | set3A
  /-- SET 4,B (R305) -/
  | set4B
  /-- SET 4,C (R305) -/
  | set4C
  /-- SET 4,D (R305) -/
  | set4D
  /-- SET 4,E (R305) -/
  | set4E
  /-- SET 4,H (R305) -/
  | set4H
  /-- SET 4,L (R305) -/
  | set4L
  /-- SET 4,(HL) (R305) -/
  | set4AtHL
  /-- SET 4,A (R305) -/
  | set4A
  /-- SET 5,B (R305) -/
  | set5B
  /-- SET 5,C (R305) -/
  | set5C
  /-- SET 5,D (R305) -/
  | set5D
  /-- SET 5,E (R305) -/
  | set5E
  /-- SET 5,H (R305) -/
  | set5H
  /-- SET 5,L (R305) -/
  | set5L
  /-- SET 5,(HL) (R305) -/
  | set5AtHL
  /-- SET 5,A (R305) -/
  | set5A
  /-- SET 6,B (R305) -/
  | set6B
  /-- SET 6,C (R305) -/
  | set6C
  /-- SET 6,D (R305) -/
  | set6D
  /-- SET 6,E (R305) -/
  | set6E
  /-- SET 6,H (R305) -/
  | set6H
  /-- SET 6,L (R305) -/
  | set6L
  /-- SET 6,(HL) (R305) -/
  | set6AtHL
  /-- SET 6,A (R305) -/
  | set6A
  /-- SET 7,B (R305) -/
  | set7B
  /-- SET 7,C (R305) -/
  | set7C
  /-- SET 7,D (R305) -/
  | set7D
  /-- SET 7,E (R305) -/
  | set7E
  /-- SET 7,H (R305) -/
  | set7H
  /-- SET 7,L (R305) -/
  | set7L
  /-- SET 7,(HL) (R305) -/
  | set7AtHL
  /-- SET 7,A (R305) -/
  | set7A
  deriving DecidableEq, Repr

end Sys2Proof
end

