-- ==== Sys2Proof/Machine/Operands.lean ====
section
/-! DEFINITION. Register and flag access: every operand form that names a register, the pairs, the flags byte and the
conditions (spec/10_state.md R20-R25, spec/30_encoding.md R142-R146). -/

namespace Sys2Proof.Machine

open Sys2Proof

/-! ## Registers -/

/-- Apply an update to the CPU's part of the state. -/
def State.updCpu (s : State) (g : Cpu → Cpu) : State := { s with cpu := g s.cpu }

/-- `x[r]`. -/
def Cpu.reg (p : Cpu) : Reg8 → Byte
  | .b => p.b
  | .c => p.c
  | .d => p.d
  | .e => p.e
  | .h => p.h
  | .l => p.l
  | .a => p.a

/-- `x[r] <- v`. -/
def Cpu.setReg (p : Cpu) (r : Reg8) (v : Byte) : Cpu :=
  match r with
  | .b => { p with b := v }
  | .c => { p with c := v }
  | .d => { p with d := v }
  | .e => { p with e := v }
  | .h => { p with h := v }
  | .l => { p with l := v }
  | .a => { p with a := v }

/-- HL, the memory pointer of every `(HL)` operand (spec/10_state.md R21). -/
def Cpu.hl (p : Cpu) : Word := mk16 p.h p.l

/-- `x[dd]` (spec/30_encoding.md R143). -/
def Cpu.pair (p : Cpu) : Pair → Word
  | .bc => mk16 p.b p.c
  | .de => mk16 p.d p.e
  | .hl => mk16 p.h p.l
  | .sp => p.sp

/-- `x[dd] <- v`, both halves at once (spec/10_state.md R21). -/
def Cpu.setPair (p : Cpu) (dd : Pair) (v : Word) : Cpu :=
  match dd with
  | .bc => { p with b := hiByte v, c := loByte v }
  | .de => { p with d := hiByte v, e := loByte v }
  | .hl => { p with h := hiByte v, l := loByte v }
  | .sp => { p with sp := v }

/-- `x[qq]` (spec/30_encoding.md R143). -/
def Cpu.stackPair (p : Cpu) : StackPair → Word
  | .bc => mk16 p.b p.c
  | .de => mk16 p.d p.e
  | .hl => mk16 p.h p.l
  | .af => mk16 p.a p.f

/-- `x[qq] <- v` as POP does it: the low nibble of F is forced to zero (spec/40_load.md R223). -/
def Cpu.setStackPair (p : Cpu) (qq : StackPair) (v : Word) : Cpu :=
  match qq with
  | .bc => { p with b := hiByte v, c := loByte v }
  | .de => { p with d := hiByte v, e := loByte v }
  | .hl => { p with h := hiByte v, l := loByte v }
  | .af => { p with a := hiByte v, f := loByte v &&& 0xF0 }

/-- The address in the top page, `0xFF00 + n` (spec/30_encoding.md R145, R146). -/
def highAddress (n : Byte) : Word := 0xFF00 + zext16 n

/-! ## Flags (spec/10_state.md R22) -/

/-- The Z flag. -/
def Cpu.zf (p : Cpu) : Bool := bitOf p.f 7

/-- The N flag. -/
def Cpu.nf (p : Cpu) : Bool := bitOf p.f 6

/-- The H flag. -/
def Cpu.hf (p : Cpu) : Bool := bitOf p.f 5

/-- The C flag. -/
def Cpu.cf (p : Cpu) : Bool := bitOf p.f 4

/-- The F byte of four flags, bits 3:0 zero. -/
def packFlags (z n h c : Bool) : Byte :=
  BitVec.ofBool z ++ BitVec.ofBool n ++ BitVec.ofBool h ++ BitVec.ofBool c ++ 0x0#4

/-- `flags(z, n, h, c)`, where `none` leaves that flag unchanged (spec/00_scope.md R9). -/
def Cpu.setFlags (p : Cpu) (z n h c : Option Bool) : Cpu :=
  { p with f := packFlags (z.getD p.zf) (n.getD p.nf) (h.getD p.hf) (c.getD p.cf) }

/-- `cond(cc)` (spec/44_control.md R320). -/
def Cpu.cond (p : Cpu) : Cond → Bool
  | .nz => !p.zf
  | .z => p.zf
  | .nc => !p.cf
  | .c => p.cf

end Sys2Proof.Machine
end

