-- ==== Sys2Proof/Machine/Flags.lean ====
section
/-! DEFINITION. Every result and flag computation, as functions of the operands (spec/41_alu8.md, spec/42_alu16.md,
spec/43_rotate_shift_bit.md). `none` in a flag leaves it unchanged. -/

namespace Sys2Proof.Machine

open Sys2Proof

/-- An 8-bit result with the flags it sets. -/
structure Result8 where
  value : Byte
  z : Option Bool
  n : Option Bool
  h : Option Bool
  c : Option Bool
  deriving DecidableEq, Repr

/-- Store a result's flags. -/
def Cpu.applyFlags (p : Cpu) (r : Result8) : Cpu := p.setFlags r.z r.n r.h r.c

/-- A carry flag as a number. -/
def carryNat (c : Bool) : Nat := if c then 1 else 0

/-! ## 8-bit arithmetic and logic (spec/41_alu8.md) -/

/-- `add8(a, b, cin)` (R240). -/
def add8 (a b : Byte) (cin : Bool) : Result8 :=
  let sum := a.toNat + b.toNat + carryNat cin
  let v := BitVec.ofNat 8 sum
  { value := v, z := some (v == 0), n := some false,
    h := some (decide (a.toNat % 16 + b.toNat % 16 + carryNat cin > 0x0F)), c := some (decide (sum > 0xFF)) }

/-- `sub8(a, b, cin)` (R240). -/
def sub8 (a b : Byte) (cin : Bool) : Result8 :=
  let v := BitVec.ofInt 8 ((a.toNat : Int) - b.toNat - carryNat cin)
  { value := v, z := some (v == 0), n := some true,
    h := some (decide (a.toNat % 16 < b.toNat % 16 + carryNat cin)),
    c := some (decide (a.toNat < b.toNat + carryNat cin)) }

/-- A logic result with its H flag; N and C are 0 (R253-R261). -/
def logic8 (v : Byte) (h : Bool) : Result8 :=
  { value := v, z := some (v == 0), n := some false, h := some h, c := some false }

/-- The eight ALU operations on A and an operand (R241-R264, spec/30_encoding.md R147). CP keeps A and sets SUB's flags
(R262). -/
def aluResult (op : AluOp) (a v : Byte) (carry : Bool) : Result8 :=
  match op with
  | .add => add8 a v false
  | .adc => add8 a v carry
  | .sub => sub8 a v false
  | .sbc => sub8 a v carry
  | .and => logic8 (a &&& v) true
  | .xor => logic8 (a ^^^ v) false
  | .or => logic8 (a ||| v) false
  | .cp => { sub8 a v false with value := a }

/-- INC of a byte: C unchanged (R265, R266). -/
def inc8 (v : Byte) : Result8 :=
  { value := v + 1, z := some (v + 1 == 0), n := some false, h := some (v &&& 0x0F == 0x0F), c := none }

/-- DEC of a byte: C unchanged (R267, R268). -/
def dec8 (v : Byte) : Result8 :=
  { value := v - 1, z := some (v - 1 == 0), n := some true, h := some (v &&& 0x0F == 0x00), c := none }

/-- DAA after an addition: the value and the carry (R269). -/
def daaAfterAdd (a : Byte) (h c : Bool) : Byte × Bool :=
  let c' := c || decide (a.toNat > 0x99)
  let a' := if c' then a + 0x60 else a
  (if h || decide (a'.toNat % 16 > 0x09) then a' + 0x06 else a', c')

/-- DAA after a subtraction: the value and the carry, which it keeps (R269). -/
def daaAfterSub (a : Byte) (h c : Bool) : Byte × Bool :=
  let a' := if c then a - 0x60 else a
  (if h then a' - 0x06 else a', c)

/-- DAA (R269). -/
def daaResult (a : Byte) (n h c : Bool) : Result8 :=
  let r := if n then daaAfterSub a h c else daaAfterAdd a h c
  { value := r.1, z := some (r.1 == 0), n := none, h := some false, c := some r.2 }

/-! ## 16-bit arithmetic (spec/42_alu16.md) -/

/-- A 16-bit result with the flags it sets. -/
structure Result16 where
  value : Word
  z : Option Bool
  n : Option Bool
  h : Option Bool
  c : Option Bool
  deriving DecidableEq, Repr

/-- ADD HL,dd: carries out of bits 11 and 15, Z unchanged (R280). -/
def add16 (a b : Word) : Result16 :=
  { value := a + b, z := none, n := some false,
    h := some (decide (a.toNat % 0x1000 + b.toNat % 0x1000 > 0x0FFF)), c := some (decide (a.toNat + b.toNat > 0xFFFF)) }

/-- SP plus a signed offset, as ADD SP,e8 and LD HL,SP+e8 compute it: Z = 0, and the carries are those of the unsigned
addition of the low bytes (R283, spec/40_load.md R225). -/
def addOffset (sp : Word) (e : Byte) : Result16 :=
  { value := sp + sext16 e, z := some false, n := some false,
    h := some (decide (sp.toNat % 16 + e.toNat % 16 > 0x0F)), c := some (decide (sp.toNat % 256 + e.toNat > 0xFF)) }

/-! ## Rotates, shifts and bits (spec/43_rotate_shift_bit.md) -/

/-- The value and the carry out of a rotate or shift, `cin` being the C flag before it (R295-R302). -/
def rotate (op : RotOp) (v : Byte) (cin : Bool) : Byte × Bool :=
  match op with
  | .rlc => (v <<< 1 ||| byteOfBool (bitOf v 7), bitOf v 7)
  | .rrc => (v >>> 1 ||| byteOfBool (bitOf v 0) <<< 7, bitOf v 0)
  | .rl => (v <<< 1 ||| byteOfBool cin, bitOf v 7)
  | .rr => (v >>> 1 ||| byteOfBool cin <<< 7, bitOf v 0)
  | .sla => (v <<< 1, bitOf v 7)
  | .sra => (v >>> 1 ||| v &&& 0x80, bitOf v 0)
  | .swap => ((v &&& 0x0F) <<< 4 ||| v >>> 4, false)
  | .srl => (v >>> 1, bitOf v 0)

/-- A CB rotate or shift: Z from the result (R295-R302). -/
def rotResult (op : RotOp) (v : Byte) (cin : Bool) : Result8 :=
  let r := rotate op v cin
  { value := r.1, z := some (r.1 == 0), n := some false, h := some false, c := some r.2 }

/-- RLCA, RRCA, RLA, RRA: as the CB operation, but Z = 0 always (R291-R294). -/
def rotAResult (op : RotOp) (v : Byte) (cin : Bool) : Result8 :=
  { rotResult op v cin with z := some false }

/-- BIT n: the operand is not written; Z = 1 iff the bit is 0, C unchanged (R303). -/
def bitResult (n : Fin 8) (v : Byte) : Result8 :=
  { value := v, z := some (!bitOf v n.val), n := some false, h := some true, c := none }

/-- RES n (R304). -/
def resValue (n : Fin 8) (v : Byte) : Byte := v &&& ~~~(1#8 <<< n.val)

/-- SET n (R305). -/
def setValue (n : Fin 8) (v : Byte) : Byte := v ||| 1#8 <<< n.val

end Sys2Proof.Machine
end

