-- ==== Sys2Proof/WellFormed.lean ====
section
/-! DEFINITION. Which terms of Instr are instructions that some byte sequence encodes. -/

namespace Sys2Proof

/-- The eleven opcodes with no instruction (spec/30_encoding.md R151). -/
def illegalOpcodes : List Byte :=
  [0xD3, 0xDB, 0xDD, 0xE3, 0xE4, 0xEB, 0xEC, 0xED, 0xF4, 0xFC, 0xFD]

/-- `illegal op` stands for one of the eleven illegal opcodes only, and the prefix byte is no instruction by itself:
the pair of 0xCB and the byte after it is (spec/45_system.md R345, R346). Every other term is an instruction, since
every value of an immediate is admitted (spec/30_encoding.md R145). -/
def Instr.wellFormed : Instr → Bool
  | .illegal op => illegalOpcodes.contains op
  | .prefixCb => false
  | _ => true

end Sys2Proof
end

