-- ==== Sys2Proof/Decode.lean ====
section
/-! DEFINITION. The decoder, total on every sequence of bytes, and the encoder written from the same opcode map
(spec/30_encoding.md R140-R154); the text of an instruction; the cycle counts of spec/70_reset_and_hazards.md R540;
the instructions of one shape under one name (`Instr.loadRR d r` and so on), as the rules of spec/40_load.md to
spec/45_system.md group them. -/

namespace Sys2Proof

/-! ## The opcode map -/

/-- Row 0x of the base opcode map, `lo` the column (spec/30_encoding.md R150). -/
def baseRow0 (lo : Nat) (b1 b2 : Byte) : Instr :=
  match lo with
  | 0x0 => .nop
  | 0x1 => .ldBCImm (mk16 b2 b1)
  | 0x2 => .ldAtBCA
  | 0x3 => .incBC
  | 0x4 => .incB
  | 0x5 => .decB
  | 0x6 => .ldBImm b1
  | 0x7 => .rlca
  | 0x8 => .ldAt16SP (mk16 b2 b1)
  | 0x9 => .addHLBC
  | 0xA => .ldAAtBC
  | 0xB => .decBC
  | 0xC => .incC
  | 0xD => .decC
  | 0xE => .ldCImm b1
  | _ => .rrca

/-- Row 1x of the base opcode map, `lo` the column (spec/30_encoding.md R150). -/
def baseRow1 (lo : Nat) (b1 b2 : Byte) : Instr :=
  match lo with
  | 0x0 => .stop
  | 0x1 => .ldDEImm (mk16 b2 b1)
  | 0x2 => .ldAtDEA
  | 0x3 => .incDE
  | 0x4 => .incD
  | 0x5 => .decD
  | 0x6 => .ldDImm b1
  | 0x7 => .rla
  | 0x8 => .jr b1
  | 0x9 => .addHLDE
  | 0xA => .ldAAtDE
  | 0xB => .decDE
  | 0xC => .incE
  | 0xD => .decE
  | 0xE => .ldEImm b1
  | _ => .rra

/-- Row 2x of the base opcode map, `lo` the column (spec/30_encoding.md R150). -/
def baseRow2 (lo : Nat) (b1 b2 : Byte) : Instr :=
  match lo with
  | 0x0 => .jrNZ b1
  | 0x1 => .ldHLImm (mk16 b2 b1)
  | 0x2 => .ldAtHLIncA
  | 0x3 => .incHL
  | 0x4 => .incH
  | 0x5 => .decH
  | 0x6 => .ldHImm b1
  | 0x7 => .daa
  | 0x8 => .jrZ b1
  | 0x9 => .addHLHL
  | 0xA => .ldAAtHLInc
  | 0xB => .decHL
  | 0xC => .incL
  | 0xD => .decL
  | 0xE => .ldLImm b1
  | _ => .cpl

/-- Row 3x of the base opcode map, `lo` the column (spec/30_encoding.md R150). -/
def baseRow3 (lo : Nat) (b1 b2 : Byte) : Instr :=
  match lo with
  | 0x0 => .jrNC b1
  | 0x1 => .ldSPImm (mk16 b2 b1)
  | 0x2 => .ldAtHLDecA
  | 0x3 => .incSP
  | 0x4 => .incAtHL
  | 0x5 => .decAtHL
  | 0x6 => .ldAtHLImm b1
  | 0x7 => .scf
  | 0x8 => .jrC b1
  | 0x9 => .addHLSP
  | 0xA => .ldAAtHLDec
  | 0xB => .decSP
  | 0xC => .incA
  | 0xD => .decA
  | 0xE => .ldAImm b1
  | _ => .ccf

/-- Row 4x of the base opcode map, `lo` the column (spec/30_encoding.md R150). -/
def baseRow4 (lo : Nat) (_b1 _b2 : Byte) : Instr :=
  match lo with
  | 0x0 => .ldBB
  | 0x1 => .ldBC
  | 0x2 => .ldBD
  | 0x3 => .ldBE
  | 0x4 => .ldBH
  | 0x5 => .ldBL
  | 0x6 => .ldBAtHL
  | 0x7 => .ldBA
  | 0x8 => .ldCB
  | 0x9 => .ldCC
  | 0xA => .ldCD
  | 0xB => .ldCE
  | 0xC => .ldCH
  | 0xD => .ldCL
  | 0xE => .ldCAtHL
  | _ => .ldCA

/-- Row 5x of the base opcode map, `lo` the column (spec/30_encoding.md R150). -/
def baseRow5 (lo : Nat) (_b1 _b2 : Byte) : Instr :=
  match lo with
  | 0x0 => .ldDB
  | 0x1 => .ldDC
  | 0x2 => .ldDD
  | 0x3 => .ldDE
  | 0x4 => .ldDH
  | 0x5 => .ldDL
  | 0x6 => .ldDAtHL
  | 0x7 => .ldDA
  | 0x8 => .ldEB
  | 0x9 => .ldEC
  | 0xA => .ldED
  | 0xB => .ldEE
  | 0xC => .ldEH
  | 0xD => .ldEL
  | 0xE => .ldEAtHL
  | _ => .ldEA

/-- Row 6x of the base opcode map, `lo` the column (spec/30_encoding.md R150). -/
def baseRow6 (lo : Nat) (_b1 _b2 : Byte) : Instr :=
  match lo with
  | 0x0 => .ldHB
  | 0x1 => .ldHC
  | 0x2 => .ldHD
  | 0x3 => .ldHE
  | 0x4 => .ldHH
  | 0x5 => .ldHL
  | 0x6 => .ldHAtHL
  | 0x7 => .ldHA
  | 0x8 => .ldLB
  | 0x9 => .ldLC
  | 0xA => .ldLD
  | 0xB => .ldLE
  | 0xC => .ldLH
  | 0xD => .ldLL
  | 0xE => .ldLAtHL
  | _ => .ldLA

/-- Row 7x of the base opcode map, `lo` the column (spec/30_encoding.md R150). -/
def baseRow7 (lo : Nat) (_b1 _b2 : Byte) : Instr :=
  match lo with
  | 0x0 => .ldAtHLB
  | 0x1 => .ldAtHLC
  | 0x2 => .ldAtHLD
  | 0x3 => .ldAtHLE
  | 0x4 => .ldAtHLH
  | 0x5 => .ldAtHLL
  | 0x6 => .halt
  | 0x7 => .ldAtHLA
  | 0x8 => .ldAB
  | 0x9 => .ldAC
  | 0xA => .ldAD
  | 0xB => .ldAE
  | 0xC => .ldAH
  | 0xD => .ldAL
  | 0xE => .ldAAtHL
  | _ => .ldAA

/-- Row 8x of the base opcode map, `lo` the column (spec/30_encoding.md R150). -/
def baseRow8 (lo : Nat) (_b1 _b2 : Byte) : Instr :=
  match lo with
  | 0x0 => .addAB
  | 0x1 => .addAC
  | 0x2 => .addAD
  | 0x3 => .addAE
  | 0x4 => .addAH
  | 0x5 => .addAL
  | 0x6 => .addAAtHL
  | 0x7 => .addAA
  | 0x8 => .adcAB
  | 0x9 => .adcAC
  | 0xA => .adcAD
  | 0xB => .adcAE
  | 0xC => .adcAH
  | 0xD => .adcAL
  | 0xE => .adcAAtHL
  | _ => .adcAA

/-- Row 9x of the base opcode map, `lo` the column (spec/30_encoding.md R150). -/
def baseRow9 (lo : Nat) (_b1 _b2 : Byte) : Instr :=
  match lo with
  | 0x0 => .subB
  | 0x1 => .subC
  | 0x2 => .subD
  | 0x3 => .subE
  | 0x4 => .subH
  | 0x5 => .subL
  | 0x6 => .subAtHL
  | 0x7 => .subA
  | 0x8 => .sbcAB
  | 0x9 => .sbcAC
  | 0xA => .sbcAD
  | 0xB => .sbcAE
  | 0xC => .sbcAH
  | 0xD => .sbcAL
  | 0xE => .sbcAAtHL
  | _ => .sbcAA

/-- Row Ax of the base opcode map, `lo` the column (spec/30_encoding.md R150). -/
def baseRowA (lo : Nat) (_b1 _b2 : Byte) : Instr :=
  match lo with
  | 0x0 => .andB
  | 0x1 => .andC
  | 0x2 => .andD
  | 0x3 => .andE
  | 0x4 => .andH
  | 0x5 => .andL
  | 0x6 => .andAtHL
  | 0x7 => .andA
  | 0x8 => .xorB
  | 0x9 => .xorC
  | 0xA => .xorD
  | 0xB => .xorE
  | 0xC => .xorH
  | 0xD => .xorL
  | 0xE => .xorAtHL
  | _ => .xorA

/-- Row Bx of the base opcode map, `lo` the column (spec/30_encoding.md R150). -/
def baseRowB (lo : Nat) (_b1 _b2 : Byte) : Instr :=
  match lo with
  | 0x0 => .orB
  | 0x1 => .orC
  | 0x2 => .orD
  | 0x3 => .orE
  | 0x4 => .orH
  | 0x5 => .orL
  | 0x6 => .orAtHL
  | 0x7 => .orA
  | 0x8 => .cpB
  | 0x9 => .cpC
  | 0xA => .cpD
  | 0xB => .cpE
  | 0xC => .cpH
  | 0xD => .cpL
  | 0xE => .cpAtHL
  | _ => .cpA

/-- Row Cx of the base opcode map, `lo` the column (spec/30_encoding.md R150). -/
def baseRowC (lo : Nat) (b1 b2 : Byte) : Instr :=
  match lo with
  | 0x0 => .retNZ
  | 0x1 => .popBC
  | 0x2 => .jpNZ (mk16 b2 b1)
  | 0x3 => .jp (mk16 b2 b1)
  | 0x4 => .callNZ (mk16 b2 b1)
  | 0x5 => .pushBC
  | 0x6 => .addAImm b1
  | 0x7 => .rst00
  | 0x8 => .retZ
  | 0x9 => .ret
  | 0xA => .jpZ (mk16 b2 b1)
  | 0xB => .prefixCb
  | 0xC => .callZ (mk16 b2 b1)
  | 0xD => .call (mk16 b2 b1)
  | 0xE => .adcAImm b1
  | _ => .rst08

/-- Row Dx of the base opcode map, `lo` the column (spec/30_encoding.md R150). -/
def baseRowD (lo : Nat) (b1 b2 : Byte) : Instr :=
  match lo with
  | 0x0 => .retNC
  | 0x1 => .popDE
  | 0x2 => .jpNC (mk16 b2 b1)
  | 0x3 => .illegal 0xD3
  | 0x4 => .callNC (mk16 b2 b1)
  | 0x5 => .pushDE
  | 0x6 => .subImm b1
  | 0x7 => .rst10
  | 0x8 => .retC
  | 0x9 => .reti
  | 0xA => .jpC (mk16 b2 b1)
  | 0xB => .illegal 0xDB
  | 0xC => .callC (mk16 b2 b1)
  | 0xD => .illegal 0xDD
  | 0xE => .sbcAImm b1
  | _ => .rst18

/-- Row Ex of the base opcode map, `lo` the column (spec/30_encoding.md R150). -/
def baseRowE (lo : Nat) (b1 b2 : Byte) : Instr :=
  match lo with
  | 0x0 => .ldhAt8A b1
  | 0x1 => .popHL
  | 0x2 => .ldAtCA
  | 0x3 => .illegal 0xE3
  | 0x4 => .illegal 0xE4
  | 0x5 => .pushHL
  | 0x6 => .andImm b1
  | 0x7 => .rst20
  | 0x8 => .addSPe b1
  | 0x9 => .jpHL
  | 0xA => .ldAt16A (mk16 b2 b1)
  | 0xB => .illegal 0xEB
  | 0xC => .illegal 0xEC
  | 0xD => .illegal 0xED
  | 0xE => .xorImm b1
  | _ => .rst28

/-- Row Fx of the base opcode map, `lo` the column (spec/30_encoding.md R150). -/
def baseRowF (lo : Nat) (b1 b2 : Byte) : Instr :=
  match lo with
  | 0x0 => .ldhAAt8 b1
  | 0x1 => .popAF
  | 0x2 => .ldAAtC
  | 0x3 => .di
  | 0x4 => .illegal 0xF4
  | 0x5 => .pushAF
  | 0x6 => .orImm b1
  | 0x7 => .rst30
  | 0x8 => .ldHLSPe b1
  | 0x9 => .ldSPHL
  | 0xA => .ldAAt16 (mk16 b2 b1)
  | 0xB => .ei
  | 0xC => .illegal 0xFC
  | 0xD => .illegal 0xFD
  | 0xE => .cpImm b1
  | _ => .rst38

/-- The instruction of a base opcode with the bytes that follow it, the first byte of a 16-bit immediate being its low
byte (spec/30_encoding.md R145, R150). -/
def decodeBase (op b1 b2 : Byte) : Instr :=
  let lo := op.toNat % 16
  match op.toNat / 16 with
  | 0x0 => baseRow0 lo b1 b2
  | 0x1 => baseRow1 lo b1 b2
  | 0x2 => baseRow2 lo b1 b2
  | 0x3 => baseRow3 lo b1 b2
  | 0x4 => baseRow4 lo b1 b2
  | 0x5 => baseRow5 lo b1 b2
  | 0x6 => baseRow6 lo b1 b2
  | 0x7 => baseRow7 lo b1 b2
  | 0x8 => baseRow8 lo b1 b2
  | 0x9 => baseRow9 lo b1 b2
  | 0xA => baseRowA lo b1 b2
  | 0xB => baseRowB lo b1 b2
  | 0xC => baseRowC lo b1 b2
  | 0xD => baseRowD lo b1 b2
  | 0xE => baseRowE lo b1 b2
  | _ => baseRowF lo b1 b2

/-- Row 0x of the CB opcode map, `lo` the column (spec/30_encoding.md R152). -/
def cbRow0 (lo : Nat) : Instr :=
  match lo with
  | 0x0 => .rlcB
  | 0x1 => .rlcC
  | 0x2 => .rlcD
  | 0x3 => .rlcE
  | 0x4 => .rlcH
  | 0x5 => .rlcL
  | 0x6 => .rlcAtHL
  | 0x7 => .rlcA
  | 0x8 => .rrcB
  | 0x9 => .rrcC
  | 0xA => .rrcD
  | 0xB => .rrcE
  | 0xC => .rrcH
  | 0xD => .rrcL
  | 0xE => .rrcAtHL
  | _ => .rrcA

/-- Row 1x of the CB opcode map, `lo` the column (spec/30_encoding.md R152). -/
def cbRow1 (lo : Nat) : Instr :=
  match lo with
  | 0x0 => .rlB
  | 0x1 => .rlC
  | 0x2 => .rlD
  | 0x3 => .rlE
  | 0x4 => .rlH
  | 0x5 => .rlL
  | 0x6 => .rlAtHL
  | 0x7 => .rlA
  | 0x8 => .rrB
  | 0x9 => .rrC
  | 0xA => .rrD
  | 0xB => .rrE
  | 0xC => .rrH
  | 0xD => .rrL
  | 0xE => .rrAtHL
  | _ => .rrA

/-- Row 2x of the CB opcode map, `lo` the column (spec/30_encoding.md R152). -/
def cbRow2 (lo : Nat) : Instr :=
  match lo with
  | 0x0 => .slaB
  | 0x1 => .slaC
  | 0x2 => .slaD
  | 0x3 => .slaE
  | 0x4 => .slaH
  | 0x5 => .slaL
  | 0x6 => .slaAtHL
  | 0x7 => .slaA
  | 0x8 => .sraB
  | 0x9 => .sraC
  | 0xA => .sraD
  | 0xB => .sraE
  | 0xC => .sraH
  | 0xD => .sraL
  | 0xE => .sraAtHL
  | _ => .sraA

/-- Row 3x of the CB opcode map, `lo` the column (spec/30_encoding.md R152). -/
def cbRow3 (lo : Nat) : Instr :=
  match lo with
  | 0x0 => .swapB
  | 0x1 => .swapC
  | 0x2 => .swapD
  | 0x3 => .swapE
  | 0x4 => .swapH
  | 0x5 => .swapL
  | 0x6 => .swapAtHL
  | 0x7 => .swapA
  | 0x8 => .srlB
  | 0x9 => .srlC
  | 0xA => .srlD
  | 0xB => .srlE
  | 0xC => .srlH
  | 0xD => .srlL
  | 0xE => .srlAtHL
  | _ => .srlA

/-- Row 4x of the CB opcode map, `lo` the column (spec/30_encoding.md R152). -/
def cbRow4 (lo : Nat) : Instr :=
  match lo with
  | 0x0 => .bit0B
  | 0x1 => .bit0C
  | 0x2 => .bit0D
  | 0x3 => .bit0E
  | 0x4 => .bit0H
  | 0x5 => .bit0L
  | 0x6 => .bit0AtHL
  | 0x7 => .bit0A
  | 0x8 => .bit1B
  | 0x9 => .bit1C
  | 0xA => .bit1D
  | 0xB => .bit1E
  | 0xC => .bit1H
  | 0xD => .bit1L
  | 0xE => .bit1AtHL
  | _ => .bit1A

/-- Row 5x of the CB opcode map, `lo` the column (spec/30_encoding.md R152). -/
def cbRow5 (lo : Nat) : Instr :=
  match lo with
  | 0x0 => .bit2B
  | 0x1 => .bit2C
  | 0x2 => .bit2D
  | 0x3 => .bit2E
  | 0x4 => .bit2H
  | 0x5 => .bit2L
  | 0x6 => .bit2AtHL
  | 0x7 => .bit2A
  | 0x8 => .bit3B
  | 0x9 => .bit3C
  | 0xA => .bit3D
  | 0xB => .bit3E
  | 0xC => .bit3H
  | 0xD => .bit3L
  | 0xE => .bit3AtHL
  | _ => .bit3A

/-- Row 6x of the CB opcode map, `lo` the column (spec/30_encoding.md R152). -/
def cbRow6 (lo : Nat) : Instr :=
  match lo with
  | 0x0 => .bit4B
  | 0x1 => .bit4C
  | 0x2 => .bit4D
  | 0x3 => .bit4E
  | 0x4 => .bit4H
  | 0x5 => .bit4L
  | 0x6 => .bit4AtHL
  | 0x7 => .bit4A
  | 0x8 => .bit5B
  | 0x9 => .bit5C
  | 0xA => .bit5D
  | 0xB => .bit5E
  | 0xC => .bit5H
  | 0xD => .bit5L
  | 0xE => .bit5AtHL
  | _ => .bit5A

/-- Row 7x of the CB opcode map, `lo` the column (spec/30_encoding.md R152). -/
def cbRow7 (lo : Nat) : Instr :=
  match lo with
  | 0x0 => .bit6B
  | 0x1 => .bit6C
  | 0x2 => .bit6D
  | 0x3 => .bit6E
  | 0x4 => .bit6H
  | 0x5 => .bit6L
  | 0x6 => .bit6AtHL
  | 0x7 => .bit6A
  | 0x8 => .bit7B
  | 0x9 => .bit7C
  | 0xA => .bit7D
  | 0xB => .bit7E
  | 0xC => .bit7H
  | 0xD => .bit7L
  | 0xE => .bit7AtHL
  | _ => .bit7A

/-- Row 8x of the CB opcode map, `lo` the column (spec/30_encoding.md R152). -/
def cbRow8 (lo : Nat) : Instr :=
  match lo with
  | 0x0 => .res0B
  | 0x1 => .res0C
  | 0x2 => .res0D
  | 0x3 => .res0E
  | 0x4 => .res0H
  | 0x5 => .res0L
  | 0x6 => .res0AtHL
  | 0x7 => .res0A
  | 0x8 => .res1B
  | 0x9 => .res1C
  | 0xA => .res1D
  | 0xB => .res1E
  | 0xC => .res1H
  | 0xD => .res1L
  | 0xE => .res1AtHL
  | _ => .res1A

/-- Row 9x of the CB opcode map, `lo` the column (spec/30_encoding.md R152). -/
def cbRow9 (lo : Nat) : Instr :=
  match lo with
  | 0x0 => .res2B
  | 0x1 => .res2C
  | 0x2 => .res2D
  | 0x3 => .res2E
  | 0x4 => .res2H
  | 0x5 => .res2L
  | 0x6 => .res2AtHL
  | 0x7 => .res2A
  | 0x8 => .res3B
  | 0x9 => .res3C
  | 0xA => .res3D
  | 0xB => .res3E
  | 0xC => .res3H
  | 0xD => .res3L
  | 0xE => .res3AtHL
  | _ => .res3A

/-- Row Ax of the CB opcode map, `lo` the column (spec/30_encoding.md R152). -/
def cbRowA (lo : Nat) : Instr :=
  match lo with
  | 0x0 => .res4B
  | 0x1 => .res4C
  | 0x2 => .res4D
  | 0x3 => .res4E
  | 0x4 => .res4H
  | 0x5 => .res4L
  | 0x6 => .res4AtHL
  | 0x7 => .res4A
  | 0x8 => .res5B
  | 0x9 => .res5C
  | 0xA => .res5D
  | 0xB => .res5E
  | 0xC => .res5H
  | 0xD => .res5L
  | 0xE => .res5AtHL
  | _ => .res5A

/-- Row Bx of the CB opcode map, `lo` the column (spec/30_encoding.md R152). -/
def cbRowB (lo : Nat) : Instr :=
  match lo with
  | 0x0 => .res6B
  | 0x1 => .res6C
  | 0x2 => .res6D
  | 0x3 => .res6E
  | 0x4 => .res6H
  | 0x5 => .res6L
  | 0x6 => .res6AtHL
  | 0x7 => .res6A
  | 0x8 => .res7B
  | 0x9 => .res7C
  | 0xA => .res7D
  | 0xB => .res7E
  | 0xC => .res7H
  | 0xD => .res7L
  | 0xE => .res7AtHL
  | _ => .res7A

/-- Row Cx of the CB opcode map, `lo` the column (spec/30_encoding.md R152). -/
def cbRowC (lo : Nat) : Instr :=
  match lo with
  | 0x0 => .set0B
  | 0x1 => .set0C
  | 0x2 => .set0D
  | 0x3 => .set0E
  | 0x4 => .set0H
  | 0x5 => .set0L
  | 0x6 => .set0AtHL
  | 0x7 => .set0A
  | 0x8 => .set1B
  | 0x9 => .set1C
  | 0xA => .set1D
  | 0xB => .set1E
  | 0xC => .set1H
  | 0xD => .set1L
  | 0xE => .set1AtHL
  | _ => .set1A

/-- Row Dx of the CB opcode map, `lo` the column (spec/30_encoding.md R152). -/
def cbRowD (lo : Nat) : Instr :=
  match lo with
  | 0x0 => .set2B
  | 0x1 => .set2C
  | 0x2 => .set2D
  | 0x3 => .set2E
  | 0x4 => .set2H
  | 0x5 => .set2L
  | 0x6 => .set2AtHL
  | 0x7 => .set2A
  | 0x8 => .set3B
  | 0x9 => .set3C
  | 0xA => .set3D
  | 0xB => .set3E
  | 0xC => .set3H
  | 0xD => .set3L
  | 0xE => .set3AtHL
  | _ => .set3A

/-- Row Ex of the CB opcode map, `lo` the column (spec/30_encoding.md R152). -/
def cbRowE (lo : Nat) : Instr :=
  match lo with
  | 0x0 => .set4B
  | 0x1 => .set4C
  | 0x2 => .set4D
  | 0x3 => .set4E
  | 0x4 => .set4H
  | 0x5 => .set4L
  | 0x6 => .set4AtHL
  | 0x7 => .set4A
  | 0x8 => .set5B
  | 0x9 => .set5C
  | 0xA => .set5D
  | 0xB => .set5E
  | 0xC => .set5H
  | 0xD => .set5L
  | 0xE => .set5AtHL
  | _ => .set5A

/-- Row Fx of the CB opcode map, `lo` the column (spec/30_encoding.md R152). -/
def cbRowF (lo : Nat) : Instr :=
  match lo with
  | 0x0 => .set6B
  | 0x1 => .set6C
  | 0x2 => .set6D
  | 0x3 => .set6E
  | 0x4 => .set6H
  | 0x5 => .set6L
  | 0x6 => .set6AtHL
  | 0x7 => .set6A
  | 0x8 => .set7B
  | 0x9 => .set7C
  | 0xA => .set7D
  | 0xB => .set7E
  | 0xC => .set7H
  | 0xD => .set7L
  | 0xE => .set7AtHL
  | _ => .set7A

/-- The instruction of the byte after 0xCB (spec/30_encoding.md R152). -/
def decodeCb (b : Byte) : Instr :=
  let lo := b.toNat % 16
  match b.toNat / 16 with
  | 0x0 => cbRow0 lo
  | 0x1 => cbRow1 lo
  | 0x2 => cbRow2 lo
  | 0x3 => cbRow3 lo
  | 0x4 => cbRow4 lo
  | 0x5 => cbRow5 lo
  | 0x6 => cbRow6 lo
  | 0x7 => cbRow7 lo
  | 0x8 => cbRow8 lo
  | 0x9 => cbRow9 lo
  | 0xA => cbRowA lo
  | 0xB => cbRowB lo
  | 0xC => cbRowC lo
  | 0xD => cbRowD lo
  | 0xE => cbRowE lo
  | _ => cbRowF lo

/-- The opcodes followed by one byte: the F2 rows of the table and the prefix 0xCB, less STOP, whose second byte this
machine does not fetch (spec/30_encoding.md R140, spec/45_system.md R342; log 9). -/
def twoByteOpcodes : List Byte :=
  [0x06, 0x0E, 0x16, 0x18, 0x1E, 0x20, 0x26, 0x28, 0x2E, 0x30, 0x36, 0x38, 0x3E, 0xC6, 0xCB, 0xCE, 0xD6, 0xDE, 0xE0, 0xE6, 0xE8, 0xEE, 0xF0, 0xF6, 0xF8, 0xFE]

/-- The opcodes followed by two bytes: the F3 rows of the table (spec/30_encoding.md R140). -/
def threeByteOpcodes : List Byte :=
  [0x01, 0x08, 0x11, 0x21, 0x31, 0xC2, 0xC3, 0xC4, 0xCA, 0xCC, 0xCD, 0xD2, 0xD4, 0xDA, 0xDC, 0xEA, 0xFA]

/-- How many bytes the instruction that begins with `op` has: a function of the first byte alone
(spec/30_encoding.md R140). -/
def instrLength (op : Byte) : Nat :=
  if twoByteOpcodes.contains op then 2 else if threeByteOpcodes.contains op then 3 else 1

/-- The instruction of a first byte and the bytes that follow it; bytes past the instruction's length are not read
(spec/30_encoding.md R140, R160 step 2). -/
def decodeBytes (op b1 b2 : Byte) : Instr :=
  if op = 0xCB then decodeCb b1 else decodeBase op b1 b2

/-! ## Decoding a sequence of bytes -/

/-- Why a sequence of bytes is no instruction. Bytes that begin one of the eleven illegal opcodes decode, to `illegal`,
whose meaning is the fatal decode error. -/
inductive DecodeError where
  /-- There is no byte. -/
  | noBytes
  /-- The instruction that begins with `op` has more bytes than there are. -/
  | truncated (op : Byte)
  deriving DecidableEq, Repr

/-- The first instruction of a sequence of bytes and the bytes after it (spec/30_encoding.md R140). -/
def decode : List Byte → Except DecodeError (Instr × List Byte)
  | [] => .error .noBytes
  | op :: rest =>
    match instrLength op, rest with
    | 1, rest => .ok (decodeBytes op 0 0, rest)
    | 2, b1 :: rest => .ok (decodeBytes op b1 0, rest)
    | 3, b1 :: b2 :: rest => .ok (decodeBytes op b1 b2, rest)
    | _, _ => .error (.truncated op)

/-! ## Encoding -/

/-- The bytes of an instruction: opcode, then the immediate with its low byte first, or 0xCB and the CB opcode
(spec/30_encoding.md R140, R145, R150, R152). -/
def encode : Instr → List Byte
  | .nop => [0x00]
  | .ldBCImm nn => [0x01, loByte nn, hiByte nn]
  | .ldAtBCA => [0x02]
  | .incBC => [0x03]
  | .incB => [0x04]
  | .decB => [0x05]
  | .ldBImm n => [0x06, n]
  | .rlca => [0x07]
  | .ldAt16SP nn => [0x08, loByte nn, hiByte nn]
  | .addHLBC => [0x09]
  | .ldAAtBC => [0x0A]
  | .decBC => [0x0B]
  | .incC => [0x0C]
  | .decC => [0x0D]
  | .ldCImm n => [0x0E, n]
  | .rrca => [0x0F]
  | .stop => [0x10]
  | .ldDEImm nn => [0x11, loByte nn, hiByte nn]
  | .ldAtDEA => [0x12]
  | .incDE => [0x13]
  | .incD => [0x14]
  | .decD => [0x15]
  | .ldDImm n => [0x16, n]
  | .rla => [0x17]
  | .jr e => [0x18, e]
  | .addHLDE => [0x19]
  | .ldAAtDE => [0x1A]
  | .decDE => [0x1B]
  | .incE => [0x1C]
  | .decE => [0x1D]
  | .ldEImm n => [0x1E, n]
  | .rra => [0x1F]
  | .jrNZ e => [0x20, e]
  | .ldHLImm nn => [0x21, loByte nn, hiByte nn]
  | .ldAtHLIncA => [0x22]
  | .incHL => [0x23]
  | .incH => [0x24]
  | .decH => [0x25]
  | .ldHImm n => [0x26, n]
  | .daa => [0x27]
  | .jrZ e => [0x28, e]
  | .addHLHL => [0x29]
  | .ldAAtHLInc => [0x2A]
  | .decHL => [0x2B]
  | .incL => [0x2C]
  | .decL => [0x2D]
  | .ldLImm n => [0x2E, n]
  | .cpl => [0x2F]
  | .jrNC e => [0x30, e]
  | .ldSPImm nn => [0x31, loByte nn, hiByte nn]
  | .ldAtHLDecA => [0x32]
  | .incSP => [0x33]
  | .incAtHL => [0x34]
  | .decAtHL => [0x35]
  | .ldAtHLImm n => [0x36, n]
  | .scf => [0x37]
  | .jrC e => [0x38, e]
  | .addHLSP => [0x39]
  | .ldAAtHLDec => [0x3A]
  | .decSP => [0x3B]
  | .incA => [0x3C]
  | .decA => [0x3D]
  | .ldAImm n => [0x3E, n]
  | .ccf => [0x3F]
  | .ldBB => [0x40]
  | .ldBC => [0x41]
  | .ldBD => [0x42]
  | .ldBE => [0x43]
  | .ldBH => [0x44]
  | .ldBL => [0x45]
  | .ldBAtHL => [0x46]
  | .ldBA => [0x47]
  | .ldCB => [0x48]
  | .ldCC => [0x49]
  | .ldCD => [0x4A]
  | .ldCE => [0x4B]
  | .ldCH => [0x4C]
  | .ldCL => [0x4D]
  | .ldCAtHL => [0x4E]
  | .ldCA => [0x4F]
  | .ldDB => [0x50]
  | .ldDC => [0x51]
  | .ldDD => [0x52]
  | .ldDE => [0x53]
  | .ldDH => [0x54]
  | .ldDL => [0x55]
  | .ldDAtHL => [0x56]
  | .ldDA => [0x57]
  | .ldEB => [0x58]
  | .ldEC => [0x59]
  | .ldED => [0x5A]
  | .ldEE => [0x5B]
  | .ldEH => [0x5C]
  | .ldEL => [0x5D]
  | .ldEAtHL => [0x5E]
  | .ldEA => [0x5F]
  | .ldHB => [0x60]
  | .ldHC => [0x61]
  | .ldHD => [0x62]
  | .ldHE => [0x63]
  | .ldHH => [0x64]
  | .ldHL => [0x65]
  | .ldHAtHL => [0x66]
  | .ldHA => [0x67]
  | .ldLB => [0x68]
  | .ldLC => [0x69]
  | .ldLD => [0x6A]
  | .ldLE => [0x6B]
  | .ldLH => [0x6C]
  | .ldLL => [0x6D]
  | .ldLAtHL => [0x6E]
  | .ldLA => [0x6F]
  | .ldAtHLB => [0x70]
  | .ldAtHLC => [0x71]
  | .ldAtHLD => [0x72]
  | .ldAtHLE => [0x73]
  | .ldAtHLH => [0x74]
  | .ldAtHLL => [0x75]
  | .halt => [0x76]
  | .ldAtHLA => [0x77]
  | .ldAB => [0x78]
  | .ldAC => [0x79]
  | .ldAD => [0x7A]
  | .ldAE => [0x7B]
  | .ldAH => [0x7C]
  | .ldAL => [0x7D]
  | .ldAAtHL => [0x7E]
  | .ldAA => [0x7F]
  | .addAB => [0x80]
  | .addAC => [0x81]
  | .addAD => [0x82]
  | .addAE => [0x83]
  | .addAH => [0x84]
  | .addAL => [0x85]
  | .addAAtHL => [0x86]
  | .addAA => [0x87]
  | .adcAB => [0x88]
  | .adcAC => [0x89]
  | .adcAD => [0x8A]
  | .adcAE => [0x8B]
  | .adcAH => [0x8C]
  | .adcAL => [0x8D]
  | .adcAAtHL => [0x8E]
  | .adcAA => [0x8F]
  | .subB => [0x90]
  | .subC => [0x91]
  | .subD => [0x92]
  | .subE => [0x93]
  | .subH => [0x94]
  | .subL => [0x95]
  | .subAtHL => [0x96]
  | .subA => [0x97]
  | .sbcAB => [0x98]
  | .sbcAC => [0x99]
  | .sbcAD => [0x9A]
  | .sbcAE => [0x9B]
  | .sbcAH => [0x9C]
  | .sbcAL => [0x9D]
  | .sbcAAtHL => [0x9E]
  | .sbcAA => [0x9F]
  | .andB => [0xA0]
  | .andC => [0xA1]
  | .andD => [0xA2]
  | .andE => [0xA3]
  | .andH => [0xA4]
  | .andL => [0xA5]
  | .andAtHL => [0xA6]
  | .andA => [0xA7]
  | .xorB => [0xA8]
  | .xorC => [0xA9]
  | .xorD => [0xAA]
  | .xorE => [0xAB]
  | .xorH => [0xAC]
  | .xorL => [0xAD]
  | .xorAtHL => [0xAE]
  | .xorA => [0xAF]
  | .orB => [0xB0]
  | .orC => [0xB1]
  | .orD => [0xB2]
  | .orE => [0xB3]
  | .orH => [0xB4]
  | .orL => [0xB5]
  | .orAtHL => [0xB6]
  | .orA => [0xB7]
  | .cpB => [0xB8]
  | .cpC => [0xB9]
  | .cpD => [0xBA]
  | .cpE => [0xBB]
  | .cpH => [0xBC]
  | .cpL => [0xBD]
  | .cpAtHL => [0xBE]
  | .cpA => [0xBF]
  | .retNZ => [0xC0]
  | .popBC => [0xC1]
  | .jpNZ nn => [0xC2, loByte nn, hiByte nn]
  | .jp nn => [0xC3, loByte nn, hiByte nn]
  | .callNZ nn => [0xC4, loByte nn, hiByte nn]
  | .pushBC => [0xC5]
  | .addAImm n => [0xC6, n]
  | .rst00 => [0xC7]
  | .retZ => [0xC8]
  | .ret => [0xC9]
  | .jpZ nn => [0xCA, loByte nn, hiByte nn]
  | .prefixCb => [0xCB]
  | .callZ nn => [0xCC, loByte nn, hiByte nn]
  | .call nn => [0xCD, loByte nn, hiByte nn]
  | .adcAImm n => [0xCE, n]
  | .rst08 => [0xCF]
  | .retNC => [0xD0]
  | .popDE => [0xD1]
  | .jpNC nn => [0xD2, loByte nn, hiByte nn]
  | .illegal op => [op]
  | .callNC nn => [0xD4, loByte nn, hiByte nn]
  | .pushDE => [0xD5]
  | .subImm n => [0xD6, n]
  | .rst10 => [0xD7]
  | .retC => [0xD8]
  | .reti => [0xD9]
  | .jpC nn => [0xDA, loByte nn, hiByte nn]
  | .callC nn => [0xDC, loByte nn, hiByte nn]
  | .sbcAImm n => [0xDE, n]
  | .rst18 => [0xDF]
  | .ldhAt8A n => [0xE0, n]
  | .popHL => [0xE1]
  | .ldAtCA => [0xE2]
  | .pushHL => [0xE5]
  | .andImm n => [0xE6, n]
  | .rst20 => [0xE7]
  | .addSPe e => [0xE8, e]
  | .jpHL => [0xE9]
  | .ldAt16A nn => [0xEA, loByte nn, hiByte nn]
  | .xorImm n => [0xEE, n]
  | .rst28 => [0xEF]
  | .ldhAAt8 n => [0xF0, n]
  | .popAF => [0xF1]
  | .ldAAtC => [0xF2]
  | .di => [0xF3]
  | .pushAF => [0xF5]
  | .orImm n => [0xF6, n]
  | .rst30 => [0xF7]
  | .ldHLSPe e => [0xF8, e]
  | .ldSPHL => [0xF9]
  | .ldAAt16 nn => [0xFA, loByte nn, hiByte nn]
  | .ei => [0xFB]
  | .cpImm n => [0xFE, n]
  | .rst38 => [0xFF]
  | .rlcB => [0xCB, 0x00]
  | .rlcC => [0xCB, 0x01]
  | .rlcD => [0xCB, 0x02]
  | .rlcE => [0xCB, 0x03]
  | .rlcH => [0xCB, 0x04]
  | .rlcL => [0xCB, 0x05]
  | .rlcAtHL => [0xCB, 0x06]
  | .rlcA => [0xCB, 0x07]
  | .rrcB => [0xCB, 0x08]
  | .rrcC => [0xCB, 0x09]
  | .rrcD => [0xCB, 0x0A]
  | .rrcE => [0xCB, 0x0B]
  | .rrcH => [0xCB, 0x0C]
  | .rrcL => [0xCB, 0x0D]
  | .rrcAtHL => [0xCB, 0x0E]
  | .rrcA => [0xCB, 0x0F]
  | .rlB => [0xCB, 0x10]
  | .rlC => [0xCB, 0x11]
  | .rlD => [0xCB, 0x12]
  | .rlE => [0xCB, 0x13]
  | .rlH => [0xCB, 0x14]
  | .rlL => [0xCB, 0x15]
  | .rlAtHL => [0xCB, 0x16]
  | .rlA => [0xCB, 0x17]
  | .rrB => [0xCB, 0x18]
  | .rrC => [0xCB, 0x19]
  | .rrD => [0xCB, 0x1A]
  | .rrE => [0xCB, 0x1B]
  | .rrH => [0xCB, 0x1C]
  | .rrL => [0xCB, 0x1D]
  | .rrAtHL => [0xCB, 0x1E]
  | .rrA => [0xCB, 0x1F]
  | .slaB => [0xCB, 0x20]
  | .slaC => [0xCB, 0x21]
  | .slaD => [0xCB, 0x22]
  | .slaE => [0xCB, 0x23]
  | .slaH => [0xCB, 0x24]
  | .slaL => [0xCB, 0x25]
  | .slaAtHL => [0xCB, 0x26]
  | .slaA => [0xCB, 0x27]
  | .sraB => [0xCB, 0x28]
  | .sraC => [0xCB, 0x29]
  | .sraD => [0xCB, 0x2A]
  | .sraE => [0xCB, 0x2B]
  | .sraH => [0xCB, 0x2C]
  | .sraL => [0xCB, 0x2D]
  | .sraAtHL => [0xCB, 0x2E]
  | .sraA => [0xCB, 0x2F]
  | .swapB => [0xCB, 0x30]
  | .swapC => [0xCB, 0x31]
  | .swapD => [0xCB, 0x32]
  | .swapE => [0xCB, 0x33]
  | .swapH => [0xCB, 0x34]
  | .swapL => [0xCB, 0x35]
  | .swapAtHL => [0xCB, 0x36]
  | .swapA => [0xCB, 0x37]
  | .srlB => [0xCB, 0x38]
  | .srlC => [0xCB, 0x39]
  | .srlD => [0xCB, 0x3A]
  | .srlE => [0xCB, 0x3B]
  | .srlH => [0xCB, 0x3C]
  | .srlL => [0xCB, 0x3D]
  | .srlAtHL => [0xCB, 0x3E]
  | .srlA => [0xCB, 0x3F]
  | .bit0B => [0xCB, 0x40]
  | .bit0C => [0xCB, 0x41]
  | .bit0D => [0xCB, 0x42]
  | .bit0E => [0xCB, 0x43]
  | .bit0H => [0xCB, 0x44]
  | .bit0L => [0xCB, 0x45]
  | .bit0AtHL => [0xCB, 0x46]
  | .bit0A => [0xCB, 0x47]
  | .bit1B => [0xCB, 0x48]
  | .bit1C => [0xCB, 0x49]
  | .bit1D => [0xCB, 0x4A]
  | .bit1E => [0xCB, 0x4B]
  | .bit1H => [0xCB, 0x4C]
  | .bit1L => [0xCB, 0x4D]
  | .bit1AtHL => [0xCB, 0x4E]
  | .bit1A => [0xCB, 0x4F]
  | .bit2B => [0xCB, 0x50]
  | .bit2C => [0xCB, 0x51]
  | .bit2D => [0xCB, 0x52]
  | .bit2E => [0xCB, 0x53]
  | .bit2H => [0xCB, 0x54]
  | .bit2L => [0xCB, 0x55]
  | .bit2AtHL => [0xCB, 0x56]
  | .bit2A => [0xCB, 0x57]
  | .bit3B => [0xCB, 0x58]
  | .bit3C => [0xCB, 0x59]
  | .bit3D => [0xCB, 0x5A]
  | .bit3E => [0xCB, 0x5B]
  | .bit3H => [0xCB, 0x5C]
  | .bit3L => [0xCB, 0x5D]
  | .bit3AtHL => [0xCB, 0x5E]
  | .bit3A => [0xCB, 0x5F]
  | .bit4B => [0xCB, 0x60]
  | .bit4C => [0xCB, 0x61]
  | .bit4D => [0xCB, 0x62]
  | .bit4E => [0xCB, 0x63]
  | .bit4H => [0xCB, 0x64]
  | .bit4L => [0xCB, 0x65]
  | .bit4AtHL => [0xCB, 0x66]
  | .bit4A => [0xCB, 0x67]
  | .bit5B => [0xCB, 0x68]
  | .bit5C => [0xCB, 0x69]
  | .bit5D => [0xCB, 0x6A]
  | .bit5E => [0xCB, 0x6B]
  | .bit5H => [0xCB, 0x6C]
  | .bit5L => [0xCB, 0x6D]
  | .bit5AtHL => [0xCB, 0x6E]
  | .bit5A => [0xCB, 0x6F]
  | .bit6B => [0xCB, 0x70]
  | .bit6C => [0xCB, 0x71]
  | .bit6D => [0xCB, 0x72]
  | .bit6E => [0xCB, 0x73]
  | .bit6H => [0xCB, 0x74]
  | .bit6L => [0xCB, 0x75]
  | .bit6AtHL => [0xCB, 0x76]
  | .bit6A => [0xCB, 0x77]
  | .bit7B => [0xCB, 0x78]
  | .bit7C => [0xCB, 0x79]
  | .bit7D => [0xCB, 0x7A]
  | .bit7E => [0xCB, 0x7B]
  | .bit7H => [0xCB, 0x7C]
  | .bit7L => [0xCB, 0x7D]
  | .bit7AtHL => [0xCB, 0x7E]
  | .bit7A => [0xCB, 0x7F]
  | .res0B => [0xCB, 0x80]
  | .res0C => [0xCB, 0x81]
  | .res0D => [0xCB, 0x82]
  | .res0E => [0xCB, 0x83]
  | .res0H => [0xCB, 0x84]
  | .res0L => [0xCB, 0x85]
  | .res0AtHL => [0xCB, 0x86]
  | .res0A => [0xCB, 0x87]
  | .res1B => [0xCB, 0x88]
  | .res1C => [0xCB, 0x89]
  | .res1D => [0xCB, 0x8A]
  | .res1E => [0xCB, 0x8B]
  | .res1H => [0xCB, 0x8C]
  | .res1L => [0xCB, 0x8D]
  | .res1AtHL => [0xCB, 0x8E]
  | .res1A => [0xCB, 0x8F]
  | .res2B => [0xCB, 0x90]
  | .res2C => [0xCB, 0x91]
  | .res2D => [0xCB, 0x92]
  | .res2E => [0xCB, 0x93]
  | .res2H => [0xCB, 0x94]
  | .res2L => [0xCB, 0x95]
  | .res2AtHL => [0xCB, 0x96]
  | .res2A => [0xCB, 0x97]
  | .res3B => [0xCB, 0x98]
  | .res3C => [0xCB, 0x99]
  | .res3D => [0xCB, 0x9A]
  | .res3E => [0xCB, 0x9B]
  | .res3H => [0xCB, 0x9C]
  | .res3L => [0xCB, 0x9D]
  | .res3AtHL => [0xCB, 0x9E]
  | .res3A => [0xCB, 0x9F]
  | .res4B => [0xCB, 0xA0]
  | .res4C => [0xCB, 0xA1]
  | .res4D => [0xCB, 0xA2]
  | .res4E => [0xCB, 0xA3]
  | .res4H => [0xCB, 0xA4]
  | .res4L => [0xCB, 0xA5]
  | .res4AtHL => [0xCB, 0xA6]
  | .res4A => [0xCB, 0xA7]
  | .res5B => [0xCB, 0xA8]
  | .res5C => [0xCB, 0xA9]
  | .res5D => [0xCB, 0xAA]
  | .res5E => [0xCB, 0xAB]
  | .res5H => [0xCB, 0xAC]
  | .res5L => [0xCB, 0xAD]
  | .res5AtHL => [0xCB, 0xAE]
  | .res5A => [0xCB, 0xAF]
  | .res6B => [0xCB, 0xB0]
  | .res6C => [0xCB, 0xB1]
  | .res6D => [0xCB, 0xB2]
  | .res6E => [0xCB, 0xB3]
  | .res6H => [0xCB, 0xB4]
  | .res6L => [0xCB, 0xB5]
  | .res6AtHL => [0xCB, 0xB6]
  | .res6A => [0xCB, 0xB7]
  | .res7B => [0xCB, 0xB8]
  | .res7C => [0xCB, 0xB9]
  | .res7D => [0xCB, 0xBA]
  | .res7E => [0xCB, 0xBB]
  | .res7H => [0xCB, 0xBC]
  | .res7L => [0xCB, 0xBD]
  | .res7AtHL => [0xCB, 0xBE]
  | .res7A => [0xCB, 0xBF]
  | .set0B => [0xCB, 0xC0]
  | .set0C => [0xCB, 0xC1]
  | .set0D => [0xCB, 0xC2]
  | .set0E => [0xCB, 0xC3]
  | .set0H => [0xCB, 0xC4]
  | .set0L => [0xCB, 0xC5]
  | .set0AtHL => [0xCB, 0xC6]
  | .set0A => [0xCB, 0xC7]
  | .set1B => [0xCB, 0xC8]
  | .set1C => [0xCB, 0xC9]
  | .set1D => [0xCB, 0xCA]
  | .set1E => [0xCB, 0xCB]
  | .set1H => [0xCB, 0xCC]
  | .set1L => [0xCB, 0xCD]
  | .set1AtHL => [0xCB, 0xCE]
  | .set1A => [0xCB, 0xCF]
  | .set2B => [0xCB, 0xD0]
  | .set2C => [0xCB, 0xD1]
  | .set2D => [0xCB, 0xD2]
  | .set2E => [0xCB, 0xD3]
  | .set2H => [0xCB, 0xD4]
  | .set2L => [0xCB, 0xD5]
  | .set2AtHL => [0xCB, 0xD6]
  | .set2A => [0xCB, 0xD7]
  | .set3B => [0xCB, 0xD8]
  | .set3C => [0xCB, 0xD9]
  | .set3D => [0xCB, 0xDA]
  | .set3E => [0xCB, 0xDB]
  | .set3H => [0xCB, 0xDC]
  | .set3L => [0xCB, 0xDD]
  | .set3AtHL => [0xCB, 0xDE]
  | .set3A => [0xCB, 0xDF]
  | .set4B => [0xCB, 0xE0]
  | .set4C => [0xCB, 0xE1]
  | .set4D => [0xCB, 0xE2]
  | .set4E => [0xCB, 0xE3]
  | .set4H => [0xCB, 0xE4]
  | .set4L => [0xCB, 0xE5]
  | .set4AtHL => [0xCB, 0xE6]
  | .set4A => [0xCB, 0xE7]
  | .set5B => [0xCB, 0xE8]
  | .set5C => [0xCB, 0xE9]
  | .set5D => [0xCB, 0xEA]
  | .set5E => [0xCB, 0xEB]
  | .set5H => [0xCB, 0xEC]
  | .set5L => [0xCB, 0xED]
  | .set5AtHL => [0xCB, 0xEE]
  | .set5A => [0xCB, 0xEF]
  | .set6B => [0xCB, 0xF0]
  | .set6C => [0xCB, 0xF1]
  | .set6D => [0xCB, 0xF2]
  | .set6E => [0xCB, 0xF3]
  | .set6H => [0xCB, 0xF4]
  | .set6L => [0xCB, 0xF5]
  | .set6AtHL => [0xCB, 0xF6]
  | .set6A => [0xCB, 0xF7]
  | .set7B => [0xCB, 0xF8]
  | .set7C => [0xCB, 0xF9]
  | .set7D => [0xCB, 0xFA]
  | .set7E => [0xCB, 0xFB]
  | .set7H => [0xCB, 0xFC]
  | .set7L => [0xCB, 0xFD]
  | .set7AtHL => [0xCB, 0xFE]
  | .set7A => [0xCB, 0xFF]

/-! ## The table's words -/

/-- The three bytes, in fetch order, of an instruction whose bits are `w` as spec/opcode_table.json numbers them. The
table writes a one-byte row's bits as its opcode and a CB row's sixteen bits as 0xCB00 + b, the prefix in the HIGH
byte, so a sixteen-bit word with 0xCB there is a CB row; every other word has its first byte lowest (log 8). -/
def tableBytes (nbits w : Nat) : Byte × Byte × Byte :=
  let w := w % 2 ^ nbits
  if nbits = 16 ∧ w / 256 = 0xCB then (0xCB, BitVec.ofNat 8 w, 0)
  else (BitVec.ofNat 8 w, BitVec.ofNat 8 (w / 256), BitVec.ofNat 8 (w / 65536))

/-- What the decoder reads from a word of spec/opcode_table.json, the bits above `nbits` being 0. -/
def decodeTableWord (nbits w : Nat) : Option Instr :=
  match tableBytes nbits w with
  | (op, b1, b2) =>
    match decode [op, b1, b2] with
    | .ok (i, _) => some i
    | .error _ => none

/-! ## Text -/

/-- The documented mnemonic and operand text of an instruction, immediates as their placeholders
(spec/30_encoding.md R154). -/
def Instr.text : Instr → String
  | .nop => "NOP"
  | .ldBCImm _ => "LD BC,d16"
  | .ldAtBCA => "LD (BC),A"
  | .incBC => "INC BC"
  | .incB => "INC B"
  | .decB => "DEC B"
  | .ldBImm _ => "LD B,d8"
  | .rlca => "RLCA"
  | .ldAt16SP _ => "LD (a16),SP"
  | .addHLBC => "ADD HL,BC"
  | .ldAAtBC => "LD A,(BC)"
  | .decBC => "DEC BC"
  | .incC => "INC C"
  | .decC => "DEC C"
  | .ldCImm _ => "LD C,d8"
  | .rrca => "RRCA"
  | .stop => "STOP"
  | .ldDEImm _ => "LD DE,d16"
  | .ldAtDEA => "LD (DE),A"
  | .incDE => "INC DE"
  | .incD => "INC D"
  | .decD => "DEC D"
  | .ldDImm _ => "LD D,d8"
  | .rla => "RLA"
  | .jr _ => "JR e8"
  | .addHLDE => "ADD HL,DE"
  | .ldAAtDE => "LD A,(DE)"
  | .decDE => "DEC DE"
  | .incE => "INC E"
  | .decE => "DEC E"
  | .ldEImm _ => "LD E,d8"
  | .rra => "RRA"
  | .jrNZ _ => "JR NZ,e8"
  | .ldHLImm _ => "LD HL,d16"
  | .ldAtHLIncA => "LD (HL+),A"
  | .incHL => "INC HL"
  | .incH => "INC H"
  | .decH => "DEC H"
  | .ldHImm _ => "LD H,d8"
  | .daa => "DAA"
  | .jrZ _ => "JR Z,e8"
  | .addHLHL => "ADD HL,HL"
  | .ldAAtHLInc => "LD A,(HL+)"
  | .decHL => "DEC HL"
  | .incL => "INC L"
  | .decL => "DEC L"
  | .ldLImm _ => "LD L,d8"
  | .cpl => "CPL"
  | .jrNC _ => "JR NC,e8"
  | .ldSPImm _ => "LD SP,d16"
  | .ldAtHLDecA => "LD (HL-),A"
  | .incSP => "INC SP"
  | .incAtHL => "INC (HL)"
  | .decAtHL => "DEC (HL)"
  | .ldAtHLImm _ => "LD (HL),d8"
  | .scf => "SCF"
  | .jrC _ => "JR C,e8"
  | .addHLSP => "ADD HL,SP"
  | .ldAAtHLDec => "LD A,(HL-)"
  | .decSP => "DEC SP"
  | .incA => "INC A"
  | .decA => "DEC A"
  | .ldAImm _ => "LD A,d8"
  | .ccf => "CCF"
  | .ldBB => "LD B,B"
  | .ldBC => "LD B,C"
  | .ldBD => "LD B,D"
  | .ldBE => "LD B,E"
  | .ldBH => "LD B,H"
  | .ldBL => "LD B,L"
  | .ldBAtHL => "LD B,(HL)"
  | .ldBA => "LD B,A"
  | .ldCB => "LD C,B"
  | .ldCC => "LD C,C"
  | .ldCD => "LD C,D"
  | .ldCE => "LD C,E"
  | .ldCH => "LD C,H"
  | .ldCL => "LD C,L"
  | .ldCAtHL => "LD C,(HL)"
  | .ldCA => "LD C,A"
  | .ldDB => "LD D,B"
  | .ldDC => "LD D,C"
  | .ldDD => "LD D,D"
  | .ldDE => "LD D,E"
  | .ldDH => "LD D,H"
  | .ldDL => "LD D,L"
  | .ldDAtHL => "LD D,(HL)"
  | .ldDA => "LD D,A"
  | .ldEB => "LD E,B"
  | .ldEC => "LD E,C"
  | .ldED => "LD E,D"
  | .ldEE => "LD E,E"
  | .ldEH => "LD E,H"
  | .ldEL => "LD E,L"
  | .ldEAtHL => "LD E,(HL)"
  | .ldEA => "LD E,A"
  | .ldHB => "LD H,B"
  | .ldHC => "LD H,C"
  | .ldHD => "LD H,D"
  | .ldHE => "LD H,E"
  | .ldHH => "LD H,H"
  | .ldHL => "LD H,L"
  | .ldHAtHL => "LD H,(HL)"
  | .ldHA => "LD H,A"
  | .ldLB => "LD L,B"
  | .ldLC => "LD L,C"
  | .ldLD => "LD L,D"
  | .ldLE => "LD L,E"
  | .ldLH => "LD L,H"
  | .ldLL => "LD L,L"
  | .ldLAtHL => "LD L,(HL)"
  | .ldLA => "LD L,A"
  | .ldAtHLB => "LD (HL),B"
  | .ldAtHLC => "LD (HL),C"
  | .ldAtHLD => "LD (HL),D"
  | .ldAtHLE => "LD (HL),E"
  | .ldAtHLH => "LD (HL),H"
  | .ldAtHLL => "LD (HL),L"
  | .halt => "HALT"
  | .ldAtHLA => "LD (HL),A"
  | .ldAB => "LD A,B"
  | .ldAC => "LD A,C"
  | .ldAD => "LD A,D"
  | .ldAE => "LD A,E"
  | .ldAH => "LD A,H"
  | .ldAL => "LD A,L"
  | .ldAAtHL => "LD A,(HL)"
  | .ldAA => "LD A,A"
  | .addAB => "ADD A,B"
  | .addAC => "ADD A,C"
  | .addAD => "ADD A,D"
  | .addAE => "ADD A,E"
  | .addAH => "ADD A,H"
  | .addAL => "ADD A,L"
  | .addAAtHL => "ADD A,(HL)"
  | .addAA => "ADD A,A"
  | .adcAB => "ADC A,B"
  | .adcAC => "ADC A,C"
  | .adcAD => "ADC A,D"
  | .adcAE => "ADC A,E"
  | .adcAH => "ADC A,H"
  | .adcAL => "ADC A,L"
  | .adcAAtHL => "ADC A,(HL)"
  | .adcAA => "ADC A,A"
  | .subB => "SUB B"
  | .subC => "SUB C"
  | .subD => "SUB D"
  | .subE => "SUB E"
  | .subH => "SUB H"
  | .subL => "SUB L"
  | .subAtHL => "SUB (HL)"
  | .subA => "SUB A"
  | .sbcAB => "SBC A,B"
  | .sbcAC => "SBC A,C"
  | .sbcAD => "SBC A,D"
  | .sbcAE => "SBC A,E"
  | .sbcAH => "SBC A,H"
  | .sbcAL => "SBC A,L"
  | .sbcAAtHL => "SBC A,(HL)"
  | .sbcAA => "SBC A,A"
  | .andB => "AND B"
  | .andC => "AND C"
  | .andD => "AND D"
  | .andE => "AND E"
  | .andH => "AND H"
  | .andL => "AND L"
  | .andAtHL => "AND (HL)"
  | .andA => "AND A"
  | .xorB => "XOR B"
  | .xorC => "XOR C"
  | .xorD => "XOR D"
  | .xorE => "XOR E"
  | .xorH => "XOR H"
  | .xorL => "XOR L"
  | .xorAtHL => "XOR (HL)"
  | .xorA => "XOR A"
  | .orB => "OR B"
  | .orC => "OR C"
  | .orD => "OR D"
  | .orE => "OR E"
  | .orH => "OR H"
  | .orL => "OR L"
  | .orAtHL => "OR (HL)"
  | .orA => "OR A"
  | .cpB => "CP B"
  | .cpC => "CP C"
  | .cpD => "CP D"
  | .cpE => "CP E"
  | .cpH => "CP H"
  | .cpL => "CP L"
  | .cpAtHL => "CP (HL)"
  | .cpA => "CP A"
  | .retNZ => "RET NZ"
  | .popBC => "POP BC"
  | .jpNZ _ => "JP NZ,a16"
  | .jp _ => "JP a16"
  | .callNZ _ => "CALL NZ,a16"
  | .pushBC => "PUSH BC"
  | .addAImm _ => "ADD A,d8"
  | .rst00 => "RST 00H"
  | .retZ => "RET Z"
  | .ret => "RET"
  | .jpZ _ => "JP Z,a16"
  | .prefixCb => "PREFIX CB"
  | .callZ _ => "CALL Z,a16"
  | .call _ => "CALL a16"
  | .adcAImm _ => "ADC A,d8"
  | .rst08 => "RST 08H"
  | .retNC => "RET NC"
  | .popDE => "POP DE"
  | .jpNC _ => "JP NC,a16"
  | .illegal _ => "ILLEGAL"
  | .callNC _ => "CALL NC,a16"
  | .pushDE => "PUSH DE"
  | .subImm _ => "SUB d8"
  | .rst10 => "RST 10H"
  | .retC => "RET C"
  | .reti => "RETI"
  | .jpC _ => "JP C,a16"
  | .callC _ => "CALL C,a16"
  | .sbcAImm _ => "SBC A,d8"
  | .rst18 => "RST 18H"
  | .ldhAt8A _ => "LDH (a8),A"
  | .popHL => "POP HL"
  | .ldAtCA => "LD (C),A"
  | .pushHL => "PUSH HL"
  | .andImm _ => "AND d8"
  | .rst20 => "RST 20H"
  | .addSPe _ => "ADD SP,e8"
  | .jpHL => "JP HL"
  | .ldAt16A _ => "LD (a16),A"
  | .xorImm _ => "XOR d8"
  | .rst28 => "RST 28H"
  | .ldhAAt8 _ => "LDH A,(a8)"
  | .popAF => "POP AF"
  | .ldAAtC => "LD A,(C)"
  | .di => "DI"
  | .pushAF => "PUSH AF"
  | .orImm _ => "OR d8"
  | .rst30 => "RST 30H"
  | .ldHLSPe _ => "LD HL,SP+e8"
  | .ldSPHL => "LD SP,HL"
  | .ldAAt16 _ => "LD A,(a16)"
  | .ei => "EI"
  | .cpImm _ => "CP d8"
  | .rst38 => "RST 38H"
  | .rlcB => "RLC B"
  | .rlcC => "RLC C"
  | .rlcD => "RLC D"
  | .rlcE => "RLC E"
  | .rlcH => "RLC H"
  | .rlcL => "RLC L"
  | .rlcAtHL => "RLC (HL)"
  | .rlcA => "RLC A"
  | .rrcB => "RRC B"
  | .rrcC => "RRC C"
  | .rrcD => "RRC D"
  | .rrcE => "RRC E"
  | .rrcH => "RRC H"
  | .rrcL => "RRC L"
  | .rrcAtHL => "RRC (HL)"
  | .rrcA => "RRC A"
  | .rlB => "RL B"
  | .rlC => "RL C"
  | .rlD => "RL D"
  | .rlE => "RL E"
  | .rlH => "RL H"
  | .rlL => "RL L"
  | .rlAtHL => "RL (HL)"
  | .rlA => "RL A"
  | .rrB => "RR B"
  | .rrC => "RR C"
  | .rrD => "RR D"
  | .rrE => "RR E"
  | .rrH => "RR H"
  | .rrL => "RR L"
  | .rrAtHL => "RR (HL)"
  | .rrA => "RR A"
  | .slaB => "SLA B"
  | .slaC => "SLA C"
  | .slaD => "SLA D"
  | .slaE => "SLA E"
  | .slaH => "SLA H"
  | .slaL => "SLA L"
  | .slaAtHL => "SLA (HL)"
  | .slaA => "SLA A"
  | .sraB => "SRA B"
  | .sraC => "SRA C"
  | .sraD => "SRA D"
  | .sraE => "SRA E"
  | .sraH => "SRA H"
  | .sraL => "SRA L"
  | .sraAtHL => "SRA (HL)"
  | .sraA => "SRA A"
  | .swapB => "SWAP B"
  | .swapC => "SWAP C"
  | .swapD => "SWAP D"
  | .swapE => "SWAP E"
  | .swapH => "SWAP H"
  | .swapL => "SWAP L"
  | .swapAtHL => "SWAP (HL)"
  | .swapA => "SWAP A"
  | .srlB => "SRL B"
  | .srlC => "SRL C"
  | .srlD => "SRL D"
  | .srlE => "SRL E"
  | .srlH => "SRL H"
  | .srlL => "SRL L"
  | .srlAtHL => "SRL (HL)"
  | .srlA => "SRL A"
  | .bit0B => "BIT 0,B"
  | .bit0C => "BIT 0,C"
  | .bit0D => "BIT 0,D"
  | .bit0E => "BIT 0,E"
  | .bit0H => "BIT 0,H"
  | .bit0L => "BIT 0,L"
  | .bit0AtHL => "BIT 0,(HL)"
  | .bit0A => "BIT 0,A"
  | .bit1B => "BIT 1,B"
  | .bit1C => "BIT 1,C"
  | .bit1D => "BIT 1,D"
  | .bit1E => "BIT 1,E"
  | .bit1H => "BIT 1,H"
  | .bit1L => "BIT 1,L"
  | .bit1AtHL => "BIT 1,(HL)"
  | .bit1A => "BIT 1,A"
  | .bit2B => "BIT 2,B"
  | .bit2C => "BIT 2,C"
  | .bit2D => "BIT 2,D"
  | .bit2E => "BIT 2,E"
  | .bit2H => "BIT 2,H"
  | .bit2L => "BIT 2,L"
  | .bit2AtHL => "BIT 2,(HL)"
  | .bit2A => "BIT 2,A"
  | .bit3B => "BIT 3,B"
  | .bit3C => "BIT 3,C"
  | .bit3D => "BIT 3,D"
  | .bit3E => "BIT 3,E"
  | .bit3H => "BIT 3,H"
  | .bit3L => "BIT 3,L"
  | .bit3AtHL => "BIT 3,(HL)"
  | .bit3A => "BIT 3,A"
  | .bit4B => "BIT 4,B"
  | .bit4C => "BIT 4,C"
  | .bit4D => "BIT 4,D"
  | .bit4E => "BIT 4,E"
  | .bit4H => "BIT 4,H"
  | .bit4L => "BIT 4,L"
  | .bit4AtHL => "BIT 4,(HL)"
  | .bit4A => "BIT 4,A"
  | .bit5B => "BIT 5,B"
  | .bit5C => "BIT 5,C"
  | .bit5D => "BIT 5,D"
  | .bit5E => "BIT 5,E"
  | .bit5H => "BIT 5,H"
  | .bit5L => "BIT 5,L"
  | .bit5AtHL => "BIT 5,(HL)"
  | .bit5A => "BIT 5,A"
  | .bit6B => "BIT 6,B"
  | .bit6C => "BIT 6,C"
  | .bit6D => "BIT 6,D"
  | .bit6E => "BIT 6,E"
  | .bit6H => "BIT 6,H"
  | .bit6L => "BIT 6,L"
  | .bit6AtHL => "BIT 6,(HL)"
  | .bit6A => "BIT 6,A"
  | .bit7B => "BIT 7,B"
  | .bit7C => "BIT 7,C"
  | .bit7D => "BIT 7,D"
  | .bit7E => "BIT 7,E"
  | .bit7H => "BIT 7,H"
  | .bit7L => "BIT 7,L"
  | .bit7AtHL => "BIT 7,(HL)"
  | .bit7A => "BIT 7,A"
  | .res0B => "RES 0,B"
  | .res0C => "RES 0,C"
  | .res0D => "RES 0,D"
  | .res0E => "RES 0,E"
  | .res0H => "RES 0,H"
  | .res0L => "RES 0,L"
  | .res0AtHL => "RES 0,(HL)"
  | .res0A => "RES 0,A"
  | .res1B => "RES 1,B"
  | .res1C => "RES 1,C"
  | .res1D => "RES 1,D"
  | .res1E => "RES 1,E"
  | .res1H => "RES 1,H"
  | .res1L => "RES 1,L"
  | .res1AtHL => "RES 1,(HL)"
  | .res1A => "RES 1,A"
  | .res2B => "RES 2,B"
  | .res2C => "RES 2,C"
  | .res2D => "RES 2,D"
  | .res2E => "RES 2,E"
  | .res2H => "RES 2,H"
  | .res2L => "RES 2,L"
  | .res2AtHL => "RES 2,(HL)"
  | .res2A => "RES 2,A"
  | .res3B => "RES 3,B"
  | .res3C => "RES 3,C"
  | .res3D => "RES 3,D"
  | .res3E => "RES 3,E"
  | .res3H => "RES 3,H"
  | .res3L => "RES 3,L"
  | .res3AtHL => "RES 3,(HL)"
  | .res3A => "RES 3,A"
  | .res4B => "RES 4,B"
  | .res4C => "RES 4,C"
  | .res4D => "RES 4,D"
  | .res4E => "RES 4,E"
  | .res4H => "RES 4,H"
  | .res4L => "RES 4,L"
  | .res4AtHL => "RES 4,(HL)"
  | .res4A => "RES 4,A"
  | .res5B => "RES 5,B"
  | .res5C => "RES 5,C"
  | .res5D => "RES 5,D"
  | .res5E => "RES 5,E"
  | .res5H => "RES 5,H"
  | .res5L => "RES 5,L"
  | .res5AtHL => "RES 5,(HL)"
  | .res5A => "RES 5,A"
  | .res6B => "RES 6,B"
  | .res6C => "RES 6,C"
  | .res6D => "RES 6,D"
  | .res6E => "RES 6,E"
  | .res6H => "RES 6,H"
  | .res6L => "RES 6,L"
  | .res6AtHL => "RES 6,(HL)"
  | .res6A => "RES 6,A"
  | .res7B => "RES 7,B"
  | .res7C => "RES 7,C"
  | .res7D => "RES 7,D"
  | .res7E => "RES 7,E"
  | .res7H => "RES 7,H"
  | .res7L => "RES 7,L"
  | .res7AtHL => "RES 7,(HL)"
  | .res7A => "RES 7,A"
  | .set0B => "SET 0,B"
  | .set0C => "SET 0,C"
  | .set0D => "SET 0,D"
  | .set0E => "SET 0,E"
  | .set0H => "SET 0,H"
  | .set0L => "SET 0,L"
  | .set0AtHL => "SET 0,(HL)"
  | .set0A => "SET 0,A"
  | .set1B => "SET 1,B"
  | .set1C => "SET 1,C"
  | .set1D => "SET 1,D"
  | .set1E => "SET 1,E"
  | .set1H => "SET 1,H"
  | .set1L => "SET 1,L"
  | .set1AtHL => "SET 1,(HL)"
  | .set1A => "SET 1,A"
  | .set2B => "SET 2,B"
  | .set2C => "SET 2,C"
  | .set2D => "SET 2,D"
  | .set2E => "SET 2,E"
  | .set2H => "SET 2,H"
  | .set2L => "SET 2,L"
  | .set2AtHL => "SET 2,(HL)"
  | .set2A => "SET 2,A"
  | .set3B => "SET 3,B"
  | .set3C => "SET 3,C"
  | .set3D => "SET 3,D"
  | .set3E => "SET 3,E"
  | .set3H => "SET 3,H"
  | .set3L => "SET 3,L"
  | .set3AtHL => "SET 3,(HL)"
  | .set3A => "SET 3,A"
  | .set4B => "SET 4,B"
  | .set4C => "SET 4,C"
  | .set4D => "SET 4,D"
  | .set4E => "SET 4,E"
  | .set4H => "SET 4,H"
  | .set4L => "SET 4,L"
  | .set4AtHL => "SET 4,(HL)"
  | .set4A => "SET 4,A"
  | .set5B => "SET 5,B"
  | .set5C => "SET 5,C"
  | .set5D => "SET 5,D"
  | .set5E => "SET 5,E"
  | .set5H => "SET 5,H"
  | .set5L => "SET 5,L"
  | .set5AtHL => "SET 5,(HL)"
  | .set5A => "SET 5,A"
  | .set6B => "SET 6,B"
  | .set6C => "SET 6,C"
  | .set6D => "SET 6,D"
  | .set6E => "SET 6,E"
  | .set6H => "SET 6,H"
  | .set6L => "SET 6,L"
  | .set6AtHL => "SET 6,(HL)"
  | .set6A => "SET 6,A"
  | .set7B => "SET 7,B"
  | .set7C => "SET 7,C"
  | .set7D => "SET 7,D"
  | .set7E => "SET 7,E"
  | .set7H => "SET 7,H"
  | .set7L => "SET 7,L"
  | .set7AtHL => "SET 7,(HL)"
  | .set7A => "SET 7,A"

/-! ## Cycle counts -/

/-- How many CPU cycles an instruction takes, fetch included; `taken` says whether its condition holds, and a row with
one count ignores it (spec/70_reset_and_hazards.md R540). STOP and the illegal opcodes end the step after their one
fetch cycle, and the prefix row counts the fetch of its two bytes. -/
def Instr.cycles (taken : Bool) : Instr → Nat
  | .nop => 1
  | .ldBCImm _ => 3
  | .ldAtBCA => 2
  | .incBC => 2
  | .incB => 1
  | .decB => 1
  | .ldBImm _ => 2
  | .rlca => 1
  | .ldAt16SP _ => 5
  | .addHLBC => 2
  | .ldAAtBC => 2
  | .decBC => 2
  | .incC => 1
  | .decC => 1
  | .ldCImm _ => 2
  | .rrca => 1
  | .stop => 1
  | .ldDEImm _ => 3
  | .ldAtDEA => 2
  | .incDE => 2
  | .incD => 1
  | .decD => 1
  | .ldDImm _ => 2
  | .rla => 1
  | .jr _ => 3
  | .addHLDE => 2
  | .ldAAtDE => 2
  | .decDE => 2
  | .incE => 1
  | .decE => 1
  | .ldEImm _ => 2
  | .rra => 1
  | .jrNZ _ => if taken then 3 else 2
  | .ldHLImm _ => 3
  | .ldAtHLIncA => 2
  | .incHL => 2
  | .incH => 1
  | .decH => 1
  | .ldHImm _ => 2
  | .daa => 1
  | .jrZ _ => if taken then 3 else 2
  | .addHLHL => 2
  | .ldAAtHLInc => 2
  | .decHL => 2
  | .incL => 1
  | .decL => 1
  | .ldLImm _ => 2
  | .cpl => 1
  | .jrNC _ => if taken then 3 else 2
  | .ldSPImm _ => 3
  | .ldAtHLDecA => 2
  | .incSP => 2
  | .incAtHL => 3
  | .decAtHL => 3
  | .ldAtHLImm _ => 3
  | .scf => 1
  | .jrC _ => if taken then 3 else 2
  | .addHLSP => 2
  | .ldAAtHLDec => 2
  | .decSP => 2
  | .incA => 1
  | .decA => 1
  | .ldAImm _ => 2
  | .ccf => 1
  | .ldBB => 1
  | .ldBC => 1
  | .ldBD => 1
  | .ldBE => 1
  | .ldBH => 1
  | .ldBL => 1
  | .ldBAtHL => 2
  | .ldBA => 1
  | .ldCB => 1
  | .ldCC => 1
  | .ldCD => 1
  | .ldCE => 1
  | .ldCH => 1
  | .ldCL => 1
  | .ldCAtHL => 2
  | .ldCA => 1
  | .ldDB => 1
  | .ldDC => 1
  | .ldDD => 1
  | .ldDE => 1
  | .ldDH => 1
  | .ldDL => 1
  | .ldDAtHL => 2
  | .ldDA => 1
  | .ldEB => 1
  | .ldEC => 1
  | .ldED => 1
  | .ldEE => 1
  | .ldEH => 1
  | .ldEL => 1
  | .ldEAtHL => 2
  | .ldEA => 1
  | .ldHB => 1
  | .ldHC => 1
  | .ldHD => 1
  | .ldHE => 1
  | .ldHH => 1
  | .ldHL => 1
  | .ldHAtHL => 2
  | .ldHA => 1
  | .ldLB => 1
  | .ldLC => 1
  | .ldLD => 1
  | .ldLE => 1
  | .ldLH => 1
  | .ldLL => 1
  | .ldLAtHL => 2
  | .ldLA => 1
  | .ldAtHLB => 2
  | .ldAtHLC => 2
  | .ldAtHLD => 2
  | .ldAtHLE => 2
  | .ldAtHLH => 2
  | .ldAtHLL => 2
  | .halt => 1
  | .ldAtHLA => 2
  | .ldAB => 1
  | .ldAC => 1
  | .ldAD => 1
  | .ldAE => 1
  | .ldAH => 1
  | .ldAL => 1
  | .ldAAtHL => 2
  | .ldAA => 1
  | .addAB => 1
  | .addAC => 1
  | .addAD => 1
  | .addAE => 1
  | .addAH => 1
  | .addAL => 1
  | .addAAtHL => 2
  | .addAA => 1
  | .adcAB => 1
  | .adcAC => 1
  | .adcAD => 1
  | .adcAE => 1
  | .adcAH => 1
  | .adcAL => 1
  | .adcAAtHL => 2
  | .adcAA => 1
  | .subB => 1
  | .subC => 1
  | .subD => 1
  | .subE => 1
  | .subH => 1
  | .subL => 1
  | .subAtHL => 2
  | .subA => 1
  | .sbcAB => 1
  | .sbcAC => 1
  | .sbcAD => 1
  | .sbcAE => 1
  | .sbcAH => 1
  | .sbcAL => 1
  | .sbcAAtHL => 2
  | .sbcAA => 1
  | .andB => 1
  | .andC => 1
  | .andD => 1
  | .andE => 1
  | .andH => 1
  | .andL => 1
  | .andAtHL => 2
  | .andA => 1
  | .xorB => 1
  | .xorC => 1
  | .xorD => 1
  | .xorE => 1
  | .xorH => 1
  | .xorL => 1
  | .xorAtHL => 2
  | .xorA => 1
  | .orB => 1
  | .orC => 1
  | .orD => 1
  | .orE => 1
  | .orH => 1
  | .orL => 1
  | .orAtHL => 2
  | .orA => 1
  | .cpB => 1
  | .cpC => 1
  | .cpD => 1
  | .cpE => 1
  | .cpH => 1
  | .cpL => 1
  | .cpAtHL => 2
  | .cpA => 1
  | .retNZ => if taken then 5 else 2
  | .popBC => 3
  | .jpNZ _ => if taken then 4 else 3
  | .jp _ => 4
  | .callNZ _ => if taken then 6 else 3
  | .pushBC => 4
  | .addAImm _ => 2
  | .rst00 => 4
  | .retZ => if taken then 5 else 2
  | .ret => 4
  | .jpZ _ => if taken then 4 else 3
  | .prefixCb => 2
  | .callZ _ => if taken then 6 else 3
  | .call _ => 6
  | .adcAImm _ => 2
  | .rst08 => 4
  | .retNC => if taken then 5 else 2
  | .popDE => 3
  | .jpNC _ => if taken then 4 else 3
  | .illegal _ => 1
  | .callNC _ => if taken then 6 else 3
  | .pushDE => 4
  | .subImm _ => 2
  | .rst10 => 4
  | .retC => if taken then 5 else 2
  | .reti => 4
  | .jpC _ => if taken then 4 else 3
  | .callC _ => if taken then 6 else 3
  | .sbcAImm _ => 2
  | .rst18 => 4
  | .ldhAt8A _ => 3
  | .popHL => 3
  | .ldAtCA => 2
  | .pushHL => 4
  | .andImm _ => 2
  | .rst20 => 4
  | .addSPe _ => 4
  | .jpHL => 1
  | .ldAt16A _ => 4
  | .xorImm _ => 2
  | .rst28 => 4
  | .ldhAAt8 _ => 3
  | .popAF => 3
  | .ldAAtC => 2
  | .di => 1
  | .pushAF => 4
  | .orImm _ => 2
  | .rst30 => 4
  | .ldHLSPe _ => 3
  | .ldSPHL => 2
  | .ldAAt16 _ => 4
  | .ei => 1
  | .cpImm _ => 2
  | .rst38 => 4
  | .rlcB => 2
  | .rlcC => 2
  | .rlcD => 2
  | .rlcE => 2
  | .rlcH => 2
  | .rlcL => 2
  | .rlcAtHL => 4
  | .rlcA => 2
  | .rrcB => 2
  | .rrcC => 2
  | .rrcD => 2
  | .rrcE => 2
  | .rrcH => 2
  | .rrcL => 2
  | .rrcAtHL => 4
  | .rrcA => 2
  | .rlB => 2
  | .rlC => 2
  | .rlD => 2
  | .rlE => 2
  | .rlH => 2
  | .rlL => 2
  | .rlAtHL => 4
  | .rlA => 2
  | .rrB => 2
  | .rrC => 2
  | .rrD => 2
  | .rrE => 2
  | .rrH => 2
  | .rrL => 2
  | .rrAtHL => 4
  | .rrA => 2
  | .slaB => 2
  | .slaC => 2
  | .slaD => 2
  | .slaE => 2
  | .slaH => 2
  | .slaL => 2
  | .slaAtHL => 4
  | .slaA => 2
  | .sraB => 2
  | .sraC => 2
  | .sraD => 2
  | .sraE => 2
  | .sraH => 2
  | .sraL => 2
  | .sraAtHL => 4
  | .sraA => 2
  | .swapB => 2
  | .swapC => 2
  | .swapD => 2
  | .swapE => 2
  | .swapH => 2
  | .swapL => 2
  | .swapAtHL => 4
  | .swapA => 2
  | .srlB => 2
  | .srlC => 2
  | .srlD => 2
  | .srlE => 2
  | .srlH => 2
  | .srlL => 2
  | .srlAtHL => 4
  | .srlA => 2
  | .bit0B => 2
  | .bit0C => 2
  | .bit0D => 2
  | .bit0E => 2
  | .bit0H => 2
  | .bit0L => 2
  | .bit0AtHL => 3
  | .bit0A => 2
  | .bit1B => 2
  | .bit1C => 2
  | .bit1D => 2
  | .bit1E => 2
  | .bit1H => 2
  | .bit1L => 2
  | .bit1AtHL => 3
  | .bit1A => 2
  | .bit2B => 2
  | .bit2C => 2
  | .bit2D => 2
  | .bit2E => 2
  | .bit2H => 2
  | .bit2L => 2
  | .bit2AtHL => 3
  | .bit2A => 2
  | .bit3B => 2
  | .bit3C => 2
  | .bit3D => 2
  | .bit3E => 2
  | .bit3H => 2
  | .bit3L => 2
  | .bit3AtHL => 3
  | .bit3A => 2
  | .bit4B => 2
  | .bit4C => 2
  | .bit4D => 2
  | .bit4E => 2
  | .bit4H => 2
  | .bit4L => 2
  | .bit4AtHL => 3
  | .bit4A => 2
  | .bit5B => 2
  | .bit5C => 2
  | .bit5D => 2
  | .bit5E => 2
  | .bit5H => 2
  | .bit5L => 2
  | .bit5AtHL => 3
  | .bit5A => 2
  | .bit6B => 2
  | .bit6C => 2
  | .bit6D => 2
  | .bit6E => 2
  | .bit6H => 2
  | .bit6L => 2
  | .bit6AtHL => 3
  | .bit6A => 2
  | .bit7B => 2
  | .bit7C => 2
  | .bit7D => 2
  | .bit7E => 2
  | .bit7H => 2
  | .bit7L => 2
  | .bit7AtHL => 3
  | .bit7A => 2
  | .res0B => 2
  | .res0C => 2
  | .res0D => 2
  | .res0E => 2
  | .res0H => 2
  | .res0L => 2
  | .res0AtHL => 4
  | .res0A => 2
  | .res1B => 2
  | .res1C => 2
  | .res1D => 2
  | .res1E => 2
  | .res1H => 2
  | .res1L => 2
  | .res1AtHL => 4
  | .res1A => 2
  | .res2B => 2
  | .res2C => 2
  | .res2D => 2
  | .res2E => 2
  | .res2H => 2
  | .res2L => 2
  | .res2AtHL => 4
  | .res2A => 2
  | .res3B => 2
  | .res3C => 2
  | .res3D => 2
  | .res3E => 2
  | .res3H => 2
  | .res3L => 2
  | .res3AtHL => 4
  | .res3A => 2
  | .res4B => 2
  | .res4C => 2
  | .res4D => 2
  | .res4E => 2
  | .res4H => 2
  | .res4L => 2
  | .res4AtHL => 4
  | .res4A => 2
  | .res5B => 2
  | .res5C => 2
  | .res5D => 2
  | .res5E => 2
  | .res5H => 2
  | .res5L => 2
  | .res5AtHL => 4
  | .res5A => 2
  | .res6B => 2
  | .res6C => 2
  | .res6D => 2
  | .res6E => 2
  | .res6H => 2
  | .res6L => 2
  | .res6AtHL => 4
  | .res6A => 2
  | .res7B => 2
  | .res7C => 2
  | .res7D => 2
  | .res7E => 2
  | .res7H => 2
  | .res7L => 2
  | .res7AtHL => 4
  | .res7A => 2
  | .set0B => 2
  | .set0C => 2
  | .set0D => 2
  | .set0E => 2
  | .set0H => 2
  | .set0L => 2
  | .set0AtHL => 4
  | .set0A => 2
  | .set1B => 2
  | .set1C => 2
  | .set1D => 2
  | .set1E => 2
  | .set1H => 2
  | .set1L => 2
  | .set1AtHL => 4
  | .set1A => 2
  | .set2B => 2
  | .set2C => 2
  | .set2D => 2
  | .set2E => 2
  | .set2H => 2
  | .set2L => 2
  | .set2AtHL => 4
  | .set2A => 2
  | .set3B => 2
  | .set3C => 2
  | .set3D => 2
  | .set3E => 2
  | .set3H => 2
  | .set3L => 2
  | .set3AtHL => 4
  | .set3A => 2
  | .set4B => 2
  | .set4C => 2
  | .set4D => 2
  | .set4E => 2
  | .set4H => 2
  | .set4L => 2
  | .set4AtHL => 4
  | .set4A => 2
  | .set5B => 2
  | .set5C => 2
  | .set5D => 2
  | .set5E => 2
  | .set5H => 2
  | .set5L => 2
  | .set5AtHL => 4
  | .set5A => 2
  | .set6B => 2
  | .set6C => 2
  | .set6D => 2
  | .set6E => 2
  | .set6H => 2
  | .set6L => 2
  | .set6AtHL => 4
  | .set6A => 2
  | .set7B => 2
  | .set7C => 2
  | .set7D => 2
  | .set7E => 2
  | .set7H => 2
  | .set7L => 2
  | .set7AtHL => 4
  | .set7A => 2

/-! ## Instructions of one shape -/

/-- LD r,r' (spec/40_load.md R201). -/
def Instr.loadRR : Reg8 → Reg8 → Instr
  | .b, .b => .ldBB
  | .b, .c => .ldBC
  | .b, .d => .ldBD
  | .b, .e => .ldBE
  | .b, .h => .ldBH
  | .b, .l => .ldBL
  | .b, .a => .ldBA
  | .c, .b => .ldCB
  | .c, .c => .ldCC
  | .c, .d => .ldCD
  | .c, .e => .ldCE
  | .c, .h => .ldCH
  | .c, .l => .ldCL
  | .c, .a => .ldCA
  | .d, .b => .ldDB
  | .d, .c => .ldDC
  | .d, .d => .ldDD
  | .d, .e => .ldDE
  | .d, .h => .ldDH
  | .d, .l => .ldDL
  | .d, .a => .ldDA
  | .e, .b => .ldEB
  | .e, .c => .ldEC
  | .e, .d => .ldED
  | .e, .e => .ldEE
  | .e, .h => .ldEH
  | .e, .l => .ldEL
  | .e, .a => .ldEA
  | .h, .b => .ldHB
  | .h, .c => .ldHC
  | .h, .d => .ldHD
  | .h, .e => .ldHE
  | .h, .h => .ldHH
  | .h, .l => .ldHL
  | .h, .a => .ldHA
  | .l, .b => .ldLB
  | .l, .c => .ldLC
  | .l, .d => .ldLD
  | .l, .e => .ldLE
  | .l, .h => .ldLH
  | .l, .l => .ldLL
  | .l, .a => .ldLA
  | .a, .b => .ldAB
  | .a, .c => .ldAC
  | .a, .d => .ldAD
  | .a, .e => .ldAE
  | .a, .h => .ldAH
  | .a, .l => .ldAL
  | .a, .a => .ldAA

/-- LD r,d8 (spec/40_load.md R202). -/
def Instr.loadRImm : Reg8 → Byte → Instr
  | .b, n => .ldBImm n
  | .c, n => .ldCImm n
  | .d, n => .ldDImm n
  | .e, n => .ldEImm n
  | .h, n => .ldHImm n
  | .l, n => .ldLImm n
  | .a, n => .ldAImm n

/-- LD r,(HL) (spec/40_load.md R203). -/
def Instr.loadRAtHL : Reg8 → Instr
  | .b => .ldBAtHL
  | .c => .ldCAtHL
  | .d => .ldDAtHL
  | .e => .ldEAtHL
  | .h => .ldHAtHL
  | .l => .ldLAtHL
  | .a => .ldAAtHL

/-- LD (HL),r (spec/40_load.md R204). -/
def Instr.storeAtHLR : Reg8 → Instr
  | .b => .ldAtHLB
  | .c => .ldAtHLC
  | .d => .ldAtHLD
  | .e => .ldAtHLE
  | .h => .ldAtHLH
  | .l => .ldAtHLL
  | .a => .ldAtHLA

/-- LD dd,d16 (spec/40_load.md R220). -/
def Instr.loadPair : Pair → Word → Instr
  | .bc, nn => .ldBCImm nn
  | .de, nn => .ldDEImm nn
  | .hl, nn => .ldHLImm nn
  | .sp, nn => .ldSPImm nn

/-- PUSH qq (spec/40_load.md R222). -/
def Instr.push : StackPair → Instr
  | .bc => .pushBC
  | .de => .pushDE
  | .hl => .pushHL
  | .af => .pushAF

/-- POP qq (spec/40_load.md R223). -/
def Instr.pop : StackPair → Instr
  | .bc => .popBC
  | .de => .popDE
  | .hl => .popHL
  | .af => .popAF

/-- The 8-bit ALU operation on A and a register (spec/41_alu8.md R241, R244, R247, R250, R253, R256, R259, R262). -/
def Instr.aluR : AluOp → Reg8 → Instr
  | .add, .b => .addAB
  | .add, .c => .addAC
  | .add, .d => .addAD
  | .add, .e => .addAE
  | .add, .h => .addAH
  | .add, .l => .addAL
  | .add, .a => .addAA
  | .adc, .b => .adcAB
  | .adc, .c => .adcAC
  | .adc, .d => .adcAD
  | .adc, .e => .adcAE
  | .adc, .h => .adcAH
  | .adc, .l => .adcAL
  | .adc, .a => .adcAA
  | .sub, .b => .subB
  | .sub, .c => .subC
  | .sub, .d => .subD
  | .sub, .e => .subE
  | .sub, .h => .subH
  | .sub, .l => .subL
  | .sub, .a => .subA
  | .sbc, .b => .sbcAB
  | .sbc, .c => .sbcAC
  | .sbc, .d => .sbcAD
  | .sbc, .e => .sbcAE
  | .sbc, .h => .sbcAH
  | .sbc, .l => .sbcAL
  | .sbc, .a => .sbcAA
  | .and, .b => .andB
  | .and, .c => .andC
  | .and, .d => .andD
  | .and, .e => .andE
  | .and, .h => .andH
  | .and, .l => .andL
  | .and, .a => .andA
  | .xor, .b => .xorB
  | .xor, .c => .xorC
  | .xor, .d => .xorD
  | .xor, .e => .xorE
  | .xor, .h => .xorH
  | .xor, .l => .xorL
  | .xor, .a => .xorA
  | .or, .b => .orB
  | .or, .c => .orC
  | .or, .d => .orD
  | .or, .e => .orE
  | .or, .h => .orH
  | .or, .l => .orL
  | .or, .a => .orA
  | .cp, .b => .cpB
  | .cp, .c => .cpC
  | .cp, .d => .cpD
  | .cp, .e => .cpE
  | .cp, .h => .cpH
  | .cp, .l => .cpL
  | .cp, .a => .cpA

/-- The 8-bit ALU operation on A and the byte at HL (spec/41_alu8.md R242, R245, R248, R251, R254, R257, R260, R263). -/
def Instr.aluHL : AluOp → Instr
  | .add => .addAAtHL
  | .adc => .adcAAtHL
  | .sub => .subAtHL
  | .sbc => .sbcAAtHL
  | .and => .andAtHL
  | .xor => .xorAtHL
  | .or => .orAtHL
  | .cp => .cpAtHL

/-- The 8-bit ALU operation on A and an immediate (spec/41_alu8.md R243, R246, R249, R252, R255, R258, R261, R264). -/
def Instr.aluN : AluOp → Byte → Instr
  | .add, n => .addAImm n
  | .adc, n => .adcAImm n
  | .sub, n => .subImm n
  | .sbc, n => .sbcAImm n
  | .and, n => .andImm n
  | .xor, n => .xorImm n
  | .or, n => .orImm n
  | .cp, n => .cpImm n

/-- INC r (spec/41_alu8.md R265). -/
def Instr.incR : Reg8 → Instr
  | .b => .incB
  | .c => .incC
  | .d => .incD
  | .e => .incE
  | .h => .incH
  | .l => .incL
  | .a => .incA

/-- DEC r (spec/41_alu8.md R267). -/
def Instr.decR : Reg8 → Instr
  | .b => .decB
  | .c => .decC
  | .d => .decD
  | .e => .decE
  | .h => .decH
  | .l => .decL
  | .a => .decA

/-- ADD HL,dd (spec/42_alu16.md R280). -/
def Instr.addHL : Pair → Instr
  | .bc => .addHLBC
  | .de => .addHLDE
  | .hl => .addHLHL
  | .sp => .addHLSP

/-- INC dd (spec/42_alu16.md R281). -/
def Instr.incPair : Pair → Instr
  | .bc => .incBC
  | .de => .incDE
  | .hl => .incHL
  | .sp => .incSP

/-- DEC dd (spec/42_alu16.md R282). -/
def Instr.decPair : Pair → Instr
  | .bc => .decBC
  | .de => .decDE
  | .hl => .decHL
  | .sp => .decSP

/-- The CB rotate or shift of a register (spec/43_rotate_shift_bit.md R295-R302). -/
def Instr.rotR : RotOp → Reg8 → Instr
  | .rlc, .b => .rlcB
  | .rlc, .c => .rlcC
  | .rlc, .d => .rlcD
  | .rlc, .e => .rlcE
  | .rlc, .h => .rlcH
  | .rlc, .l => .rlcL
  | .rlc, .a => .rlcA
  | .rrc, .b => .rrcB
  | .rrc, .c => .rrcC
  | .rrc, .d => .rrcD
  | .rrc, .e => .rrcE
  | .rrc, .h => .rrcH
  | .rrc, .l => .rrcL
  | .rrc, .a => .rrcA
  | .rl, .b => .rlB
  | .rl, .c => .rlC
  | .rl, .d => .rlD
  | .rl, .e => .rlE
  | .rl, .h => .rlH
  | .rl, .l => .rlL
  | .rl, .a => .rlA
  | .rr, .b => .rrB
  | .rr, .c => .rrC
  | .rr, .d => .rrD
  | .rr, .e => .rrE
  | .rr, .h => .rrH
  | .rr, .l => .rrL
  | .rr, .a => .rrA
  | .sla, .b => .slaB
  | .sla, .c => .slaC
  | .sla, .d => .slaD
  | .sla, .e => .slaE
  | .sla, .h => .slaH
  | .sla, .l => .slaL
  | .sla, .a => .slaA
  | .sra, .b => .sraB
  | .sra, .c => .sraC
  | .sra, .d => .sraD
  | .sra, .e => .sraE
  | .sra, .h => .sraH
  | .sra, .l => .sraL
  | .sra, .a => .sraA
  | .swap, .b => .swapB
  | .swap, .c => .swapC
  | .swap, .d => .swapD
  | .swap, .e => .swapE
  | .swap, .h => .swapH
  | .swap, .l => .swapL
  | .swap, .a => .swapA
  | .srl, .b => .srlB
  | .srl, .c => .srlC
  | .srl, .d => .srlD
  | .srl, .e => .srlE
  | .srl, .h => .srlH
  | .srl, .l => .srlL
  | .srl, .a => .srlA

/-- The CB rotate or shift of the byte at HL (spec/43_rotate_shift_bit.md R295-R302). -/
def Instr.rotHL : RotOp → Instr
  | .rlc => .rlcAtHL
  | .rrc => .rrcAtHL
  | .rl => .rlAtHL
  | .rr => .rrAtHL
  | .sla => .slaAtHL
  | .sra => .sraAtHL
  | .swap => .swapAtHL
  | .srl => .srlAtHL

/-- BIT n,r (spec/43_rotate_shift_bit.md R303). -/
def Instr.bitR : Fin 8 → Reg8 → Instr
  | 0, .b => .bit0B
  | 0, .c => .bit0C
  | 0, .d => .bit0D
  | 0, .e => .bit0E
  | 0, .h => .bit0H
  | 0, .l => .bit0L
  | 0, .a => .bit0A
  | 1, .b => .bit1B
  | 1, .c => .bit1C
  | 1, .d => .bit1D
  | 1, .e => .bit1E
  | 1, .h => .bit1H
  | 1, .l => .bit1L
  | 1, .a => .bit1A
  | 2, .b => .bit2B
  | 2, .c => .bit2C
  | 2, .d => .bit2D
  | 2, .e => .bit2E
  | 2, .h => .bit2H
  | 2, .l => .bit2L
  | 2, .a => .bit2A
  | 3, .b => .bit3B
  | 3, .c => .bit3C
  | 3, .d => .bit3D
  | 3, .e => .bit3E
  | 3, .h => .bit3H
  | 3, .l => .bit3L
  | 3, .a => .bit3A
  | 4, .b => .bit4B
  | 4, .c => .bit4C
  | 4, .d => .bit4D
  | 4, .e => .bit4E
  | 4, .h => .bit4H
  | 4, .l => .bit4L
  | 4, .a => .bit4A
  | 5, .b => .bit5B
  | 5, .c => .bit5C
  | 5, .d => .bit5D
  | 5, .e => .bit5E
  | 5, .h => .bit5H
  | 5, .l => .bit5L
  | 5, .a => .bit5A
  | 6, .b => .bit6B
  | 6, .c => .bit6C
  | 6, .d => .bit6D
  | 6, .e => .bit6E
  | 6, .h => .bit6H
  | 6, .l => .bit6L
  | 6, .a => .bit6A
  | 7, .b => .bit7B
  | 7, .c => .bit7C
  | 7, .d => .bit7D
  | 7, .e => .bit7E
  | 7, .h => .bit7H
  | 7, .l => .bit7L
  | 7, .a => .bit7A

/-- BIT n,(HL) (spec/43_rotate_shift_bit.md R303). -/
def Instr.bitHL : Fin 8 → Instr
  | 0 => .bit0AtHL
  | 1 => .bit1AtHL
  | 2 => .bit2AtHL
  | 3 => .bit3AtHL
  | 4 => .bit4AtHL
  | 5 => .bit5AtHL
  | 6 => .bit6AtHL
  | 7 => .bit7AtHL

/-- RES n,r (spec/43_rotate_shift_bit.md R304). -/
def Instr.resR : Fin 8 → Reg8 → Instr
  | 0, .b => .res0B
  | 0, .c => .res0C
  | 0, .d => .res0D
  | 0, .e => .res0E
  | 0, .h => .res0H
  | 0, .l => .res0L
  | 0, .a => .res0A
  | 1, .b => .res1B
  | 1, .c => .res1C
  | 1, .d => .res1D
  | 1, .e => .res1E
  | 1, .h => .res1H
  | 1, .l => .res1L
  | 1, .a => .res1A
  | 2, .b => .res2B
  | 2, .c => .res2C
  | 2, .d => .res2D
  | 2, .e => .res2E
  | 2, .h => .res2H
  | 2, .l => .res2L
  | 2, .a => .res2A
  | 3, .b => .res3B
  | 3, .c => .res3C
  | 3, .d => .res3D
  | 3, .e => .res3E
  | 3, .h => .res3H
  | 3, .l => .res3L
  | 3, .a => .res3A
  | 4, .b => .res4B
  | 4, .c => .res4C
  | 4, .d => .res4D
  | 4, .e => .res4E
  | 4, .h => .res4H
  | 4, .l => .res4L
  | 4, .a => .res4A
  | 5, .b => .res5B
  | 5, .c => .res5C
  | 5, .d => .res5D
  | 5, .e => .res5E
  | 5, .h => .res5H
  | 5, .l => .res5L
  | 5, .a => .res5A
  | 6, .b => .res6B
  | 6, .c => .res6C
  | 6, .d => .res6D
  | 6, .e => .res6E
  | 6, .h => .res6H
  | 6, .l => .res6L
  | 6, .a => .res6A
  | 7, .b => .res7B
  | 7, .c => .res7C
  | 7, .d => .res7D
  | 7, .e => .res7E
  | 7, .h => .res7H
  | 7, .l => .res7L
  | 7, .a => .res7A

/-- RES n,(HL) (spec/43_rotate_shift_bit.md R304). -/
def Instr.resHL : Fin 8 → Instr
  | 0 => .res0AtHL
  | 1 => .res1AtHL
  | 2 => .res2AtHL
  | 3 => .res3AtHL
  | 4 => .res4AtHL
  | 5 => .res5AtHL
  | 6 => .res6AtHL
  | 7 => .res7AtHL

/-- SET n,r (spec/43_rotate_shift_bit.md R305). -/
def Instr.setR : Fin 8 → Reg8 → Instr
  | 0, .b => .set0B
  | 0, .c => .set0C
  | 0, .d => .set0D
  | 0, .e => .set0E
  | 0, .h => .set0H
  | 0, .l => .set0L
  | 0, .a => .set0A
  | 1, .b => .set1B
  | 1, .c => .set1C
  | 1, .d => .set1D
  | 1, .e => .set1E
  | 1, .h => .set1H
  | 1, .l => .set1L
  | 1, .a => .set1A
  | 2, .b => .set2B
  | 2, .c => .set2C
  | 2, .d => .set2D
  | 2, .e => .set2E
  | 2, .h => .set2H
  | 2, .l => .set2L
  | 2, .a => .set2A
  | 3, .b => .set3B
  | 3, .c => .set3C
  | 3, .d => .set3D
  | 3, .e => .set3E
  | 3, .h => .set3H
  | 3, .l => .set3L
  | 3, .a => .set3A
  | 4, .b => .set4B
  | 4, .c => .set4C
  | 4, .d => .set4D
  | 4, .e => .set4E
  | 4, .h => .set4H
  | 4, .l => .set4L
  | 4, .a => .set4A
  | 5, .b => .set5B
  | 5, .c => .set5C
  | 5, .d => .set5D
  | 5, .e => .set5E
  | 5, .h => .set5H
  | 5, .l => .set5L
  | 5, .a => .set5A
  | 6, .b => .set6B
  | 6, .c => .set6C
  | 6, .d => .set6D
  | 6, .e => .set6E
  | 6, .h => .set6H
  | 6, .l => .set6L
  | 6, .a => .set6A
  | 7, .b => .set7B
  | 7, .c => .set7C
  | 7, .d => .set7D
  | 7, .e => .set7E
  | 7, .h => .set7H
  | 7, .l => .set7L
  | 7, .a => .set7A

/-- SET n,(HL) (spec/43_rotate_shift_bit.md R305). -/
def Instr.setHL : Fin 8 → Instr
  | 0 => .set0AtHL
  | 1 => .set1AtHL
  | 2 => .set2AtHL
  | 3 => .set3AtHL
  | 4 => .set4AtHL
  | 5 => .set5AtHL
  | 6 => .set6AtHL
  | 7 => .set7AtHL

/-- JP cc,a16 (spec/44_control.md R322). -/
def Instr.jpIf : Cond → Word → Instr
  | .nz, nn => .jpNZ nn
  | .z, nn => .jpZ nn
  | .nc, nn => .jpNC nn
  | .c, nn => .jpC nn

/-- JR cc,e8 (spec/44_control.md R325). -/
def Instr.jrIf : Cond → Byte → Instr
  | .nz, e => .jrNZ e
  | .z, e => .jrZ e
  | .nc, e => .jrNC e
  | .c, e => .jrC e

/-- CALL cc,a16 (spec/44_control.md R327). -/
def Instr.callIf : Cond → Word → Instr
  | .nz, nn => .callNZ nn
  | .z, nn => .callZ nn
  | .nc, nn => .callNC nn
  | .c, nn => .callC nn

/-- RET cc (spec/44_control.md R329). -/
def Instr.retIf : Cond → Instr
  | .nz => .retNZ
  | .z => .retZ
  | .nc => .retNC
  | .c => .retC

/-- RST t, with t = 8 y (spec/44_control.md R330). -/
def Instr.rst : Fin 8 → Instr
  | 0 => .rst00
  | 1 => .rst08
  | 2 => .rst10
  | 3 => .rst18
  | 4 => .rst20
  | 5 => .rst28
  | 6 => .rst30
  | 7 => .rst38

end Sys2Proof
end

