-- ==== Sys2Proof/Machine/Cartridge.lean ====
section
/-! DEFINITION. The cartridge store: loading an image, and the plain, Family A and Family B controllers
(spec/20_memory.md R110-R131). -/

namespace Sys2Proof.Machine

open Sys2Proof

/-! ## Loading (spec/20_memory.md R110-R116, R121) -/

/-- The byte of an image at an offset, 0x00 past its end. -/
def imageByte (image : List Byte) (i : Nat) : Byte := image.getD i 0x00

/-- `n` bytes of an image from an offset on. -/
def imageSlice (image : List Byte) (i n : Nat) : List Byte := (List.range n).map (fun k => imageByte image (i + k))

/-- The header at offset 0x100 (spec/20_memory.md R111). -/
def parseHeader (image : List Byte) : Header :=
  { entryVector := imageSlice image 0x100 4
    logo := imageSlice image 0x104 0x30
    title := imageSlice image 0x134 16
    newLicensee := imageSlice image 0x144 2
    sgbFlag := imageByte image 0x146
    typeCode := imageByte image 0x147
    romSizeCode := imageByte image 0x148
    ramSizeCode := imageByte image 0x149
    destination := imageByte image 0x14A
    oldLicensee := imageByte image 0x14B
    maskRomVersion := imageByte image 0x14C
    headerChecksum := imageByte image 0x14D
    globalChecksum := imageSlice image 0x14E 2 }

/-- The family and the battery flag of a type code (spec/20_memory.md R114). -/
def typeCodeInfo (code : Byte) : Option (Family × Bool) :=
  if code = 0x00 then some (.plain, false)
  else if code = 0x01 then some (.familyA, false)
  else if code = 0x02 then some (.familyA, false)
  else if code = 0x03 then some (.familyA, true)
  else if code = 0x0F then some (.familyB, true)
  else if code = 0x10 then some (.familyB, true)
  else if code = 0x11 then some (.familyB, false)
  else if code = 0x12 then some (.familyB, false)
  else if code = 0x13 then some (.familyB, true)
  else none

/-- `rom_banks = 2 << c` for the admitted ROM-size codes 0..8 (spec/20_memory.md R112). -/
def romBankCount (code : Byte) : Option Nat :=
  if code.toNat ≤ 8 then some (2 <<< code.toNat) else none

/-- The bank count of a RAM-size code (spec/20_memory.md R113). -/
def ramBankCount (code : Byte) : Option Nat :=
  if code = 0 then some 0
  else if code = 1 then some 0
  else if code = 2 then some 1
  else if code = 3 then some 4
  else if code = 4 then some 16
  else if code = 5 then some 8
  else none

/-- The diagnostic 8-bit header checksum: start at 0 and, for each byte of 0x134..0x14C, subtract the byte and one
(spec/20_memory.md R115). -/
def headerChecksum (image : List Byte) : Byte :=
  (imageSlice image 0x134 25).foldl (fun x v => x - v - 1) 0

/-- The header is reported valid iff the checksum is the byte at 0x14D; nothing depends on it (spec/20_memory.md R115). -/
def headerChecksumValid (image : List Byte) : Bool := headerChecksum image == imageByte image 0x14D

/-- External RAM at reset: zero, or the battery image copied into bank 0 when the cartridge has a bank 0
(spec/10_state.md R51, spec/20_memory.md R131; log 12). -/
def initialRam (ramBanks : Nat) (battery : Option (List Byte)) : Memory :=
  match battery with
  | some save => if ramBanks = 0 then [] else Memory.ofBytes 0 (save.take Config.ramBankSize)
  | none => []

/-- The cartridge of an image, admitted or with the offending field. Where several fields offend, the first in the
order length, type, ROM size, RAM size is recorded (log 11). -/
def loadCartridge (image : List Byte) (battery : Option (List Byte)) : Cartridge :=
  let base : Cartridge := { Cartridge.absent with rom := Memory.ofBytes 0 image, romLen := image.length }
  if image.length < 0x150 then base
  else
    let hd := parseHeader image
    let base := { base with header := some hd }
    match typeCodeInfo hd.typeCode with
    | none => { base with rejected := some .typeCode }
    | some (family, hasBattery) =>
      match romBankCount hd.romSizeCode with
      | none => { base with rejected := some .romSizeCode }
      | some romBanks =>
        match ramBankCount hd.ramSizeCode with
        | none => { base with rejected := some .ramSizeCode }
        | some ramBanks =>
          { base with rejected := none, family := family, battery := hasBattery, romBanks := romBanks,
                      ramBanks := ramBanks, ram := initialRam ramBanks battery }

/-! ## Access (spec/20_memory.md R118-R130) -/

/-- The open-bus byte of the cartridge: past the image, disabled or absent RAM (spec/20_memory.md R118, R120, R130). -/
def openBus : Byte := 0xFF

/-- The byte of the image at an offset, or 0xFF past its end (spec/20_memory.md R118, R120). -/
def Cartridge.romByte (c : Cartridge) (i : Nat) : Byte := if i < c.romLen then c.rom.read i else openBus

/-- The image offset that a ROM address reads: itself below 0x4000 and on a plain cartridge, else in the selected
bank modulo the declared bank count (spec/20_memory.md R118, R120). -/
def Cartridge.romOffset (c : Cartridge) (a : Word) : Nat :=
  match c.family with
  | .plain => a.toNat
  | .familyA | .familyB =>
    if a.toNat < 0x4000 then a.toNat
    else (c.romSel.toNat % c.romBanks) * Config.romBankSize + (a.toNat - 0x4000)

/-- The active RAM bank: Family A's `ram_sel` only in RAM-banking mode (spec/20_memory.md R126), Family B's always
(R128). -/
def Cartridge.activeRamBank (c : Cartridge) : Nat :=
  match c.family with
  | .plain => 0
  | .familyA => if c.bankMode then c.ramSel.toNat else 0
  | .familyB => c.ramSel.toNat

/-- Whether external RAM answers: never on a plain cartridge, and only while enabled and in a bank that exists
(spec/20_memory.md R118, R130). -/
def Cartridge.ramAccessible (c : Cartridge) : Bool :=
  match c.family with
  | .plain => false
  | .familyA | .familyB => c.ramEnabled && decide (c.activeRamBank < c.ramBanks)

/-- The key of `ram` that an external RAM address reads or writes (spec/20_memory.md R130). -/
def Cartridge.ramKey (c : Cartridge) (a : Word) : Nat := c.activeRamBank * Config.ramBankSize + (a.toNat - 0xA000)

/-- A cartridge read of 0x0000-0x7FFF (spec/20_memory.md R82, R118, R120). -/
def Cartridge.readRom (c : Cartridge) (a : Word) : Byte := c.romByte (c.romOffset a)

/-- A cartridge read of 0xA000-0xBFFF (spec/20_memory.md R84, R118, R130). -/
def Cartridge.readRam (c : Cartridge) (a : Word) : Byte :=
  if c.ramAccessible then c.ram.read (c.ramKey a) else openBus

/-- A bank select of which 0 is coerced to 1 (spec/20_memory.md R123, R127). -/
def coerceBank (v : Byte) : Byte := if v = 0 then 1 else v

/-- A cartridge write of 0x0000-0x7FFF: the bank-controller registers, never the image (spec/20_memory.md R82, R119,
R122-R129). -/
def Cartridge.writeControl (c : Cartridge) (a : Word) (v : Byte) : Cartridge :=
  match c.family with
  | .plain => c
  | .familyA =>
    if a.toNat < 0x2000 then { c with ramEnabled := v &&& 0x0F == 0x0A }
    else if a.toNat < 0x4000 then { c with romSel := coerceBank (v &&& 0x1F) }
    else if a.toNat < 0x6000 then { c with ramSel := v.extractLsb' 0 2 }
    else { c with bankMode := bitOf v 0 }
  | .familyB =>
    if a.toNat < 0x2000 then { c with ramEnabled := v &&& 0x0F == 0x0A }
    else if a.toNat < 0x4000 then { c with romSel := coerceBank (v &&& 0x7F) }
    else if a.toNat < 0x6000 then { c with ramSel := v.extractLsb' 0 2 }
    else c

/-- A cartridge write of 0xA000-0xBFFF (spec/20_memory.md R119, R130). -/
def Cartridge.writeRam (c : Cartridge) (a : Word) (v : Byte) : Cartridge :=
  if c.ramAccessible then
    { c with ram := c.ram.write (c.ramKey a) v, needsSave := c.needsSave || c.battery }
  else c

end Sys2Proof.Machine
end

