-- ==== Sys2Proof/Machine/Timer.lean ====
section
/-! DEFINITION. The interrupt sources and their requests (spec/60_exceptions.md R400-R402), and the timer
(R420-R425). -/

namespace Sys2Proof.Machine

open Sys2Proof

/-- The five interrupt sources (spec/60_exceptions.md R402). -/
inductive IntSource where
  | vblank | lcdStat | timer | serial | joypad
  deriving DecidableEq, Repr

/-- The source's bit of IF and IE (spec/60_exceptions.md R402). -/
def IntSource.bit : IntSource → Nat
  | .vblank => 0
  | .lcdStat => 1
  | .timer => 2
  | .serial => 3
  | .joypad => 4

/-- The IF byte with the source's pending bit set (spec/60_exceptions.md R401). -/
def requestIn (flags : BitVec 5) (src : IntSource) : BitVec 5 := flags ||| (1#5 <<< src.bit)

/-- The IF byte with the source's bit set when the condition holds. -/
def requestIf (cond : Bool) (flags : BitVec 5) (src : IntSource) : BitVec 5 :=
  if cond then requestIn flags src else flags

/-- The divider bit whose falling edge counts, by TAC bits 1:0 (spec/10_state.md R38). -/
def Timer.edgeBit (t : Timer) : Nat :=
  match t.tac.toNat % 4 with
  | 0 => 9
  | 1 => 3
  | 2 => 5
  | _ => 7

/-- TAC bit 2, the enable (spec/10_state.md R38). -/
def Timer.enabled (t : Timer) : Bool := t.tac.getLsbD 2

/-- One increment of TIMA: on overflow it reloads from TMA; true when it asks for the timer interrupt
(spec/60_exceptions.md R423). -/
def Timer.increment (t : Timer) : Timer × Bool :=
  if t.tima = 0xFF then ({ t with tima := t.tma }, true) else ({ t with tima := t.tima + 1 }, false)

/-- Whether this tick is a falling edge of the selected divider bit (spec/60_exceptions.md R421). -/
def Timer.fallingEdge (t : Timer) : Bool :=
  t.div.getLsbD t.edgeBit && !(t.div + 1).getLsbD t.edgeBit

/-- One timer tick; true when it asks for the timer interrupt (spec/60_exceptions.md R421). -/
def Timer.tick (t : Timer) : Timer × Bool :=
  let t' := { t with div := t.div + 1 }
  if t.enabled && t.fallingEdge then t'.increment else (t', false)

end Sys2Proof.Machine
end

