-- ==== Sys2Proof/Machine/Ppu.lean ====
section
/-! DEFINITION. The video controller: OAM scan, pixel pipeline, compositor, palettes, line and frame timing, LCD off and
on (spec/61_video.md R460-R498). A tick is a function of the PPU, of the memory it reads (VRAM, OAM), of the run-time
parameters and of IF, whose V-blank and LCD-status bits it may set. -/

namespace Sys2Proof.Machine

open Sys2Proof

/-! ## Register fields (spec/10_state.md R40, R41, R45) -/

/-- LCDC bit 7, LCD enable. -/
def Ppu.lcdOn (p : Ppu) : Bool := bitOf p.lcdc 7

/-- LCDC bit 6: the window's tile map is at 0x9C00. -/
def Ppu.windowMapHigh (p : Ppu) : Bool := bitOf p.lcdc 6

/-- LCDC bit 5, window enable. -/
def Ppu.windowEnabled (p : Ppu) : Bool := bitOf p.lcdc 5

/-- LCDC bit 4: unsigned tile numbers from 0x8000. -/
def Ppu.unsignedTiles (p : Ppu) : Bool := bitOf p.lcdc 4

/-- LCDC bit 3: the background's tile map is at 0x9C00. -/
def Ppu.bgMapHigh (p : Ppu) : Bool := bitOf p.lcdc 3

/-- LCDC bit 2: sprites are 16 pixels tall. -/
def Ppu.tallSprites (p : Ppu) : Bool := bitOf p.lcdc 2

/-- LCDC bit 1, sprite enable. -/
def Ppu.spritesEnabled (p : Ppu) : Bool := bitOf p.lcdc 1

/-- LCDC bit 0, background and window enable. -/
def Ppu.bgEnabled (p : Ppu) : Bool := bitOf p.lcdc 0

/-- STAT bit 3, H-blank interrupt select. -/
def Ppu.hblankSelected (p : Ppu) : Bool := p.statSel.getLsbD 0

/-- STAT bit 4, V-blank interrupt select. -/
def Ppu.vblankSelected (p : Ppu) : Bool := p.statSel.getLsbD 1

/-- STAT bit 5, OAM-scan interrupt select. -/
def Ppu.oamSelected (p : Ppu) : Bool := p.statSel.getLsbD 2

/-- STAT bit 6, LY=LYC interrupt select. -/
def Ppu.lycSelected (p : Ppu) : Bool := p.statSel.getLsbD 3

/-- The mode number STAT bits 1:0 show (spec/10_state.md R41). -/
def LcdMode.number : LcdMode → BitVec 2
  | .hblank => 0
  | .vblank => 1
  | .oamScan => 2
  | .transfer => 3

/-- Rows of a sprite. -/
def ObjHeight.rows : ObjHeight → Nat
  | .short => 8
  | .tall => 16

/-- The shade a palette register gives a colour index, `p[2i+1:2i]` (spec/10_state.md R45). -/
def shadeOf (palette : Byte) (i : BitVec 2) : BitVec 2 := palette.extractLsb' (2 * i.toNat) 2

/-- `COLOUR_RAMP[shade]`. -/
def rampColour (ramp : Config.Ramp) (shade : BitVec 2) : Colour :=
  match shade.toNat with
  | 0 => ramp.shade0
  | 1 => ramp.shade1
  | 2 => ramp.shade2
  | _ => ramp.shade3

/-- The resolved colour of a palette entry, the entry of the source's resolved colour tables (spec/61_video.md R480,
R487). -/
def paletteColour (par : Config.Params) (palette : Byte) (i : BitVec 2) : Colour :=
  rampColour par.ramp (shadeOf palette i)

/-! ## Direct reads of VRAM and OAM (spec/61_video.md R498) -/

/-- `VRAM[i]`. -/
def vramByte (mem : Memory) (i : Nat) : Byte := mem.read (0x8000 + i)

/-- `OAM[i]`. -/
def oamByte (mem : Memory) (i : Nat) : Byte := mem.read (0xFE00 + i)

/-- OAM entry k (spec/10_state.md R33). -/
def oamEntry (mem : Memory) (k : Nat) : Sprite :=
  { y := oamByte mem (4 * k), x := oamByte mem (4 * k + 1), tile := oamByte mem (4 * k + 2),
    attr := oamByte mem (4 * k + 3), index := k }

/-! ## OAM scan (spec/61_video.md R463, R464) -/

/-- Whether a sprite of this height covers the line: `Y <= LY + 16 < Y + rows`. -/
def Sprite.covers (sp : Sprite) (ly : Byte) (rows : Nat) : Bool :=
  decide (sp.y.toNat ≤ ly.toNat + 16) && decide (ly.toNat + 16 < sp.y.toNat + rows)

/-- The order of the selection: ascending X, then ascending OAM index. -/
def Sprite.before (s t : Sprite) : Bool :=
  decide (s.x.toNat < t.x.toNat) || (s.x == t.x && decide (s.index < t.index))

/-- Insert a sprite into a list in selection order. -/
def insertSprite (s : Sprite) : List Sprite → List Sprite
  | [] => [s]
  | t :: ts => if s.before t then s :: t :: ts else t :: insertSprite s ts

/-- Sort sprites into selection order. -/
def sortSprites : List Sprite → List Sprite
  | [] => []
  | s :: ss => insertSprite s (sortSprites ss)

/-- The sprites of all 40 OAM entries that cover the line, in OAM order. -/
def coveringSprites (mem : Memory) (ly : Byte) (rows : Nat) : List Sprite :=
  ((List.range 40).map (oamEntry mem)).filter (fun sp => sp.covers ly rows)

/-- The OAM scan. -/
def Ppu.oamScan (mem : Memory) (p : Ppu) : Ppu :=
  let height : ObjHeight := if p.tallSprites then .tall else .short
  { p with
    objHeight := height
    lineSprites := (sortSprites (coveringSprites mem p.ly height.rows)).take Config.maxLineSprites }

/-! ## The pixel at a line coordinate (spec/61_video.md R470-R480) -/

/-- The VRAM offset of row `r` of the tile numbered `t`, in the unsigned or the signed mode (spec/61_video.md R474). -/
def tileRowOffset (t : Byte) (r : Nat) (unsignedMode : Bool) : Nat :=
  if unsignedMode then 16 * t.toNat + 2 * r else (0x1000 + 16 * t.toInt).toNat + 2 * r

/-- The colour index of column `c` of row `r` of a tile (spec/61_video.md R474). -/
def tileIndex (mem : Memory) (t : Byte) (r c : Nat) (unsignedMode : Bool) : BitVec 2 :=
  let base := tileRowOffset t r unsignedMode
  BitVec.ofBool (bitOf (vramByte mem (base + 1)) (7 - c)) ++ BitVec.ofBool (bitOf (vramByte mem base) (7 - c))

/-- The VRAM offset of a tile map: 0x9C00 or 0x9800. -/
def mapOffset (high : Bool) : Nat := if high then 0x1C00 else 0x1800

/-- The tile number at a column and row of pixels of a tile map. -/
def mapTile (mem : Memory) (high : Bool) (x y : Nat) : Byte :=
  vramByte mem (mapOffset high + (y / 8) * 32 + x / 8)

/-- The background's colour index at a line coordinate (spec/61_video.md R472). -/
def Ppu.bgIndex (mem : Memory) (p : Ppu) (u : Nat) : BitVec 2 :=
  let bx := ((p.scx &&& 0xF8).toNat + u) % 256
  let y := (p.ly.toNat + p.scy.toNat) % 256
  tileIndex mem (mapTile mem p.bgMapHigh bx y) (y % 8) (bx % 8) p.unsignedTiles

/-- The window's colour index at a window column (spec/61_video.md R473). -/
def Ppu.windowIndex (mem : Memory) (p : Ppu) (wx : Nat) : BitVec 2 :=
  let y := p.windowLine.toNat
  tileIndex mem (mapTile mem p.windowMapHigh wx y) (y % 8) (wx % 8) p.unsignedTiles

/-- Window visibility on the current line (spec/61_video.md R471). -/
def Ppu.windowVisible (p : Ppu) : Bool :=
  p.windowEnabled && p.bgEnabled && decide (p.wy.toNat ≤ p.ly.toNat) && decide (p.wx.toNat ≤ 166)

/-- The colour index of a selected sprite at a screen column it covers (spec/61_video.md R477). -/
def Ppu.spriteIndex (mem : Memory) (p : Ppu) (sp : Sprite) (sx : Int) : BitVec 2 :=
  let row := p.ly.toNat + 16 - sp.y.toNat
  let row := if bitOf sp.attr 6 then p.objHeight.rows - 1 - row else row
  let tile := match p.objHeight with
    | .short => sp.tile
    | .tall => (sp.tile &&& 0xFE) + BitVec.ofNat 8 (row / 8)
  let col := (sx - ((sp.x.toNat : Int) - 8)).toNat
  let col := if bitOf sp.attr 5 then 7 - col else col
  tileIndex mem tile (row % 8) col true

/-- The first sprite of a list with a non-transparent pixel at a screen column: its colour index and attributes, or
index 0 (spec/61_video.md R477). -/
def Ppu.spriteAmong (mem : Memory) (p : Ppu) (sx : Int) : List Sprite → BitVec 2 × Byte
  | [] => (0, 0)
  | sp :: sps =>
    if (sp.x.toNat : Int) - 8 ≤ sx ∧ sx < (sp.x.toNat : Int) then
      let i := p.spriteIndex mem sp sx
      if i ≠ 0 then (i, sp.attr) else p.spriteAmong mem sx sps
    else p.spriteAmong mem sx sps

/-- The sprite pixel at a screen column (spec/61_video.md R477). -/
def Ppu.spritePixel (mem : Memory) (p : Ppu) (sx : Int) : BitVec 2 × Byte :=
  if p.spritesEnabled then p.spriteAmong mem sx p.lineSprites else (0, 0)

/-- `obj_colour`: the sprite palette is OBP1 when attribute bit 4 is set, else OBP0 (spec/61_video.md R480). -/
def Ppu.objColour (par : Config.Params) (p : Ppu) (i : BitVec 2) (attr : Byte) : Colour :=
  paletteColour par (if bitOf attr 4 then p.obp1 else p.obp0) i

/-- The background or window pixel at a line coordinate: its colour index and colour (spec/61_video.md R470, R476). -/
def Ppu.bgPixel (mem : Memory) (par : Config.Params) (p : Ppu) (u : Nat) : BitVec 2 × Colour :=
  let sx : Int := (u : Int) - (p.fineX : Int)
  let left : Int := (p.wx.toNat : Int) - 7
  if p.bgEnabled = false then (0, par.ramp.shade0)
  else if p.windowVisible = true ∧ left ≤ sx ∧ 0 ≤ sx then
    let i := p.windowIndex mem (sx - left).toNat
    (i, paletteColour par p.bgp i)
  else
    let i := p.bgIndex mem u
    (i, paletteColour par p.bgp i)

/-- The composed pixel at a line coordinate (spec/61_video.md R470, R479). -/
def Ppu.pixel (mem : Memory) (par : Config.Params) (p : Ppu) (u : Nat) : Colour :=
  let bg := p.bgPixel mem par u
  let obj := p.spritePixel mem ((u : Int) - (p.fineX : Int))
  if obj.1 ≠ 0 ∧ (p.bgEnabled = false ∨ bitOf obj.2 7 = false ∨ bg.1 = 0) then p.objColour par obj.1 obj.2
  else bg.2

/-! ## The pipeline (spec/61_video.md R465-R469) -/

/-- Start of pixel transfer (spec/61_video.md R465). -/
def Ppu.startTransfer (p : Ppu) : Ppu :=
  { p with mode := .transfer, fifo := [], fetchState := .tile, fetchX := 0, lineX := 0, pushedX := 0,
           fineX := p.scx.toNat % 8 }

/-- The eight pixels of the next group. -/
def Ppu.nextGroup (mem : Memory) (par : Config.Params) (p : Ppu) : List Colour :=
  (List.range 8).map (fun i => p.pixel mem par (p.fetchX + i))

/-- One fetcher step (spec/61_video.md R466). -/
def Ppu.fetcherStep (mem : Memory) (par : Config.Params) (p : Ppu) : Ppu :=
  match p.fetchState with
  | .tile => { p with fetchState := .data0 }
  | .data0 => { p with fetchState := .data1 }
  | .data1 => { p with fetchState := .idle }
  | .idle => { p with fetchState := .push }
  | .push =>
    if p.fifo.length ≤ 8 then
      { p with fifo := p.fifo ++ p.nextGroup mem par, fetchX := p.fetchX + 8, fetchState := .tile }
    else p

/-- The key of a framebuffer pixel. -/
def pixelKey (row column : Nat) : Nat := row * Config.screenWidth + column

/-- One pop step (spec/61_video.md R467). -/
def Ppu.popStep (par : Config.Params) (p : Ppu) : Ppu :=
  match p.fifo with
  | [] => p
  | px :: rest =>
    if 8 ≤ p.fifo.length then
      if p.fineX ≤ p.lineX then
        { p with
          fifo := rest
          framebuffer := Cells.write par.ramp.shade0 p.framebuffer (pixelKey p.ly.toNat p.pushedX) px
          pushedX := p.pushedX + 1
          lineX := p.lineX + 1 }
      else { p with fifo := rest, lineX := p.lineX + 1 }
    else p

/-- End of pixel transfer (spec/61_video.md R468, R493, R497). -/
def Ppu.enterHblank (p : Ppu) (flags : BitVec 5) : Ppu × BitVec 5 :=
  ({ p with mode := .hblank, windowLine := if p.windowVisible then p.windowLine + 1 else p.windowLine },
   requestIf p.hblankSelected flags .lcdStat)

/-! ## Lines and frames (spec/61_video.md R490-R494) -/

/-- The line, mode, window line and frame counter at a line transition, with the V-blank and LCD-status requests of
entering the new mode (spec/61_video.md R492, R493). -/
def Ppu.nextLine (par : Config.Params) (p : Ppu) (flags : BitVec 5) : Ppu × BitVec 5 :=
  let ly := p.ly + 1
  if ly = 144 then
    ({ p with ly := ly, mode := .vblank, frameCounter := (p.frameCounter + 1) % 2 ^ par.frameCounterBits },
     requestIf p.vblankSelected (requestIn flags .vblank) .lcdStat)
  else if ly = 154 then
    ({ p with ly := 0, windowLine := 0, mode := .oamScan }, requestIf p.oamSelected flags .lcdStat)
  else if ly.toNat < 144 then
    ({ p with ly := ly, mode := .oamScan }, requestIf p.oamSelected flags .lcdStat)
  else ({ p with ly := ly }, flags)

/-- The comparison of LY with LYC at a line transition and its request (spec/61_video.md R492). -/
def Ppu.compareLine (p : Ppu) (flags : BitVec 5) : Ppu × BitVec 5 :=
  ({ p with coincidence := p.ly == p.lyc }, requestIf (p.ly == p.lyc && p.lycSelected) flags .lcdStat)

/-- The pipeline buffers reset at a line transition (spec/61_video.md R492). -/
def Ppu.clearLine (p : Ppu) : Ppu :=
  { p with lineTicks := 0, fifo := [], lineSprites := [], fetchState := .tile }

/-- The line transition at the end of tick 455 (spec/61_video.md R492). -/
def Ppu.lineTransition (par : Config.Params) (p : Ppu) (flags : BitVec 5) : Ppu × BitVec 5 :=
  let q := p.clearLine.nextLine par flags
  q.1.compareLine q.2

/-! ## LCD off and on (spec/61_video.md R496) -/

/-- A tick with the LCD off. -/
def Ppu.offTick (p : Ppu) : Ppu :=
  if p.lcdWasOn then
    { p with lcdWasOn := false, ly := 0, lineTicks := 0, mode := .hblank, fifo := [], lineSprites := [],
             fetchState := .tile }
  else p

/-- The LCD turned on: line 0, tick 0, OAM scan, without an LCD-status request. -/
def Ppu.turnOn (p : Ppu) : Ppu :=
  if p.lcdWasOn then p
  else { p with lcdWasOn := true, ly := 0, lineTicks := 0, windowLine := 0, mode := .oamScan,
                coincidence := 0 == p.lyc }

/-! ## The tick (spec/61_video.md R461) -/

/-- What a tick does in each mode, the tick already counted. -/
def Ppu.modeTick (mem : Memory) (par : Config.Params) (p : Ppu) (flags : BitVec 5) : Ppu × BitVec 5 :=
  match p.mode with
  | .oamScan =>
    if p.lineTicks = Config.oamScanTicks then ((p.oamScan mem).startTransfer, flags) else (p, flags)
  | .transfer =>
    let q := (p.fetcherStep mem par).popStep par
    if q.pushedX = Config.screenWidth then q.enterHblank flags else (q, flags)
  | .hblank => if p.lineTicks = Config.ticksPerLine then p.lineTransition par flags else (p, flags)
  | .vblank => if p.lineTicks = Config.ticksPerLine then p.lineTransition par flags else (p, flags)

/-- Count the tick. -/
def Ppu.countTick (p : Ppu) : Ppu := { p with lineTicks := p.lineTicks + 1 }

/-- One PPU tick. -/
def Ppu.tick (mem : Memory) (par : Config.Params) (p : Ppu) (flags : BitVec 5) : Ppu × BitVec 5 :=
  if p.lcdOn then p.turnOn.countTick.modeTick mem par flags else (p.offTick, flags)

end Sys2Proof.Machine
end

