-- ==== Sys2Proof/Machine/Bus.lean ====
section
/-! DEFINITION. The bus dispatcher: the address map, the register handlers of the I/O block, and the two bus operations,
total on the 16-bit address space (spec/20_memory.md R80-R96, spec/10_state.md R53). -/

namespace Sys2Proof.Machine

open Sys2Proof

/-! ## The address map (spec/20_memory.md R81) -/

/-- The regions of the address space. -/
inductive Region where
  | rom | vram | externalRam | wram | echo | oam | unusable | io | hram | intEnable
  deriving DecidableEq, Repr

/-- The region of an address: every address has exactly one. -/
def regionOf (a : Word) : Region :=
  if a.toNat < 0x8000 then .rom
  else if a.toNat < 0xA000 then .vram
  else if a.toNat < 0xC000 then .externalRam
  else if a.toNat < 0xE000 then .wram
  else if a.toNat < 0xFE00 then .echo
  else if a.toNat < 0xFEA0 then .oam
  else if a.toNat < 0xFF00 then .unusable
  else if a.toNat < 0xFF80 then .io
  else if a.toNat < 0xFFFF then .hram
  else .intEnable

/-- The registers of the I/O block with a handler (spec/10_state.md R53). -/
inductive IoReg where
  | p1 | sb | sc | div | tima | tma | tac | intFlags
  | lcdc | stat | scy | scx | ly | lyc | dma | bgp | obp0 | obp1 | wy | wx
  deriving DecidableEq, Repr

/-- The register at an address of the I/O block, if it has a handler (spec/10_state.md R53); an address without one is
unmapped, the audio range among them (spec/20_memory.md R95, R96). -/
def ioRegAt (a : Word) : Option IoReg :=
  match a.toNat with
  | 0xFF00 => some .p1
  | 0xFF01 => some .sb
  | 0xFF02 => some .sc
  | 0xFF04 => some .div
  | 0xFF05 => some .tima
  | 0xFF06 => some .tma
  | 0xFF07 => some .tac
  | 0xFF0F => some .intFlags
  | 0xFF40 => some .lcdc
  | 0xFF41 => some .stat
  | 0xFF42 => some .scy
  | 0xFF43 => some .scx
  | 0xFF44 => some .ly
  | 0xFF45 => some .lyc
  | 0xFF46 => some .dma
  | 0xFF47 => some .bgp
  | 0xFF48 => some .obp0
  | 0xFF49 => some .obp1
  | 0xFF4A => some .wy
  | 0xFF4B => some .wx
  | _ => none

/-! ## The gamepad latch (spec/10_state.md R48, spec/60_exceptions.md R438) -/

/-- The pressed action buttons, bit 3 Start, 2 Select, 1 B, 0 A. -/
def actionBits (b : Config.Buttons) : BitVec 4 :=
  BitVec.ofBool b.start ++ BitVec.ofBool b.select ++ BitVec.ofBool b.b ++ BitVec.ofBool b.a

/-- The pressed direction buttons, bit 3 Down, 2 Up, 1 Left, 0 Right. -/
def directionBits (b : Config.Buttons) : BitVec 4 :=
  BitVec.ofBool b.down ++ BitVec.ofBool b.up ++ BitVec.ofBool b.left ++ BitVec.ofBool b.right

/-- P1 bits 3:0: a line is 0 iff a button of it is pressed in a selected row. -/
def joypadLines (sel : BitVec 2) (b : Config.Buttons) : BitVec 4 :=
  ~~~((if sel.getLsbD 1 then 0 else actionBits b) ||| (if sel.getLsbD 0 then 0 else directionBits b))

/-- The P1 input lines of a state. -/
def State.lines (s : State) : BitVec 4 := joypadLines s.joySel s.buttons

/-- Change the row select or the buttons, requesting the joypad interrupt when an input line falls from 1 to 0
(spec/60_exceptions.md R438). -/
def State.setJoypad (sel : BitVec 2) (b : Config.Buttons) (s : State) : State :=
  { s with
    joySel := sel
    buttons := b
    intFlags := requestIf (s.lines &&& ~~~(joypadLines sel b) != 0) s.intFlags .joypad }

/-! ## Register handlers (spec/10_state.md R30-R50) -/

/-- Read an I/O register. -/
def ioRead (s : State) : IoReg → Byte
  | .p1 => 0b11#2 ++ s.joySel ++ s.lines
  | .sb => s.sb
  | .sc => s.sc
  | .div => hiByte s.timer.div
  | .tima => s.timer.tima
  | .tma => s.timer.tma
  | .tac => 0b11111#5 ++ s.timer.tac
  | .intFlags => 0b111#3 ++ s.intFlags
  | .lcdc => s.ppu.lcdc
  | .stat => 0b1#1 ++ s.ppu.statSel ++ BitVec.ofBool s.ppu.coincidence ++ s.ppu.mode.number
  | .scy => s.ppu.scy
  | .scx => s.ppu.scx
  | .ly => s.ppu.ly
  | .lyc => s.ppu.lyc
  | .dma => s.dma.reg
  | .bgp => s.ppu.bgp
  | .obp0 => s.ppu.obp0
  | .obp1 => s.ppu.obp1
  | .wy => s.ppu.wy
  | .wx => s.ppu.wx

/-- `start(v)` of the DMA engine, with the DMA register byte (spec/60_exceptions.md R430, spec/10_state.md R50). -/
def dmaStart (v : Byte) : Dma := { active := true, delay := 2, offset := 0, src := v, reg := v }

/-- Write an I/O register. -/
def ioWrite (s : State) (v : Byte) : IoReg → State
  | .p1 => s.setJoypad (v.extractLsb' 4 2) s.buttons
  | .sb => { s with sb := v }
  | .sc => { s with sc := v }
  | .div => { s with timer := { s.timer with div := 0 } }
  | .tima => { s with timer := { s.timer with tima := v } }
  | .tma => { s with timer := { s.timer with tma := v } }
  | .tac => { s with timer := { s.timer with tac := v.extractLsb' 0 3 } }
  | .intFlags => { s with intFlags := v.extractLsb' 0 5 }
  | .lcdc => { s with ppu := { s.ppu with lcdc := v } }
  | .stat => { s with ppu := { s.ppu with statSel := v.extractLsb' 3 4 } }
  | .scy => { s with ppu := { s.ppu with scy := v } }
  | .scx => { s with ppu := { s.ppu with scx := v } }
  | .ly => s
  | .lyc => { s with ppu := { s.ppu with lyc := v } }
  | .dma => { s with dma := dmaStart v }
  | .bgp => { s with ppu := { s.ppu with bgp := v } }
  | .obp0 => { s with ppu := { s.ppu with obp0 := v } }
  | .obp1 => { s with ppu := { s.ppu with obp1 := v } }
  | .wy => { s with ppu := { s.ppu with wy := v } }
  | .wx => { s with ppu := { s.ppu with wx := v } }

/-! ## The bus operations (spec/20_memory.md R80-R96) -/

/-- The byte sprite memory reads as while a DMA is active (spec/20_memory.md R87). -/
def busyByte : Byte := 0xFF

/-- What an I/O address without a handler reads as (spec/20_memory.md R95). -/
def unmappedByte : Byte := 0x00

/-- `read(address)`: one bus read. No read has a side effect (spec/20_memory.md R101). -/
def busRead (s : State) (a : Word) : Byte :=
  match regionOf a with
  | .rom => s.cart.readRom a
  | .vram => s.mem.read a.toNat
  | .externalRam => s.cart.readRam a
  | .wram => s.mem.read a.toNat
  | .echo => s.params.echoRead
  | .oam => if s.dma.active then busyByte else s.mem.read a.toNat
  | .unusable => s.params.unusableRead
  | .io => match ioRegAt a with
    | some r => ioRead s r
    | none => unmappedByte
  | .hram => s.mem.read a.toNat
  | .intEnable => s.intEnable

/-- `write(address, byte)`: one bus write. -/
def busWrite (s : State) (a : Word) (v : Byte) : State :=
  match regionOf a with
  | .rom => { s with cart := s.cart.writeControl a v }
  | .vram => { s with mem := s.mem.write a.toNat v }
  | .externalRam => { s with cart := s.cart.writeRam a v }
  | .wram => { s with mem := s.mem.write a.toNat v }
  | .echo => s
  | .oam => if s.dma.active then s else { s with mem := s.mem.write a.toNat v }
  | .unusable => s
  | .io => match ioRegAt a with
    | some r => ioWrite s v r
    | none => s
  | .hram => { s with mem := s.mem.write a.toNat v }
  | .intEnable => { s with intEnable := v }

end Sys2Proof.Machine
end

