-- ==== Sys2Proof/Machine/Ops.lean ====
section
/-! DEFINITION. The named operations every meaning is written with: the CPU cycle and its fan-out to timer, PPU and DMA
engine, one bus access with its cycle, instruction fetch, the stack, taking an interrupt and returning from one
(spec/30_encoding.md R160-R162, spec/60_exceptions.md R403-R406, R430-R434). -/

namespace Sys2Proof.Machine

open Sys2Proof

/-! ## Device ticks and the CPU cycle -/

/-- `request(src)` (spec/60_exceptions.md R401). -/
def State.request (src : IntSource) (s : State) : State := { s with intFlags := requestIn s.intFlags src }

/-- `timer_tick()` (spec/60_exceptions.md R421, R423). -/
def timerTick (s : State) : State :=
  let t := s.timer.tick
  { s with timer := t.1, intFlags := requestIf t.2 s.intFlags .timer }

/-- `ppu_tick()` (spec/61_video.md R461). -/
def ppuTick (s : State) : State :=
  let t := s.ppu.tick s.mem s.params s.intFlags
  { s with ppu := t.1, intFlags := t.2 }

/-- The source address of the DMA engine's next byte, `dma_src * 0x100 + dma_offset` (spec/60_exceptions.md R431). -/
def Dma.sourceAddress (d : Dma) : Word := mk16 d.src 0x00 + BitVec.ofNat 16 d.offset

/-- The bus address of `OAM[offset]`. -/
def oamKey (offset : Nat) : Nat := 0xFE00 + offset

/-- The copy of one byte: read via the bus, written into OAM directly (spec/60_exceptions.md R431, R432). -/
def dmaCopy (s : State) : State :=
  { s with
    mem := s.mem.write (oamKey s.dma.offset) (busRead s s.dma.sourceAddress)
    dma := { s.dma with offset := s.dma.offset + 1, active := decide (s.dma.offset + 1 ≠ Config.dmaLength) } }

/-- `dma_tick()` (spec/60_exceptions.md R431). -/
def dmaTick (s : State) : State :=
  if s.dma.active = false then s
  else if 0 < s.dma.delay then { s with dma := { s.dma with delay := s.dma.delay - 1 } }
  else dmaCopy s

/-- One timer tick, then one PPU tick. -/
def tick (s : State) : State := ppuTick (timerTick s)

/-- `Cycle()`: four times a timer and a PPU tick, then one DMA tick (spec/30_encoding.md R161). -/
def cycle (s : State) : State := dmaTick (tick (tick (tick (tick s))))

/-- `n` CPU cycles in which the CPU accesses nothing. -/
def cycles : Nat → State → State
  | 0, s => s
  | n + 1, s => cycles n (cycle s)

/-! ## One line `Mk` of an instruction's rule (spec/00_scope.md R10) -/

/-- A line that reads a byte: the byte, and the state after the line's cycle. -/
def readCycle (s : State) (a : Word) : Byte × State := (busRead s a, cycle s)

/-- A line that writes a byte: the state after the line's cycle. -/
def writeCycle (s : State) (a : Word) (v : Byte) : State := cycle (busWrite s a v)

/-! ## Instruction fetch (spec/30_encoding.md R160) -/

/-- Add to PC, modulo 65536 (spec/10_state.md R25). -/
def State.advancePc (s : State) (n : Nat) : State := s.updCpu (fun p => { p with pc := p.pc + BitVec.ofNat 16 n })

/-- One fetched byte: read at PC, PC incremented, one cycle. -/
def fetchByte (s : State) : Byte × State := (busRead s s.cpu.pc, cycle (s.advancePc 1))

/-- An instruction's bytes as they are fetched, one a cycle, and the state after the last of these cycles. A byte the
instruction does not have is 0. -/
structure Fetched where
  op : Byte
  b1 : Byte
  b2 : Byte
  after : State

/-- The fetch lines of an instruction: the opcode, then as many bytes as it asks for (spec/30_encoding.md R140, R160
step 2; in every rule the immediate bytes are fetched in the lines right after the opcode's; log 6). -/
def fetchInstr (s : State) : Fetched :=
  let f0 := fetchByte s
  match instrLength f0.1 with
  | 1 => { op := f0.1, b1 := 0, b2 := 0, after := f0.2 }
  | 2 =>
    let f1 := fetchByte f0.2
    { op := f0.1, b1 := f1.1, b2 := 0, after := f1.2 }
  | _ =>
    let f1 := fetchByte f0.2
    let f2 := fetchByte f1.2
    { op := f0.1, b1 := f1.1, b2 := f2.1, after := f2.2 }

/-- The instruction the fetched bytes are. -/
def Fetched.instr (f : Fetched) : Instr := decodeBytes f.op f.b1 f.b2

/-! ## The stack (spec/10_state.md R24, spec/20_memory.md R97, spec/40_load.md R222, R223) -/

/-- Add to SP, modulo 65536. -/
def State.addSp (s : State) (n : Word) : State := s.updCpu (fun p => { p with sp := p.sp + n })

/-- Write PC. -/
def State.setPc (s : State) (v : Word) : State := s.updCpu (fun p => { p with pc := v })

/-- The lines of a push: one internal, then the high byte at SP - 1, then the low byte at SP - 2. -/
def pushWord (s : State) (v : Word) : State :=
  let s1 := cycle (s.addSp 0xFFFF)
  let s2 := writeCycle s1 s1.cpu.sp (hiByte v)
  let s3 := s2.addSp 0xFFFF
  writeCycle s3 s3.cpu.sp (loByte v)

/-- The lines of a pop: the low byte at SP, then the high byte at SP + 1. -/
def popWord (s : State) : Word × State :=
  let lo := readCycle s s.cpu.sp
  let s1 := lo.2.addSp 1
  let hi := readCycle s1 s1.cpu.sp
  (mk16 hi.1 lo.1, hi.2.addSp 1)

/-! ## Taking an interrupt (spec/60_exceptions.md R403-R405) -/

/-- The sources that are both pending and enabled, `IE & IF & 0x1F`. -/
def State.pendingEnabled (s : State) : BitVec 5 := s.intEnable.extractLsb' 0 5 &&& s.intFlags

/-- Whether an enabled interrupt is pending. -/
def State.interruptPending (s : State) : Bool := s.pendingEnabled != 0

/-- The selected source: the lowest bit that is both pending and enabled (spec/60_exceptions.md R402, R404). -/
def selectedBit (v : BitVec 5) : Nat :=
  if v.getLsbD 0 then 0 else if v.getLsbD 1 then 1 else if v.getLsbD 2 then 2 else if v.getLsbD 3 then 3 else 4

/-- The service address of source k, `0x0040 + 8 * k` (spec/60_exceptions.md R402). -/
def serviceAddress (k : Nat) : Word := BitVec.ofNat 16 (0x40 + 8 * k)

/-- What a dispatch does before its first cycle: the pending bit, the master enable, the latch and the halted flag
cleared (spec/60_exceptions.md R404). -/
def acknowledge (s : State) (k : Nat) : State :=
  { s with
    intFlags := s.intFlags &&& ~~~(1#5 <<< k)
    cpu := { s.cpu with ime := false, imePending := false, halted := false } }

/-- `dispatch()`: take the selected interrupt; five cycles (spec/60_exceptions.md R404). -/
def dispatch (s : State) : State :=
  let k := selectedBit s.pendingEnabled
  let s1 := cycle (acknowledge s k)
  let s2 := pushWord s1 s1.cpu.pc
  (cycle s2).setPc (serviceAddress k)

/-- The interrupt phase of an executed instruction's step (spec/30_encoding.md R160 step 4, spec/60_exceptions.md
R403). -/
def interruptPhase (s : State) : State := if s.cpu.ime && s.interruptPending then dispatch s else s

/-- The halted poll (spec/30_encoding.md R160 step 1, spec/60_exceptions.md R405). -/
def haltedPoll (s : State) : State :=
  if s.interruptPending then
    let s1 := s.updCpu (fun p => { p with halted := false })
    if s1.cpu.ime then dispatch s1 else cycle s1
  else cycle s

/-- The EI latch at the end of every step (spec/30_encoding.md R160 step 5, spec/10_state.md R27). -/
def endOfStep (s : State) : State :=
  if s.cpu.imePending then s.updCpu (fun p => { p with ime := true, imePending := false }) else s

/-- Steps 4 and 5 of an instruction's step: the interrupt phase and the EI latch, on a next state only
(spec/30_encoding.md R160, spec/60_exceptions.md R407). -/
def afterInstruction : Answer → Answer
  | .next t => .next (endOfStep (interruptPhase t))
  | .fault f => .fault f
  | .refused r => .refused r

/-! ## Returning (spec/44_control.md R328, R331, spec/60_exceptions.md R406) -/

/-- The lines of RET after its fetch: pop PC, one internal line. -/
def returnFromCall (s : State) : State :=
  let r := popWord s
  (cycle r.2).setPc r.1

/-- RETI: as RET, and IME is set at once; `ime_pending` is not changed. -/
def returnFromInterrupt (s : State) : State :=
  (returnFromCall s).updCpu (fun p => { p with ime := true })

end Sys2Proof.Machine
end

