-- ==== Sys2Proof/Machine/Alu16.lean ====
section
/-! DEFINITION. 16-bit arithmetic (spec/42_alu16.md R280-R283). The operations come first, then one meaning per
instruction. -/

namespace Sys2Proof.Machine

open Sys2Proof

/-! ## Operations -/

/-- ADD HL,dd (R280). -/
def addHLPair (dd : Pair) (s : State) : State :=
  (cycle s).updCpu (fun p =>
    let r := add16 p.hl (p.pair dd)
    (p.setPair .hl r.value).setFlags r.z r.n r.h r.c)

/-- INC dd: no flag (R281). -/
def incPair (dd : Pair) (s : State) : State := (cycle s).updCpu (fun p => p.setPair dd (p.pair dd + 1))

/-- DEC dd: no flag (R282). -/
def decPair (dd : Pair) (s : State) : State := (cycle s).updCpu (fun p => p.setPair dd (p.pair dd - 1))

/-- ADD SP,e8: two internal lines (R283). -/
def addSPImm (e : Byte) (s : State) : State :=
  (cycle (cycle s)).updCpu (fun p =>
    let r := addOffset p.sp e
    { p with sp := r.value }.setFlags r.z r.n r.h r.c)

/-! ## Meanings -/

/-- INC BC (R281). -/
def execIncBC (s : State) : Answer := .next (incPair .bc s)

/-- ADD HL,BC (R280). -/
def execAddHLBC (s : State) : Answer := .next (addHLPair .bc s)

/-- DEC BC (R282). -/
def execDecBC (s : State) : Answer := .next (decPair .bc s)

/-- INC DE (R281). -/
def execIncDE (s : State) : Answer := .next (incPair .de s)

/-- ADD HL,DE (R280). -/
def execAddHLDE (s : State) : Answer := .next (addHLPair .de s)

/-- DEC DE (R282). -/
def execDecDE (s : State) : Answer := .next (decPair .de s)

/-- INC HL (R281). -/
def execIncHL (s : State) : Answer := .next (incPair .hl s)

/-- ADD HL,HL (R280). -/
def execAddHLHL (s : State) : Answer := .next (addHLPair .hl s)

/-- DEC HL (R282). -/
def execDecHL (s : State) : Answer := .next (decPair .hl s)

/-- INC SP (R281). -/
def execIncSP (s : State) : Answer := .next (incPair .sp s)

/-- ADD HL,SP (R280). -/
def execAddHLSP (s : State) : Answer := .next (addHLPair .sp s)

/-- DEC SP (R282). -/
def execDecSP (s : State) : Answer := .next (decPair .sp s)

/-- ADD SP,e8 (R283). -/
def execAddSPe (e : Byte) (s : State) : Answer := .next (addSPImm e s)

end Sys2Proof.Machine
end

