-- ==== Sys2Proof/Machine/Alu8.lean ====
section
/-! DEFINITION. 8-bit arithmetic and logic (spec/41_alu8.md R240-R272). The operations come first, then one meaning per
instruction. -/

namespace Sys2Proof.Machine

open Sys2Proof

/-! ## Operations -/

/-- Store an ALU operation's result in A and its flags. -/
def Cpu.alu (p : Cpu) (op : AluOp) (v : Byte) : Cpu :=
  let r := aluResult op p.a v p.cf
  { p with a := r.value }.applyFlags r

/-- An ALU operation on a register (R241, R244, R247, R250, R253, R256, R259, R262). -/
def aluReg (op : AluOp) (r : Reg8) (s : State) : State := s.updCpu (fun p => p.alu op (p.reg r))

/-- An ALU operation on the byte at HL (R242, R245, R248, R251, R254, R257, R260, R263). -/
def aluAtHL (op : AluOp) (s : State) : State :=
  let r := readCycle s s.cpu.hl
  r.2.updCpu (fun p => p.alu op r.1)

/-- An ALU operation on an immediate (R243, R246, R249, R252, R255, R258, R261, R264). -/
def aluImm (op : AluOp) (n : Byte) (s : State) : State := s.updCpu (fun p => p.alu op n)

/-- Replace a register by a function of it, storing the flags. -/
def Cpu.modifyReg (p : Cpu) (r : Reg8) (g : Byte → Result8) : Cpu :=
  (p.setReg r (g (p.reg r)).value).applyFlags (g (p.reg r))

/-- Replace the byte at HL by a function of it: a read line, then a write line, then the flags. -/
def modifyAtHL (g : Byte → Result8) (s : State) : State :=
  let r := readCycle s s.cpu.hl
  (writeCycle r.2 r.2.cpu.hl (g r.1).value).updCpu (fun p => p.applyFlags (g r.1))

/-- INC r (R265). -/
def incReg (r : Reg8) (s : State) : State := s.updCpu (fun p => p.modifyReg r inc8)

/-- INC (HL) (R266). -/
def incAtHL (s : State) : State := modifyAtHL inc8 s

/-- DEC r (R267). -/
def decReg (r : Reg8) (s : State) : State := s.updCpu (fun p => p.modifyReg r dec8)

/-- DEC (HL) (R268). -/
def decAtHL (s : State) : State := modifyAtHL dec8 s

/-- DAA (R269). -/
def decimalAdjust (s : State) : State := s.updCpu (fun p => p.modifyReg .a (fun a => daaResult a p.nf p.hf p.cf))

/-- CPL (R270). -/
def complementA (s : State) : State :=
  s.updCpu (fun p => { p with a := ~~~p.a }.setFlags none (some true) (some true) none)

/-- SCF (R271). -/
def setCarry (s : State) : State := s.updCpu (fun p => p.setFlags none (some false) (some false) (some true))

/-- CCF (R272). -/
def complementCarry (s : State) : State :=
  s.updCpu (fun p => p.setFlags none (some false) (some false) (some (!p.cf)))

/-! ## Meanings -/

/-- INC B (R265). -/
def execIncB (s : State) : Answer := .next (incReg .b s)

/-- DEC B (R267). -/
def execDecB (s : State) : Answer := .next (decReg .b s)

/-- INC C (R265). -/
def execIncC (s : State) : Answer := .next (incReg .c s)

/-- DEC C (R267). -/
def execDecC (s : State) : Answer := .next (decReg .c s)

/-- INC D (R265). -/
def execIncD (s : State) : Answer := .next (incReg .d s)

/-- DEC D (R267). -/
def execDecD (s : State) : Answer := .next (decReg .d s)

/-- INC E (R265). -/
def execIncE (s : State) : Answer := .next (incReg .e s)

/-- DEC E (R267). -/
def execDecE (s : State) : Answer := .next (decReg .e s)

/-- INC H (R265). -/
def execIncH (s : State) : Answer := .next (incReg .h s)

/-- DEC H (R267). -/
def execDecH (s : State) : Answer := .next (decReg .h s)

/-- DAA (R269). -/
def execDaa (s : State) : Answer := .next (decimalAdjust s)

/-- INC L (R265). -/
def execIncL (s : State) : Answer := .next (incReg .l s)

/-- DEC L (R267). -/
def execDecL (s : State) : Answer := .next (decReg .l s)

/-- CPL (R270). -/
def execCpl (s : State) : Answer := .next (complementA s)

/-- INC (HL) (R266). -/
def execIncAtHL (s : State) : Answer := .next (incAtHL s)

/-- DEC (HL) (R268). -/
def execDecAtHL (s : State) : Answer := .next (decAtHL s)

/-- SCF (R271). -/
def execScf (s : State) : Answer := .next (setCarry s)

/-- INC A (R265). -/
def execIncA (s : State) : Answer := .next (incReg .a s)

/-- DEC A (R267). -/
def execDecA (s : State) : Answer := .next (decReg .a s)

/-- CCF (R272). -/
def execCcf (s : State) : Answer := .next (complementCarry s)

/-- ADD A,B (R241). -/
def execAddAB (s : State) : Answer := .next (aluReg .add .b s)

/-- ADD A,C (R241). -/
def execAddAC (s : State) : Answer := .next (aluReg .add .c s)

/-- ADD A,D (R241). -/
def execAddAD (s : State) : Answer := .next (aluReg .add .d s)

/-- ADD A,E (R241). -/
def execAddAE (s : State) : Answer := .next (aluReg .add .e s)

/-- ADD A,H (R241). -/
def execAddAH (s : State) : Answer := .next (aluReg .add .h s)

/-- ADD A,L (R241). -/
def execAddAL (s : State) : Answer := .next (aluReg .add .l s)

/-- ADD A,(HL) (R242). -/
def execAddAAtHL (s : State) : Answer := .next (aluAtHL .add s)

/-- ADD A,A (R241). -/
def execAddAA (s : State) : Answer := .next (aluReg .add .a s)

/-- ADC A,B (R244). -/
def execAdcAB (s : State) : Answer := .next (aluReg .adc .b s)

/-- ADC A,C (R244). -/
def execAdcAC (s : State) : Answer := .next (aluReg .adc .c s)

/-- ADC A,D (R244). -/
def execAdcAD (s : State) : Answer := .next (aluReg .adc .d s)

/-- ADC A,E (R244). -/
def execAdcAE (s : State) : Answer := .next (aluReg .adc .e s)

/-- ADC A,H (R244). -/
def execAdcAH (s : State) : Answer := .next (aluReg .adc .h s)

/-- ADC A,L (R244). -/
def execAdcAL (s : State) : Answer := .next (aluReg .adc .l s)

/-- ADC A,(HL) (R245). -/
def execAdcAAtHL (s : State) : Answer := .next (aluAtHL .adc s)

/-- ADC A,A (R244). -/
def execAdcAA (s : State) : Answer := .next (aluReg .adc .a s)

/-- SUB B (R247). -/
def execSubB (s : State) : Answer := .next (aluReg .sub .b s)

/-- SUB C (R247). -/
def execSubC (s : State) : Answer := .next (aluReg .sub .c s)

/-- SUB D (R247). -/
def execSubD (s : State) : Answer := .next (aluReg .sub .d s)

/-- SUB E (R247). -/
def execSubE (s : State) : Answer := .next (aluReg .sub .e s)

/-- SUB H (R247). -/
def execSubH (s : State) : Answer := .next (aluReg .sub .h s)

/-- SUB L (R247). -/
def execSubL (s : State) : Answer := .next (aluReg .sub .l s)

/-- SUB (HL) (R248). -/
def execSubAtHL (s : State) : Answer := .next (aluAtHL .sub s)

/-- SUB A (R247). -/
def execSubA (s : State) : Answer := .next (aluReg .sub .a s)

/-- SBC A,B (R250). -/
def execSbcAB (s : State) : Answer := .next (aluReg .sbc .b s)

/-- SBC A,C (R250). -/
def execSbcAC (s : State) : Answer := .next (aluReg .sbc .c s)

/-- SBC A,D (R250). -/
def execSbcAD (s : State) : Answer := .next (aluReg .sbc .d s)

/-- SBC A,E (R250). -/
def execSbcAE (s : State) : Answer := .next (aluReg .sbc .e s)

/-- SBC A,H (R250). -/
def execSbcAH (s : State) : Answer := .next (aluReg .sbc .h s)

/-- SBC A,L (R250). -/
def execSbcAL (s : State) : Answer := .next (aluReg .sbc .l s)

/-- SBC A,(HL) (R251). -/
def execSbcAAtHL (s : State) : Answer := .next (aluAtHL .sbc s)

/-- SBC A,A (R250). -/
def execSbcAA (s : State) : Answer := .next (aluReg .sbc .a s)

/-- AND B (R253). -/
def execAndB (s : State) : Answer := .next (aluReg .and .b s)

/-- AND C (R253). -/
def execAndC (s : State) : Answer := .next (aluReg .and .c s)

/-- AND D (R253). -/
def execAndD (s : State) : Answer := .next (aluReg .and .d s)

/-- AND E (R253). -/
def execAndE (s : State) : Answer := .next (aluReg .and .e s)

/-- AND H (R253). -/
def execAndH (s : State) : Answer := .next (aluReg .and .h s)

/-- AND L (R253). -/
def execAndL (s : State) : Answer := .next (aluReg .and .l s)

/-- AND (HL) (R254). -/
def execAndAtHL (s : State) : Answer := .next (aluAtHL .and s)

/-- AND A (R253). -/
def execAndA (s : State) : Answer := .next (aluReg .and .a s)

/-- XOR B (R256). -/
def execXorB (s : State) : Answer := .next (aluReg .xor .b s)

/-- XOR C (R256). -/
def execXorC (s : State) : Answer := .next (aluReg .xor .c s)

/-- XOR D (R256). -/
def execXorD (s : State) : Answer := .next (aluReg .xor .d s)

/-- XOR E (R256). -/
def execXorE (s : State) : Answer := .next (aluReg .xor .e s)

/-- XOR H (R256). -/
def execXorH (s : State) : Answer := .next (aluReg .xor .h s)

/-- XOR L (R256). -/
def execXorL (s : State) : Answer := .next (aluReg .xor .l s)

/-- XOR (HL) (R257). -/
def execXorAtHL (s : State) : Answer := .next (aluAtHL .xor s)

/-- XOR A (R256). -/
def execXorA (s : State) : Answer := .next (aluReg .xor .a s)

/-- OR B (R259). -/
def execOrB (s : State) : Answer := .next (aluReg .or .b s)

/-- OR C (R259). -/
def execOrC (s : State) : Answer := .next (aluReg .or .c s)

/-- OR D (R259). -/
def execOrD (s : State) : Answer := .next (aluReg .or .d s)

/-- OR E (R259). -/
def execOrE (s : State) : Answer := .next (aluReg .or .e s)

/-- OR H (R259). -/
def execOrH (s : State) : Answer := .next (aluReg .or .h s)

/-- OR L (R259). -/
def execOrL (s : State) : Answer := .next (aluReg .or .l s)

/-- OR (HL) (R260). -/
def execOrAtHL (s : State) : Answer := .next (aluAtHL .or s)

/-- OR A (R259). -/
def execOrA (s : State) : Answer := .next (aluReg .or .a s)

/-- CP B (R262). -/
def execCpB (s : State) : Answer := .next (aluReg .cp .b s)

/-- CP C (R262). -/
def execCpC (s : State) : Answer := .next (aluReg .cp .c s)

/-- CP D (R262). -/
def execCpD (s : State) : Answer := .next (aluReg .cp .d s)

/-- CP E (R262). -/
def execCpE (s : State) : Answer := .next (aluReg .cp .e s)

/-- CP H (R262). -/
def execCpH (s : State) : Answer := .next (aluReg .cp .h s)

/-- CP L (R262). -/
def execCpL (s : State) : Answer := .next (aluReg .cp .l s)

/-- CP (HL) (R263). -/
def execCpAtHL (s : State) : Answer := .next (aluAtHL .cp s)

/-- CP A (R262). -/
def execCpA (s : State) : Answer := .next (aluReg .cp .a s)

/-- ADD A,d8 (R243). -/
def execAddAImm (n : Byte) (s : State) : Answer := .next (aluImm .add n s)

/-- ADC A,d8 (R246). -/
def execAdcAImm (n : Byte) (s : State) : Answer := .next (aluImm .adc n s)

/-- SUB d8 (R249). -/
def execSubImm (n : Byte) (s : State) : Answer := .next (aluImm .sub n s)

/-- SBC A,d8 (R252). -/
def execSbcAImm (n : Byte) (s : State) : Answer := .next (aluImm .sbc n s)

/-- AND d8 (R255). -/
def execAndImm (n : Byte) (s : State) : Answer := .next (aluImm .and n s)

/-- XOR d8 (R258). -/
def execXorImm (n : Byte) (s : State) : Answer := .next (aluImm .xor n s)

/-- OR d8 (R261). -/
def execOrImm (n : Byte) (s : State) : Answer := .next (aluImm .or n s)

/-- CP d8 (R264). -/
def execCpImm (n : Byte) (s : State) : Answer := .next (aluImm .cp n s)

end Sys2Proof.Machine
end

