-- ==== Sys2Proof/Machine/Control.lean ====
section
/-! DEFINITION. Control transfer (spec/44_control.md R320-R331). A meaning starts from the state after the fetch lines, so
PC is past the instruction. The operations come first (returning is in Ops), then one meaning per instruction. -/

namespace Sys2Proof.Machine

open Sys2Proof

/-! ## Operations -/

/-- JP a16 (R321): one internal line. -/
def jumpAbs (nn : Word) (s : State) : State := (cycle s).setPc nn

/-- JP cc,a16 (R322). -/
def jumpAbsIf (cc : Cond) (nn : Word) (s : State) : State := if s.cpu.cond cc then jumpAbs nn s else s

/-- JP HL (R323). -/
def jumpHL (s : State) : State := s.setPc s.cpu.hl

/-- JR e8 (R324): one internal line. -/
def jumpRel (e : Byte) (s : State) : State := (cycle s).setPc (s.cpu.pc + sext16 e)

/-- JR cc,e8 (R325). -/
def jumpRelIf (cc : Cond) (e : Byte) (s : State) : State := if s.cpu.cond cc then jumpRel e s else s

/-- Push PC and go to an address: CALL and RST after their fetch (R326, R330). -/
def callAbs (nn : Word) (s : State) : State := (pushWord s s.cpu.pc).setPc nn

/-- CALL cc,a16 (R327). -/
def callAbsIf (cc : Cond) (nn : Word) (s : State) : State := if s.cpu.cond cc then callAbs nn s else s

/-- RET cc: one internal line for the condition test, then RET (R329). -/
def returnIf (cc : Cond) (s : State) : State :=
  if s.cpu.cond cc then returnFromCall (cycle s) else cycle s

/-- RST t (R330). -/
def restart (t : Word) (s : State) : State := callAbs t s

/-! ## Meanings -/

/-- JR e8 (R324). -/
def execJr (e : Byte) (s : State) : Answer := .next (jumpRel e s)

/-- JR NZ,e8 (R325). -/
def execJrNZ (e : Byte) (s : State) : Answer := .next (jumpRelIf .nz e s)

/-- JR Z,e8 (R325). -/
def execJrZ (e : Byte) (s : State) : Answer := .next (jumpRelIf .z e s)

/-- JR NC,e8 (R325). -/
def execJrNC (e : Byte) (s : State) : Answer := .next (jumpRelIf .nc e s)

/-- JR C,e8 (R325). -/
def execJrC (e : Byte) (s : State) : Answer := .next (jumpRelIf .c e s)

/-- RET NZ (R329). -/
def execRetNZ (s : State) : Answer := .next (returnIf .nz s)

/-- JP NZ,a16 (R322). -/
def execJpNZ (nn : Word) (s : State) : Answer := .next (jumpAbsIf .nz nn s)

/-- JP a16 (R321). -/
def execJp (nn : Word) (s : State) : Answer := .next (jumpAbs nn s)

/-- CALL NZ,a16 (R327). -/
def execCallNZ (nn : Word) (s : State) : Answer := .next (callAbsIf .nz nn s)

/-- RST 00H (R330). -/
def execRst00 (s : State) : Answer := .next (restart 0x0000 s)

/-- RET Z (R329). -/
def execRetZ (s : State) : Answer := .next (returnIf .z s)

/-- RET (R328). -/
def execRet (s : State) : Answer := .next (returnFromCall s)

/-- JP Z,a16 (R322). -/
def execJpZ (nn : Word) (s : State) : Answer := .next (jumpAbsIf .z nn s)

/-- CALL Z,a16 (R327). -/
def execCallZ (nn : Word) (s : State) : Answer := .next (callAbsIf .z nn s)

/-- CALL a16 (R326). -/
def execCall (nn : Word) (s : State) : Answer := .next (callAbs nn s)

/-- RST 08H (R330). -/
def execRst08 (s : State) : Answer := .next (restart 0x0008 s)

/-- RET NC (R329). -/
def execRetNC (s : State) : Answer := .next (returnIf .nc s)

/-- JP NC,a16 (R322). -/
def execJpNC (nn : Word) (s : State) : Answer := .next (jumpAbsIf .nc nn s)

/-- CALL NC,a16 (R327). -/
def execCallNC (nn : Word) (s : State) : Answer := .next (callAbsIf .nc nn s)

/-- RST 10H (R330). -/
def execRst10 (s : State) : Answer := .next (restart 0x0010 s)

/-- RET C (R329). -/
def execRetC (s : State) : Answer := .next (returnIf .c s)

/-- RETI (R331). -/
def execReti (s : State) : Answer := .next (returnFromInterrupt s)

/-- JP C,a16 (R322). -/
def execJpC (nn : Word) (s : State) : Answer := .next (jumpAbsIf .c nn s)

/-- CALL C,a16 (R327). -/
def execCallC (nn : Word) (s : State) : Answer := .next (callAbsIf .c nn s)

/-- RST 18H (R330). -/
def execRst18 (s : State) : Answer := .next (restart 0x0018 s)

/-- RST 20H (R330). -/
def execRst20 (s : State) : Answer := .next (restart 0x0020 s)

/-- JP HL (R323). -/
def execJpHL (s : State) : Answer := .next (jumpHL s)

/-- RST 28H (R330). -/
def execRst28 (s : State) : Answer := .next (restart 0x0028 s)

/-- RST 30H (R330). -/
def execRst30 (s : State) : Answer := .next (restart 0x0030 s)

/-- RST 38H (R330). -/
def execRst38 (s : State) : Answer := .next (restart 0x0038 s)

end Sys2Proof.Machine
end

