-- ==== Sys2Proof/Machine/Load.lean ====
section
/-! DEFINITION. Load, store and stack instructions (spec/40_load.md R200-R225). A meaning starts from the state after the
instruction's fetch lines; the operations come first, then one meaning per instruction. -/

namespace Sys2Proof.Machine

open Sys2Proof

/-! ## Operations -/

/-- LD r,r' (R201). -/
def loadRegReg (dst r : Reg8) (s : State) : State := s.updCpu (fun p => p.setReg dst (p.reg r))

/-- LD r,d8 (R202). -/
def loadRegImm (dst : Reg8) (n : Byte) (s : State) : State := s.updCpu (fun p => p.setReg dst n)

/-- Load a register from a bus address, one cycle. -/
def loadRegAt (dst : Reg8) (a : Word) (s : State) : State :=
  let r := readCycle s a
  r.2.updCpu (fun p => p.setReg dst r.1)

/-- LD r,(HL) (R203): the address is formed before the load. -/
def loadRegAtHL (dst : Reg8) (s : State) : State := loadRegAt dst s.cpu.hl s

/-- LD (HL),r (R204). -/
def storeAtHLReg (r : Reg8) (s : State) : State := writeCycle s s.cpu.hl (s.cpu.reg r)

/-- LD (HL),d8 (R205). -/
def storeAtHLImm (n : Byte) (s : State) : State := writeCycle s s.cpu.hl n

/-- LD A,(BC) and LD A,(DE) (R206, R207). -/
def loadAAtPair (dd : Pair) (s : State) : State := loadRegAt .a (s.cpu.pair dd) s

/-- LD (BC),A and LD (DE),A (R208, R209). -/
def storeAAtPair (dd : Pair) (s : State) : State := writeCycle s (s.cpu.pair dd) s.cpu.a

/-- LD A,(a16) (R210). -/
def loadAAbs (nn : Word) (s : State) : State := loadRegAt .a nn s

/-- LD (a16),A (R211). -/
def storeAAbs (nn : Word) (s : State) : State := writeCycle s nn s.cpu.a

/-- LDH A,(a8) (R212). -/
def loadAHigh (n : Byte) (s : State) : State := loadRegAt .a (highAddress n) s

/-- LDH (a8),A (R213). -/
def storeAHigh (n : Byte) (s : State) : State := writeCycle s (highAddress n) s.cpu.a

/-- LD A,(C) (R214). -/
def loadAHighC (s : State) : State := loadRegAt .a (highAddress s.cpu.c) s

/-- LD (C),A (R215). -/
def storeAHighC (s : State) : State := writeCycle s (highAddress s.cpu.c) s.cpu.a

/-- The step of HL in the forms `(HL+)` and `(HL-)` (spec/30_encoding.md R146). -/
inductive HLStep where
  | inc | dec
  deriving DecidableEq, Repr

/-- What the form adds to HL, modulo 65536. -/
def HLStep.delta : HLStep → Word
  | .inc => 1
  | .dec => 0xFFFF

/-- Move HL by the form's step. -/
def Cpu.stepHL (p : Cpu) (st : HLStep) : Cpu := p.setPair .hl (p.hl + st.delta)

/-- LD (HL+),A and LD (HL-),A (R216, R218). -/
def storeAHLStep (st : HLStep) (s : State) : State :=
  (writeCycle s s.cpu.hl s.cpu.a).updCpu (fun p => p.stepHL st)

/-- LD A,(HL+) and LD A,(HL-) (R217, R219). -/
def loadAHLStep (st : HLStep) (s : State) : State := (loadRegAt .a s.cpu.hl s).updCpu (fun p => p.stepHL st)

/-- LD dd,d16 (R220). -/
def loadPairImm (dd : Pair) (nn : Word) (s : State) : State := s.updCpu (fun p => p.setPair dd nn)

/-- LD SP,HL (R221). -/
def loadSPHL (s : State) : State := (cycle s).updCpu (fun p => { p with sp := p.hl })

/-- PUSH qq (R222). -/
def pushPair (qq : StackPair) (s : State) : State := pushWord s (s.cpu.stackPair qq)

/-- POP qq (R223). -/
def popPair (qq : StackPair) (s : State) : State :=
  let r := popWord s
  r.2.updCpu (fun p => p.setStackPair qq r.1)

/-- LD (a16),SP: the low byte at a16, the high byte at a16 + 1 modulo 65536 (R224). -/
def storeAbsSP (nn : Word) (s : State) : State :=
  let s1 := writeCycle s nn (loByte s.cpu.sp)
  writeCycle s1 (nn + 1) (hiByte s1.cpu.sp)

/-- LD HL,SP+e8 (R225). -/
def loadHLSPe (e : Byte) (s : State) : State :=
  (cycle s).updCpu (fun p =>
    let r := addOffset p.sp e
    (p.setPair .hl r.value).setFlags r.z r.n r.h r.c)

/-! ## Meanings -/

/-- LD BC,d16 (R220). -/
def execLdBCImm (nn : Word) (s : State) : Answer := .next (loadPairImm .bc nn s)

/-- LD (BC),A (R208). -/
def execLdAtBCA (s : State) : Answer := .next (storeAAtPair .bc s)

/-- LD B,d8 (R202). -/
def execLdBImm (n : Byte) (s : State) : Answer := .next (loadRegImm .b n s)

/-- LD (a16),SP (R224). -/
def execLdAt16SP (nn : Word) (s : State) : Answer := .next (storeAbsSP nn s)

/-- LD A,(BC) (R206). -/
def execLdAAtBC (s : State) : Answer := .next (loadAAtPair .bc s)

/-- LD C,d8 (R202). -/
def execLdCImm (n : Byte) (s : State) : Answer := .next (loadRegImm .c n s)

/-- LD DE,d16 (R220). -/
def execLdDEImm (nn : Word) (s : State) : Answer := .next (loadPairImm .de nn s)

/-- LD (DE),A (R209). -/
def execLdAtDEA (s : State) : Answer := .next (storeAAtPair .de s)

/-- LD D,d8 (R202). -/
def execLdDImm (n : Byte) (s : State) : Answer := .next (loadRegImm .d n s)

/-- LD A,(DE) (R207). -/
def execLdAAtDE (s : State) : Answer := .next (loadAAtPair .de s)

/-- LD E,d8 (R202). -/
def execLdEImm (n : Byte) (s : State) : Answer := .next (loadRegImm .e n s)

/-- LD HL,d16 (R220). -/
def execLdHLImm (nn : Word) (s : State) : Answer := .next (loadPairImm .hl nn s)

/-- LD (HL+),A (R216). -/
def execLdAtHLIncA (s : State) : Answer := .next (storeAHLStep .inc s)

/-- LD H,d8 (R202). -/
def execLdHImm (n : Byte) (s : State) : Answer := .next (loadRegImm .h n s)

/-- LD A,(HL+) (R217). -/
def execLdAAtHLInc (s : State) : Answer := .next (loadAHLStep .inc s)

/-- LD L,d8 (R202). -/
def execLdLImm (n : Byte) (s : State) : Answer := .next (loadRegImm .l n s)

/-- LD SP,d16 (R220). -/
def execLdSPImm (nn : Word) (s : State) : Answer := .next (loadPairImm .sp nn s)

/-- LD (HL-),A (R218). -/
def execLdAtHLDecA (s : State) : Answer := .next (storeAHLStep .dec s)

/-- LD (HL),d8 (R205). -/
def execLdAtHLImm (n : Byte) (s : State) : Answer := .next (storeAtHLImm n s)

/-- LD A,(HL-) (R219). -/
def execLdAAtHLDec (s : State) : Answer := .next (loadAHLStep .dec s)

/-- LD A,d8 (R202). -/
def execLdAImm (n : Byte) (s : State) : Answer := .next (loadRegImm .a n s)

/-- LD B,B (R201). -/
def execLdBB (s : State) : Answer := .next (loadRegReg .b .b s)

/-- LD B,C (R201). -/
def execLdBC (s : State) : Answer := .next (loadRegReg .b .c s)

/-- LD B,D (R201). -/
def execLdBD (s : State) : Answer := .next (loadRegReg .b .d s)

/-- LD B,E (R201). -/
def execLdBE (s : State) : Answer := .next (loadRegReg .b .e s)

/-- LD B,H (R201). -/
def execLdBH (s : State) : Answer := .next (loadRegReg .b .h s)

/-- LD B,L (R201). -/
def execLdBL (s : State) : Answer := .next (loadRegReg .b .l s)

/-- LD B,(HL) (R203). -/
def execLdBAtHL (s : State) : Answer := .next (loadRegAtHL .b s)

/-- LD B,A (R201). -/
def execLdBA (s : State) : Answer := .next (loadRegReg .b .a s)

/-- LD C,B (R201). -/
def execLdCB (s : State) : Answer := .next (loadRegReg .c .b s)

/-- LD C,C (R201). -/
def execLdCC (s : State) : Answer := .next (loadRegReg .c .c s)

/-- LD C,D (R201). -/
def execLdCD (s : State) : Answer := .next (loadRegReg .c .d s)

/-- LD C,E (R201). -/
def execLdCE (s : State) : Answer := .next (loadRegReg .c .e s)

/-- LD C,H (R201). -/
def execLdCH (s : State) : Answer := .next (loadRegReg .c .h s)

/-- LD C,L (R201). -/
def execLdCL (s : State) : Answer := .next (loadRegReg .c .l s)

/-- LD C,(HL) (R203). -/
def execLdCAtHL (s : State) : Answer := .next (loadRegAtHL .c s)

/-- LD C,A (R201). -/
def execLdCA (s : State) : Answer := .next (loadRegReg .c .a s)

/-- LD D,B (R201). -/
def execLdDB (s : State) : Answer := .next (loadRegReg .d .b s)

/-- LD D,C (R201). -/
def execLdDC (s : State) : Answer := .next (loadRegReg .d .c s)

/-- LD D,D (R201). -/
def execLdDD (s : State) : Answer := .next (loadRegReg .d .d s)

/-- LD D,E (R201). -/
def execLdDE (s : State) : Answer := .next (loadRegReg .d .e s)

/-- LD D,H (R201). -/
def execLdDH (s : State) : Answer := .next (loadRegReg .d .h s)

/-- LD D,L (R201). -/
def execLdDL (s : State) : Answer := .next (loadRegReg .d .l s)

/-- LD D,(HL) (R203). -/
def execLdDAtHL (s : State) : Answer := .next (loadRegAtHL .d s)

/-- LD D,A (R201). -/
def execLdDA (s : State) : Answer := .next (loadRegReg .d .a s)

/-- LD E,B (R201). -/
def execLdEB (s : State) : Answer := .next (loadRegReg .e .b s)

/-- LD E,C (R201). -/
def execLdEC (s : State) : Answer := .next (loadRegReg .e .c s)

/-- LD E,D (R201). -/
def execLdED (s : State) : Answer := .next (loadRegReg .e .d s)

/-- LD E,E (R201). -/
def execLdEE (s : State) : Answer := .next (loadRegReg .e .e s)

/-- LD E,H (R201). -/
def execLdEH (s : State) : Answer := .next (loadRegReg .e .h s)

/-- LD E,L (R201). -/
def execLdEL (s : State) : Answer := .next (loadRegReg .e .l s)

/-- LD E,(HL) (R203). -/
def execLdEAtHL (s : State) : Answer := .next (loadRegAtHL .e s)

/-- LD E,A (R201). -/
def execLdEA (s : State) : Answer := .next (loadRegReg .e .a s)

/-- LD H,B (R201). -/
def execLdHB (s : State) : Answer := .next (loadRegReg .h .b s)

/-- LD H,C (R201). -/
def execLdHC (s : State) : Answer := .next (loadRegReg .h .c s)

/-- LD H,D (R201). -/
def execLdHD (s : State) : Answer := .next (loadRegReg .h .d s)

/-- LD H,E (R201). -/
def execLdHE (s : State) : Answer := .next (loadRegReg .h .e s)

/-- LD H,H (R201). -/
def execLdHH (s : State) : Answer := .next (loadRegReg .h .h s)

/-- LD H,L (R201). -/
def execLdHL (s : State) : Answer := .next (loadRegReg .h .l s)

/-- LD H,(HL) (R203). -/
def execLdHAtHL (s : State) : Answer := .next (loadRegAtHL .h s)

/-- LD H,A (R201). -/
def execLdHA (s : State) : Answer := .next (loadRegReg .h .a s)

/-- LD L,B (R201). -/
def execLdLB (s : State) : Answer := .next (loadRegReg .l .b s)

/-- LD L,C (R201). -/
def execLdLC (s : State) : Answer := .next (loadRegReg .l .c s)

/-- LD L,D (R201). -/
def execLdLD (s : State) : Answer := .next (loadRegReg .l .d s)

/-- LD L,E (R201). -/
def execLdLE (s : State) : Answer := .next (loadRegReg .l .e s)

/-- LD L,H (R201). -/
def execLdLH (s : State) : Answer := .next (loadRegReg .l .h s)

/-- LD L,L (R201). -/
def execLdLL (s : State) : Answer := .next (loadRegReg .l .l s)

/-- LD L,(HL) (R203). -/
def execLdLAtHL (s : State) : Answer := .next (loadRegAtHL .l s)

/-- LD L,A (R201). -/
def execLdLA (s : State) : Answer := .next (loadRegReg .l .a s)

/-- LD (HL),B (R204). -/
def execLdAtHLB (s : State) : Answer := .next (storeAtHLReg .b s)

/-- LD (HL),C (R204). -/
def execLdAtHLC (s : State) : Answer := .next (storeAtHLReg .c s)

/-- LD (HL),D (R204). -/
def execLdAtHLD (s : State) : Answer := .next (storeAtHLReg .d s)

/-- LD (HL),E (R204). -/
def execLdAtHLE (s : State) : Answer := .next (storeAtHLReg .e s)

/-- LD (HL),H (R204). -/
def execLdAtHLH (s : State) : Answer := .next (storeAtHLReg .h s)

/-- LD (HL),L (R204). -/
def execLdAtHLL (s : State) : Answer := .next (storeAtHLReg .l s)

/-- LD (HL),A (R204). -/
def execLdAtHLA (s : State) : Answer := .next (storeAtHLReg .a s)

/-- LD A,B (R201). -/
def execLdAB (s : State) : Answer := .next (loadRegReg .a .b s)

/-- LD A,C (R201). -/
def execLdAC (s : State) : Answer := .next (loadRegReg .a .c s)

/-- LD A,D (R201). -/
def execLdAD (s : State) : Answer := .next (loadRegReg .a .d s)

/-- LD A,E (R201). -/
def execLdAE (s : State) : Answer := .next (loadRegReg .a .e s)

/-- LD A,H (R201). -/
def execLdAH (s : State) : Answer := .next (loadRegReg .a .h s)

/-- LD A,L (R201). -/
def execLdAL (s : State) : Answer := .next (loadRegReg .a .l s)

/-- LD A,(HL) (R203). -/
def execLdAAtHL (s : State) : Answer := .next (loadRegAtHL .a s)

/-- LD A,A (R201). -/
def execLdAA (s : State) : Answer := .next (loadRegReg .a .a s)

/-- POP BC (R223). -/
def execPopBC (s : State) : Answer := .next (popPair .bc s)

/-- PUSH BC (R222). -/
def execPushBC (s : State) : Answer := .next (pushPair .bc s)

/-- POP DE (R223). -/
def execPopDE (s : State) : Answer := .next (popPair .de s)

/-- PUSH DE (R222). -/
def execPushDE (s : State) : Answer := .next (pushPair .de s)

/-- LDH (a8),A (R213). -/
def execLdhAt8A (n : Byte) (s : State) : Answer := .next (storeAHigh n s)

/-- POP HL (R223). -/
def execPopHL (s : State) : Answer := .next (popPair .hl s)

/-- LD (C),A (R215). -/
def execLdAtCA (s : State) : Answer := .next (storeAHighC s)

/-- PUSH HL (R222). -/
def execPushHL (s : State) : Answer := .next (pushPair .hl s)

/-- LD (a16),A (R211). -/
def execLdAt16A (nn : Word) (s : State) : Answer := .next (storeAAbs nn s)

/-- LDH A,(a8) (R212). -/
def execLdhAAt8 (n : Byte) (s : State) : Answer := .next (loadAHigh n s)

/-- POP AF (R223). -/
def execPopAF (s : State) : Answer := .next (popPair .af s)

/-- LD A,(C) (R214). -/
def execLdAAtC (s : State) : Answer := .next (loadAHighC s)

/-- PUSH AF (R222). -/
def execPushAF (s : State) : Answer := .next (pushPair .af s)

/-- LD HL,SP+e8 (R225). -/
def execLdHLSPe (e : Byte) (s : State) : Answer := .next (loadHLSPe e s)

/-- LD SP,HL (R221). -/
def execLdSPHL (s : State) : Answer := .next (loadSPHL s)

/-- LD A,(a16) (R210). -/
def execLdAAt16 (nn : Word) (s : State) : Answer := .next (loadAAbs nn s)

end Sys2Proof.Machine
end

