-- ==== Sys2Proof/Machine/RotateShiftBit.lean ====
section
/-! DEFINITION. Rotates, shifts and bit operations (spec/43_rotate_shift_bit.md R290-R305). A CB meaning starts from the
state after both bytes are fetched. The operations come first, then one meaning per instruction. -/

namespace Sys2Proof.Machine

open Sys2Proof

/-! ## Operations -/

/-- RLCA, RRCA, RLA, RRA (R291-R294). -/
def rotA (op : RotOp) (s : State) : State := s.updCpu (fun p => p.modifyReg .a (fun a => rotAResult op a p.cf))

/-- A CB rotate or shift of a register (R290, R295-R302). -/
def rotReg (op : RotOp) (r : Reg8) (s : State) : State :=
  s.updCpu (fun p => p.modifyReg r (fun v => rotResult op v p.cf))

/-- A CB rotate or shift of the byte at HL (R290, R295-R302). -/
def rotAtHL (op : RotOp) (s : State) : State := modifyAtHL (fun v => rotResult op v s.cpu.cf) s

/-- BIT n,r (R303). -/
def bitReg (n : Fin 8) (r : Reg8) (s : State) : State := s.updCpu (fun p => p.applyFlags (bitResult n (p.reg r)))

/-- BIT n,(HL): the byte is read and not written (R303). -/
def bitAtHL (n : Fin 8) (s : State) : State :=
  let r := readCycle s s.cpu.hl
  r.2.updCpu (fun p => p.applyFlags (bitResult n r.1))

/-- RES n,r (R304). -/
def resReg (n : Fin 8) (r : Reg8) (s : State) : State := s.updCpu (fun p => p.setReg r (resValue n (p.reg r)))

/-- SET n,r (R305). -/
def setReg (n : Fin 8) (r : Reg8) (s : State) : State := s.updCpu (fun p => p.setReg r (setValue n (p.reg r)))

/-- Replace the byte at HL by a function of it without flags: a read line, then a write line. -/
def rewriteAtHL (g : Byte → Byte) (s : State) : State :=
  let r := readCycle s s.cpu.hl
  writeCycle r.2 r.2.cpu.hl (g r.1)

/-- RES n,(HL) (R304). -/
def resAtHL (n : Fin 8) (s : State) : State := rewriteAtHL (resValue n) s

/-- SET n,(HL) (R305). -/
def setAtHL (n : Fin 8) (s : State) : State := rewriteAtHL (setValue n) s

/-! ## The CB opcode by its fields (spec/30_encoding.md R149, spec/45_system.md R345) -/

/-- The operand `b[2:0]` of a CB opcode; `none` is `(HL)` (spec/30_encoding.md R142). -/
def cbOperand (b : Byte) : Option Reg8 :=
  match b.toNat % 8 with
  | 0 => some .b
  | 1 => some .c
  | 2 => some .d
  | 3 => some .e
  | 4 => some .h
  | 5 => some .l
  | 6 => none
  | _ => some .a

/-- The bit index or subtype `b[5:3]`. -/
def cbIndex (b : Byte) : Fin 8 := Fin.ofNat 8 (b.toNat / 8)

/-- The rotate or shift of a subtype (spec/30_encoding.md R149). -/
def rotOpOf (y : Fin 8) : RotOp :=
  match y with
  | 0 => .rlc
  | 1 => .rrc
  | 2 => .rl
  | 3 => .rr
  | 4 => .sla
  | 5 => .sra
  | 6 => .swap
  | 7 => .srl

/-- Execute a CB opcode by its class `b[7:6]`, index `b[5:3]` and operand `b[2:0]` (spec/30_encoding.md R149). -/
def execCbOpcode (b : Byte) (s : State) : State :=
  match b.toNat / 64, cbOperand b with
  | 0, some r => rotReg (rotOpOf (cbIndex b)) r s
  | 0, none => rotAtHL (rotOpOf (cbIndex b)) s
  | 1, some r => bitReg (cbIndex b) r s
  | 1, none => bitAtHL (cbIndex b) s
  | 2, some r => resReg (cbIndex b) r s
  | 2, none => resAtHL (cbIndex b) s
  | _, some r => setReg (cbIndex b) r s
  | _, none => setAtHL (cbIndex b) s

/-! ## Meanings -/

/-- RLCA (R291). -/
def execRlca (s : State) : Answer := .next (rotA .rlc s)

/-- RRCA (R292). -/
def execRrca (s : State) : Answer := .next (rotA .rrc s)

/-- RLA (R293). -/
def execRla (s : State) : Answer := .next (rotA .rl s)

/-- RRA (R294). -/
def execRra (s : State) : Answer := .next (rotA .rr s)

/-- RLC B (R295). -/
def execRlcB (s : State) : Answer := .next (rotReg .rlc .b s)

/-- RLC C (R295). -/
def execRlcC (s : State) : Answer := .next (rotReg .rlc .c s)

/-- RLC D (R295). -/
def execRlcD (s : State) : Answer := .next (rotReg .rlc .d s)

/-- RLC E (R295). -/
def execRlcE (s : State) : Answer := .next (rotReg .rlc .e s)

/-- RLC H (R295). -/
def execRlcH (s : State) : Answer := .next (rotReg .rlc .h s)

/-- RLC L (R295). -/
def execRlcL (s : State) : Answer := .next (rotReg .rlc .l s)

/-- RLC (HL) (R295). -/
def execRlcAtHL (s : State) : Answer := .next (rotAtHL .rlc s)

/-- RLC A (R295). -/
def execRlcA (s : State) : Answer := .next (rotReg .rlc .a s)

/-- RRC B (R296). -/
def execRrcB (s : State) : Answer := .next (rotReg .rrc .b s)

/-- RRC C (R296). -/
def execRrcC (s : State) : Answer := .next (rotReg .rrc .c s)

/-- RRC D (R296). -/
def execRrcD (s : State) : Answer := .next (rotReg .rrc .d s)

/-- RRC E (R296). -/
def execRrcE (s : State) : Answer := .next (rotReg .rrc .e s)

/-- RRC H (R296). -/
def execRrcH (s : State) : Answer := .next (rotReg .rrc .h s)

/-- RRC L (R296). -/
def execRrcL (s : State) : Answer := .next (rotReg .rrc .l s)

/-- RRC (HL) (R296). -/
def execRrcAtHL (s : State) : Answer := .next (rotAtHL .rrc s)

/-- RRC A (R296). -/
def execRrcA (s : State) : Answer := .next (rotReg .rrc .a s)

/-- RL B (R297). -/
def execRlB (s : State) : Answer := .next (rotReg .rl .b s)

/-- RL C (R297). -/
def execRlC (s : State) : Answer := .next (rotReg .rl .c s)

/-- RL D (R297). -/
def execRlD (s : State) : Answer := .next (rotReg .rl .d s)

/-- RL E (R297). -/
def execRlE (s : State) : Answer := .next (rotReg .rl .e s)

/-- RL H (R297). -/
def execRlH (s : State) : Answer := .next (rotReg .rl .h s)

/-- RL L (R297). -/
def execRlL (s : State) : Answer := .next (rotReg .rl .l s)

/-- RL (HL) (R297). -/
def execRlAtHL (s : State) : Answer := .next (rotAtHL .rl s)

/-- RL A (R297). -/
def execRlA (s : State) : Answer := .next (rotReg .rl .a s)

/-- RR B (R298). -/
def execRrB (s : State) : Answer := .next (rotReg .rr .b s)

/-- RR C (R298). -/
def execRrC (s : State) : Answer := .next (rotReg .rr .c s)

/-- RR D (R298). -/
def execRrD (s : State) : Answer := .next (rotReg .rr .d s)

/-- RR E (R298). -/
def execRrE (s : State) : Answer := .next (rotReg .rr .e s)

/-- RR H (R298). -/
def execRrH (s : State) : Answer := .next (rotReg .rr .h s)

/-- RR L (R298). -/
def execRrL (s : State) : Answer := .next (rotReg .rr .l s)

/-- RR (HL) (R298). -/
def execRrAtHL (s : State) : Answer := .next (rotAtHL .rr s)

/-- RR A (R298). -/
def execRrA (s : State) : Answer := .next (rotReg .rr .a s)

/-- SLA B (R299). -/
def execSlaB (s : State) : Answer := .next (rotReg .sla .b s)

/-- SLA C (R299). -/
def execSlaC (s : State) : Answer := .next (rotReg .sla .c s)

/-- SLA D (R299). -/
def execSlaD (s : State) : Answer := .next (rotReg .sla .d s)

/-- SLA E (R299). -/
def execSlaE (s : State) : Answer := .next (rotReg .sla .e s)

/-- SLA H (R299). -/
def execSlaH (s : State) : Answer := .next (rotReg .sla .h s)

/-- SLA L (R299). -/
def execSlaL (s : State) : Answer := .next (rotReg .sla .l s)

/-- SLA (HL) (R299). -/
def execSlaAtHL (s : State) : Answer := .next (rotAtHL .sla s)

/-- SLA A (R299). -/
def execSlaA (s : State) : Answer := .next (rotReg .sla .a s)

/-- SRA B (R300). -/
def execSraB (s : State) : Answer := .next (rotReg .sra .b s)

/-- SRA C (R300). -/
def execSraC (s : State) : Answer := .next (rotReg .sra .c s)

/-- SRA D (R300). -/
def execSraD (s : State) : Answer := .next (rotReg .sra .d s)

/-- SRA E (R300). -/
def execSraE (s : State) : Answer := .next (rotReg .sra .e s)

/-- SRA H (R300). -/
def execSraH (s : State) : Answer := .next (rotReg .sra .h s)

/-- SRA L (R300). -/
def execSraL (s : State) : Answer := .next (rotReg .sra .l s)

/-- SRA (HL) (R300). -/
def execSraAtHL (s : State) : Answer := .next (rotAtHL .sra s)

/-- SRA A (R300). -/
def execSraA (s : State) : Answer := .next (rotReg .sra .a s)

/-- SWAP B (R301). -/
def execSwapB (s : State) : Answer := .next (rotReg .swap .b s)

/-- SWAP C (R301). -/
def execSwapC (s : State) : Answer := .next (rotReg .swap .c s)

/-- SWAP D (R301). -/
def execSwapD (s : State) : Answer := .next (rotReg .swap .d s)

/-- SWAP E (R301). -/
def execSwapE (s : State) : Answer := .next (rotReg .swap .e s)

/-- SWAP H (R301). -/
def execSwapH (s : State) : Answer := .next (rotReg .swap .h s)

/-- SWAP L (R301). -/
def execSwapL (s : State) : Answer := .next (rotReg .swap .l s)

/-- SWAP (HL) (R301). -/
def execSwapAtHL (s : State) : Answer := .next (rotAtHL .swap s)

/-- SWAP A (R301). -/
def execSwapA (s : State) : Answer := .next (rotReg .swap .a s)

/-- SRL B (R302). -/
def execSrlB (s : State) : Answer := .next (rotReg .srl .b s)

/-- SRL C (R302). -/
def execSrlC (s : State) : Answer := .next (rotReg .srl .c s)

/-- SRL D (R302). -/
def execSrlD (s : State) : Answer := .next (rotReg .srl .d s)

/-- SRL E (R302). -/
def execSrlE (s : State) : Answer := .next (rotReg .srl .e s)

/-- SRL H (R302). -/
def execSrlH (s : State) : Answer := .next (rotReg .srl .h s)

/-- SRL L (R302). -/
def execSrlL (s : State) : Answer := .next (rotReg .srl .l s)

/-- SRL (HL) (R302). -/
def execSrlAtHL (s : State) : Answer := .next (rotAtHL .srl s)

/-- SRL A (R302). -/
def execSrlA (s : State) : Answer := .next (rotReg .srl .a s)

/-- BIT 0,B (R303). -/
def execBit0B (s : State) : Answer := .next (bitReg 0 .b s)

/-- BIT 0,C (R303). -/
def execBit0C (s : State) : Answer := .next (bitReg 0 .c s)

/-- BIT 0,D (R303). -/
def execBit0D (s : State) : Answer := .next (bitReg 0 .d s)

/-- BIT 0,E (R303). -/
def execBit0E (s : State) : Answer := .next (bitReg 0 .e s)

/-- BIT 0,H (R303). -/
def execBit0H (s : State) : Answer := .next (bitReg 0 .h s)

/-- BIT 0,L (R303). -/
def execBit0L (s : State) : Answer := .next (bitReg 0 .l s)

/-- BIT 0,(HL) (R303). -/
def execBit0AtHL (s : State) : Answer := .next (bitAtHL 0 s)

/-- BIT 0,A (R303). -/
def execBit0A (s : State) : Answer := .next (bitReg 0 .a s)

/-- BIT 1,B (R303). -/
def execBit1B (s : State) : Answer := .next (bitReg 1 .b s)

/-- BIT 1,C (R303). -/
def execBit1C (s : State) : Answer := .next (bitReg 1 .c s)

/-- BIT 1,D (R303). -/
def execBit1D (s : State) : Answer := .next (bitReg 1 .d s)

/-- BIT 1,E (R303). -/
def execBit1E (s : State) : Answer := .next (bitReg 1 .e s)

/-- BIT 1,H (R303). -/
def execBit1H (s : State) : Answer := .next (bitReg 1 .h s)

/-- BIT 1,L (R303). -/
def execBit1L (s : State) : Answer := .next (bitReg 1 .l s)

/-- BIT 1,(HL) (R303). -/
def execBit1AtHL (s : State) : Answer := .next (bitAtHL 1 s)

/-- BIT 1,A (R303). -/
def execBit1A (s : State) : Answer := .next (bitReg 1 .a s)

/-- BIT 2,B (R303). -/
def execBit2B (s : State) : Answer := .next (bitReg 2 .b s)

/-- BIT 2,C (R303). -/
def execBit2C (s : State) : Answer := .next (bitReg 2 .c s)

/-- BIT 2,D (R303). -/
def execBit2D (s : State) : Answer := .next (bitReg 2 .d s)

/-- BIT 2,E (R303). -/
def execBit2E (s : State) : Answer := .next (bitReg 2 .e s)

/-- BIT 2,H (R303). -/
def execBit2H (s : State) : Answer := .next (bitReg 2 .h s)

/-- BIT 2,L (R303). -/
def execBit2L (s : State) : Answer := .next (bitReg 2 .l s)

/-- BIT 2,(HL) (R303). -/
def execBit2AtHL (s : State) : Answer := .next (bitAtHL 2 s)

/-- BIT 2,A (R303). -/
def execBit2A (s : State) : Answer := .next (bitReg 2 .a s)

/-- BIT 3,B (R303). -/
def execBit3B (s : State) : Answer := .next (bitReg 3 .b s)

/-- BIT 3,C (R303). -/
def execBit3C (s : State) : Answer := .next (bitReg 3 .c s)

/-- BIT 3,D (R303). -/
def execBit3D (s : State) : Answer := .next (bitReg 3 .d s)

/-- BIT 3,E (R303). -/
def execBit3E (s : State) : Answer := .next (bitReg 3 .e s)

/-- BIT 3,H (R303). -/
def execBit3H (s : State) : Answer := .next (bitReg 3 .h s)

/-- BIT 3,L (R303). -/
def execBit3L (s : State) : Answer := .next (bitReg 3 .l s)

/-- BIT 3,(HL) (R303). -/
def execBit3AtHL (s : State) : Answer := .next (bitAtHL 3 s)

/-- BIT 3,A (R303). -/
def execBit3A (s : State) : Answer := .next (bitReg 3 .a s)

/-- BIT 4,B (R303). -/
def execBit4B (s : State) : Answer := .next (bitReg 4 .b s)

/-- BIT 4,C (R303). -/
def execBit4C (s : State) : Answer := .next (bitReg 4 .c s)

/-- BIT 4,D (R303). -/
def execBit4D (s : State) : Answer := .next (bitReg 4 .d s)

/-- BIT 4,E (R303). -/
def execBit4E (s : State) : Answer := .next (bitReg 4 .e s)

/-- BIT 4,H (R303). -/
def execBit4H (s : State) : Answer := .next (bitReg 4 .h s)

/-- BIT 4,L (R303). -/
def execBit4L (s : State) : Answer := .next (bitReg 4 .l s)

/-- BIT 4,(HL) (R303). -/
def execBit4AtHL (s : State) : Answer := .next (bitAtHL 4 s)

/-- BIT 4,A (R303). -/
def execBit4A (s : State) : Answer := .next (bitReg 4 .a s)

/-- BIT 5,B (R303). -/
def execBit5B (s : State) : Answer := .next (bitReg 5 .b s)

/-- BIT 5,C (R303). -/
def execBit5C (s : State) : Answer := .next (bitReg 5 .c s)

/-- BIT 5,D (R303). -/
def execBit5D (s : State) : Answer := .next (bitReg 5 .d s)

/-- BIT 5,E (R303). -/
def execBit5E (s : State) : Answer := .next (bitReg 5 .e s)

/-- BIT 5,H (R303). -/
def execBit5H (s : State) : Answer := .next (bitReg 5 .h s)

/-- BIT 5,L (R303). -/
def execBit5L (s : State) : Answer := .next (bitReg 5 .l s)

/-- BIT 5,(HL) (R303). -/
def execBit5AtHL (s : State) : Answer := .next (bitAtHL 5 s)

/-- BIT 5,A (R303). -/
def execBit5A (s : State) : Answer := .next (bitReg 5 .a s)

/-- BIT 6,B (R303). -/
def execBit6B (s : State) : Answer := .next (bitReg 6 .b s)

/-- BIT 6,C (R303). -/
def execBit6C (s : State) : Answer := .next (bitReg 6 .c s)

/-- BIT 6,D (R303). -/
def execBit6D (s : State) : Answer := .next (bitReg 6 .d s)

/-- BIT 6,E (R303). -/
def execBit6E (s : State) : Answer := .next (bitReg 6 .e s)

/-- BIT 6,H (R303). -/
def execBit6H (s : State) : Answer := .next (bitReg 6 .h s)

/-- BIT 6,L (R303). -/
def execBit6L (s : State) : Answer := .next (bitReg 6 .l s)

/-- BIT 6,(HL) (R303). -/
def execBit6AtHL (s : State) : Answer := .next (bitAtHL 6 s)

/-- BIT 6,A (R303). -/
def execBit6A (s : State) : Answer := .next (bitReg 6 .a s)

/-- BIT 7,B (R303). -/
def execBit7B (s : State) : Answer := .next (bitReg 7 .b s)

/-- BIT 7,C (R303). -/
def execBit7C (s : State) : Answer := .next (bitReg 7 .c s)

/-- BIT 7,D (R303). -/
def execBit7D (s : State) : Answer := .next (bitReg 7 .d s)

/-- BIT 7,E (R303). -/
def execBit7E (s : State) : Answer := .next (bitReg 7 .e s)

/-- BIT 7,H (R303). -/
def execBit7H (s : State) : Answer := .next (bitReg 7 .h s)

/-- BIT 7,L (R303). -/
def execBit7L (s : State) : Answer := .next (bitReg 7 .l s)

/-- BIT 7,(HL) (R303). -/
def execBit7AtHL (s : State) : Answer := .next (bitAtHL 7 s)

/-- BIT 7,A (R303). -/
def execBit7A (s : State) : Answer := .next (bitReg 7 .a s)

/-- RES 0,B (R304). -/
def execRes0B (s : State) : Answer := .next (resReg 0 .b s)

/-- RES 0,C (R304). -/
def execRes0C (s : State) : Answer := .next (resReg 0 .c s)

/-- RES 0,D (R304). -/
def execRes0D (s : State) : Answer := .next (resReg 0 .d s)

/-- RES 0,E (R304). -/
def execRes0E (s : State) : Answer := .next (resReg 0 .e s)

/-- RES 0,H (R304). -/
def execRes0H (s : State) : Answer := .next (resReg 0 .h s)

/-- RES 0,L (R304). -/
def execRes0L (s : State) : Answer := .next (resReg 0 .l s)

/-- RES 0,(HL) (R304). -/
def execRes0AtHL (s : State) : Answer := .next (resAtHL 0 s)

/-- RES 0,A (R304). -/
def execRes0A (s : State) : Answer := .next (resReg 0 .a s)

/-- RES 1,B (R304). -/
def execRes1B (s : State) : Answer := .next (resReg 1 .b s)

/-- RES 1,C (R304). -/
def execRes1C (s : State) : Answer := .next (resReg 1 .c s)

/-- RES 1,D (R304). -/
def execRes1D (s : State) : Answer := .next (resReg 1 .d s)

/-- RES 1,E (R304). -/
def execRes1E (s : State) : Answer := .next (resReg 1 .e s)

/-- RES 1,H (R304). -/
def execRes1H (s : State) : Answer := .next (resReg 1 .h s)

/-- RES 1,L (R304). -/
def execRes1L (s : State) : Answer := .next (resReg 1 .l s)

/-- RES 1,(HL) (R304). -/
def execRes1AtHL (s : State) : Answer := .next (resAtHL 1 s)

/-- RES 1,A (R304). -/
def execRes1A (s : State) : Answer := .next (resReg 1 .a s)

/-- RES 2,B (R304). -/
def execRes2B (s : State) : Answer := .next (resReg 2 .b s)

/-- RES 2,C (R304). -/
def execRes2C (s : State) : Answer := .next (resReg 2 .c s)

/-- RES 2,D (R304). -/
def execRes2D (s : State) : Answer := .next (resReg 2 .d s)

/-- RES 2,E (R304). -/
def execRes2E (s : State) : Answer := .next (resReg 2 .e s)

/-- RES 2,H (R304). -/
def execRes2H (s : State) : Answer := .next (resReg 2 .h s)

/-- RES 2,L (R304). -/
def execRes2L (s : State) : Answer := .next (resReg 2 .l s)

/-- RES 2,(HL) (R304). -/
def execRes2AtHL (s : State) : Answer := .next (resAtHL 2 s)

/-- RES 2,A (R304). -/
def execRes2A (s : State) : Answer := .next (resReg 2 .a s)

/-- RES 3,B (R304). -/
def execRes3B (s : State) : Answer := .next (resReg 3 .b s)

/-- RES 3,C (R304). -/
def execRes3C (s : State) : Answer := .next (resReg 3 .c s)

/-- RES 3,D (R304). -/
def execRes3D (s : State) : Answer := .next (resReg 3 .d s)

/-- RES 3,E (R304). -/
def execRes3E (s : State) : Answer := .next (resReg 3 .e s)

/-- RES 3,H (R304). -/
def execRes3H (s : State) : Answer := .next (resReg 3 .h s)

/-- RES 3,L (R304). -/
def execRes3L (s : State) : Answer := .next (resReg 3 .l s)

/-- RES 3,(HL) (R304). -/
def execRes3AtHL (s : State) : Answer := .next (resAtHL 3 s)

/-- RES 3,A (R304). -/
def execRes3A (s : State) : Answer := .next (resReg 3 .a s)

/-- RES 4,B (R304). -/
def execRes4B (s : State) : Answer := .next (resReg 4 .b s)

/-- RES 4,C (R304). -/
def execRes4C (s : State) : Answer := .next (resReg 4 .c s)

/-- RES 4,D (R304). -/
def execRes4D (s : State) : Answer := .next (resReg 4 .d s)

/-- RES 4,E (R304). -/
def execRes4E (s : State) : Answer := .next (resReg 4 .e s)

/-- RES 4,H (R304). -/
def execRes4H (s : State) : Answer := .next (resReg 4 .h s)

/-- RES 4,L (R304). -/
def execRes4L (s : State) : Answer := .next (resReg 4 .l s)

/-- RES 4,(HL) (R304). -/
def execRes4AtHL (s : State) : Answer := .next (resAtHL 4 s)

/-- RES 4,A (R304). -/
def execRes4A (s : State) : Answer := .next (resReg 4 .a s)

/-- RES 5,B (R304). -/
def execRes5B (s : State) : Answer := .next (resReg 5 .b s)

/-- RES 5,C (R304). -/
def execRes5C (s : State) : Answer := .next (resReg 5 .c s)

/-- RES 5,D (R304). -/
def execRes5D (s : State) : Answer := .next (resReg 5 .d s)

/-- RES 5,E (R304). -/
def execRes5E (s : State) : Answer := .next (resReg 5 .e s)

/-- RES 5,H (R304). -/
def execRes5H (s : State) : Answer := .next (resReg 5 .h s)

/-- RES 5,L (R304). -/
def execRes5L (s : State) : Answer := .next (resReg 5 .l s)

/-- RES 5,(HL) (R304). -/
def execRes5AtHL (s : State) : Answer := .next (resAtHL 5 s)

/-- RES 5,A (R304). -/
def execRes5A (s : State) : Answer := .next (resReg 5 .a s)

/-- RES 6,B (R304). -/
def execRes6B (s : State) : Answer := .next (resReg 6 .b s)

/-- RES 6,C (R304). -/
def execRes6C (s : State) : Answer := .next (resReg 6 .c s)

/-- RES 6,D (R304). -/
def execRes6D (s : State) : Answer := .next (resReg 6 .d s)

/-- RES 6,E (R304). -/
def execRes6E (s : State) : Answer := .next (resReg 6 .e s)

/-- RES 6,H (R304). -/
def execRes6H (s : State) : Answer := .next (resReg 6 .h s)

/-- RES 6,L (R304). -/
def execRes6L (s : State) : Answer := .next (resReg 6 .l s)

/-- RES 6,(HL) (R304). -/
def execRes6AtHL (s : State) : Answer := .next (resAtHL 6 s)

/-- RES 6,A (R304). -/
def execRes6A (s : State) : Answer := .next (resReg 6 .a s)

/-- RES 7,B (R304). -/
def execRes7B (s : State) : Answer := .next (resReg 7 .b s)

/-- RES 7,C (R304). -/
def execRes7C (s : State) : Answer := .next (resReg 7 .c s)

/-- RES 7,D (R304). -/
def execRes7D (s : State) : Answer := .next (resReg 7 .d s)

/-- RES 7,E (R304). -/
def execRes7E (s : State) : Answer := .next (resReg 7 .e s)

/-- RES 7,H (R304). -/
def execRes7H (s : State) : Answer := .next (resReg 7 .h s)

/-- RES 7,L (R304). -/
def execRes7L (s : State) : Answer := .next (resReg 7 .l s)

/-- RES 7,(HL) (R304). -/
def execRes7AtHL (s : State) : Answer := .next (resAtHL 7 s)

/-- RES 7,A (R304). -/
def execRes7A (s : State) : Answer := .next (resReg 7 .a s)

/-- SET 0,B (R305). -/
def execSet0B (s : State) : Answer := .next (setReg 0 .b s)

/-- SET 0,C (R305). -/
def execSet0C (s : State) : Answer := .next (setReg 0 .c s)

/-- SET 0,D (R305). -/
def execSet0D (s : State) : Answer := .next (setReg 0 .d s)

/-- SET 0,E (R305). -/
def execSet0E (s : State) : Answer := .next (setReg 0 .e s)

/-- SET 0,H (R305). -/
def execSet0H (s : State) : Answer := .next (setReg 0 .h s)

/-- SET 0,L (R305). -/
def execSet0L (s : State) : Answer := .next (setReg 0 .l s)

/-- SET 0,(HL) (R305). -/
def execSet0AtHL (s : State) : Answer := .next (setAtHL 0 s)

/-- SET 0,A (R305). -/
def execSet0A (s : State) : Answer := .next (setReg 0 .a s)

/-- SET 1,B (R305). -/
def execSet1B (s : State) : Answer := .next (setReg 1 .b s)

/-- SET 1,C (R305). -/
def execSet1C (s : State) : Answer := .next (setReg 1 .c s)

/-- SET 1,D (R305). -/
def execSet1D (s : State) : Answer := .next (setReg 1 .d s)

/-- SET 1,E (R305). -/
def execSet1E (s : State) : Answer := .next (setReg 1 .e s)

/-- SET 1,H (R305). -/
def execSet1H (s : State) : Answer := .next (setReg 1 .h s)

/-- SET 1,L (R305). -/
def execSet1L (s : State) : Answer := .next (setReg 1 .l s)

/-- SET 1,(HL) (R305). -/
def execSet1AtHL (s : State) : Answer := .next (setAtHL 1 s)

/-- SET 1,A (R305). -/
def execSet1A (s : State) : Answer := .next (setReg 1 .a s)

/-- SET 2,B (R305). -/
def execSet2B (s : State) : Answer := .next (setReg 2 .b s)

/-- SET 2,C (R305). -/
def execSet2C (s : State) : Answer := .next (setReg 2 .c s)

/-- SET 2,D (R305). -/
def execSet2D (s : State) : Answer := .next (setReg 2 .d s)

/-- SET 2,E (R305). -/
def execSet2E (s : State) : Answer := .next (setReg 2 .e s)

/-- SET 2,H (R305). -/
def execSet2H (s : State) : Answer := .next (setReg 2 .h s)

/-- SET 2,L (R305). -/
def execSet2L (s : State) : Answer := .next (setReg 2 .l s)

/-- SET 2,(HL) (R305). -/
def execSet2AtHL (s : State) : Answer := .next (setAtHL 2 s)

/-- SET 2,A (R305). -/
def execSet2A (s : State) : Answer := .next (setReg 2 .a s)

/-- SET 3,B (R305). -/
def execSet3B (s : State) : Answer := .next (setReg 3 .b s)

/-- SET 3,C (R305). -/
def execSet3C (s : State) : Answer := .next (setReg 3 .c s)

/-- SET 3,D (R305). -/
def execSet3D (s : State) : Answer := .next (setReg 3 .d s)

/-- SET 3,E (R305). -/
def execSet3E (s : State) : Answer := .next (setReg 3 .e s)

/-- SET 3,H (R305). -/
def execSet3H (s : State) : Answer := .next (setReg 3 .h s)

/-- SET 3,L (R305). -/
def execSet3L (s : State) : Answer := .next (setReg 3 .l s)

/-- SET 3,(HL) (R305). -/
def execSet3AtHL (s : State) : Answer := .next (setAtHL 3 s)

/-- SET 3,A (R305). -/
def execSet3A (s : State) : Answer := .next (setReg 3 .a s)

/-- SET 4,B (R305). -/
def execSet4B (s : State) : Answer := .next (setReg 4 .b s)

/-- SET 4,C (R305). -/
def execSet4C (s : State) : Answer := .next (setReg 4 .c s)

/-- SET 4,D (R305). -/
def execSet4D (s : State) : Answer := .next (setReg 4 .d s)

/-- SET 4,E (R305). -/
def execSet4E (s : State) : Answer := .next (setReg 4 .e s)

/-- SET 4,H (R305). -/
def execSet4H (s : State) : Answer := .next (setReg 4 .h s)

/-- SET 4,L (R305). -/
def execSet4L (s : State) : Answer := .next (setReg 4 .l s)

/-- SET 4,(HL) (R305). -/
def execSet4AtHL (s : State) : Answer := .next (setAtHL 4 s)

/-- SET 4,A (R305). -/
def execSet4A (s : State) : Answer := .next (setReg 4 .a s)

/-- SET 5,B (R305). -/
def execSet5B (s : State) : Answer := .next (setReg 5 .b s)

/-- SET 5,C (R305). -/
def execSet5C (s : State) : Answer := .next (setReg 5 .c s)

/-- SET 5,D (R305). -/
def execSet5D (s : State) : Answer := .next (setReg 5 .d s)

/-- SET 5,E (R305). -/
def execSet5E (s : State) : Answer := .next (setReg 5 .e s)

/-- SET 5,H (R305). -/
def execSet5H (s : State) : Answer := .next (setReg 5 .h s)

/-- SET 5,L (R305). -/
def execSet5L (s : State) : Answer := .next (setReg 5 .l s)

/-- SET 5,(HL) (R305). -/
def execSet5AtHL (s : State) : Answer := .next (setAtHL 5 s)

/-- SET 5,A (R305). -/
def execSet5A (s : State) : Answer := .next (setReg 5 .a s)

/-- SET 6,B (R305). -/
def execSet6B (s : State) : Answer := .next (setReg 6 .b s)

/-- SET 6,C (R305). -/
def execSet6C (s : State) : Answer := .next (setReg 6 .c s)

/-- SET 6,D (R305). -/
def execSet6D (s : State) : Answer := .next (setReg 6 .d s)

/-- SET 6,E (R305). -/
def execSet6E (s : State) : Answer := .next (setReg 6 .e s)

/-- SET 6,H (R305). -/
def execSet6H (s : State) : Answer := .next (setReg 6 .h s)

/-- SET 6,L (R305). -/
def execSet6L (s : State) : Answer := .next (setReg 6 .l s)

/-- SET 6,(HL) (R305). -/
def execSet6AtHL (s : State) : Answer := .next (setAtHL 6 s)

/-- SET 6,A (R305). -/
def execSet6A (s : State) : Answer := .next (setReg 6 .a s)

/-- SET 7,B (R305). -/
def execSet7B (s : State) : Answer := .next (setReg 7 .b s)

/-- SET 7,C (R305). -/
def execSet7C (s : State) : Answer := .next (setReg 7 .c s)

/-- SET 7,D (R305). -/
def execSet7D (s : State) : Answer := .next (setReg 7 .d s)

/-- SET 7,E (R305). -/
def execSet7E (s : State) : Answer := .next (setReg 7 .e s)

/-- SET 7,H (R305). -/
def execSet7H (s : State) : Answer := .next (setReg 7 .h s)

/-- SET 7,L (R305). -/
def execSet7L (s : State) : Answer := .next (setReg 7 .l s)

/-- SET 7,(HL) (R305). -/
def execSet7AtHL (s : State) : Answer := .next (setAtHL 7 s)

/-- SET 7,A (R305). -/
def execSet7A (s : State) : Answer := .next (setReg 7 .a s)

end Sys2Proof.Machine
end

