-- ==== Sys2Proof/Machine/System.lean ====
section
/-! DEFINITION. NOP, HALT, STOP, DI, EI, the CB prefix and the illegal opcodes (spec/45_system.md R340-R346). -/

namespace Sys2Proof.Machine

open Sys2Proof

/-! ## Operations -/

/-- NOP (R340). -/
def noOperation (s : State) : State := s

/-- HALT (R341). -/
def enterHalt (s : State) : State := s.updCpu (fun p => { p with halted := true })

/-- DI (R343). -/
def disableInterrupts (s : State) : State := s.updCpu (fun p => { p with ime := false, imePending := false })

/-- EI (R344). -/
def requestEnable (s : State) : State := s.updCpu (fun p => { p with imePending := true })

/-- The prefix byte read as a row of its own: fetch the CB opcode and execute its rule (R345). The decoder never answers
the row, since 0xCB and the byte after it are one instruction (log 8). -/
def prefixedOperation (s : State) : State :=
  let f := fetchByte s
  execCbOpcode f.1 f.2

/-! ## Meanings -/

/-- NOP (R340). -/
def execNop (s : State) : Answer := .next (noOperation s)

/-- STOP (R342): refused by the spec, with the opcode's address; PC is already past it. -/
def execStop (s : State) : Answer := .refused (.stop (s.cpu.pc - 1))

/-- HALT (R341). -/
def execHalt (s : State) : Answer := .next (enterHalt s)

/-- PREFIX CB (R345). -/
def execPrefixCb (s : State) : Answer := .next (prefixedOperation s)

/-- ILLEGAL (R346): the fatal decode error, with the opcode's address; PC is already past it. -/
def execIllegal (op : Byte) (s : State) : Answer := .fault (.illegalOpcode (s.cpu.pc - 1) op)

/-- DI (R343). -/
def execDi (s : State) : Answer := .next (disableInterrupts s)

/-- EI (R344). -/
def execEi (s : State) : Answer := .next (requestEnable s)

end Sys2Proof.Machine
end

