-- ==== Sys2Proof/Machine/FetchWord.lean ====
section
/-! DEFINITION. Placing an instruction's bytes where the next step fetches them, for `State.withFetchWord` (log 4, 5).
This is the loading of a program from outside the machine, not an action of the machine. -/

namespace Sys2Proof.Machine

open Sys2Proof

/-- A header of zeros: a plain cartridge of 32 KiB without RAM (spec/20_memory.md R111-R114). -/
def Header.blank : Header :=
  { entryVector := List.replicate 4 0, logo := List.replicate 0x30 0, title := List.replicate 16 0,
    newLicensee := List.replicate 2 0, sgbFlag := 0, typeCode := 0, romSizeCode := 0, ramSizeCode := 0,
    destination := 0, oldLicensee := 0, maskRomVersion := 0, headerChecksum := 0, globalChecksum := List.replicate 2 0 }

/-- The cartridge of an image of 32768 zero bytes, which is admitted: plain, two ROM banks, no RAM. -/
def Cartridge.blank : Cartridge :=
  { Cartridge.absent with romLen := 32768, header := some Header.blank, rejected := none, romBanks := 2 }

/-- The cartridge a program can be placed in: the loaded one when it is admitted, else a blank one. -/
def Cartridge.loadable (c : Cartridge) : Cartridge := if c.rejected.isSome then Cartridge.blank else c

/-- Replace the byte that a bus read of an address answers, where a memory stands behind it: the cartridge image,
VRAM, WRAM, HRAM, external RAM that answers, OAM without a DMA. -/
def State.poke (s : State) (a : Word) (v : Byte) : Option State :=
  match regionOf a with
  | .rom =>
    if s.cart.romOffset a < s.cart.romLen then
      some { s with cart := { s.cart with rom := s.cart.rom.write (s.cart.romOffset a) v } }
    else none
  | .vram | .wram | .hram => some { s with mem := s.mem.write a.toNat v }
  | .externalRam =>
    if s.cart.ramAccessible then some { s with cart := { s.cart with ram := s.cart.ram.write (s.cart.ramKey a) v } }
    else none
  | .oam => if s.dma.active then none else some { s with mem := s.mem.write a.toNat v }
  | .echo | .unusable | .io | .intEnable => none

/-- Place three bytes at PC. -/
def State.pokeAtPc (s : State) (b : Byte × Byte × Byte) : Option State := do
  let s ← s.poke s.cpu.pc b.1
  let s ← s.poke (s.cpu.pc + 1) b.2.1
  s.poke (s.cpu.pc + 2) b.2.2

/-- The start of working RAM, where the bytes go when PC is at an address that no memory stands behind. -/
def fallbackPc : Word := 0xC000

/-- The state in which the next step fetches the three bytes: running, not halted, an admitted cartridge, the bytes at
PC, or at `fallbackPc` with PC there when one of the three addresses at PC cannot hold a byte. -/
def State.withBytes (s : State) (b : Byte × Byte × Byte) : State :=
  let ready : State :=
    { s with status := .running, cpu := { s.cpu with halted := false }, cart := s.cart.loadable }
  match ready.pokeAtPc b with
  | some t => t
  | none => ((ready.setPc fallbackPc).pokeAtPc b).getD ready

end Sys2Proof.Machine
end

