-- ==== Sys2Proof/Machine/Step.lean ====
section
/-! DEFINITION. One step of the CPU engine (spec/30_encoding.md R160), and the placing of an instruction for the next
step. -/

namespace Sys2Proof.Machine

open Sys2Proof

/-- `step()`: nothing on a faulted or refused machine and on a cartridge that is not admitted; a halted poll; or one
instruction with its interrupt phase. Every step that goes on ends with the EI latch (spec/30_encoding.md R160,
spec/10_state.md R29, spec/20_memory.md R121). -/
def step (s : State) : Host.Outcome State Fault Refusal :=
  match s.status with
  | .faulted pc op => .fault (.illegalOpcode pc op)
  | .refused r => .refused r
  | .running =>
    match s.cart.rejected with
    | some field => .refused (.unsupportedCartridge field s.cpu.pc)
    | none =>
      if s.cpu.halted then .next (endOfStep (haltedPoll s))
      else afterInstruction (exec (fetchInstr s).instr (fetchInstr s).after)

/-- The state in which the next step fetches and runs the table's word (log 4, 5). -/
def State.withFetchWord (s : State) (nbits w : Nat) : State := s.withBytes (tableBytes nbits w)

end Sys2Proof.Machine
end

