-- ==== Sys2Proof/Machine/Reset.lean ====
section
/-! DEFINITION. The state a run starts from, for every value of the parameters of spec/00_scope.md R7
(spec/70_reset_and_hazards.md R520, spec/20_memory.md R110, R121). `State.reset` is this at the spec's defaults. -/

namespace Sys2Proof.Machine

open Sys2Proof

/-- VRAM, WRAM, OAM and HRAM at reset: each image cut to its memory's size (spec/10_state.md R32; log 2). -/
def initialMemory (st : Config.Start) : Memory :=
  Memory.ofBytes 0x8000 (st.initVram.take 8192) ++ Memory.ofBytes 0xC000 (st.initWram.take 8192)
    ++ Memory.ofBytes 0xFE00 (st.initOam.take 160) ++ Memory.ofBytes 0xFF80 (st.initHram.take 127)

/-- The reset state of the given parameters: an image that is not admitted is kept, and `step` refuses it
(spec/70_reset_and_hazards.md R520, R523). -/
def resetWith (st : Config.Start) : State :=
  { State.reset with
    mem := initialMemory st
    timer := { State.reset.timer with div := st.initDiv }
    buttons := st.buttons
    cart := loadCartridge st.cart st.battery
    params := st.params }

end Sys2Proof.Machine
end

