-- ==== Sys2Proof/Machine/HostSide.lean ====
section
/-! DEFINITION. What stands around a step: the state a stopping step leaves, a run, and the host's actions between two
steps (spec/60_exceptions.md R412, R450-R453, spec/20_memory.md R131). -/

namespace Sys2Proof.Machine

open Sys2Proof

/-! ## The state after a step, stopped or not -/

/-- The state after a step, a stopping one included: the fetch cycle done, PC past the opcode and the status set; a
cartridge that is not admitted sets the status alone; a machine that has stopped stays as it is
(spec/60_exceptions.md R412, spec/45_system.md R342, R346, spec/10_state.md R29; log 13). -/
def stateAfterStep (s : State) : State :=
  match s.status with
  | .faulted _ _ => s
  | .refused _ => s
  | .running =>
    match step s with
    | .next t => t
    | .fault (.illegalOpcode pc op) => { (fetchInstr s).after with status := .faulted pc op }
    | .refused (.unsupportedCartridge f pc) => { s with status := .refused (.unsupportedCartridge f pc) }
    | .refused r => { (fetchInstr s).after with status := .refused r }

/-- A run of at most `n` steps, `n` being the fuel; the host's stop request is its end (spec/60_exceptions.md R451,
R453). -/
def runFor : Nat → State → State
  | 0, s => s
  | n + 1, s => runFor n (stateAfterStep s)

/-! ## The host's actions (spec/60_exceptions.md R450) -/

/-- Push buttons: the button state only, and the joypad request when a P1 line falls (R438, R450). -/
def State.pressButtons (b : Config.Buttons) (s : State) : State := s.setJoypad s.joySel b

/-- Read the completed-frame counter (R450, spec/61_video.md R494). -/
def State.readFrameCounter (s : State) : Nat := s.ppu.frameCounter

/-- Read a framebuffer pixel (R450, spec/61_video.md R495). -/
def State.readPixel (s : State) (row column : Nat) : Colour :=
  Cells.read s.params.ramp.shade0 s.ppu.framebuffer (pixelKey row column)

/-- `needs_save()` (spec/20_memory.md R131). -/
def State.readNeedsSave (s : State) : Bool := s.cart.needsSave

/-- `save_battery()`: the 8192 bytes of external RAM bank 0, and nothing when there is no bank 0; `needs_save` is not
changed (spec/20_memory.md R131). -/
def State.saveBattery (s : State) : Option (List Byte) :=
  if s.cart.ramBanks = 0 then none else some ((List.range Config.ramBankSize).map s.cart.ram.read)

end Sys2Proof.Machine
end

