-- ==== Sys2Proof/Safety.lean ====
section
/-! DEFINITION. The terms the claims are made in: what a state between two steps looks like (the invariant), what a
frame is, a safe run, and the numbers the spec's tables give to registers, conditions and operations. Nothing here is
part of the machine. -/

namespace Sys2Proof

/-! ## The field values of the encoding (spec/30_encoding.md R142-R149) -/

/-- The value of the register field that selects the register; 6 is `(HL)` (R142). -/
def Reg8.number : Reg8 → Nat
  | .b => 0
  | .c => 1
  | .d => 2
  | .e => 3
  | .h => 4
  | .l => 5
  | .a => 7

/-- The value of field dd (R143). -/
def Pair.number : Pair → Nat
  | .bc => 0
  | .de => 1
  | .hl => 2
  | .sp => 3

/-- The value of field qq (R143). -/
def StackPair.number : StackPair → Nat
  | .bc => 0
  | .de => 1
  | .hl => 2
  | .af => 3

/-- The value of field cc (R144). -/
def Cond.number : Cond → Nat
  | .nz => 0
  | .z => 1
  | .nc => 2
  | .c => 3

/-- The value of field y for an ALU operation (R147). -/
def AluOp.number : AluOp → Nat
  | .add => 0
  | .adc => 1
  | .sub => 2
  | .sbc => 3
  | .and => 4
  | .xor => 5
  | .or => 6
  | .cp => 7

/-- The subtype of a CB rotate or shift (R149). -/
def RotOp.number : RotOp → Nat
  | .rlc => 0
  | .rrc => 1
  | .rl => 2
  | .rr => 3
  | .sla => 4
  | .sra => 5
  | .swap => 6
  | .srl => 7

/-- A byte of an encoding, from the number its fields make. -/
def opcodeByte (n : Nat) : Byte := BitVec.ofNat 8 n

/-! ## The flags byte and the conditions as numbers (spec/10_state.md R22, spec/44_control.md R320) -/

/-- The F byte of four flags: bit 7 Z, bit 6 N, bit 5 H, bit 4 C, the rest 0. -/
def flagsByte (z n h c : Bool) : Byte :=
  BitVec.ofNat 8 (128 * z.toNat + 64 * n.toNat + 32 * h.toNat + 16 * c.toNat)

/-- Whether a condition holds of an F byte. -/
def Cond.holds (cc : Cond) (f : Byte) : Bool :=
  match cc with
  | .nz => f.toNat / 128 % 2 = 0
  | .z => f.toNat / 128 % 2 = 1
  | .nc => f.toNat / 16 % 2 = 0
  | .c => f.toNat / 16 % 2 = 1

/-- The result and the carry of a CB rotate or shift as the rules of spec/43_rotate_shift_bit.md R295-R302 give them,
on numbers below 256; `c` is the C flag before it. -/
def RotOp.result (op : RotOp) (v c : Nat) : Nat × Bool :=
  match op with
  | .rlc => (2 * v % 256 + v / 128, v / 128 = 1)
  | .rrc => (v / 2 + 128 * (v % 2), v % 2 = 1)
  | .rl => (2 * v % 256 + c, v / 128 = 1)
  | .rr => (v / 2 + 128 * c, v % 2 = 1)
  | .sla => (2 * v % 256, v / 128 = 1)
  | .sra => (v / 2 + 128 * (v / 128), v % 2 = 1)
  | .swap => (16 * (v % 16) + v / 16, false)
  | .srl => (v / 2, v % 2 = 1)

namespace Machine

/-! ## What an instruction stores to, and its cycles -/

/-- Whether a conditional control transfer is taken; true of every other instruction (spec/44_control.md R320). -/
def taken (i : Instr) (f : Byte) : Bool :=
  match i with
  | .jrNZ _ => Cond.nz.holds f
  | .jrZ _ => Cond.z.holds f
  | .jrNC _ => Cond.nc.holds f
  | .jrC _ => Cond.c.holds f
  | .retNZ => Cond.nz.holds f
  | .jpNZ _ => Cond.nz.holds f
  | .callNZ _ => Cond.nz.holds f
  | .retZ => Cond.z.holds f
  | .jpZ _ => Cond.z.holds f
  | .callZ _ => Cond.z.holds f
  | .retNC => Cond.nc.holds f
  | .jpNC _ => Cond.nc.holds f
  | .callNC _ => Cond.nc.holds f
  | .retC => Cond.c.holds f
  | .jpC _ => Cond.c.holds f
  | .callC _ => Cond.c.holds f
  | _ => true

/-- The addresses an instruction stores to, in the order of its stores, computed from the state its meaning starts from
as its rule computes them; the prefix byte by itself stores what the CB opcode at PC stores. -/
def storeAddresses (i : Instr) (s : State) : List Word :=
  match i with
  | .ldAtBCA => [mk16 s.cpu.b s.cpu.c]
  | .ldAt16SP nn => [nn, nn + 1]
  | .ldAtDEA => [mk16 s.cpu.d s.cpu.e]
  | .ldAtHLIncA => [s.cpu.hl]
  | .ldAtHLDecA => [s.cpu.hl]
  | .incAtHL => [s.cpu.hl]
  | .decAtHL => [s.cpu.hl]
  | .ldAtHLImm _ => [s.cpu.hl]
  | .ldAtHLB => [s.cpu.hl]
  | .ldAtHLC => [s.cpu.hl]
  | .ldAtHLD => [s.cpu.hl]
  | .ldAtHLE => [s.cpu.hl]
  | .ldAtHLH => [s.cpu.hl]
  | .ldAtHLL => [s.cpu.hl]
  | .ldAtHLA => [s.cpu.hl]
  | .callNZ _ => if Cond.nz.holds s.cpu.f then [s.cpu.sp - 1, s.cpu.sp - 2] else []
  | .pushBC => [s.cpu.sp - 1, s.cpu.sp - 2]
  | .rst00 => [s.cpu.sp - 1, s.cpu.sp - 2]
  | .callZ _ => if Cond.z.holds s.cpu.f then [s.cpu.sp - 1, s.cpu.sp - 2] else []
  | .call _ => [s.cpu.sp - 1, s.cpu.sp - 2]
  | .rst08 => [s.cpu.sp - 1, s.cpu.sp - 2]
  | .callNC _ => if Cond.nc.holds s.cpu.f then [s.cpu.sp - 1, s.cpu.sp - 2] else []
  | .pushDE => [s.cpu.sp - 1, s.cpu.sp - 2]
  | .rst10 => [s.cpu.sp - 1, s.cpu.sp - 2]
  | .callC _ => if Cond.c.holds s.cpu.f then [s.cpu.sp - 1, s.cpu.sp - 2] else []
  | .rst18 => [s.cpu.sp - 1, s.cpu.sp - 2]
  | .ldhAt8A n => [0xFF00 + zext16 n]
  | .ldAtCA => [0xFF00 + zext16 s.cpu.c]
  | .pushHL => [s.cpu.sp - 1, s.cpu.sp - 2]
  | .rst20 => [s.cpu.sp - 1, s.cpu.sp - 2]
  | .ldAt16A nn => [nn]
  | .rst28 => [s.cpu.sp - 1, s.cpu.sp - 2]
  | .pushAF => [s.cpu.sp - 1, s.cpu.sp - 2]
  | .rst30 => [s.cpu.sp - 1, s.cpu.sp - 2]
  | .rst38 => [s.cpu.sp - 1, s.cpu.sp - 2]
  | .rlcAtHL => [s.cpu.hl]
  | .rrcAtHL => [s.cpu.hl]
  | .rlAtHL => [s.cpu.hl]
  | .rrAtHL => [s.cpu.hl]
  | .slaAtHL => [s.cpu.hl]
  | .sraAtHL => [s.cpu.hl]
  | .swapAtHL => [s.cpu.hl]
  | .srlAtHL => [s.cpu.hl]
  | .res0AtHL => [s.cpu.hl]
  | .res1AtHL => [s.cpu.hl]
  | .res2AtHL => [s.cpu.hl]
  | .res3AtHL => [s.cpu.hl]
  | .res4AtHL => [s.cpu.hl]
  | .res5AtHL => [s.cpu.hl]
  | .res6AtHL => [s.cpu.hl]
  | .res7AtHL => [s.cpu.hl]
  | .set0AtHL => [s.cpu.hl]
  | .set1AtHL => [s.cpu.hl]
  | .set2AtHL => [s.cpu.hl]
  | .set3AtHL => [s.cpu.hl]
  | .set4AtHL => [s.cpu.hl]
  | .set5AtHL => [s.cpu.hl]
  | .set6AtHL => [s.cpu.hl]
  | .set7AtHL => [s.cpu.hl]
  | .prefixCb =>
    if (busRead s s.cpu.pc).toNat % 8 = 6 ∧ (busRead s s.cpu.pc).toNat / 64 ≠ 1 then [s.cpu.hl] else []
  | _ => []


/-! ## The schedule of pixel transfer (spec/61_video.md R462, R466, R467) -/

/-- The fetcher's state `k` ticks after the start of pixel transfer. -/
def transferFetch (k : Nat) : FetchState :=
  let phase := if k < 10 then k % 5 else if k < 17 then k - 10 else (k - 17) % 8
  match phase with
  | 0 => .tile
  | 1 => .data0
  | 2 => .data1
  | 3 => .idle
  | _ => .push

/-- The groups of eight pixels pushed in the first `k` ticks of pixel transfer. -/
def transferGroups (k : Nat) : Nat := if k < 10 then k / 5 else if k < 17 then 2 else 3 + (k - 17) / 8

/-- The pixels popped in the first `k` ticks of pixel transfer. -/
def transferPops (k : Nat) : Nat := if k < 10 then k / 5 else k - 8

/-- The length of pixel transfer, `168 + fine_x` ticks (R462). -/
def transferTicks (fineX : Nat) : Nat := 168 + fineX

/-! ## The invariant: what holds of the state before and after every step -/

/-- The keys of the memories the core owns (spec/10_state.md R32). -/
def coreKey (k : Nat) : Bool :=
  (0x8000 ≤ k && k < 0xA000) || (0xC000 ≤ k && k < 0xE000) || (0xFE00 ≤ k && k < 0xFEA0) ||
    (0xFF80 ≤ k && k < 0xFFFF)

/-- The CPU between steps: F's low nibble is 0 (spec/10_state.md R22) and the EI latch is not set (R27). -/
structure Cpu.Inv (p : Cpu) : Prop where
  flagsLow : p.f &&& 0x0F = 0
  latchClear : p.imePending = false

/-- The DMA engine (spec/10_state.md R39): the ranges of its counters, and no byte copied during the delay. -/
structure Dma.Inv (d : Dma) : Prop where
  delay : d.delay ≤ 2
  offset : d.offset ≤ 160
  active : d.active = true → d.offset < 160
  delayed : 0 < d.delay → d.active = true ∧ d.offset = 0

/-- The pipeline during pixel transfer is the schedule's at its tick (spec/61_video.md R462-R469). -/
structure Ppu.TransferInv (p : Ppu) : Prop where
  started : 80 ≤ p.lineTicks
  running : p.lineTicks - 80 < transferTicks p.fineX
  fetchState : p.fetchState = transferFetch (p.lineTicks - 80)
  fetchX : p.fetchX = 8 * transferGroups (p.lineTicks - 80)
  lineX : p.lineX = transferPops (p.lineTicks - 80)
  pushedX : p.pushedX = transferPops (p.lineTicks - 80) - p.fineX
  fifo : p.fifo.length = 8 * transferGroups (p.lineTicks - 80) - transferPops (p.lineTicks - 80)

/-- The PPU between ticks (spec/10_state.md R43, R47, spec/61_video.md R462, R469, R492, R496). -/
structure Ppu.Inv (par : Config.Params) (p : Ppu) : Prop where
  line : p.ly.toNat ≤ 153
  vblank : p.mode = .vblank ↔ 144 ≤ p.ly.toNat
  ticks : p.lineTicks < Config.ticksPerLine
  oamScan : p.mode = .oamScan → p.lineTicks < Config.oamScanTicks
  transfer : p.mode = .transfer → p.TransferInv
  off : p.lcdWasOn = false → p.mode = .hblank ∧ p.lineTicks = 0 ∧ p.ly = 0 ∧ p.fifo = [] ∧ p.lineSprites = []
  sprites : p.lineSprites.length ≤ Config.maxLineSprites
  spriteIndex : ∀ sp ∈ p.lineSprites, sp.index < 40
  pushed : p.pushedX ≤ Config.screenWidth
  fine : p.fineX ≤ 7
  fifo : p.fifo.length ≤ 16
  frames : p.frameCounter < 2 ^ par.frameCounterBits
  canonical : Cells.wf par.ramp.shade0 p.framebuffer = true
  pixels : ∀ c ∈ p.framebuffer, c.1 < Config.screenWidth * Config.screenHeight

/-- The cartridge: canonical memories inside their sizes, bank counts of an admitted cartridge, and a ROM bank select
that is never 0 and no wider than its family's (spec/20_memory.md R112, R113, R120, R123, R127). -/
structure Cartridge.Inv (c : Cartridge) : Prop where
  romCanonical : c.rom.wf = true
  romKeys : ∀ x ∈ c.rom, x.1 < c.romLen
  ramCanonical : c.ram.wf = true
  ramKeys : ∀ x ∈ c.ram, x.1 < c.ramBanks * Config.ramBankSize
  romSelNonzero : c.romSel ≠ 0
  romSelA : c.family = .familyA → c.romSel.toNat < 32
  romSelB : c.family = .familyB → c.romSel.toNat < 128
  banks : c.rejected = none → 2 ≤ c.romBanks ∧ c.romBanks ≤ 512 ∧ c.ramBanks ≤ 16

/-- The invariant of the machine between steps. -/
structure State.Inv (s : State) : Prop where
  cpu : s.cpu.Inv
  canonical : s.mem.wf = true
  keys : ∀ x ∈ s.mem, coreKey x.1 = true
  dma : s.dma.Inv
  ppu : s.ppu.Inv s.params
  cart : s.cart.Inv

/-! ## Frames -/

/-- The regions whose bytes are plain memory of the core or of the cartridge: every region but the I/O block and the
registers' echoes. -/
def Region.plain : Region → Bool
  | .rom | .vram | .externalRam | .wram | .echo | .oam | .unusable | .hram | .intEnable => true
  | .io => false

/-- Only the bytes at the addresses `as` were stored: every other address outside the I/O block reads as before. A
store to the cartridge's control range changes the banks that the cartridge's windows show, and a store to the DMA
register starts a transfer that owns OAM, so after such a store those windows are left out. -/
def MemoryKeptBut (as : List Word) (s t : State) : Prop :=
  ∀ b : Word, b ∉ as → (regionOf b).plain = true →
    (regionOf b = .oam → s.dma.active = false ∧ ∀ a ∈ as, ioRegAt a ≠ some .dma) →
    (regionOf b = .rom ∨ regionOf b = .externalRam → ∀ a ∈ as, regionOf a ≠ .rom) → busRead t b = busRead s b

/-- The state with another CPU part: nothing but the CPU differs. -/
def State.withCpu (s : State) (p : Cpu) : State := { s with cpu := p }

/-- The state after `n` bytes of an instruction are fetched: `n` cycles and PC `n` further
(spec/30_encoding.md R160). -/
def afterFetch (n : Nat) (s : State) : State := cycles n (s.advancePc n)

/-- The regions that are the core's own plain memory, the gated sprite memory left out. -/
def Region.isRam : Region → Bool
  | .vram | .wram | .hram => true
  | _ => false

/-! ## Safe runs -/

/-- A state in which the machine runs: not stopped, and its cartridge admitted (spec/10_state.md R29,
spec/20_memory.md R121). -/
def State.Runs (s : State) : Prop := s.status = .running ∧ s.cart.rejected = none

/-- A run of `n` steps is safe when none of them ends in a fault or a refusal (spec/60_exceptions.md R412, R453). -/
def SafeFor : Nat → State → Prop
  | 0, _ => True
  | n + 1, s => ∃ t, step s = .next t ∧ SafeFor n t

end Machine

end Sys2Proof
end

