-- ==== Sys2Proof/Certificates/Slice0/Obligations.lean ====
section
/-! DEFINITION. The statements for the provers. A statement about an instruction says its bytes and what `exec` answers
for every state; `exec` starts from the state after the instruction's fetch lines, which `StepRunsDecoded` states.
`(s.withCpu p)` differs from `s` in nothing but the CPU, so an equation with it is the frame of everything else;
`MemoryKept…` statements say the same by bus reads. In every equation a cycle's access comes before its device ticks, and
the ticks in the order timer, PPU, DMA: the spec's decisions D4 and D17. -/

open Sys2Proof Sys2Proof.Machine

/-! ## Encoding -/

/-- Decoding the bytes of a well-formed instruction gives the instruction back, and the bytes after it. Derived: which
opcodes are illegal and how the CB page is laid out are the spec's decisions D6 and D7; STOP as one byte and a prefix
byte that is no instruction by itself are the model's choices (log 8, log 9). -/
def Obligations.DecodeInvertsEncode : Prop :=
  ∀ (i : Instr) (rest : List Byte), i.wellFormed = true → decode (encode i ++ rest) = .ok (i, rest)

/-- Whatever decodes is well-formed, and its bytes are those that were decoded. Derived, from the same decisions and
choices (D6, D7, log 8, log 9). -/
def Obligations.EncodeInvertsDecode : Prop :=
  ∀ (bytes : List Byte) (i : Instr) (rest : List Byte),
    decode bytes = .ok (i, rest) → i.wellFormed = true ∧ encode i ++ rest = bytes

/-- Every CB opcode is the operation of its class and subtype on the operand of its field (R149, R152): each of the
256 values is one of the eight forms, and each form decodes to its instruction. -/
def Obligations.CbOpcodeFields : Prop :=
  (∀ (op : RotOp) (r : Reg8), decodeCb (opcodeByte (8 * op.number + r.number)) = .rotR op r) ∧
  (∀ op : RotOp, decodeCb (opcodeByte (8 * op.number + 6)) = .rotHL op) ∧
  (∀ (n : Fin 8) (r : Reg8), decodeCb (opcodeByte (0x40 + 8 * n.val + r.number)) = .bitR n r ∧
    decodeCb (opcodeByte (0x80 + 8 * n.val + r.number)) = .resR n r ∧
    decodeCb (opcodeByte (0xC0 + 8 * n.val + r.number)) = .setR n r) ∧
  (∀ n : Fin 8, decodeCb (opcodeByte (0x40 + 8 * n.val + 6)) = .bitHL n ∧
    decodeCb (opcodeByte (0x80 + 8 * n.val + 6)) = .resHL n ∧
    decodeCb (opcodeByte (0xC0 + 8 * n.val + 6)) = .setHL n) ∧
  (∀ b : Byte, ∃ cls y z : Nat, cls < 4 ∧ y < 8 ∧ z < 8 ∧ b = opcodeByte (64 * cls + 8 * y + z))

/-- Words written out from the encodings of the rules decode to the instructions they stand for (a sanity statement).
Derived: the last word rests on the spec's decision D6. -/
def Obligations.SomeWordsDecode : Prop :=
  decode [0b01111000] = .ok (.ldAB, []) ∧
  decode [0b00111110, 0x5A] = .ok (.ldAImm 0x5A, []) ∧
  decode [0b00110001, 0xFE, 0xFF] = .ok (.ldSPImm 0xFFFE, []) ∧
  decode [0b10001011] = .ok (.adcAE, []) ∧
  decode [0b00001001] = .ok (.addHLBC, []) ∧
  decode [0xCB, 0b00010101] = .ok (.rlL, []) ∧
  decode [0xCB, 0b01111111] = .ok (.bit7A, []) ∧
  decode [0xCB, 0b11111110] = .ok (.set7AtHL, []) ∧
  decode [0b11011100, 0x00, 0x20] = .ok (.callC 0x2000, []) ∧
  decode [0b11101111] = .ok (.rst28, []) ∧
  decode [0xD9] = .ok (.reti, []) ∧
  decode [0xED] = .ok (.illegal 0xED, [])

/-! ## The step -/

/-- A step of a running machine that is not halted runs the instruction that the bytes at PC decode to, from the state
after its fetch lines; the second and third byte are read a cycle and two cycles later. A next state of the
instruction goes through the interrupt phase and the EI latch, a stop does not. Derived: the order inside a step is
the spec's decisions D4, D8, D10, D13 and D17, and a meaning that starts after its fetch lines is the model's layout
(log 6). -/
def Obligations.StepRunsDecoded : Prop :=
  ∀ (s : State) (i : Instr) (rest : List Byte), s.Runs → s.cpu.halted = false →
    decode [busRead s s.cpu.pc, busRead (cycle s) (s.cpu.pc + 1), busRead (cycles 2 s) (s.cpu.pc + 2)] = .ok (i, rest) →
    (∀ t, exec i (afterFetch (encode i).length s) = .next t → step s = .next (endOfStep (interruptPhase t))) ∧
    (∀ f, exec i (afterFetch (encode i).length s) = .fault f → step s = .fault f) ∧
    (∀ r, exec i (afterFetch (encode i).length s) = .refused r → step s = .refused r)

/-- A faulted or refused machine takes no further step, its status is never cleared, and a cartridge that is not
admitted is refused before the first step, with the offending field and PC as it stands (R11, R29, R121, R412).
Derived: the spec's decisions D13, D35 and D37; runFor is the model's way to hold a stopped machine's state (log 13),
and which pc the refusal of a cartridge records is its reading (log 19). -/
def Obligations.StoppedMachineStays : Prop :=
  (∀ (s : State) (n : Nat), s.status ≠ .running → runFor n s = s) ∧
  (∀ (s : State) (pc : Word) (op : Byte), s.status = .faulted pc op → step s = .fault (.illegalOpcode pc op)) ∧
  (∀ (s : State) (r : Refusal), s.status = .refused r → step s = .refused r) ∧
  (∀ (s : State) (f : HeaderField) (n : Nat), s.status = .running → s.cart.rejected = some f →
    step s = .refused (.unsupportedCartridge f s.cpu.pc) ∧
    runFor (n + 1) s = { s with status := .refused (.unsupportedCartridge f s.cpu.pc) })

/-- The fatal decode error: the meaning of an illegal opcode faults, and a step that fetches one of the eleven
performs the one fetch cycle, records the opcode and its address, leaves PC past it and runs no interrupt phase.
Derived: the spec's decisions D6 and D13; stateAfterStep is the model's way to say what state a stop leaves (log 13).
-/
def Obligations.FatalDecodeError : Prop :=
  (∀ (op : Byte) (s : State), exec (.illegal op) s = .fault (.illegalOpcode (s.cpu.pc - 1) op)) ∧
  ∀ s : State, s.Runs → s.cpu.halted = false →
    busRead s s.cpu.pc ∈ ([0xD3, 0xDB, 0xDD, 0xE3, 0xE4, 0xEB, 0xEC, 0xED, 0xF4, 0xFC, 0xFD] : List Byte) →
    step s = .fault (.illegalOpcode s.cpu.pc (busRead s s.cpu.pc)) ∧
    stateAfterStep s =
      { (cycle s).withCpu { s.cpu with pc := s.cpu.pc + 1 } with
        status := .faulted s.cpu.pc (busRead s s.cpu.pc) }

/-- STOP is refused after its one fetch cycle, with the opcode's address, the byte after it not fetched. Derived: the
spec's decision D12; one encoded byte and stateAfterStep are the model's (log 9, log 13). -/
def Obligations.StopRefused : Prop :=
  encode .stop = [0x10] ∧
  (∀ s : State, exec .stop s = .refused (.stop (s.cpu.pc - 1))) ∧
  ∀ s : State, s.Runs → s.cpu.halted = false → busRead s s.cpu.pc = 0x10 →
    step s = .refused (.stop s.cpu.pc) ∧
    stateAfterStep s =
      { (cycle s).withCpu { s.cpu with pc := s.cpu.pc + 1 } with status := .refused (.stop s.cpu.pc) }

/-- No other step stops: a running machine with an admitted cartridge goes on at every opcode that is neither STOP nor
illegal, whatever its registers, its memory and the instruction's operands (R410). Derived: the rule is marked as
derived by the spec, and which opcodes stop is its decisions D6, D12 and D13. -/
def Obligations.OnlyStopAndIllegalStop : Prop :=
  ∀ s : State, s.Runs →
    s.cpu.halted = true ∨
      busRead s s.cpu.pc ∉ ([0x10, 0xD3, 0xDB, 0xDD, 0xE3, 0xE4, 0xEB, 0xEC, 0xED, 0xF4, 0xFC, 0xFD] : List Byte) →
    ∃ t, step s = .next t ∧ t.Runs

/-! ## Registers -/

/-- A register holds what is written to it and no other register changes; a pair is its two halves, the first-named
the high one, and writing it writes both (R20, R21). Derived: the spec marks the layout of the pairs as its own
inference. -/
def Obligations.RegisterFile : Prop :=
  (∀ (p : Cpu) (r r' : Reg8) (v : Byte), (p.setReg r v).reg r' = if r' = r then v else p.reg r') ∧
  (∀ (p : Cpu) (r : Reg8) (v : Byte),
    { p.setReg r v with a := p.a, b := p.b, c := p.c, d := p.d, e := p.e, h := p.h, l := p.l } = p) ∧
  (∀ (p : Cpu) (dd : Pair) (v : Word), (p.setPair dd v).pair dd = v) ∧
  (∀ (p : Cpu) (v : Word),
    p.setPair .bc v = { p with b := opcodeByte (v.toNat / 256), c := opcodeByte (v.toNat % 256) } ∧
    p.setPair .de v = { p with d := opcodeByte (v.toNat / 256), e := opcodeByte (v.toNat % 256) } ∧
    p.setPair .hl v = { p with h := opcodeByte (v.toNat / 256), l := opcodeByte (v.toNat % 256) } ∧
    p.setPair .sp v = { p with sp := v }) ∧
  (∀ p : Cpu, (p.pair .bc).toNat = 256 * p.b.toNat + p.c.toNat ∧ (p.pair .de).toNat = 256 * p.d.toNat + p.e.toNat ∧
    (p.pair .hl).toNat = 256 * p.h.toNat + p.l.toNat ∧ p.pair .sp = p.sp ∧ p.hl = p.pair .hl ∧
    (p.stackPair .af).toNat = 256 * p.a.toNat + p.f.toNat ∧ p.stackPair .bc = p.pair .bc ∧
    p.stackPair .de = p.pair .de ∧ p.stackPair .hl = p.pair .hl)

/-! ## Loads and stores -/

/-- LD r,r' and LD r,d8: the destination takes the value, nothing else changes (R201, R202). -/
def Obligations.LoadRegister : Prop :=
  ∀ (dst : Reg8) (s : State),
    (∀ r : Reg8, encode (.loadRR dst r) = [opcodeByte (0x40 + 8 * dst.number + r.number)] ∧
      exec (.loadRR dst r) s = .next (s.withCpu (s.cpu.setReg dst (s.cpu.reg r)))) ∧
    (∀ n : Byte, encode (.loadRImm dst n) = [opcodeByte (0x06 + 8 * dst.number), n] ∧
      exec (.loadRImm dst n) s = .next (s.withCpu (s.cpu.setReg dst n)))

/-- The loads from memory take the byte a bus read of the form's address gives, in one cycle (R203, R206, R207, R210,
R212, R214). -/
def Obligations.LoadFromMemory : Prop :=
  ∀ s : State,
    (∀ dst : Reg8, encode (.loadRAtHL dst) = [opcodeByte (0x46 + 8 * dst.number)] ∧
      exec (.loadRAtHL dst) s = .next ((cycle s).withCpu (s.cpu.setReg dst (busRead s (s.cpu.pair .hl))))) ∧
    encode .ldAAtBC = [0x0A] ∧
    exec .ldAAtBC s = .next ((cycle s).withCpu { s.cpu with a := busRead s (s.cpu.pair .bc) }) ∧
    encode .ldAAtDE = [0x1A] ∧
    exec .ldAAtDE s = .next ((cycle s).withCpu { s.cpu with a := busRead s (s.cpu.pair .de) }) ∧
    (∀ lo hi : Byte, encode (.ldAAt16 (hi ++ lo)) = [0xFA, lo, hi] ∧
      exec (.ldAAt16 (hi ++ lo)) s = .next ((cycle s).withCpu { s.cpu with a := busRead s (hi ++ lo) })) ∧
    (∀ n : Byte, encode (.ldhAAt8 n) = [0xF0, n] ∧
      exec (.ldhAAt8 n) s = .next ((cycle s).withCpu { s.cpu with a := busRead s (0xFF00 + n.setWidth 16) })) ∧
    encode .ldAAtC = [0xF2] ∧
    exec .ldAAtC s = .next ((cycle s).withCpu { s.cpu with a := busRead s (0xFF00 + s.cpu.c.setWidth 16) })

/-- The stores write the byte at the form's address by one bus write, in one cycle; the CPU is unchanged (R204, R205,
R208, R209, R211, R213, R215). -/
def Obligations.StoreToMemory : Prop :=
  ∀ s : State,
    (∀ r : Reg8, encode (.storeAtHLR r) = [opcodeByte (0x70 + r.number)] ∧
      exec (.storeAtHLR r) s = .next (cycle (busWrite s (s.cpu.pair .hl) (s.cpu.reg r)))) ∧
    (∀ n : Byte, encode (.ldAtHLImm n) = [0x36, n] ∧
      exec (.ldAtHLImm n) s = .next (cycle (busWrite s (s.cpu.pair .hl) n))) ∧
    encode .ldAtBCA = [0x02] ∧ exec .ldAtBCA s = .next (cycle (busWrite s (s.cpu.pair .bc) s.cpu.a)) ∧
    encode .ldAtDEA = [0x12] ∧ exec .ldAtDEA s = .next (cycle (busWrite s (s.cpu.pair .de) s.cpu.a)) ∧
    (∀ lo hi : Byte, encode (.ldAt16A (hi ++ lo)) = [0xEA, lo, hi] ∧
      exec (.ldAt16A (hi ++ lo)) s = .next (cycle (busWrite s (hi ++ lo) s.cpu.a))) ∧
    (∀ n : Byte, encode (.ldhAt8A n) = [0xE0, n] ∧
      exec (.ldhAt8A n) s = .next (cycle (busWrite s (0xFF00 + n.setWidth 16) s.cpu.a))) ∧
    encode .ldAtCA = [0xE2] ∧
    exec .ldAtCA s = .next (cycle (busWrite s (0xFF00 + s.cpu.c.setWidth 16) s.cpu.a))

/-- The forms (HL+) and (HL-): the access at HL, then HL one further or one back, no flag (R216-R219). -/
def Obligations.LoadStoreStepHL : Prop :=
  ∀ s : State,
    encode .ldAtHLIncA = [0x22] ∧
    exec .ldAtHLIncA s = .next ((cycle (busWrite s (s.cpu.pair .hl) s.cpu.a)).withCpu
      (s.cpu.setPair .hl (s.cpu.pair .hl + 1))) ∧
    encode .ldAAtHLInc = [0x2A] ∧
    exec .ldAAtHLInc s = .next ((cycle s).withCpu
      ({ s.cpu with a := busRead s (s.cpu.pair .hl) }.setPair .hl (s.cpu.pair .hl + 1))) ∧
    encode .ldAtHLDecA = [0x32] ∧
    exec .ldAtHLDecA s = .next ((cycle (busWrite s (s.cpu.pair .hl) s.cpu.a)).withCpu
      (s.cpu.setPair .hl (s.cpu.pair .hl - 1))) ∧
    encode .ldAAtHLDec = [0x3A] ∧
    exec .ldAAtHLDec s = .next ((cycle s).withCpu
      ({ s.cpu with a := busRead s (s.cpu.pair .hl) }.setPair .hl (s.cpu.pair .hl - 1)))

/-- LD dd,d16 and LD SP,HL (R220, R221). -/
def Obligations.LoadPair : Prop :=
  ∀ s : State,
    (∀ (dd : Pair) (lo hi : Byte), encode (.loadPair dd (hi ++ lo)) = [opcodeByte (0x01 + 16 * dd.number), lo, hi] ∧
      exec (.loadPair dd (hi ++ lo)) s = .next (s.withCpu (s.cpu.setPair dd (hi ++ lo)))) ∧
    encode .ldSPHL = [0xF9] ∧ exec .ldSPHL s = .next ((cycle s).withCpu { s.cpu with sp := s.cpu.pair .hl })

/-- PUSH qq: an internal cycle, the high byte at SP - 1, the low byte at SP - 2, SP two lower; no flag (R222). -/
def Obligations.PushPair : Prop :=
  ∀ (qq : StackPair) (s : State),
    encode (.push qq) = [opcodeByte (0xC5 + 16 * qq.number)] ∧
    exec (.push qq) s = .next
      ((cycle (busWrite
          (cycle (busWrite (cycle s) (s.cpu.sp - 1) (opcodeByte ((s.cpu.stackPair qq).toNat / 256))))
          (s.cpu.sp - 2) (opcodeByte ((s.cpu.stackPair qq).toNat % 256)))).withCpu
        { s.cpu with sp := s.cpu.sp - 2 })

/-- POP qq: the low byte at SP, the high byte at SP + 1 a cycle later, SP two higher; POP AF forces F's low nibble to
zero, the others change no flag (R223). -/
def Obligations.PopPair : Prop :=
  ∀ s : State,
    let lo := busRead s s.cpu.sp
    let hi := busRead (cycle s) (s.cpu.sp + 1)
    (∀ qq : StackPair, encode (.pop qq) = [opcodeByte (0xC1 + 16 * qq.number)]) ∧
    exec (.pop .bc) s = .next ((cycles 2 s).withCpu { s.cpu with b := hi, c := lo, sp := s.cpu.sp + 2 }) ∧
    exec (.pop .de) s = .next ((cycles 2 s).withCpu { s.cpu with d := hi, e := lo, sp := s.cpu.sp + 2 }) ∧
    exec (.pop .hl) s = .next ((cycles 2 s).withCpu { s.cpu with h := hi, l := lo, sp := s.cpu.sp + 2 }) ∧
    exec (.pop .af) s = .next ((cycles 2 s).withCpu { s.cpu with
      a := hi, f := flagsByte (lo.getLsbD 7) (lo.getLsbD 6) (lo.getLsbD 5) (lo.getLsbD 4), sp := s.cpu.sp + 2 })

/-- LD (a16),SP: the low byte at a16, the high byte at a16 + 1 a cycle later, modulo 65536 (R224). -/
def Obligations.StoreStackPointer : Prop :=
  ∀ (lo hi : Byte) (s : State),
    encode (.ldAt16SP (hi ++ lo)) = [0x08, lo, hi] ∧
    exec (.ldAt16SP (hi ++ lo)) s = .next
      (cycle (busWrite (cycle (busWrite s (hi ++ lo) (opcodeByte (s.cpu.sp.toNat % 256))))
        (hi ++ lo + 1) (opcodeByte (s.cpu.sp.toNat / 256))))

/-- LD HL,SP+e8 and ADD SP,e8: the signed sum modulo 65536; Z and N 0, H and C the carries of the unsigned addition of
the low bytes, whatever the sign of e (R225, R283). -/
def Obligations.StackPointerOffset : Prop :=
  ∀ (e : Byte) (s : State),
    let sum := BitVec.ofInt 16 ((s.cpu.sp.toNat : Int) + e.toInt)
    let f := flagsByte false false (s.cpu.sp.toNat % 16 + e.toNat % 16 > 0x0F) (s.cpu.sp.toNat % 256 + e.toNat > 0xFF)
    encode (.ldHLSPe e) = [0xF8, e] ∧
    exec (.ldHLSPe e) s = .next ((cycle s).withCpu ({ s.cpu with f := f }.setPair .hl sum)) ∧
    encode (.addSPe e) = [0xE8, e] ∧
    exec (.addSPe e) s = .next ((cycles 2 s).withCpu { s.cpu with sp := sum, f := f })

/-! ## 8-bit arithmetic and logic -/

/-- ADD and ADC on a register, the byte at HL and an immediate: the sum modulo 256 in A, and Z, N, H, C of the sum;
ADC adds the C flag, which counts in H and in C (R240-R246). -/
def Obligations.AddWithAndWithoutCarry : Prop :=
  ∀ (s : State) (withCarry : Bool),
    let op : AluOp := if withCarry then .adc else .add
    let cin := (withCarry && s.cpu.f.getLsbD 4).toNat
    let after (v : Byte) : Cpu :=
      { s.cpu with
        a := BitVec.ofNat 8 (s.cpu.a.toNat + v.toNat + cin)
        f := flagsByte ((s.cpu.a.toNat + v.toNat + cin) % 256 = 0) false
          (s.cpu.a.toNat % 16 + v.toNat % 16 + cin > 0x0F) (s.cpu.a.toNat + v.toNat + cin > 0xFF) }
    (∀ r : Reg8, encode (.aluR op r) = [opcodeByte (0x80 + 8 * op.number + r.number)] ∧
      exec (.aluR op r) s = .next (s.withCpu (after (s.cpu.reg r)))) ∧
    encode (.aluHL op) = [opcodeByte (0x86 + 8 * op.number)] ∧
    exec (.aluHL op) s = .next ((cycle s).withCpu (after (busRead s (s.cpu.pair .hl)))) ∧
    (∀ n : Byte, encode (.aluN op n) = [opcodeByte (0xC6 + 8 * op.number), n] ∧
      exec (.aluN op n) s = .next (s.withCpu (after n)))

/-- SUB, SBC and CP on a register, the byte at HL and an immediate: the difference modulo 256, Z, N = 1, and the
borrows from bits 4 and 8 in H and C; SBC subtracts the C flag too, CP leaves A (R240, R247-R252, R262-R264). -/
def Obligations.SubtractAndCompare : Prop :=
  ∀ (s : State) (op : AluOp), op = .sub ∨ op = .sbc ∨ op = .cp →
    let cin := (op == .sbc && s.cpu.f.getLsbD 4).toNat
    let diff (v : Byte) : Int := (s.cpu.a.toNat : Int) - v.toNat - cin
    let after (v : Byte) : Cpu :=
      { s.cpu with
        a := if op = .cp then s.cpu.a else BitVec.ofInt 8 (diff v)
        f := flagsByte (diff v % 256 = 0) true (s.cpu.a.toNat % 16 < v.toNat % 16 + cin)
          (s.cpu.a.toNat < v.toNat + cin) }
    (∀ r : Reg8, encode (.aluR op r) = [opcodeByte (0x80 + 8 * op.number + r.number)] ∧
      exec (.aluR op r) s = .next (s.withCpu (after (s.cpu.reg r)))) ∧
    encode (.aluHL op) = [opcodeByte (0x86 + 8 * op.number)] ∧
    exec (.aluHL op) s = .next ((cycle s).withCpu (after (busRead s (s.cpu.pair .hl)))) ∧
    (∀ n : Byte, encode (.aluN op n) = [opcodeByte (0xC6 + 8 * op.number), n] ∧
      exec (.aluN op n) s = .next (s.withCpu (after n)))

/-- AND, XOR and OR on a register, the byte at HL and an immediate: bit i of A by the bits i of the operands, Z of the
result, N and C 0, H 1 for AND and 0 for the others (R253-R261). -/
def Obligations.LogicOperations : Prop :=
  ∀ (s : State) (op : AluOp) (bit : Bool → Bool → Bool),
    (op = .and ∧ bit = and) ∨ (op = .xor ∧ bit = xor) ∨ (op = .or ∧ bit = or) →
    let after (v : Byte) (p : Cpu) : Prop :=
      (∀ i, i < 8 → p.a.getLsbD i = bit (s.cpu.a.getLsbD i) (v.getLsbD i)) ∧
      p = { s.cpu with a := p.a, f := flagsByte (p.a = 0) false (op = .and) false }
    (∀ r : Reg8, encode (.aluR op r) = [opcodeByte (0x80 + 8 * op.number + r.number)] ∧
      ∃ p, exec (.aluR op r) s = .next (s.withCpu p) ∧ after (s.cpu.reg r) p) ∧
    encode (.aluHL op) = [opcodeByte (0x86 + 8 * op.number)] ∧
    (∃ p, exec (.aluHL op) s = .next ((cycle s).withCpu p) ∧ after (busRead s (s.cpu.pair .hl)) p) ∧
    (∀ n : Byte, encode (.aluN op n) = [opcodeByte (0xC6 + 8 * op.number), n] ∧
      ∃ p, exec (.aluN op n) s = .next (s.withCpu p) ∧ after n p)

/-- INC and DEC of a register and of the byte at HL: one more or one less modulo 256, Z, N, H, and C unchanged; the
form (HL) reads in one cycle and writes in the next (R265-R268). -/
def Obligations.IncrementDecrement : Prop :=
  ∀ s : State,
    let c := s.cpu.f.getLsbD 4
    let fInc (v : Byte) := flagsByte (v = 0xFF) false (v.toNat % 16 = 15) c
    let fDec (v : Byte) := flagsByte (v = 0x01) true (v.toNat % 16 = 0) c
    let v := busRead s (s.cpu.pair .hl)
    (∀ r : Reg8, encode (.incR r) = [opcodeByte (0x04 + 8 * r.number)] ∧
      exec (.incR r) s = .next (s.withCpu { s.cpu.setReg r (s.cpu.reg r + 1) with f := fInc (s.cpu.reg r) }) ∧
      encode (.decR r) = [opcodeByte (0x05 + 8 * r.number)] ∧
      exec (.decR r) s = .next (s.withCpu { s.cpu.setReg r (s.cpu.reg r - 1) with f := fDec (s.cpu.reg r) })) ∧
    encode .incAtHL = [0x34] ∧
    exec .incAtHL s =
      .next ((cycle (busWrite (cycle s) (s.cpu.pair .hl) (v + 1))).withCpu { s.cpu with f := fInc v }) ∧
    encode .decAtHL = [0x35] ∧
    exec .decAtHL s =
      .next ((cycle (busWrite (cycle s) (s.cpu.pair .hl) (v - 1))).withCpu { s.cpu with f := fDec v })

/-- DAA, CPL, SCF and CCF (R269-R272). DAA: after an addition 0x60 is added when C is set or A is above 0x99, and 0x06
when H is set or the low nibble is above 9; after a subtraction they are subtracted when C or H is set; H becomes 0, N
stays, C is set by the first correction and otherwise stays. -/
def Obligations.AccumulatorAdjustments : Prop :=
  ∀ s : State,
    let a := s.cpu.a.toNat
    let z := s.cpu.f.getLsbD 7
    let n := s.cpu.f.getLsbD 6
    let h := s.cpu.f.getLsbD 5
    let c := s.cpu.f.getLsbD 4
    let high : Bool := c ∨ a > 0x99
    let low : Bool := h ∨ a % 16 > 9
    let sum := (a + (if high then 0x60 else 0) + (if low then 0x06 else 0)) % 256
    let diff := (a + 512 - (if c then 0x60 else 0) - (if h then 0x06 else 0)) % 256
    encode .daa = [0x27] ∧
    (n = false → exec .daa s = .next (s.withCpu
      { s.cpu with a := BitVec.ofNat 8 sum, f := flagsByte (sum = 0) false false high })) ∧
    (n = true → exec .daa s = .next (s.withCpu
      { s.cpu with a := BitVec.ofNat 8 diff, f := flagsByte (diff = 0) true false c })) ∧
    encode .cpl = [0x2F] ∧
    exec .cpl s = .next (s.withCpu { s.cpu with a := BitVec.ofNat 8 (255 - a), f := flagsByte z true true c }) ∧
    encode .scf = [0x37] ∧ exec .scf s = .next (s.withCpu { s.cpu with f := flagsByte z false false true }) ∧
    encode .ccf = [0x3F] ∧ exec .ccf s = .next (s.withCpu { s.cpu with f := flagsByte z false false (!c) })

/-! ## 16-bit arithmetic -/

/-- ADD HL,dd, INC dd and DEC dd: one internal cycle; ADD leaves Z and takes H and C from bits 11 and 15, INC and DEC
change no flag (R280-R282). -/
def Obligations.PairArithmetic : Prop :=
  ∀ (dd : Pair) (s : State),
    let a := (s.cpu.pair .hl).toNat
    let b := (s.cpu.pair dd).toNat
    encode (.addHL dd) = [opcodeByte (0x09 + 16 * dd.number)] ∧
    exec (.addHL dd) s = .next ((cycle s).withCpu
      ({ s.cpu with f := flagsByte (s.cpu.f.getLsbD 7) false (a % 0x1000 + b % 0x1000 > 0x0FFF) (a + b > 0xFFFF) }.setPair
        .hl (BitVec.ofNat 16 (a + b)))) ∧
    encode (.incPair dd) = [opcodeByte (0x03 + 16 * dd.number)] ∧
    exec (.incPair dd) s = .next ((cycle s).withCpu (s.cpu.setPair dd (BitVec.ofNat 16 (b + 1)))) ∧
    encode (.decPair dd) = [opcodeByte (0x0B + 16 * dd.number)] ∧
    exec (.decPair dd) s = .next ((cycle s).withCpu (s.cpu.setPair dd (BitVec.ofNat 16 (b + 0xFFFF))))

/-! ## Rotates, shifts and bits -/

/-- RLCA, RRCA, RLA and RRA: the rotation of A, Z, N and H 0, C the bit rotated out (R291-R294). -/
def Obligations.RotateAccumulator : Prop :=
  ∀ s : State,
    let a := s.cpu.a.toNat
    let c := (s.cpu.f.getLsbD 4).toNat
    encode .rlca = [0x07] ∧
    exec .rlca s = .next (s.withCpu
      { s.cpu with a := BitVec.ofNat 8 (2 * a % 256 + a / 128), f := flagsByte false false false (a / 128 = 1) }) ∧
    encode .rrca = [0x0F] ∧
    exec .rrca s = .next (s.withCpu
      { s.cpu with a := BitVec.ofNat 8 (a / 2 + 128 * (a % 2)), f := flagsByte false false false (a % 2 = 1) }) ∧
    encode .rla = [0x17] ∧
    exec .rla s = .next (s.withCpu
      { s.cpu with a := BitVec.ofNat 8 (2 * a % 256 + c), f := flagsByte false false false (a / 128 = 1) }) ∧
    encode .rra = [0x1F] ∧
    exec .rra s = .next (s.withCpu
      { s.cpu with a := BitVec.ofNat 8 (a / 2 + 128 * c), f := flagsByte false false false (a % 2 = 1) })

/-- The CB rotates and shifts of a register and of the byte at HL: the rule's result, Z of it, N and H 0, C the carry;
the form (HL) reads in one cycle and writes in the next (R295-R302). -/
def Obligations.RotateAndShift : Prop :=
  ∀ (op : RotOp) (s : State),
    let result (v : Byte) := op.result v.toNat (s.cpu.f.getLsbD 4).toNat
    let f (v : Byte) := flagsByte ((result v).1 = 0) false false (result v).2
    let v := busRead s (s.cpu.pair .hl)
    (∀ r : Reg8, encode (.rotR op r) = [0xCB, opcodeByte (8 * op.number + r.number)] ∧
      exec (.rotR op r) s = .next (s.withCpu
        { s.cpu.setReg r (BitVec.ofNat 8 (result (s.cpu.reg r)).1) with f := f (s.cpu.reg r) })) ∧
    encode (.rotHL op) = [0xCB, opcodeByte (8 * op.number + 6)] ∧
    exec (.rotHL op) s = .next
      ((cycle (busWrite (cycle s) (s.cpu.pair .hl) (BitVec.ofNat 8 (result v).1))).withCpu { s.cpu with f := f v })

/-- BIT n: Z is 1 exactly when the bit is 0, N 0, H 1, C unchanged, the operand never written (R303). -/
def Obligations.TestBit : Prop :=
  ∀ (n : Fin 8) (s : State),
    let f (v : Byte) := flagsByte (v.toNat / 2 ^ n.val % 2 = 0) false true (s.cpu.f.getLsbD 4)
    (∀ r : Reg8, encode (.bitR n r) = [0xCB, opcodeByte (0x40 + 8 * n.val + r.number)] ∧
      exec (.bitR n r) s = .next (s.withCpu { s.cpu with f := f (s.cpu.reg r) })) ∧
    encode (.bitHL n) = [0xCB, opcodeByte (0x40 + 8 * n.val + 6)] ∧
    exec (.bitHL n) s = .next ((cycle s).withCpu { s.cpu with f := f (busRead s (s.cpu.pair .hl)) })

/-- RES n and SET n: bit n becomes 0 or 1, the other bits and every flag stay; the form (HL) reads in one cycle and
writes in the next (R304, R305). -/
def Obligations.ResetAndSetBit : Prop :=
  ∀ (n : Fin 8) (s : State) (set : Bool),
    let put (v w : Byte) : Prop := ∀ i, i < 8 → w.getLsbD i = if i = n.val then set else v.getLsbD i
    let base := if set then 0xC0 else 0x80
    let onR (r : Reg8) : Instr := if set then .setR n r else .resR n r
    let onHL : Instr := if set then .setHL n else .resHL n
    (∀ r : Reg8, encode (onR r) = [0xCB, opcodeByte (base + 8 * n.val + r.number)] ∧
      ∃ w, put (s.cpu.reg r) w ∧ exec (onR r) s = .next (s.withCpu (s.cpu.setReg r w))) ∧
    encode onHL = [0xCB, opcodeByte (base + 8 * n.val + 6)] ∧
    ∃ w, put (busRead s (s.cpu.pair .hl)) w ∧
      exec onHL s = .next (cycle (busWrite (cycle s) (s.cpu.pair .hl) w))

/-! ## Control transfer -/

/-- JP, JP cc, JP HL, JR and JR cc: a jump taken costs one internal cycle (JP HL none) and writes PC, one not taken
changes nothing (R321-R325). PC is past the instruction when its meaning starts. -/
def Obligations.Jumps : Prop :=
  ∀ (lo hi e : Byte) (cc : Cond) (s : State),
    let target := BitVec.ofInt 16 ((s.cpu.pc.toNat : Int) + e.toInt)
    encode (.jp (hi ++ lo)) = [0xC3, lo, hi] ∧
    exec (.jp (hi ++ lo)) s = .next ((cycle s).withCpu { s.cpu with pc := hi ++ lo }) ∧
    encode (.jpIf cc (hi ++ lo)) = [opcodeByte (0xC2 + 8 * cc.number), lo, hi] ∧
    exec (.jpIf cc (hi ++ lo)) s =
      .next (if cc.holds s.cpu.f then (cycle s).withCpu { s.cpu with pc := hi ++ lo } else s) ∧
    encode .jpHL = [0xE9] ∧ exec .jpHL s = .next (s.withCpu { s.cpu with pc := s.cpu.pair .hl }) ∧
    encode (.jr e) = [0x18, e] ∧ exec (.jr e) s = .next ((cycle s).withCpu { s.cpu with pc := target }) ∧
    encode (.jrIf cc e) = [opcodeByte (0x20 + 8 * cc.number), e] ∧
    exec (.jrIf cc e) s = .next (if cc.holds s.cpu.f then (cycle s).withCpu { s.cpu with pc := target } else s)

/-- CALL, CALL cc and RST push the address after the instruction as PUSH does and write PC; a call not taken changes
nothing (R326, R327, R330). -/
def Obligations.Calls : Prop :=
  ∀ (lo hi : Byte) (cc : Cond) (y : Fin 8) (s : State),
    let calls (target : Word) : State :=
      (cycle (busWrite (cycle (busWrite (cycle s) (s.cpu.sp - 1) (opcodeByte (s.cpu.pc.toNat / 256))))
        (s.cpu.sp - 2) (opcodeByte (s.cpu.pc.toNat % 256)))).withCpu { s.cpu with sp := s.cpu.sp - 2, pc := target }
    encode (.call (hi ++ lo)) = [0xCD, lo, hi] ∧ exec (.call (hi ++ lo)) s = .next (calls (hi ++ lo)) ∧
    encode (.callIf cc (hi ++ lo)) = [opcodeByte (0xC4 + 8 * cc.number), lo, hi] ∧
    exec (.callIf cc (hi ++ lo)) s = .next (if cc.holds s.cpu.f then calls (hi ++ lo) else s) ∧
    encode (.rst y) = [opcodeByte (0xC7 + 8 * y.val)] ∧
    exec (.rst y) s = .next (calls (BitVec.ofNat 16 (8 * y.val)))

/-- RET, RET cc and RETI pop PC, low byte first, and take one internal cycle after it; RET cc takes one before it for
the test; RETI sets IME at once and leaves the EI latch (R328, R329, R331). Derived: when RETI sets IME is the spec's
decision D54. -/
def Obligations.Returns : Prop :=
  ∀ (cc : Cond) (s : State),
    let popped (u : State) : Word := busRead (cycle u) (s.cpu.sp + 1) ++ busRead u s.cpu.sp
    encode .ret = [0xC9] ∧
    exec .ret s = .next ((cycles 3 s).withCpu { s.cpu with pc := popped s, sp := s.cpu.sp + 2 }) ∧
    encode (.retIf cc) = [opcodeByte (0xC0 + 8 * cc.number)] ∧
    exec (.retIf cc) s = .next (if cc.holds s.cpu.f then
      (cycles 4 s).withCpu { s.cpu with pc := popped (cycle s), sp := s.cpu.sp + 2 } else cycle s) ∧
    encode .reti = [0xD9] ∧
    exec .reti s = .next ((cycles 3 s).withCpu { s.cpu with pc := popped s, sp := s.cpu.sp + 2, ime := true })

/-! ## System instructions -/

/-- NOP, HALT, DI and EI (R340, R341, R343, R344), and the prefix byte, whose meaning fetches the CB opcode in one
cycle and executes its rule (R345). Derived: HALT, DI and EI rest on the spec's decisions D8 and D11; the prefix
byte's own constructor is the model's (log 8). -/
def Obligations.SystemInstructions : Prop :=
  ∀ s : State,
    encode .nop = [0x00] ∧ exec .nop s = .next s ∧
    encode .halt = [0x76] ∧ exec .halt s = .next (s.withCpu { s.cpu with halted := true }) ∧
    encode .di = [0xF3] ∧ exec .di s = .next (s.withCpu { s.cpu with ime := false, imePending := false }) ∧
    encode .ei = [0xFB] ∧ exec .ei s = .next (s.withCpu { s.cpu with imePending := true }) ∧
    ∃ t, exec .prefixCb s = .next t ∧
      exec (decodeCb (busRead s s.cpu.pc)) ((cycle s).withCpu { s.cpu with pc := s.cpu.pc + 1 }) = .next t

/-! ## Frames of every instruction -/

/-- Every byte an instruction does not store to reads as before, the addresses it stores to being those its rule
computes (`storeAddresses`); for an instruction that stores nothing this is all of memory. Derived from the
instruction rules: the bytes are those of the core memories, which the DMA engine alone writes besides. -/
def Obligations.MemoryFrame : Prop :=
  ∀ (i : Instr) (s t : State), s.dma.Inv → exec i s = .next t → MemoryKeptBut (storeAddresses i s) s t

/-- What is stored in VRAM, WRAM or HRAM is what the address reads as after the store's cycle. Derived from the region
rules and the DMA engine, which writes OAM only. -/
def Obligations.StoredByteReadsBack : Prop :=
  ∀ (s : State) (a : Word) (v : Byte), s.dma.Inv → (regionOf a).isRam = true → busRead (cycle (busWrite s a v)) a = v

/-- The devices advance by exactly the cycles of the table of R540: an instruction that stores nothing leaves
everything but the CPU as its cycles without an access leave it, and the divider of every instruction that does not
write DIV has advanced four for each of its cycles after the fetch. The prefix byte by itself is left out: R540 counts
it with the CB opcode that follows it. Derived: the cycle counts are the spec's decision D5. -/
def Obligations.InstructionCycles : Prop :=
  ∀ (i : Instr) (s t : State), i ≠ .prefixCb → exec i s = .next t →
    (storeAddresses i s = [] → t = (cycles (i.cycles (taken i s.cpu.f) - (encode i).length) s).withCpu t.cpu) ∧
    (0xFF04 ∉ storeAddresses i s →
      t.timer.div = s.timer.div + BitVec.ofNat 16 (4 * (i.cycles (taken i s.cpu.f) - (encode i).length)))

/-! ## Interrupts -/

/-- The interrupt phase and the dispatch: nothing without IME or without a source both pending and enabled; else the
lowest such source k is taken: IF[k], IME, the EI latch and the halted flag cleared, PC pushed after two internal
cycles, PC at 0x40 + 8 k after a fifth cycle, no other register changed (R402-R404). Derived: the place and the order
of the dispatch are the spec's decisions D8 and D9. -/
def Obligations.InterruptDispatch : Prop :=
  (∀ s : State, s.cpu.ime = false → interruptPhase s = s) ∧
  (∀ s : State, s.intEnable.extractLsb' 0 5 &&& s.intFlags = 0 → interruptPhase s = s) ∧
  ∀ (s : State) (k : Nat), k < 5 → s.intEnable.getLsbD k = true → s.intFlags.getLsbD k = true →
    (∀ j, j < k → (s.intEnable.getLsbD j && s.intFlags.getLsbD j) = false) → s.cpu.ime = true →
    interruptPhase s =
      (cycle (cycle (busWrite
        (cycle (busWrite (cycles 2 { s with intFlags := s.intFlags &&& ~~~(BitVec.ofNat 5 (2 ^ k)) })
          (s.cpu.sp - 1) (opcodeByte (s.cpu.pc.toNat / 256))))
        (s.cpu.sp - 2) (opcodeByte (s.cpu.pc.toNat % 256))))).withCpu
      { s.cpu with
        ime := false, imePending := false, halted := false, sp := s.cpu.sp - 2, pc := BitVec.ofNat 16 (0x40 + 8 * k) }

/-- The halted poll: one cycle when no enabled interrupt is pending; else the CPU wakes, and dispatches with IME or
spends one cycle without it (R405). Derived: the spec's decisions D10 and D11. -/
def Obligations.HaltedPoll : Prop :=
  ∀ s : State, s.Runs → s.cpu.halted = true → s.cpu.imePending = false →
    let pending := s.intEnable.extractLsb' 0 5 &&& s.intFlags
    (pending = 0 → step s = .next (cycle s)) ∧
    (pending ≠ 0 → s.cpu.ime = false → step s = .next ((cycle s).withCpu { s.cpu with halted := false })) ∧
    (pending ≠ 0 → s.cpu.ime = true → step s = .next (interruptPhase s))

/-- The EI delay: the EI step does not dispatch although an enabled interrupt is pending, and sets IME at its end; the
NOP after it executes and its interrupt phase dispatches with the return address after the NOP (R344, R531). Derived:
the spec's decision D8. -/
def Obligations.EiDelay : Prop :=
  ∀ s : State, s.Runs → s.cpu.halted = false → s.cpu.ime = false → s.cpu.imePending = false →
    busRead s s.cpu.pc = 0xFB → busRead (cycle s) (s.cpu.pc + 1) = 0x00 →
    step s = .next ((cycle s).withCpu { s.cpu with pc := s.cpu.pc + 1, ime := true }) ∧
    step ((cycle s).withCpu { s.cpu with pc := s.cpu.pc + 1, ime := true }) =
      .next (interruptPhase ((cycles 2 s).withCpu { s.cpu with pc := s.cpu.pc + 2, ime := true }))

/-! ## Timer and DMA -/

/-- A timer tick: the divider advances; TIMA counts exactly when the timer is enabled and the selected divider bit b
falls, that is when the new divider is a multiple of 2 ^ (b + 1); at 0xFF it reloads from TMA and the timer interrupt
is requested. Nothing else changes (R421, R423). Derived: when TIMA counts is the spec's decisions D23 and D27. -/
def Obligations.TimerTick : Prop :=
  ∀ s : State,
    let div := s.timer.div + 1
    let b := if s.timer.tac.getLsbD 1 then (if s.timer.tac.getLsbD 0 then 7 else 5)
      else (if s.timer.tac.getLsbD 0 then 3 else 9)
    let counts : Prop := s.timer.tac.getLsbD 2 = true ∧ div.toNat % 2 ^ (b + 1) = 0
    (¬counts → timerTick s = { s with timer := { s.timer with div := div } }) ∧
    (counts → s.timer.tima ≠ 0xFF →
      timerTick s = { s with timer := { s.timer with div := div, tima := s.timer.tima + 1 } }) ∧
    (counts → s.timer.tima = 0xFF →
      timerTick s = { s with timer := { s.timer with div := div, tima := s.timer.tma }
                             intFlags := s.intFlags ||| 0b00100 })

/-- A DMA transfer takes 162 cycles in which the CPU accesses nothing: it is active until then, and after it OAM holds
the 160 source bytes and every other key of the memory is as before. Byte k is what a bus read gives in cycle k + 3
after its timer and PPU ticks: for a page below 0xE0 what it gives when the transfer starts, for the echo pages the
echo constant, for OAM itself 0xFF, in page 0xFF from 0x80 on the bytes of HRAM (R430-R433). Derived: the busy window
is the spec's own inference, its sources and its start are its decisions D22 and D52. -/
def Obligations.DmaTransfer : Prop :=
  ∀ (s : State) (v : Byte),
    let started := busWrite s 0xFF46 v
    let source (k : Nat) : Word := BitVec.ofNat 16 (256 * v.toNat + k)
    let copied (k : Nat) : Byte := (cycles 162 started).mem.read (0xFE00 + k)
    (∀ n, n < 162 → (cycles n started).dma.active = true) ∧
    (cycles 162 started).dma.active = false ∧
    (∀ k, k < 160 → copied k = busRead (tick (tick (tick (tick (cycles (k + 2) started))))) (source k)) ∧
    (∀ k, k < 160 → (v.toNat < 0xE0 → copied k = busRead s (source k)) ∧
      (0xE0 ≤ v.toNat → v.toNat < 0xFE → copied k = s.params.echoRead) ∧
      (v.toNat = 0xFE → copied k = 0xFF) ∧
      (v.toNat = 0xFF → 0x80 ≤ k → copied k = s.mem.read (0xFF00 + k))) ∧
    (∀ k, k < 0xFE00 ∨ 0xFEA0 ≤ k → (cycles 162 started).mem.read k = s.mem.read k)

/-! ## The bus -/

/-- Every address has one region and each region answers as its rule says: cartridge, core memory, the constants of
echo and unusable, OAM behind the DMA gate, IE at the top (R80-R91); no write to echo or unusable changes anything.
Derived: echo, unusable and OAM during a transfer rest on the spec's decisions D15, D16 and D22, the two constants on
its parameters (log 1). -/
def Obligations.AddressMap : Prop :=
  ∀ (s : State) (a : Word) (v : Byte),
    (a.toNat < 0x8000 → busRead s a = s.cart.readRom a ∧
      busWrite s a v = { s with cart := s.cart.writeControl a v }) ∧
    (0x8000 ≤ a.toNat ∧ a.toNat < 0xA000 ∨ 0xC000 ≤ a.toNat ∧ a.toNat < 0xE000 ∨
      0xFF80 ≤ a.toNat ∧ a.toNat < 0xFFFF →
      busRead s a = s.mem.read a.toNat ∧ busWrite s a v = { s with mem := s.mem.write a.toNat v } ∧
      busRead (busWrite s a v) a = v) ∧
    (0xA000 ≤ a.toNat ∧ a.toNat < 0xC000 → busRead s a = s.cart.readRam a ∧
      busWrite s a v = { s with cart := s.cart.writeRam a v }) ∧
    (0xE000 ≤ a.toNat ∧ a.toNat < 0xFE00 → busRead s a = s.params.echoRead ∧ busWrite s a v = s) ∧
    (0xFE00 ≤ a.toNat ∧ a.toNat < 0xFEA0 →
      (s.dma.active = true → busRead s a = 0xFF ∧ busWrite s a v = s) ∧
      (s.dma.active = false → busRead s a = s.mem.read a.toNat ∧
        busWrite s a v = { s with mem := s.mem.write a.toNat v } ∧ busRead (busWrite s a v) a = v)) ∧
    (0xFEA0 ≤ a.toNat ∧ a.toNat < 0xFF00 → busRead s a = s.params.unusableRead ∧ busWrite s a v = s) ∧
    (a.toNat = 0xFFFF → busRead s a = s.intEnable ∧ busWrite s a v = { s with intEnable := v })

/-- What a write of v to each I/O register changes, which is that register alone, and what each reads as: the stored
registers v; IF, TAC, STAT and P1 their unused bits as ones and their read-only bits as before; DIV cleared by any
value; LY as before; the DMA register a transfer started; P1 besides its select bits the joypad request at most; an
address without a handler 0, its write changing nothing (R30, R35-R38, R40-R46, R48-R50, R53, R95, R96). Derived:
unused bits and addresses without a handler rest on the spec's decisions D14, D18, D19, D20, D23 and D26. -/
def Obligations.IoRegisters : Prop :=
  ∀ (s : State) (v : Byte),
    (busWrite s 0xFF01 v = { s with sb := v } ∧ busRead s 0xFF01 = s.sb) ∧
    (busWrite s 0xFF02 v = { s with sc := v } ∧ busRead s 0xFF02 = s.sc) ∧
    (busWrite s 0xFF04 v = { s with timer := { s.timer with div := 0 } } ∧
      (busRead s 0xFF04).toNat = s.timer.div.toNat / 256) ∧
    (busWrite s 0xFF05 v = { s with timer := { s.timer with tima := v } } ∧ busRead s 0xFF05 = s.timer.tima) ∧
    (busWrite s 0xFF06 v = { s with timer := { s.timer with tma := v } } ∧ busRead s 0xFF06 = s.timer.tma) ∧
    (busWrite s 0xFF07 v = { s with timer := { s.timer with tac := BitVec.ofNat 3 v.toNat } } ∧
      (busRead s 0xFF07).toNat = 0xF8 + s.timer.tac.toNat) ∧
    (busWrite s 0xFF0F v = { s with intFlags := BitVec.ofNat 5 v.toNat } ∧
      (busRead s 0xFF0F).toNat = 0xE0 + s.intFlags.toNat) ∧
    (busWrite s 0xFF40 v = { s with ppu := { s.ppu with lcdc := v } } ∧ busRead s 0xFF40 = s.ppu.lcdc) ∧
    (busWrite s 0xFF41 v = { s with ppu := { s.ppu with statSel := BitVec.ofNat 4 (v.toNat / 8) } } ∧
      (busRead s 0xFF41).toNat =
        0x80 + 8 * s.ppu.statSel.toNat + 4 * s.ppu.coincidence.toNat + s.ppu.mode.number.toNat) ∧
    (busWrite s 0xFF42 v = { s with ppu := { s.ppu with scy := v } } ∧ busRead s 0xFF42 = s.ppu.scy) ∧
    (busWrite s 0xFF43 v = { s with ppu := { s.ppu with scx := v } } ∧ busRead s 0xFF43 = s.ppu.scx) ∧
    (busWrite s 0xFF44 v = s ∧ busRead s 0xFF44 = s.ppu.ly) ∧
    (busWrite s 0xFF45 v = { s with ppu := { s.ppu with lyc := v } } ∧ busRead s 0xFF45 = s.ppu.lyc) ∧
    (busWrite s 0xFF46 v = { s with dma := { active := true, delay := 2, offset := 0, src := v, reg := v } } ∧
      busRead s 0xFF46 = s.dma.reg) ∧
    (busWrite s 0xFF47 v = { s with ppu := { s.ppu with bgp := v } } ∧ busRead s 0xFF47 = s.ppu.bgp) ∧
    (busWrite s 0xFF48 v = { s with ppu := { s.ppu with obp0 := v } } ∧ busRead s 0xFF48 = s.ppu.obp0) ∧
    (busWrite s 0xFF49 v = { s with ppu := { s.ppu with obp1 := v } } ∧ busRead s 0xFF49 = s.ppu.obp1) ∧
    (busWrite s 0xFF4A v = { s with ppu := { s.ppu with wy := v } } ∧ busRead s 0xFF4A = s.ppu.wy) ∧
    (busWrite s 0xFF4B v = { s with ppu := { s.ppu with wx := v } } ∧ busRead s 0xFF4B = s.ppu.wx) ∧
    (busWrite s 0xFF00 v =
        { s with joySel := BitVec.ofNat 2 (v.toNat / 16), intFlags := (busWrite s 0xFF00 v).intFlags } ∧
      (∀ k, k < 4 → (busWrite s 0xFF00 v).intFlags.getLsbD k = s.intFlags.getLsbD k) ∧
      (s.intFlags.getLsbD 4 = true → (busWrite s 0xFF00 v).intFlags.getLsbD 4 = true) ∧
      (busRead s 0xFF00).toNat / 16 = 0x0C + s.joySel.toNat) ∧
    (∀ a ∈ ([0xFF01, 0xFF02, 0xFF05, 0xFF06, 0xFF40, 0xFF42, 0xFF43, 0xFF45, 0xFF46, 0xFF47, 0xFF48, 0xFF49, 0xFF4A,
      0xFF4B] : List Word), busRead (busWrite s a v) a = v) ∧
    busRead (busWrite s 0xFF0F v) 0xFF0F = v ||| 0xE0 ∧
    busRead (busWrite s 0xFF07 v) 0xFF07 = v ||| 0xF8 ∧
    busRead (busWrite s 0xFF04 v) 0xFF04 = 0x00 ∧
    busRead (busWrite s 0xFF41 v) 0xFF41 = 0x80 ||| v &&& 0x78 ||| busRead s 0xFF41 &&& 0x07 ∧
    busRead (busWrite s 0xFF00 v) 0xFF00 &&& 0xF0 = 0xC0 ||| v &&& 0x30 ∧
    (∀ a : Word, a.toNat = 0xFF03 ∨ (0xFF08 ≤ a.toNat ∧ a.toNat ≤ 0xFF0E) ∨ (0xFF10 ≤ a.toNat ∧ a.toNat ≤ 0xFF3F) ∨
      (0xFF4C ≤ a.toNat ∧ a.toNat ≤ 0xFF7F) → busRead s a = 0x00 ∧ busWrite s a v = s)

/-- The gamepad latch: an input line is 0 exactly when a pressed button is in a selected row; pushing buttons changes
the buttons, and writing P1 the row select, and besides these nothing but the joypad request, which either makes
exactly when a line falls from 1 to 0 (R48, R438, R450). Derived: the spec's decisions D20, D44 and D55; the buttons
in State are the model's choice (log 1). -/
def Obligations.Gamepad : Prop :=
  (∀ (s : State) (action direction : List Bool),
    action = [s.buttons.a, s.buttons.b, s.buttons.select, s.buttons.start] →
    direction = [s.buttons.right, s.buttons.left, s.buttons.up, s.buttons.down] →
    ∀ i, i < 4 → (busRead s 0xFF00).getLsbD i =
      !((!s.joySel.getLsbD 1 && action.getD i false) || (!s.joySel.getLsbD 0 && direction.getD i false))) ∧
  ∀ (s : State) (b : Config.Buttons) (v : Byte),
    let requests (t : State) : Prop :=
      ∀ k, k < 5 → (t.intFlags.getLsbD k = true ↔ s.intFlags.getLsbD k = true ∨
        k = 4 ∧ ∃ i, i < 4 ∧ (busRead s 0xFF00).getLsbD i = true ∧ (busRead t 0xFF00).getLsbD i = false)
    s.pressButtons b = { s with buttons := b, intFlags := (s.pressButtons b).intFlags } ∧
    busWrite s 0xFF00 v =
      { s with joySel := BitVec.ofNat 2 (v.toNat / 16), intFlags := (busWrite s 0xFF00 v).intFlags } ∧
    requests (s.pressButtons b) ∧ requests (busWrite s 0xFF00 v)

/-! ## The cartridge -/

/-- The bank-controller writes: RAM enable by the low nibble 0xA, ROM bank select of 5 or 7 bits with 0 coerced to 1,
RAM bank select of 2 bits, Family A's mode bit, Family B's clock latch and every plain write without effect (R119,
R122-R125, R127-R129). Derived: the spec's decisions D36 and D39; eight bits for the ROM bank select are the model's
choice (log 17). -/
def Obligations.BankControl : Prop :=
  ∀ (c : Cartridge) (a : Word) (v : Byte),
    (c.family = .plain → c.writeControl a v = c) ∧
    (c.family ≠ .plain → a.toNat < 0x2000 → c.writeControl a v = { c with ramEnabled := v.toNat % 16 = 0x0A }) ∧
    (c.family = .familyA → 0x2000 ≤ a.toNat → a.toNat < 0x4000 → c.writeControl a v =
      { c with romSel := BitVec.ofNat 8 (if v.toNat % 32 = 0 then 1 else v.toNat % 32) }) ∧
    (c.family = .familyB → 0x2000 ≤ a.toNat → a.toNat < 0x4000 → c.writeControl a v =
      { c with romSel := BitVec.ofNat 8 (if v.toNat % 128 = 0 then 1 else v.toNat % 128) }) ∧
    (c.family ≠ .plain → 0x4000 ≤ a.toNat → a.toNat < 0x6000 → c.writeControl a v =
      { c with ramSel := BitVec.ofNat 2 v.toNat }) ∧
    (c.family = .familyA → 0x6000 ≤ a.toNat → c.writeControl a v = { c with bankMode := v.toNat % 2 = 1 }) ∧
    (c.family = .familyB → 0x6000 ≤ a.toNat → c.writeControl a v = c)

/-- The cartridge windows: ROM reads the image, in the selected bank modulo the bank count from 0x4000 on, and 0xFF
past the image's end; external RAM reads 0xFF and drops writes while disabled, absent or past the declared banks, else
it stores and reads back, and a battery cartridge records the write (R118-R120, R126, R128, R130). Derived: ROM reads
and Family A's bank mode are the spec's decisions D36, D37 and D38. -/
def Obligations.CartridgeWindows : Prop :=
  ∀ (c : Cartridge) (a : Word) (v : Byte),
    let offset := if c.family = .plain ∨ a.toNat < 0x4000 then a.toNat
      else c.romSel.toNat % c.romBanks * 16384 + (a.toNat - 0x4000)
    let bank := match c.family with
      | .plain => 0
      | .familyA => if c.bankMode then c.ramSel.toNat else 0
      | .familyB => c.ramSel.toNat
    let answers : Prop := c.family ≠ .plain ∧ c.ramEnabled = true ∧ bank < c.ramBanks
    (offset < c.romLen → c.readRom a = c.rom.read offset) ∧
    (c.romLen ≤ offset → c.readRom a = 0xFF) ∧
    (¬answers → c.readRam a = 0xFF ∧ c.writeRam a v = c) ∧
    (answers → (c.writeRam a v).readRam a = v ∧
      c.writeRam a v = { c with ram := c.ram.write (bank * 8192 + (a.toNat - 0xA000)) v
                                needsSave := c.needsSave || c.battery } ∧
      ∀ b : Word, 0xA000 ≤ a.toNat → 0xA000 ≤ b.toNat → b ≠ a → (c.writeRam a v).readRam b = c.readRam b)

/-- Which images are admitted, and the bank counts, the family and the battery flag of one that is (R112-R114, R121).
Derived: the spec's decisions D35 and D37. -/
def Obligations.CartridgeAdmission : Prop :=
  ∀ (image : List Byte) (battery : Option (List Byte)),
    let code := (image.getD 0x147 0).toNat
    let rom := (image.getD 0x148 0).toNat
    let ram := (image.getD 0x149 0).toNat
    let c := loadCartridge image battery
    (c.rejected = none ↔ 0x150 ≤ image.length ∧
      code ∈ [0x00, 0x01, 0x02, 0x03, 0x0F, 0x10, 0x11, 0x12, 0x13] ∧ rom ≤ 8 ∧ ram ≤ 5) ∧
    (c.rejected = none →
      c.romBanks = 2 * 2 ^ rom ∧ c.ramBanks = [0, 0, 1, 4, 16, 8].getD ram 0 ∧
      (c.family = .plain ↔ code = 0x00) ∧ (c.family = .familyA ↔ 0x01 ≤ code ∧ code ≤ 0x03) ∧
      (c.family = .familyB ↔ 0x0F ≤ code) ∧ (c.battery = true ↔ code ∈ [0x03, 0x0F, 0x10, 0x13]) ∧
      c.romLen = image.length ∧ (∀ k, c.rom.read k = image.getD k 0) ∧
      c.ramEnabled = false ∧ c.romSel = 1 ∧ c.ramSel = 0 ∧ c.bankMode = false ∧ c.needsSave = false)

/-- The battery round trip: 8192 bytes loaded into external RAM bank 0 at reset are what a save writes; without a
save, RAM starts zeroed; without RAM banks nothing is transferred (R51, R131, R452). Derived: the spec's decision D56.
-/
def Obligations.BatteryRoundTrip : Prop :=
  ∀ (st : Config.Start) (save : List Byte), save.length = 8192 → (loadCartridge st.cart st.battery).rejected = none →
    ((loadCartridge st.cart st.battery).ramBanks = 0 → (resetWith st).saveBattery = none) ∧
    ((loadCartridge st.cart st.battery).ramBanks ≠ 0 → st.battery = some save →
      (resetWith st).saveBattery = some save) ∧
    ((loadCartridge st.cart st.battery).ramBanks ≠ 0 → st.battery = none →
      (resetWith st).saveBattery = some (List.replicate 8192 0))

/-! ## The PPU -/

/-- The line transition at the last tick of a line with the LCD on: the next line, the mode and the window line of
R492, the pipeline buffers cleared, the frame counter at line 144 only, the coincidence flag, and the requests of
V-blank and of the enabled STAT events; nothing else changes (R492, R493). Derived: the spec's decisions D34, D45, D47
and D57. -/
def Obligations.LineTransition : Prop :=
  ∀ (s : State), s.ppu.lcdc.getLsbD 7 = true → s.ppu.lcdWasOn = true →
    s.ppu.mode = .hblank ∨ s.ppu.mode = .vblank → s.ppu.lineTicks = 455 → s.ppu.ly.toNat ≤ 153 →
    let next := if s.ppu.ly = 153 then 0 else s.ppu.ly + 1
    let t := ppuTick s
    t.ppu = { s.ppu with
      ly := next, lineTicks := 0, fifo := [], lineSprites := [], fetchState := .tile
      mode := if next = 144 then .vblank else if next.toNat < 144 then .oamScan else s.ppu.mode
      windowLine := if next = 0 then 0 else s.ppu.windowLine
      frameCounter := if next = 144 then (s.ppu.frameCounter + 1) % 2 ^ s.params.frameCounterBits
        else s.ppu.frameCounter
      coincidence := next == s.ppu.lyc } ∧
    (t.intFlags.getLsbD 0 = (s.intFlags.getLsbD 0 || next == 144)) ∧
    (t.intFlags.getLsbD 1 = (s.intFlags.getLsbD 1 || (next == 144 && s.ppu.statSel.getLsbD 1) ||
      (decide (next.toNat < 144) && s.ppu.statSel.getLsbD 2) || (next == s.ppu.lyc && s.ppu.statSel.getLsbD 3))) ∧
    (∀ k, 2 ≤ k → t.intFlags.getLsbD k = s.intFlags.getLsbD k) ∧
    t = { s with ppu := t.ppu, intFlags := t.intFlags }

/-- The OAM scan selects at most ten sprites: each covers the line, they are in ascending order of X and then of OAM
index, and a covering sprite is left out only when ten that come before it are selected (R463, R464). Derived: the
spec's decisions D28 and D29. -/
def Obligations.OamScan : Prop :=
  ∀ (mem : Memory) (p : Ppu),
    let rows := if p.lcdc.getLsbD 2 then 16 else 8
    let entry (k : Nat) : Sprite :=
      { y := mem.read (0xFE00 + 4 * k), x := mem.read (0xFE00 + 4 * k + 1), tile := mem.read (0xFE00 + 4 * k + 2)
        attr := mem.read (0xFE00 + 4 * k + 3), index := k }
    let covers (k : Nat) : Prop := k < 40 ∧ (entry k).y.toNat ≤ p.ly.toNat + 16 ∧
      p.ly.toNat + 16 < (entry k).y.toNat + rows
    let before (u w : Sprite) : Prop := u.x.toNat < w.x.toNat ∨ u.x = w.x ∧ u.index < w.index
    let l := (p.oamScan mem).lineSprites
    l.length ≤ 10 ∧
    (∀ sp ∈ l, ∃ k, covers k ∧ sp = entry k) ∧
    l.Pairwise before ∧
    (∀ k, covers k → entry k ∈ l ∨ l.length = 10 ∧ ∀ sp ∈ l, before sp (entry k)) ∧
    (p.oamScan mem).objHeight.rows = rows

/-- The background or window pixel at line coordinate u: index 0 and white with the background disabled; from the
window's left edge on, when the window is visible, the index of the window map at that column, its row the window line
counter; else the index of the scrolled background map; its colour is the shade BGP gives the index. With sprites
disabled it is the pixel (R470-R474, R476, R480). Derived: the spec's decisions D32, D45 and D46; the colours are its
parameter COLOUR_RAMP (log 1). -/
def Obligations.BackgroundPixel : Prop :=
  ∀ (mem : Memory) (par : Config.Params) (p : Ppu) (u : Nat),
    let ramp (shade : Nat) : Colour :=
      [par.ramp.shade0, par.ramp.shade1, par.ramp.shade2, par.ramp.shade3].getD shade 0
    let map (bit : Nat) : Nat := if p.lcdc.getLsbD bit then 0x9C00 else 0x9800
    let index (map x y : Nat) : Nat :=
      let tile := mem.read (map + y / 8 * 32 + x / 8)
      let base := if p.lcdc.getLsbD 4 then 0x8000 + 16 * tile.toNat
        else if tile.toNat < 128 then 0x9000 + 16 * tile.toNat else 0x8000 + 16 * tile.toNat
      let bit (plane : Nat) := (mem.read (base + 2 * (y % 8) + plane)).toNat / 2 ^ (7 - x % 8) % 2
      2 * bit 1 + bit 0
    let shows (i : Nat) : Prop :=
      (p.bgPixel mem par u).1.toNat = i ∧ (p.bgPixel mem par u).2 = ramp (p.bgp.toNat / 4 ^ i % 4)
    let inWindow : Prop := p.lcdc.getLsbD 5 = true ∧ p.wy.toNat ≤ p.ly.toNat ∧ p.wx.toNat ≤ 166 ∧
      p.fineX + p.wx.toNat ≤ u + 7 ∧ p.fineX ≤ u
    (p.lcdc.getLsbD 0 = false → p.bgPixel mem par u = (0, par.ramp.shade0)) ∧
    (p.lcdc.getLsbD 0 = true → inWindow →
      shows (index (map 6) (u + 7 - p.fineX - p.wx.toNat) p.windowLine.toNat)) ∧
    (p.lcdc.getLsbD 0 = true → ¬inWindow →
      shows (index (map 3) ((p.scx.toNat / 8 * 8 + u) % 256) ((p.ly.toNat + p.scy.toNat) % 256))) ∧
    (p.lcdc.getLsbD 1 = false → p.pixel mem par u = (p.bgPixel mem par u).2)

/-- A pixel with sprites enabled: the first selected sprite that covers the column with an index other than 0, flipped
and, for tall sprites, in the tile of its half, is shown by its palette, unless the background is enabled, its
priority bit is set and the background index is not 0; without such a sprite the background pixel is shown (R470,
R477, R479, R480). Derived: the spec's decisions D32 and D46; a selected sprite that does not cover the line arises in
no run, and its row is computed as log 10 says. -/
def Obligations.SpritePixel : Prop :=
  ∀ (mem : Memory) (par : Config.Params) (p : Ppu) (u : Nat), p.lcdc.getLsbD 1 = true →
    let ramp (shade : Nat) : Colour :=
      [par.ramp.shade0, par.ramp.shade1, par.ramp.shade2, par.ramp.shade3].getD shade 0
    let column : Int := (u : Int) - p.fineX
    let covers (sp : Sprite) : Prop := (sp.x.toNat : Int) - 8 ≤ column ∧ column < sp.x.toNat
    let row (sp : Sprite) : Nat :=
      let r := p.ly.toNat + 16 - sp.y.toNat
      if sp.attr.getLsbD 6 then p.objHeight.rows - 1 - r else r
    let tile (sp : Sprite) : Nat :=
      if p.objHeight.rows = 16 then (sp.tile.toNat / 2 * 2 + row sp / 8) % 256 else sp.tile.toNat
    let col (sp : Sprite) : Nat :=
      let c := (column + 8 - sp.x.toNat).toNat
      if sp.attr.getLsbD 5 then 7 - c else c
    let bit (sp : Sprite) (plane : Nat) : Nat :=
      (mem.read (0x8000 + 16 * tile sp + 2 * (row sp % 8) + plane)).toNat / 2 ^ (7 - col sp) % 2
    let index (sp : Sprite) : Nat := 2 * bit sp 1 + bit sp 0
    let opaqueAt (sp : Sprite) : Prop := covers sp ∧ index sp ≠ 0
    let colour (sp : Sprite) : Colour :=
      ramp ((if sp.attr.getLsbD 4 then p.obp1 else p.obp0).toNat / 4 ^ index sp % 4)
    let bg := p.bgPixel mem par u
    ((∀ sp ∈ p.lineSprites, ¬opaqueAt sp) → p.pixel mem par u = bg.2) ∧
    ∀ (front behind : List Sprite) (sp : Sprite), p.lineSprites = front ++ sp :: behind →
      (∀ other ∈ front, ¬opaqueAt other) → opaqueAt sp →
      (p.lcdc.getLsbD 0 = false ∨ sp.attr.getLsbD 7 = false ∨ bg.1 = 0 → p.pixel mem par u = colour sp) ∧
      (p.lcdc.getLsbD 0 = true → sp.attr.getLsbD 7 = true → bg.1 ≠ 0 → p.pixel mem par u = bg.2)

/-- Pixel transfer takes 168 + fine_x ticks: from its start with the LCD on, the mode is 3 for that many ticks less
one, and then 0 with 160 pixels written and the line's tick 248 + fine_x (R462, R468). Ticks of the PPU alone.
Derived: the length is marked as derived by the spec. -/
def Obligations.PixelTransferLength : Prop :=
  ∀ (s : State), s.ppu.lcdc.getLsbD 7 = true → s.ppu.lcdWasOn = true → s.ppu.lineTicks = 79 → s.ppu.mode = .oamScan →
    let fine := s.ppu.scx.toNat % 8
    (∀ n, n < 168 + fine → (ppuTick^[n + 1] s).ppu.mode = .transfer) ∧
    (ppuTick^[168 + fine + 1] s).ppu.mode = .hblank ∧
    (ppuTick^[168 + fine + 1] s).ppu.pushedX = 160 ∧
    (ppuTick^[168 + fine + 1] s).ppu.lineTicks = 248 + fine

/-- One tick of pixel transfer: in the push state with at most eight pixels queued the eight pixels from the fetch
coordinate on are queued, as the registers, the line's sprites and VRAM are at this tick; then, with at least eight
queued, the oldest leaves the queue and, past the fine-scroll discard, lands at the line's next column. The pixel that
fills the line ends the transfer: mode 0, the window line one further when the window is visible, and the STAT request
when STAT bit 3 is set. Nothing else changes (R466-R468, R475, R493, R497). Derived: the spec's decisions D30, D31,
D45, D46 and D57; a column past the line's end arises in no run (State.Inv). -/
def Obligations.TransferTick : Prop :=
  ∀ s : State, s.ppu.lcdc.getLsbD 7 = true → s.ppu.lcdWasOn = true → s.ppu.mode = .transfer → s.ppu.pushedX < 160 →
    let p := s.ppu
    let pushes : Bool := p.fetchState = .push ∧ p.fifo.length ≤ 8
    let queue := if pushes then p.fifo ++ (List.range 8).map (fun i => p.pixel s.mem s.params (p.fetchX + i)) else p.fifo
    let pops : Bool := 8 ≤ queue.length
    let lands : Bool := pops ∧ p.fineX ≤ p.lineX
    let ends : Bool := lands ∧ p.pushedX = 159
    let visible : Bool := p.lcdc.getLsbD 5 ∧ p.lcdc.getLsbD 0 ∧ p.wy.toNat ≤ p.ly.toNat ∧ p.wx.toNat ≤ 166
    let t := ppuTick s
    t.ppu = { p with
      lineTicks := p.lineTicks + 1
      fetchState := match p.fetchState with
        | .tile => .data0
        | .data0 => .data1
        | .data1 => .idle
        | .idle => .push
        | .push => if pushes then .tile else .push
      fetchX := if pushes then p.fetchX + 8 else p.fetchX
      fifo := if pops then queue.tail else queue
      lineX := if pops then p.lineX + 1 else p.lineX
      pushedX := if lands then p.pushedX + 1 else p.pushedX
      mode := if ends then .hblank else .transfer
      windowLine := if ends && visible then p.windowLine + 1 else p.windowLine
      framebuffer := t.ppu.framebuffer } ∧
    (∀ row column, column < 160 → t.readPixel row column =
      if lands ∧ row = p.ly.toNat ∧ column = p.pushedX then queue.headD 0 else s.readPixel row column) ∧
    t.intFlags = (if ends && p.statSel.getLsbD 0 then s.intFlags ||| 0b00010 else s.intFlags) ∧
    t = { s with ppu := t.ppu, intFlags := t.intFlags }

/-- The line that pixel transfer draws when nothing is written meanwhile: column x of row LY shows the pixel of line
coordinate x + fine_x, every other row is as before; at its end the window line has advanced on a line where the
window is visible, the one interrupt requested is STAT's when bit 3 is set, and of the machine nothing but the PPU's
pipeline has changed (R463, R465, R467, R468, R478, R493, R497). Ticks of the PPU alone. Derived: the spec's decisions
D28, D30, D31, D45, D46 and D57. -/
def Obligations.LineDrawn : Prop :=
  ∀ s : State, s.ppu.lcdc.getLsbD 7 = true → s.ppu.lcdWasOn = true → s.ppu.lineTicks = 79 → s.ppu.mode = .oamScan →
    let fine := s.ppu.scx.toNat % 8
    let scanned := { s.ppu.oamScan s.mem with fineX := fine }
    let visible : Bool :=
      s.ppu.lcdc.getLsbD 5 ∧ s.ppu.lcdc.getLsbD 0 ∧ s.ppu.wy.toNat ≤ s.ppu.ly.toNat ∧ s.ppu.wx.toNat ≤ 166
    let t := ppuTick^[168 + fine + 1] s
    (∀ x, x < 160 → t.readPixel s.ppu.ly.toNat x = scanned.pixel s.mem s.params (x + fine)) ∧
    (∀ row x, row ≠ s.ppu.ly.toNat → x < 160 → t.readPixel row x = s.readPixel row x) ∧
    t.ppu = { scanned with
      mode := .hblank, lineTicks := 248 + fine, pushedX := 160, framebuffer := t.ppu.framebuffer
      windowLine := if visible then s.ppu.windowLine + 1 else s.ppu.windowLine
      fifo := t.ppu.fifo, fetchState := t.ppu.fetchState, fetchX := t.ppu.fetchX, lineX := t.ppu.lineX } ∧
    t.intFlags = (if s.ppu.statSel.getLsbD 0 then s.intFlags ||| 0b00010 else s.intFlags) ∧
    t = { s with ppu := t.ppu, intFlags := t.intFlags }

/-- One frame: 154 lines of 456 ticks from tick 0 of line 0 in OAM scan, that is 17556 cycles without an access,
return to the same place and count one frame (R462, R494). Derived: the length is marked as derived by the spec, the
frame counter is its decision D34 (its width: log 16). -/
def Obligations.FrameTiming : Prop :=
  ∀ (s : State), s.ppu.lcdc.getLsbD 7 = true → s.ppu.lcdWasOn = true → s.ppu.mode = .oamScan → s.ppu.ly = 0 →
    s.ppu.lineTicks = 0 →
    let t := cycles 17556 s
    t.ppu.mode = .oamScan ∧ t.ppu.ly = 0 ∧ t.ppu.lineTicks = 0 ∧
    t.ppu.frameCounter = (s.ppu.frameCounter + 1) % 2 ^ s.params.frameCounterBits

/-- LCD off and on: the first tick with LCDC bit 7 clear puts the PPU at line 0, tick 0, mode 0 with empty buffers,
every further one changes nothing, none requests an interrupt; the first tick with the bit set again is tick 0 of line
0 in OAM scan with the window line 0, the coincidence flag compared and no request (R496). Derived: the spec's
decision D43. -/
def Obligations.LcdOffAndOn : Prop :=
  ∀ s : State,
    (s.ppu.lcdc.getLsbD 7 = false → s.ppu.lcdWasOn = true → ppuTick s =
      { s with ppu := { s.ppu with lcdWasOn := false, ly := 0, lineTicks := 0, mode := .hblank, fifo := []
                                   lineSprites := [], fetchState := .tile } }) ∧
    (s.ppu.lcdc.getLsbD 7 = false → s.ppu.lcdWasOn = false → ppuTick s = s) ∧
    (s.ppu.lcdc.getLsbD 7 = true → s.ppu.lcdWasOn = false → ppuTick s =
      { s with ppu := { s.ppu with lcdWasOn := true, ly := 0, lineTicks := 1, windowLine := 0, mode := .oamScan
                                   coincidence := s.ppu.lyc == 0 } })

/-! ## The invariant and reset -/

/-- Every step keeps the invariant: canonical memories inside their sizes, F's low nibble 0, the EI latch clear, the
DMA counters in range, LY at most 153, the pipeline on schedule, at most ten sprites and sixteen queued pixels, a ROM
bank select that is never 0; and it keeps what loading fixed. Derived from the bounds the state rules give; the
canonical form of the memories is the model's (log 2, log 7). -/
def Obligations.StepKeepsInvariant : Prop :=
  ∀ s t : State, s.Inv → step s = .next t →
    t.Inv ∧ t.status = .running ∧ t.params = s.params ∧ t.buttons = s.buttons ∧
    t.cart.rom = s.cart.rom ∧ t.cart.romLen = s.cart.romLen ∧ t.cart.header = s.cart.header ∧
    t.cart.rejected = s.cart.rejected ∧ t.cart.family = s.cart.family ∧ t.cart.battery = s.cart.battery ∧
    t.cart.romBanks = s.cart.romBanks ∧ t.cart.ramBanks = s.cart.ramBanks

/-- The invariant holds at reset, whatever the parameters, and at `State.reset`. Derived; the reset values that are
parameters of the spec are chosen at State.reset (log 1 to log 4). -/
def Obligations.ResetHoldsInvariant : Prop :=
  (∀ st : Config.Start, (resetWith st).Inv) ∧ State.reset.Inv

/-- The reset state of R520, for every value of the parameters of R7: the registers, the devices, the memories as
their images give them, the cartridge's controller. The run status is running and no DMA is active. Derived: the
spec's decisions D24, D25, D36 and D40 to D42; the parameters' values at State.reset are the model's choices (log 1 to
log 4). -/
def Obligations.ResetState : Prop :=
  ∀ (st : Config.Start),
    let s := resetWith st
    s.cpu = { a := 0x01, f := flagsByte true false true true, b := 0x00, c := 0x13, d := 0x00, e := 0xD8, h := 0x01,
              l := 0x4D, sp := 0xFFFE, pc := 0x0100, ime := false, imePending := false, halted := false } ∧
    s.status = .running ∧ busRead s 0xFF0F = 0xE1 ∧ busRead s 0xFFFF = 0x00 ∧
    (∀ k, k < 8192 → busRead s (BitVec.ofNat 16 (0x8000 + k)) = st.initVram.getD k 0) ∧
    (∀ k, k < 8192 → busRead s (BitVec.ofNat 16 (0xC000 + k)) = st.initWram.getD k 0) ∧
    (∀ k, k < 160 → busRead s (BitVec.ofNat 16 (0xFE00 + k)) = st.initOam.getD k 0) ∧
    (∀ k, k < 127 → busRead s (BitVec.ofNat 16 (0xFF80 + k)) = st.initHram.getD k 0) ∧
    s.timer = { div := st.initDiv, tima := 0x00, tma := 0x00, tac := 0 } ∧
    s.dma = { active := false, delay := 0, offset := 0, src := 0x00, reg := 0xFF } ∧
    busRead s 0xFF40 = 0x91 ∧ busRead s 0xFF41 = 0x86 ∧ busRead s 0xFF42 = 0x00 ∧ busRead s 0xFF43 = 0x00 ∧
    busRead s 0xFF44 = 0x00 ∧ busRead s 0xFF45 = 0x00 ∧ busRead s 0xFF47 = 0xFC ∧ busRead s 0xFF48 = 0xFF ∧
    busRead s 0xFF49 = 0xFF ∧ busRead s 0xFF4A = 0x00 ∧ busRead s 0xFF4B = 0x00 ∧
    s.ppu.mode = .oamScan ∧ s.ppu.lineTicks = 0 ∧ s.ppu.windowLine = 0 ∧ s.ppu.lineSprites = [] ∧
    s.ppu.objHeight.rows = 8 ∧ s.ppu.fetchState = .tile ∧ s.ppu.fetchX = 0 ∧ s.ppu.lineX = 0 ∧ s.ppu.pushedX = 0 ∧
    s.ppu.fineX = 0 ∧ s.ppu.fifo = [] ∧ (∀ row column, s.readPixel row column = st.params.ramp.shade0) ∧
    s.ppu.frameCounter = 0 ∧ s.ppu.lcdWasOn = true ∧
    s.joySel = 0 ∧ s.buttons = st.buttons ∧ busRead s 0xFF01 = 0x00 ∧ busRead s 0xFF02 = 0x7E ∧
    s.cart = loadCartridge st.cart st.battery ∧ s.params = st.params
end

