-- ==== Sys2Proof/Laws/Bytes.lean ====
section
/-! SUPPORT. The model's bit operations as the numbers the statements are written with: halves of a word, the F byte, the
conditions, single bits and low nibbles; and a CPU update as a replaced CPU. -/

namespace Sys2Proof.Machine

open Sys2Proof

/-! ## Halves -/

theorem mk16_eq (hi lo : Byte) : mk16 hi lo = hi ++ lo := rfl

theorem append_toNat (hi lo : Byte) : (hi ++ lo : Word).toNat = 256 * hi.toNat + lo.toNat := by
  have := lo.isLt
  rw [BitVec.toNat_append, ← Nat.shiftLeft_add_eq_or_of_lt lo.isLt, Nat.shiftLeft_eq]
  omega

theorem mk16_toNat (hi lo : Byte) : (mk16 hi lo).toNat = 256 * hi.toNat + lo.toNat := append_toNat hi lo

theorem hiByte_toNat (v : Word) : (hiByte v).toNat = v.toNat / 256 := by
  have := v.isLt
  rw [hiByte, BitVec.extractLsb'_toNat, Nat.shiftRight_eq_div_pow]
  omega

theorem loByte_toNat (v : Word) : (loByte v).toNat = v.toNat % 256 := by
  rw [loByte, BitVec.extractLsb'_toNat, Nat.shiftRight_zero]

@[simp] theorem loByte_append (hi lo : Byte) : loByte (hi ++ lo) = lo := by
  apply BitVec.eq_of_toNat_eq
  have := lo.isLt
  rw [loByte_toNat, append_toNat]
  omega

@[simp] theorem hiByte_append (hi lo : Byte) : hiByte (hi ++ lo) = hi := by
  apply BitVec.eq_of_toNat_eq
  have := lo.isLt
  rw [hiByte_toNat, append_toNat]
  omega

theorem opcodeByte_high (v : Word) : opcodeByte (v.toNat / 256) = hiByte v := by
  apply BitVec.eq_of_toNat_eq
  have := v.isLt
  rw [hiByte_toNat, opcodeByte, BitVec.toNat_ofNat]
  omega

theorem opcodeByte_low (v : Word) : opcodeByte (v.toNat % 256) = loByte v := by
  apply BitVec.eq_of_toNat_eq
  rw [loByte_toNat, opcodeByte, BitVec.toNat_ofNat]
  omega

/-! ## Flags and conditions -/

theorem packFlags_eq (z n h c : Bool) : packFlags z n h c = flagsByte z n h c := by
  cases z <;> cases n <;> cases h <;> cases c <;> rfl

/-- A single bit as a number. -/
theorem getLsbD_eq (v : Byte) (i : Nat) : v.getLsbD i = decide (v.toNat / 2 ^ i % 2 = 1) := by
  rw [BitVec.getLsbD, Nat.testBit_eq_decide_div_mod_eq]

theorem cond_eq_holds (p : Cpu) (cc : Cond) : p.cond cc = cc.holds p.f := by
  have h (x : Nat) : (!decide (x % 2 = 1)) = decide (x % 2 = 0) := by
    rw [← decide_not]; exact decide_eq_decide.mpr (by omega)
  cases cc <;> simp only [Cpu.cond, Cpu.zf, Cpu.cf, bitOf, getLsbD_eq, Cond.holds, h] <;> rfl

theorem carryNat_eq (b : Bool) : carryNat b = b.toNat := by cases b <;> rfl

/-! ## A CPU update is a replaced CPU -/

theorem updCpu_eq_withCpu {s t : State} (g : Cpu → Cpu) (h : t.cpu = s.cpu) : t.updCpu g = t.withCpu (g s.cpu) := by
  simp only [State.updCpu, State.withCpu, h]

@[simp] theorem withCpu_withCpu (s : State) (p q : Cpu) : (s.withCpu p).withCpu q = s.withCpu q := rfl

@[simp] theorem withCpu_cpu (s : State) (p : Cpu) : (s.withCpu p).cpu = p := rfl

@[simp] theorem busRead_withCpu (s : State) (p : Cpu) (a : Word) : busRead (s.withCpu p) a = busRead s a := rfl

end Sys2Proof.Machine
end

