-- ==== Sys2Proof/Laws/Cells.lean ====
section
/-! SUPPORT. The laws of memories as lists of cells: a read after a write, and that every operation keeps the canonical
form and the range of the keys. -/

namespace Sys2Proof

namespace Cells

variable {α : Type} [DecidableEq α]

/-! ## Read after write -/

omit [DecidableEq α] in
theorem read_put_same (d : α) (m : List (Nat × α)) (k : Nat) (v : α) : read d (put m k v) k = v := by
  induction m with
  | nil => simp [put, read]
  | cons x m ih =>
    obtain ⟨k', v'⟩ := x
    simp only [put]
    split
    · simp [read]
    · split
      · simp [read]
      · rename_i h1 h2
        simp [read, Ne.symm h2, ih]

omit [DecidableEq α] in
theorem read_put_other (d : α) (m : List (Nat × α)) {k j : Nat} (v : α) (h : j ≠ k) :
    read d (put m k v) j = read d m j := by
  induction m with
  | nil => simp [put, read, Ne.symm h]
  | cons x m ih =>
    obtain ⟨k', v'⟩ := x
    simp only [put]
    split
    · simp [read, Ne.symm h]
    · split
      · rename_i h1 h2; subst h2; simp [read, Ne.symm h]
      · simp [read, ih]

omit [DecidableEq α] in
theorem read_erase_same (d : α) (m : List (Nat × α)) (k : Nat) : read d (erase m k) k = d := by
  induction m with
  | nil => rfl
  | cons x m ih =>
    obtain ⟨k', v'⟩ := x
    simp only [erase]
    split
    · exact ih
    · rename_i h; simp [read, h, ih]

omit [DecidableEq α] in
theorem read_erase_other (d : α) (m : List (Nat × α)) {k j : Nat} (h : j ≠ k) :
    read d (erase m k) j = read d m j := by
  induction m with
  | nil => rfl
  | cons x m ih =>
    obtain ⟨k', v'⟩ := x
    simp only [erase]
    split
    · rename_i h1; subst h1; simp [read, Ne.symm h, ih]
    · simp [read, ih]

/-- A read of the key just written gives the value. -/
@[simp] theorem read_write_same (d : α) (m : List (Nat × α)) (k : Nat) (v : α) : read d (write d m k v) k = v := by
  unfold write
  split
  · rename_i h; subst h; exact read_erase_same _ _ _
  · exact read_put_same _ _ _ _

/-- A read of another key is not changed by a write. -/
theorem read_write_other (d : α) (m : List (Nat × α)) {k j : Nat} (v : α) (h : j ≠ k) :
    read d (write d m k v) j = read d m j := by
  unfold write
  split
  · exact read_erase_other _ _ h
  · exact read_put_other _ _ _ h

theorem read_write (d : α) (m : List (Nat × α)) (k j : Nat) (v : α) :
    read d (write d m k v) j = if j = k then v else read d m j := by
  split
  · subst j; exact read_write_same _ _ _ _
  · exact read_write_other _ _ _ ‹_›

/-! ## The canonical form -/

theorem wfFrom_mono (d : α) {m : List (Nat × α)} {lo lo' : Nat} (h : lo' ≤ lo) (hm : wfFrom d lo m = true) :
    wfFrom d lo' m = true := by
  cases m with
  | nil => rfl
  | cons x m =>
    obtain ⟨k, v⟩ := x
    simp only [wfFrom, Bool.and_eq_true, decide_eq_true_eq] at hm ⊢
    exact ⟨⟨by omega, hm.1.2⟩, hm.2⟩

theorem wfFrom_put (d : α) {m : List (Nat × α)} {lo k : Nat} {v : α} (hk : lo ≤ k) (hv : v ≠ d)
    (hm : wfFrom d lo m = true) : wfFrom d lo (put m k v) = true := by
  induction m generalizing lo with
  | nil => simp [put, wfFrom, hk, hv]
  | cons x m ih =>
    obtain ⟨k', v'⟩ := x
    simp only [wfFrom, Bool.and_eq_true, decide_eq_true_eq] at hm
    simp only [put]
    split
    · simp only [wfFrom, Bool.and_eq_true, decide_eq_true_eq]
      exact ⟨⟨hk, hv⟩, ⟨by omega, hm.1.2⟩, hm.2⟩
    · split
      · rename_i h1 h2; subst h2
        simp only [wfFrom, Bool.and_eq_true, decide_eq_true_eq]
        exact ⟨⟨hk, hv⟩, hm.2⟩
      · simp only [wfFrom, Bool.and_eq_true, decide_eq_true_eq]
        exact ⟨hm.1, ih (by omega) hm.2⟩

theorem wfFrom_erase (d : α) {m : List (Nat × α)} {lo : Nat} (k : Nat) (hm : wfFrom d lo m = true) :
    wfFrom d lo (erase m k) = true := by
  induction m generalizing lo with
  | nil => rfl
  | cons x m ih =>
    obtain ⟨k', v'⟩ := x
    simp only [wfFrom, Bool.and_eq_true, decide_eq_true_eq] at hm
    simp only [erase]
    split
    · exact wfFrom_mono d (by omega) (ih hm.2)
    · simp only [wfFrom, Bool.and_eq_true, decide_eq_true_eq]
      exact ⟨hm.1, ih hm.2⟩

/-- A write keeps the canonical form. -/
theorem wf_write (d : α) {m : List (Nat × α)} (k : Nat) (v : α) (hm : wf d m = true) : wf d (write d m k v) = true := by
  unfold write wf
  split
  · exact wfFrom_erase d k hm
  · exact wfFrom_put d (Nat.zero_le k) ‹_› hm

theorem wfFrom_ofList (d : α) (vs : List α) {lo base : Nat} (h : lo ≤ base) : wfFrom d lo (ofList d base vs) = true := by
  induction vs generalizing lo base with
  | nil => rfl
  | cons v vs ih =>
    simp only [ofList]
    split
    · exact ih (by omega)
    · simp only [wfFrom, Bool.and_eq_true, decide_eq_true_eq]
      exact ⟨⟨h, ‹_›⟩, ih (by omega)⟩

/-- A list's memory is canonical. -/
theorem wf_ofList (d : α) (base : Nat) (vs : List α) : wf d (ofList d base vs) = true :=
  wfFrom_ofList d vs (Nat.zero_le base)

/-- Two canonical memories one after the other are canonical when the keys of the first lie below the second's. -/
theorem wfFrom_append (d : α) {m n : List (Nat × α)} {lo mid : Nat} (h : lo ≤ mid) (hm : wfFrom d lo m = true)
    (hk : ∀ x ∈ m, x.1 < mid) (hn : wfFrom d mid n = true) : wfFrom d lo (m ++ n) = true := by
  induction m generalizing lo with
  | nil => exact wfFrom_mono d h hn
  | cons x m ih =>
    obtain ⟨k, v⟩ := x
    have hkm : k < mid := hk (k, v) (by simp)
    simp only [wfFrom, List.cons_append, Bool.and_eq_true, decide_eq_true_eq] at hm ⊢
    exact ⟨hm.1, ih hkm hm.2 fun x hx => hk x (by simp [hx])⟩

/-! ## The keys -/

omit [DecidableEq α] in
theorem mem_put {m : List (Nat × α)} {k : Nat} {v : α} {x : Nat × α} (h : x ∈ put m k v) : x = (k, v) ∨ x ∈ m := by
  induction m with
  | nil => simp [put] at h; exact .inl h
  | cons y m ih =>
    obtain ⟨k', v'⟩ := y
    simp only [put] at h
    split at h
    · rcases List.mem_cons.1 h with h | h
      · exact .inl h
      · exact .inr h
    · split at h
      · rcases List.mem_cons.1 h with h | h
        · exact .inl h
        · exact .inr (List.mem_cons_of_mem _ h)
      · rcases List.mem_cons.1 h with h | h
        · exact .inr (h ▸ List.mem_cons_self)
        · rcases ih h with h | h
          · exact .inl h
          · exact .inr (List.mem_cons_of_mem _ h)

omit [DecidableEq α] in
theorem mem_erase {m : List (Nat × α)} {k : Nat} {x : Nat × α} (h : x ∈ erase m k) : x ∈ m := by
  induction m with
  | nil => exact h
  | cons y m ih =>
    obtain ⟨k', v'⟩ := y
    simp only [erase] at h
    split at h
    · exact List.mem_cons_of_mem _ (ih h)
    · rcases List.mem_cons.1 h with h | h
      · exact h ▸ List.mem_cons_self
      · exact List.mem_cons_of_mem _ (ih h)

/-- A property of the keys holds after a write when it holds before and of the key written. -/
theorem keys_write (d : α) {P : Nat → Prop} {m : List (Nat × α)} {k : Nat} (v : α) (hk : P k) (hm : ∀ x ∈ m, P x.1) :
    ∀ x ∈ write d m k v, P x.1 := by
  intro x hx
  unfold write at hx
  split at hx
  · exact hm x (mem_erase hx)
  · rcases mem_put hx with h | h
    · subst h; exact hk
    · exact hm x h

/-- The keys of a list's memory. -/
theorem keys_ofList (d : α) (base : Nat) (vs : List α) :
    ∀ x ∈ ofList d base vs, base ≤ x.1 ∧ x.1 < base + vs.length := by
  induction vs generalizing base with
  | nil => intro x hx; simp [ofList] at hx
  | cons v vs ih =>
    intro x hx
    simp only [ofList] at hx
    simp only [List.length_cons]
    split at hx
    · have := ih (base + 1) x hx; omega
    · rcases List.mem_cons.1 hx with h | h
      · subst h; simp
      · have := ih (base + 1) x h; omega

/-! ## Reading a list's memory -/

omit [DecidableEq α] in
theorem read_of_not_mem (d : α) {m : List (Nat × α)} {k : Nat} (h : ∀ x ∈ m, x.1 ≠ k) : read d m k = d := by
  induction m with
  | nil => rfl
  | cons x m ih =>
    obtain ⟨k', v⟩ := x
    have h1 : k' ≠ k := h (k', v) (by simp)
    simp only [read, h1, if_false]
    exact ih fun y hy => h y (by simp [hy])

/-- A list's memory reads as the list from its base on, and as the default elsewhere. -/
theorem read_ofList (d : α) (base : Nat) (vs : List α) (k : Nat) :
    read d (ofList d base vs) k = if base ≤ k then vs.getD (k - base) d else d := by
  induction vs generalizing base with
  | nil => simp [ofList, read]
  | cons v vs ih =>
    have step : read d (ofList d (base + 1) vs) k = if base + 1 ≤ k then vs.getD (k - (base + 1)) d else d :=
      ih (base + 1)
    simp only [ofList]
    by_cases hk : base = k
    · subst hk
      split
      · rename_i hv; rw [step]; simp [hv]
      · simp [read]
    · have hgo : read d (ofList d (base + 1) vs) k = if base ≤ k then (v :: vs).getD (k - base) d else d := by
        rw [step]
        by_cases hle : base + 1 ≤ k
        · have : k - base = (k - (base + 1)) + 1 := by omega
          simp [hle, this, show base ≤ k by omega]
        · simp [hle, show ¬ base ≤ k by omega]
      split
      · exact hgo
      · simp only [read, hk, if_false]; exact hgo

omit [DecidableEq α] in
theorem read_append (d : α) {m n : List (Nat × α)} {k : Nat} (h : ∀ x ∈ m, x.1 ≠ k) : read d (m ++ n) k = read d n k := by
  induction m with
  | nil => rfl
  | cons x m ih =>
    obtain ⟨k', v⟩ := x
    have h1 : k' ≠ k := h (k', v) (by simp)
    simp only [List.cons_append, read, h1, if_false]
    exact ih fun y hy => h y (by simp [hy])

omit [DecidableEq α] in
theorem read_append_left (d : α) {m n : List (Nat × α)} {k : Nat} (h : ∀ x ∈ n, x.1 ≠ k) :
    read d (m ++ n) k = read d m k := by
  induction m with
  | nil => exact read_of_not_mem d h
  | cons x m ih =>
    obtain ⟨k', v⟩ := x
    simp only [List.cons_append, read, ih]

/-! ## Equal memories are equal lists -/

theorem read_lt_of_wfFrom (d : α) {m : List (Nat × α)} {lo k : Nat} (hm : wfFrom d lo m = true) (h : k < lo) :
    read d m k = d := by
  induction m generalizing lo with
  | nil => rfl
  | cons x m ih =>
    obtain ⟨k', v⟩ := x
    simp only [wfFrom, Bool.and_eq_true, decide_eq_true_eq] at hm
    simp only [read, show k' ≠ k by omega, if_false]
    exact ih hm.2 (by omega)

/-- Two canonical memories that read the same everywhere are the same list. -/
theorem eq_of_read (d : α) {m n : List (Nat × α)} {lo : Nat} (hm : wfFrom d lo m = true) (hn : wfFrom d lo n = true)
    (h : ∀ k, read d m k = read d n k) : m = n := by
  induction m generalizing n lo with
  | nil =>
    cases n with
    | nil => rfl
    | cons x n =>
      obtain ⟨k, v⟩ := x
      simp only [wfFrom, Bool.and_eq_true, decide_eq_true_eq] at hn
      have := h k
      simp only [read, if_true] at this
      exact absurd this.symm hn.1.2
  | cons x m ih =>
    obtain ⟨k, v⟩ := x
    cases n with
    | nil =>
      simp only [wfFrom, Bool.and_eq_true, decide_eq_true_eq] at hm
      have := h k
      simp only [read, if_true] at this
      exact absurd this hm.1.2
    | cons y n =>
      obtain ⟨j, w⟩ := y
      simp only [wfFrom, Bool.and_eq_true, decide_eq_true_eq] at hm hn
      have hkj : k = j := by
        rcases Nat.lt_trichotomy k j with hlt | heq | hgt
        · have := h k
          simp only [read, if_true, show j ≠ k by omega, if_false, read_lt_of_wfFrom d hn.2 (show k < j + 1 by omega)] at this
          exact absurd this hm.1.2
        · exact heq
        · have := h j
          simp only [read, if_true, show k ≠ j by omega, if_false, read_lt_of_wfFrom d hm.2 (show j < k + 1 by omega)] at this
          exact absurd this.symm hn.1.2
      subst hkj
      have hv : v = w := by simpa [read] using h k
      subst hv
      congr 1
      refine ih hm.2 hn.2 fun i => ?_
      by_cases hi : k = i
      · subst hi
        rw [read_lt_of_wfFrom d hm.2 (Nat.lt_succ_self k), read_lt_of_wfFrom d hn.2 (Nat.lt_succ_self k)]
      · simpa [read, hi] using h i

end Cells

/-! ## Memories of bytes -/

@[simp] theorem Memory.read_write_same (m : Memory) (k : Nat) (v : Byte) : (m.write k v).read k = v :=
  Cells.read_write_same _ _ _ _

theorem Memory.read_write_other (m : Memory) {k j : Nat} (v : Byte) (h : j ≠ k) : (m.write k v).read j = m.read j :=
  Cells.read_write_other _ _ _ h

theorem Memory.read_write (m : Memory) (k j : Nat) (v : Byte) :
    (m.write k v).read j = if j = k then v else m.read j :=
  Cells.read_write _ _ _ _ _

theorem Memory.wf_write (m : Memory) (k : Nat) (v : Byte) (h : m.wf = true) : (m.write k v).wf = true :=
  Cells.wf_write _ _ _ h

theorem Memory.wf_ofBytes (base : Nat) (bs : List Byte) : (Memory.ofBytes base bs).wf = true :=
  Cells.wf_ofList _ _ _

theorem Memory.keys_write {P : Nat → Prop} {m : Memory} {k : Nat} (v : Byte) (hk : P k) (hm : ∀ x ∈ m, P x.1) :
    ∀ x ∈ m.write k v, P x.1 :=
  Cells.keys_write _ v hk hm

end Sys2Proof
end

