-- ==== Sys2Proof/Laws/State.lean ====
section
/-! SUPPORT. One lemma for each field under each update of the state and of the CPU, so that no later proof unfolds a
record update. -/

namespace Sys2Proof.Machine

open Sys2Proof

/-! ## Updates of the whole state -/

@[simp] theorem State.updCpu_cpu (s : State) (g : Cpu → Cpu) : (s.updCpu g).cpu = g s.cpu := rfl

@[simp] theorem State.updCpu_status (s : State) (g : Cpu → Cpu) : (s.updCpu g).status = s.status := rfl

@[simp] theorem State.updCpu_intFlags (s : State) (g : Cpu → Cpu) : (s.updCpu g).intFlags = s.intFlags := rfl

@[simp] theorem State.updCpu_intEnable (s : State) (g : Cpu → Cpu) : (s.updCpu g).intEnable = s.intEnable := rfl

@[simp] theorem State.updCpu_mem (s : State) (g : Cpu → Cpu) : (s.updCpu g).mem = s.mem := rfl

@[simp] theorem State.updCpu_timer (s : State) (g : Cpu → Cpu) : (s.updCpu g).timer = s.timer := rfl

@[simp] theorem State.updCpu_dma (s : State) (g : Cpu → Cpu) : (s.updCpu g).dma = s.dma := rfl

@[simp] theorem State.updCpu_ppu (s : State) (g : Cpu → Cpu) : (s.updCpu g).ppu = s.ppu := rfl

@[simp] theorem State.updCpu_joySel (s : State) (g : Cpu → Cpu) : (s.updCpu g).joySel = s.joySel := rfl

@[simp] theorem State.updCpu_buttons (s : State) (g : Cpu → Cpu) : (s.updCpu g).buttons = s.buttons := rfl

@[simp] theorem State.updCpu_sb (s : State) (g : Cpu → Cpu) : (s.updCpu g).sb = s.sb := rfl

@[simp] theorem State.updCpu_sc (s : State) (g : Cpu → Cpu) : (s.updCpu g).sc = s.sc := rfl

@[simp] theorem State.updCpu_cart (s : State) (g : Cpu → Cpu) : (s.updCpu g).cart = s.cart := rfl

@[simp] theorem State.updCpu_params (s : State) (g : Cpu → Cpu) : (s.updCpu g).params = s.params := rfl

@[simp] theorem State.advancePc_cpu (s : State) (n : Nat) :
    (s.advancePc n).cpu = { s.cpu with pc := s.cpu.pc + BitVec.ofNat 16 n } := rfl

@[simp] theorem State.advancePc_status (s : State) (n : Nat) : (s.advancePc n).status = s.status := rfl

@[simp] theorem State.advancePc_intFlags (s : State) (n : Nat) : (s.advancePc n).intFlags = s.intFlags := rfl

@[simp] theorem State.advancePc_intEnable (s : State) (n : Nat) : (s.advancePc n).intEnable = s.intEnable := rfl

@[simp] theorem State.advancePc_mem (s : State) (n : Nat) : (s.advancePc n).mem = s.mem := rfl

@[simp] theorem State.advancePc_timer (s : State) (n : Nat) : (s.advancePc n).timer = s.timer := rfl

@[simp] theorem State.advancePc_dma (s : State) (n : Nat) : (s.advancePc n).dma = s.dma := rfl

@[simp] theorem State.advancePc_ppu (s : State) (n : Nat) : (s.advancePc n).ppu = s.ppu := rfl

@[simp] theorem State.advancePc_joySel (s : State) (n : Nat) : (s.advancePc n).joySel = s.joySel := rfl

@[simp] theorem State.advancePc_buttons (s : State) (n : Nat) : (s.advancePc n).buttons = s.buttons := rfl

@[simp] theorem State.advancePc_sb (s : State) (n : Nat) : (s.advancePc n).sb = s.sb := rfl

@[simp] theorem State.advancePc_sc (s : State) (n : Nat) : (s.advancePc n).sc = s.sc := rfl

@[simp] theorem State.advancePc_cart (s : State) (n : Nat) : (s.advancePc n).cart = s.cart := rfl

@[simp] theorem State.advancePc_params (s : State) (n : Nat) : (s.advancePc n).params = s.params := rfl

@[simp] theorem State.addSp_cpu (s : State) (n : Word) :
    (s.addSp n).cpu = { s.cpu with sp := s.cpu.sp + n } := rfl

@[simp] theorem State.addSp_status (s : State) (n : Word) : (s.addSp n).status = s.status := rfl

@[simp] theorem State.addSp_intFlags (s : State) (n : Word) : (s.addSp n).intFlags = s.intFlags := rfl

@[simp] theorem State.addSp_intEnable (s : State) (n : Word) : (s.addSp n).intEnable = s.intEnable := rfl

@[simp] theorem State.addSp_mem (s : State) (n : Word) : (s.addSp n).mem = s.mem := rfl

@[simp] theorem State.addSp_timer (s : State) (n : Word) : (s.addSp n).timer = s.timer := rfl

@[simp] theorem State.addSp_dma (s : State) (n : Word) : (s.addSp n).dma = s.dma := rfl

@[simp] theorem State.addSp_ppu (s : State) (n : Word) : (s.addSp n).ppu = s.ppu := rfl

@[simp] theorem State.addSp_joySel (s : State) (n : Word) : (s.addSp n).joySel = s.joySel := rfl

@[simp] theorem State.addSp_buttons (s : State) (n : Word) : (s.addSp n).buttons = s.buttons := rfl

@[simp] theorem State.addSp_sb (s : State) (n : Word) : (s.addSp n).sb = s.sb := rfl

@[simp] theorem State.addSp_sc (s : State) (n : Word) : (s.addSp n).sc = s.sc := rfl

@[simp] theorem State.addSp_cart (s : State) (n : Word) : (s.addSp n).cart = s.cart := rfl

@[simp] theorem State.addSp_params (s : State) (n : Word) : (s.addSp n).params = s.params := rfl

@[simp] theorem State.setPc_cpu (s : State) (v : Word) : (s.setPc v).cpu = { s.cpu with pc := v } := rfl

@[simp] theorem State.setPc_status (s : State) (v : Word) : (s.setPc v).status = s.status := rfl

@[simp] theorem State.setPc_intFlags (s : State) (v : Word) : (s.setPc v).intFlags = s.intFlags := rfl

@[simp] theorem State.setPc_intEnable (s : State) (v : Word) : (s.setPc v).intEnable = s.intEnable := rfl

@[simp] theorem State.setPc_mem (s : State) (v : Word) : (s.setPc v).mem = s.mem := rfl

@[simp] theorem State.setPc_timer (s : State) (v : Word) : (s.setPc v).timer = s.timer := rfl

@[simp] theorem State.setPc_dma (s : State) (v : Word) : (s.setPc v).dma = s.dma := rfl

@[simp] theorem State.setPc_ppu (s : State) (v : Word) : (s.setPc v).ppu = s.ppu := rfl

@[simp] theorem State.setPc_joySel (s : State) (v : Word) : (s.setPc v).joySel = s.joySel := rfl

@[simp] theorem State.setPc_buttons (s : State) (v : Word) : (s.setPc v).buttons = s.buttons := rfl

@[simp] theorem State.setPc_sb (s : State) (v : Word) : (s.setPc v).sb = s.sb := rfl

@[simp] theorem State.setPc_sc (s : State) (v : Word) : (s.setPc v).sc = s.sc := rfl

@[simp] theorem State.setPc_cart (s : State) (v : Word) : (s.setPc v).cart = s.cart := rfl

@[simp] theorem State.setPc_params (s : State) (v : Word) : (s.setPc v).params = s.params := rfl

@[simp] theorem State.request_cpu (s : State) (src : IntSource) : (s.request src).cpu = s.cpu := rfl

@[simp] theorem State.request_status (s : State) (src : IntSource) : (s.request src).status = s.status := rfl

@[simp] theorem State.request_intFlags (s : State) (src : IntSource) :
    (s.request src).intFlags = requestIn s.intFlags src := rfl

@[simp] theorem State.request_intEnable (s : State) (src : IntSource) :
    (s.request src).intEnable = s.intEnable := rfl

@[simp] theorem State.request_mem (s : State) (src : IntSource) : (s.request src).mem = s.mem := rfl

@[simp] theorem State.request_timer (s : State) (src : IntSource) : (s.request src).timer = s.timer := rfl

@[simp] theorem State.request_dma (s : State) (src : IntSource) : (s.request src).dma = s.dma := rfl

@[simp] theorem State.request_ppu (s : State) (src : IntSource) : (s.request src).ppu = s.ppu := rfl

@[simp] theorem State.request_joySel (s : State) (src : IntSource) : (s.request src).joySel = s.joySel := rfl

@[simp] theorem State.request_buttons (s : State) (src : IntSource) : (s.request src).buttons = s.buttons := rfl

@[simp] theorem State.request_sb (s : State) (src : IntSource) : (s.request src).sb = s.sb := rfl

@[simp] theorem State.request_sc (s : State) (src : IntSource) : (s.request src).sc = s.sc := rfl

@[simp] theorem State.request_cart (s : State) (src : IntSource) : (s.request src).cart = s.cart := rfl

@[simp] theorem State.request_params (s : State) (src : IntSource) : (s.request src).params = s.params := rfl

@[simp] theorem State.setJoypad_cpu (s : State) (sel : BitVec 2) (b : Config.Buttons) :
    (s.setJoypad sel b).cpu = s.cpu := rfl

@[simp] theorem State.setJoypad_status (s : State) (sel : BitVec 2) (b : Config.Buttons) :
    (s.setJoypad sel b).status = s.status := rfl

@[simp] theorem State.setJoypad_intFlags (s : State) (sel : BitVec 2) (b : Config.Buttons) :
    (s.setJoypad sel b).intFlags = requestIf (s.lines &&& ~~~(joypadLines sel b) != 0) s.intFlags .joypad := rfl

@[simp] theorem State.setJoypad_intEnable (s : State) (sel : BitVec 2) (b : Config.Buttons) :
    (s.setJoypad sel b).intEnable = s.intEnable := rfl

@[simp] theorem State.setJoypad_mem (s : State) (sel : BitVec 2) (b : Config.Buttons) :
    (s.setJoypad sel b).mem = s.mem := rfl

@[simp] theorem State.setJoypad_timer (s : State) (sel : BitVec 2) (b : Config.Buttons) :
    (s.setJoypad sel b).timer = s.timer := rfl

@[simp] theorem State.setJoypad_dma (s : State) (sel : BitVec 2) (b : Config.Buttons) :
    (s.setJoypad sel b).dma = s.dma := rfl

@[simp] theorem State.setJoypad_ppu (s : State) (sel : BitVec 2) (b : Config.Buttons) :
    (s.setJoypad sel b).ppu = s.ppu := rfl

@[simp] theorem State.setJoypad_joySel (s : State) (sel : BitVec 2) (b : Config.Buttons) :
    (s.setJoypad sel b).joySel = sel := rfl

@[simp] theorem State.setJoypad_buttons (s : State) (sel : BitVec 2) (b : Config.Buttons) :
    (s.setJoypad sel b).buttons = b := rfl

@[simp] theorem State.setJoypad_sb (s : State) (sel : BitVec 2) (b : Config.Buttons) :
    (s.setJoypad sel b).sb = s.sb := rfl

@[simp] theorem State.setJoypad_sc (s : State) (sel : BitVec 2) (b : Config.Buttons) :
    (s.setJoypad sel b).sc = s.sc := rfl

@[simp] theorem State.setJoypad_cart (s : State) (sel : BitVec 2) (b : Config.Buttons) :
    (s.setJoypad sel b).cart = s.cart := rfl

@[simp] theorem State.setJoypad_params (s : State) (sel : BitVec 2) (b : Config.Buttons) :
    (s.setJoypad sel b).params = s.params := rfl

/-! ## timerTick -/

@[simp] theorem timerTick_cpu (s : State) : (timerTick s).cpu = s.cpu := rfl

@[simp] theorem timerTick_status (s : State) : (timerTick s).status = s.status := rfl

@[simp] theorem timerTick_intFlags (s : State) :
    (timerTick s).intFlags = requestIf s.timer.tick.2 s.intFlags .timer := rfl

@[simp] theorem timerTick_intEnable (s : State) : (timerTick s).intEnable = s.intEnable := rfl

@[simp] theorem timerTick_mem (s : State) : (timerTick s).mem = s.mem := rfl

@[simp] theorem timerTick_timer (s : State) : (timerTick s).timer = s.timer.tick.1 := rfl

@[simp] theorem timerTick_dma (s : State) : (timerTick s).dma = s.dma := rfl

@[simp] theorem timerTick_ppu (s : State) : (timerTick s).ppu = s.ppu := rfl

@[simp] theorem timerTick_joySel (s : State) : (timerTick s).joySel = s.joySel := rfl

@[simp] theorem timerTick_buttons (s : State) : (timerTick s).buttons = s.buttons := rfl

@[simp] theorem timerTick_sb (s : State) : (timerTick s).sb = s.sb := rfl

@[simp] theorem timerTick_sc (s : State) : (timerTick s).sc = s.sc := rfl

@[simp] theorem timerTick_cart (s : State) : (timerTick s).cart = s.cart := rfl

@[simp] theorem timerTick_params (s : State) : (timerTick s).params = s.params := rfl

/-! ## ppuTick -/

@[simp] theorem ppuTick_cpu (s : State) : (ppuTick s).cpu = s.cpu := rfl

@[simp] theorem ppuTick_status (s : State) : (ppuTick s).status = s.status := rfl

@[simp] theorem ppuTick_intFlags (s : State) :
    (ppuTick s).intFlags = (s.ppu.tick s.mem s.params s.intFlags).2 := rfl

@[simp] theorem ppuTick_intEnable (s : State) : (ppuTick s).intEnable = s.intEnable := rfl

@[simp] theorem ppuTick_mem (s : State) : (ppuTick s).mem = s.mem := rfl

@[simp] theorem ppuTick_timer (s : State) : (ppuTick s).timer = s.timer := rfl

@[simp] theorem ppuTick_dma (s : State) : (ppuTick s).dma = s.dma := rfl

@[simp] theorem ppuTick_ppu (s : State) : (ppuTick s).ppu = (s.ppu.tick s.mem s.params s.intFlags).1 := rfl

@[simp] theorem ppuTick_joySel (s : State) : (ppuTick s).joySel = s.joySel := rfl

@[simp] theorem ppuTick_buttons (s : State) : (ppuTick s).buttons = s.buttons := rfl

@[simp] theorem ppuTick_sb (s : State) : (ppuTick s).sb = s.sb := rfl

@[simp] theorem ppuTick_sc (s : State) : (ppuTick s).sc = s.sc := rfl

@[simp] theorem ppuTick_cart (s : State) : (ppuTick s).cart = s.cart := rfl

@[simp] theorem ppuTick_params (s : State) : (ppuTick s).params = s.params := rfl

/-! ## dmaCopy -/

@[simp] theorem dmaCopy_cpu (s : State) : (dmaCopy s).cpu = s.cpu := rfl

@[simp] theorem dmaCopy_status (s : State) : (dmaCopy s).status = s.status := rfl

@[simp] theorem dmaCopy_intFlags (s : State) : (dmaCopy s).intFlags = s.intFlags := rfl

@[simp] theorem dmaCopy_intEnable (s : State) : (dmaCopy s).intEnable = s.intEnable := rfl

@[simp] theorem dmaCopy_mem (s : State) :
    (dmaCopy s).mem = s.mem.write (oamKey s.dma.offset) (busRead s s.dma.sourceAddress) := rfl

@[simp] theorem dmaCopy_timer (s : State) : (dmaCopy s).timer = s.timer := rfl

@[simp] theorem dmaCopy_dma (s : State) :
    (dmaCopy s).dma = { s.dma with offset := s.dma.offset + 1, active := decide (s.dma.offset + 1 ≠ Config.dmaLength) } := rfl

@[simp] theorem dmaCopy_ppu (s : State) : (dmaCopy s).ppu = s.ppu := rfl

@[simp] theorem dmaCopy_joySel (s : State) : (dmaCopy s).joySel = s.joySel := rfl

@[simp] theorem dmaCopy_buttons (s : State) : (dmaCopy s).buttons = s.buttons := rfl

@[simp] theorem dmaCopy_sb (s : State) : (dmaCopy s).sb = s.sb := rfl

@[simp] theorem dmaCopy_sc (s : State) : (dmaCopy s).sc = s.sc := rfl

@[simp] theorem dmaCopy_cart (s : State) : (dmaCopy s).cart = s.cart := rfl

@[simp] theorem dmaCopy_params (s : State) : (dmaCopy s).params = s.params := rfl

/-! ## acknowledge -/

@[simp] theorem acknowledge_cpu (s : State) (k : Nat) :
    (acknowledge s k).cpu = { s.cpu with ime := false, imePending := false, halted := false } := rfl

@[simp] theorem acknowledge_status (s : State) (k : Nat) : (acknowledge s k).status = s.status := rfl

@[simp] theorem acknowledge_intFlags (s : State) (k : Nat) :
    (acknowledge s k).intFlags = s.intFlags &&& ~~~(1#5 <<< k) := rfl

@[simp] theorem acknowledge_intEnable (s : State) (k : Nat) : (acknowledge s k).intEnable = s.intEnable := rfl

@[simp] theorem acknowledge_mem (s : State) (k : Nat) : (acknowledge s k).mem = s.mem := rfl

@[simp] theorem acknowledge_timer (s : State) (k : Nat) : (acknowledge s k).timer = s.timer := rfl

@[simp] theorem acknowledge_dma (s : State) (k : Nat) : (acknowledge s k).dma = s.dma := rfl

@[simp] theorem acknowledge_ppu (s : State) (k : Nat) : (acknowledge s k).ppu = s.ppu := rfl

@[simp] theorem acknowledge_joySel (s : State) (k : Nat) : (acknowledge s k).joySel = s.joySel := rfl

@[simp] theorem acknowledge_buttons (s : State) (k : Nat) : (acknowledge s k).buttons = s.buttons := rfl

@[simp] theorem acknowledge_sb (s : State) (k : Nat) : (acknowledge s k).sb = s.sb := rfl

@[simp] theorem acknowledge_sc (s : State) (k : Nat) : (acknowledge s k).sc = s.sc := rfl

@[simp] theorem acknowledge_cart (s : State) (k : Nat) : (acknowledge s k).cart = s.cart := rfl

@[simp] theorem acknowledge_params (s : State) (k : Nat) : (acknowledge s k).params = s.params := rfl

/-! ## Two updates of the CPU's part -/

theorem State.updCpu_updCpu (s : State) (g h : Cpu → Cpu) : (s.updCpu g).updCpu h = s.updCpu (fun p => h (g p)) := rfl

/-- Two updates that make the same CPU make the same state. -/
theorem State.updCpu_congr (s : State) {g h : Cpu → Cpu} (e : g s.cpu = h s.cpu) : s.updCpu g = s.updCpu h := by
  simp only [State.updCpu, e]

/-! ## Updates of the CPU -/

/-- Reading a register after writing one. -/
@[simp] theorem Cpu.reg_setReg (p : Cpu) (r r' : Reg8) (v : Byte) :
    (p.setReg r v).reg r' = if r' = r then v else p.reg r' := by cases r <;> cases r' <;> rfl

@[simp] theorem Cpu.setReg_f (p : Cpu) (r : Reg8) (v : Byte) : (p.setReg r v).f = p.f := by cases r <;> rfl

@[simp] theorem Cpu.setReg_sp (p : Cpu) (r : Reg8) (v : Byte) : (p.setReg r v).sp = p.sp := by cases r <;> rfl

@[simp] theorem Cpu.setReg_pc (p : Cpu) (r : Reg8) (v : Byte) : (p.setReg r v).pc = p.pc := by cases r <;> rfl

@[simp] theorem Cpu.setReg_ime (p : Cpu) (r : Reg8) (v : Byte) :
    (p.setReg r v).ime = p.ime := by cases r <;> rfl

@[simp] theorem Cpu.setReg_imePending (p : Cpu) (r : Reg8) (v : Byte) :
    (p.setReg r v).imePending = p.imePending := by cases r <;> rfl

@[simp] theorem Cpu.setReg_halted (p : Cpu) (r : Reg8) (v : Byte) :
    (p.setReg r v).halted = p.halted := by cases r <;> rfl

@[simp] theorem Cpu.setPair_a (p : Cpu) (dd : Pair) (v : Word) : (p.setPair dd v).a = p.a := by cases dd <;> rfl

@[simp] theorem Cpu.setPair_f (p : Cpu) (dd : Pair) (v : Word) : (p.setPair dd v).f = p.f := by cases dd <;> rfl

@[simp] theorem Cpu.setPair_pc (p : Cpu) (dd : Pair) (v : Word) :
    (p.setPair dd v).pc = p.pc := by cases dd <;> rfl

@[simp] theorem Cpu.setPair_ime (p : Cpu) (dd : Pair) (v : Word) :
    (p.setPair dd v).ime = p.ime := by cases dd <;> rfl

@[simp] theorem Cpu.setPair_imePending (p : Cpu) (dd : Pair) (v : Word) :
    (p.setPair dd v).imePending = p.imePending := by cases dd <;> rfl

@[simp] theorem Cpu.setPair_halted (p : Cpu) (dd : Pair) (v : Word) :
    (p.setPair dd v).halted = p.halted := by cases dd <;> rfl

@[simp] theorem Cpu.setStackPair_sp (p : Cpu) (qq : StackPair) (v : Word) :
    (p.setStackPair qq v).sp = p.sp := by cases qq <;> rfl

@[simp] theorem Cpu.setStackPair_pc (p : Cpu) (qq : StackPair) (v : Word) :
    (p.setStackPair qq v).pc = p.pc := by cases qq <;> rfl

@[simp] theorem Cpu.setStackPair_ime (p : Cpu) (qq : StackPair) (v : Word) :
    (p.setStackPair qq v).ime = p.ime := by cases qq <;> rfl

@[simp] theorem Cpu.setStackPair_imePending (p : Cpu) (qq : StackPair) (v : Word) :
    (p.setStackPair qq v).imePending = p.imePending := by cases qq <;> rfl

@[simp] theorem Cpu.setStackPair_halted (p : Cpu) (qq : StackPair) (v : Word) :
    (p.setStackPair qq v).halted = p.halted := by cases qq <;> rfl

@[simp] theorem Cpu.setFlags_a (p : Cpu) (z n h c : Option Bool) : (p.setFlags z n h c).a = p.a := rfl

@[simp] theorem Cpu.setFlags_b (p : Cpu) (z n h c : Option Bool) : (p.setFlags z n h c).b = p.b := rfl

@[simp] theorem Cpu.setFlags_c (p : Cpu) (z n h c : Option Bool) : (p.setFlags z n h c).c = p.c := rfl

@[simp] theorem Cpu.setFlags_d (p : Cpu) (z n h c : Option Bool) : (p.setFlags z n h c).d = p.d := rfl

@[simp] theorem Cpu.setFlags_e (p : Cpu) (z n h c : Option Bool) : (p.setFlags z n h c).e = p.e := rfl

@[simp] theorem Cpu.setFlags_h (p : Cpu) (z n h c : Option Bool) : (p.setFlags z n h c).h = p.h := rfl

@[simp] theorem Cpu.setFlags_l (p : Cpu) (z n h c : Option Bool) : (p.setFlags z n h c).l = p.l := rfl

@[simp] theorem Cpu.setFlags_sp (p : Cpu) (z n h c : Option Bool) : (p.setFlags z n h c).sp = p.sp := rfl

@[simp] theorem Cpu.setFlags_pc (p : Cpu) (z n h c : Option Bool) : (p.setFlags z n h c).pc = p.pc := rfl

@[simp] theorem Cpu.setFlags_ime (p : Cpu) (z n h c : Option Bool) : (p.setFlags z n h c).ime = p.ime := rfl

@[simp] theorem Cpu.setFlags_imePending (p : Cpu) (z n h c : Option Bool) :
    (p.setFlags z n h c).imePending = p.imePending := rfl

@[simp] theorem Cpu.setFlags_halted (p : Cpu) (z n h c : Option Bool) :
    (p.setFlags z n h c).halted = p.halted := rfl

@[simp] theorem Cpu.applyFlags_a (p : Cpu) (r : Result8) : (p.applyFlags r).a = p.a := rfl

@[simp] theorem Cpu.applyFlags_b (p : Cpu) (r : Result8) : (p.applyFlags r).b = p.b := rfl

@[simp] theorem Cpu.applyFlags_c (p : Cpu) (r : Result8) : (p.applyFlags r).c = p.c := rfl

@[simp] theorem Cpu.applyFlags_d (p : Cpu) (r : Result8) : (p.applyFlags r).d = p.d := rfl

@[simp] theorem Cpu.applyFlags_e (p : Cpu) (r : Result8) : (p.applyFlags r).e = p.e := rfl

@[simp] theorem Cpu.applyFlags_h (p : Cpu) (r : Result8) : (p.applyFlags r).h = p.h := rfl

@[simp] theorem Cpu.applyFlags_l (p : Cpu) (r : Result8) : (p.applyFlags r).l = p.l := rfl

@[simp] theorem Cpu.applyFlags_sp (p : Cpu) (r : Result8) : (p.applyFlags r).sp = p.sp := rfl

@[simp] theorem Cpu.applyFlags_pc (p : Cpu) (r : Result8) : (p.applyFlags r).pc = p.pc := rfl

@[simp] theorem Cpu.applyFlags_ime (p : Cpu) (r : Result8) : (p.applyFlags r).ime = p.ime := rfl

@[simp] theorem Cpu.applyFlags_imePending (p : Cpu) (r : Result8) :
    (p.applyFlags r).imePending = p.imePending := rfl

@[simp] theorem Cpu.applyFlags_halted (p : Cpu) (r : Result8) : (p.applyFlags r).halted = p.halted := rfl

@[simp] theorem Cpu.setFlags_reg (p : Cpu) (z n h c : Option Bool) (r : Reg8) :
    (p.setFlags z n h c).reg r = p.reg r := by
  cases r <;> rfl

@[simp] theorem Cpu.applyFlags_reg (p : Cpu) (r : Result8) (x : Reg8) : (p.applyFlags r).reg x = p.reg x := by
  cases x <;> rfl

/-! ## The flags byte -/

theorem packFlags_low (z n h c : Bool) : packFlags z n h c &&& 0x0F = 0 := by
  cases z <;> cases n <;> cases h <;> cases c <;> rfl

@[simp] theorem Cpu.setFlags_zf (p : Cpu) (z n h c : Option Bool) : (p.setFlags z n h c).zf = z.getD p.zf := by
  simp only [Cpu.zf, Cpu.setFlags]
  generalize Option.getD z _ = z', Option.getD n _ = n', Option.getD h _ = h', Option.getD c _ = c'
  cases z' <;> cases n' <;> cases h' <;> cases c' <;> rfl

@[simp] theorem Cpu.setFlags_nf (p : Cpu) (z n h c : Option Bool) : (p.setFlags z n h c).nf = n.getD p.nf := by
  simp only [Cpu.nf, Cpu.setFlags]
  generalize Option.getD z _ = z', Option.getD n _ = n', Option.getD h _ = h', Option.getD c _ = c'
  cases z' <;> cases n' <;> cases h' <;> cases c' <;> rfl

@[simp] theorem Cpu.setFlags_hf (p : Cpu) (z n h c : Option Bool) : (p.setFlags z n h c).hf = h.getD p.hf := by
  simp only [Cpu.hf, Cpu.setFlags]
  generalize Option.getD z _ = z', Option.getD n _ = n', Option.getD h _ = h', Option.getD c _ = c'
  cases z' <;> cases n' <;> cases h' <;> cases c' <;> rfl

@[simp] theorem Cpu.setFlags_cf (p : Cpu) (z n h c : Option Bool) : (p.setFlags z n h c).cf = c.getD p.cf := by
  simp only [Cpu.cf, Cpu.setFlags]
  generalize Option.getD z _ = z', Option.getD n _ = n', Option.getD h _ = h', Option.getD c _ = c'
  cases z' <;> cases n' <;> cases h' <;> cases c' <;> rfl

/-- A flag update leaves F's low nibble 0. -/
theorem Cpu.setFlags_low (p : Cpu) (z n h c : Option Bool) : (p.setFlags z n h c).f &&& 0x0F = 0 :=
  packFlags_low _ _ _ _

/-- An F byte whose low nibble is 0 is the byte of its four flags. -/
theorem packFlags_of_low (f : Byte) (h : f &&& 0x0F = 0) :
    packFlags (bitOf f 7) (bitOf f 6) (bitOf f 5) (bitOf f 4) = f := by
  revert f; decide

end Sys2Proof.Machine
end

