-- ==== Sys2Proof/Laws/Ops.lean ====
section
/-! SUPPORT. What a CPU cycle can do: the fields it keeps, that it does not see the CPU, and its effect on the memory,
the divider and the DMA engine; the specifications of the bus write, the push and the pop. -/

namespace Sys2Proof.Machine

open Sys2Proof

/-! ## A tick: timer, then PPU -/

@[simp] theorem tick_cpu (s : State) : (tick s).cpu = s.cpu := rfl

@[simp] theorem tick_status (s : State) : (tick s).status = s.status := rfl

@[simp] theorem tick_intEnable (s : State) : (tick s).intEnable = s.intEnable := rfl

@[simp] theorem tick_mem (s : State) : (tick s).mem = s.mem := rfl

@[simp] theorem tick_dma (s : State) : (tick s).dma = s.dma := rfl

@[simp] theorem tick_joySel (s : State) : (tick s).joySel = s.joySel := rfl

@[simp] theorem tick_buttons (s : State) : (tick s).buttons = s.buttons := rfl

@[simp] theorem tick_sb (s : State) : (tick s).sb = s.sb := rfl

@[simp] theorem tick_sc (s : State) : (tick s).sc = s.sc := rfl

@[simp] theorem tick_cart (s : State) : (tick s).cart = s.cart := rfl

@[simp] theorem tick_params (s : State) : (tick s).params = s.params := rfl

@[simp] theorem tick_timer (s : State) : (tick s).timer = s.timer.tick.1 := rfl

/-! ## The DMA tick -/

@[simp] theorem dmaTick_cpu (s : State) : (dmaTick s).cpu = s.cpu := by
  unfold dmaTick; split <;> [rfl; split <;> rfl]

@[simp] theorem dmaTick_status (s : State) : (dmaTick s).status = s.status := by
  unfold dmaTick; split <;> [rfl; split <;> rfl]

@[simp] theorem dmaTick_intFlags (s : State) : (dmaTick s).intFlags = s.intFlags := by
  unfold dmaTick; split <;> [rfl; split <;> rfl]

@[simp] theorem dmaTick_intEnable (s : State) : (dmaTick s).intEnable = s.intEnable := by
  unfold dmaTick; split <;> [rfl; split <;> rfl]

@[simp] theorem dmaTick_timer (s : State) : (dmaTick s).timer = s.timer := by
  unfold dmaTick; split <;> [rfl; split <;> rfl]

@[simp] theorem dmaTick_ppu (s : State) : (dmaTick s).ppu = s.ppu := by
  unfold dmaTick; split <;> [rfl; split <;> rfl]

@[simp] theorem dmaTick_joySel (s : State) : (dmaTick s).joySel = s.joySel := by
  unfold dmaTick; split <;> [rfl; split <;> rfl]

@[simp] theorem dmaTick_buttons (s : State) : (dmaTick s).buttons = s.buttons := by
  unfold dmaTick; split <;> [rfl; split <;> rfl]

@[simp] theorem dmaTick_sb (s : State) : (dmaTick s).sb = s.sb := by
  unfold dmaTick; split <;> [rfl; split <;> rfl]

@[simp] theorem dmaTick_sc (s : State) : (dmaTick s).sc = s.sc := by
  unfold dmaTick; split <;> [rfl; split <;> rfl]

@[simp] theorem dmaTick_cart (s : State) : (dmaTick s).cart = s.cart := by
  unfold dmaTick; split <;> [rfl; split <;> rfl]

@[simp] theorem dmaTick_params (s : State) : (dmaTick s).params = s.params := by
  unfold dmaTick; split <;> [rfl; split <;> rfl]

/-- A DMA tick without a transfer does nothing. -/
theorem dmaTick_idle (s : State) (h : s.dma.active = false) : dmaTick s = s := by simp [dmaTick, h]

/-- A DMA tick changes no key but that of the byte it copies. -/
theorem dmaTick_read (s : State) {k : Nat} (h : k ≠ oamKey s.dma.offset) : (dmaTick s).mem.read k = s.mem.read k := by
  unfold dmaTick
  split
  · rfl
  · split
    · rfl
    · simp [Memory.read_write_other _ _ h]

theorem dmaTick_wf (s : State) (h : s.mem.wf = true) : (dmaTick s).mem.wf = true := by
  unfold dmaTick
  split
  · exact h
  · split
    · exact h
    · exact Memory.wf_write _ _ _ h

/-! ## The CPU cycle -/

@[simp] theorem cycle_cpu (s : State) : (cycle s).cpu = s.cpu := by simp [cycle]

@[simp] theorem cycle_status (s : State) : (cycle s).status = s.status := by simp [cycle]

@[simp] theorem cycle_intEnable (s : State) : (cycle s).intEnable = s.intEnable := by simp [cycle]

@[simp] theorem cycle_joySel (s : State) : (cycle s).joySel = s.joySel := by simp [cycle]

@[simp] theorem cycle_buttons (s : State) : (cycle s).buttons = s.buttons := by simp [cycle]

@[simp] theorem cycle_sb (s : State) : (cycle s).sb = s.sb := by simp [cycle]

@[simp] theorem cycle_sc (s : State) : (cycle s).sc = s.sc := by simp [cycle]

@[simp] theorem cycle_cart (s : State) : (cycle s).cart = s.cart := by simp [cycle]

@[simp] theorem cycle_params (s : State) : (cycle s).params = s.params := by simp [cycle]

@[simp] theorem cycle_dma (s : State) : (cycle s).dma = (dmaTick s).dma := by
  cases ha : s.dma.active <;> by_cases hd : 0 < s.dma.delay <;> simp [cycle, dmaTick, ha, hd]
  exact decide_not

/-- A cycle without a transfer keeps the memory. -/
theorem cycle_mem_idle (s : State) (h : s.dma.active = false) : (cycle s).mem = s.mem := by
  simp [cycle, dmaTick, h]

/-- A cycle changes no key but that of the byte the DMA engine copies. -/
theorem cycle_read (s : State) {k : Nat} (h : k ≠ oamKey s.dma.offset) : (cycle s).mem.read k = s.mem.read k := by
  rw [cycle, dmaTick_read _ (by simpa using h)]; rfl

theorem cycle_wf (s : State) (h : s.mem.wf = true) : (cycle s).mem.wf = true := dmaTick_wf _ h

/-- A cycle does not start a transfer. -/
theorem cycle_dma_idle (s : State) (h : s.dma.active = false) : (cycle s).dma = s.dma := by
  simp [dmaTick, h]

@[simp] theorem timerTick_div (t : Timer) : t.tick.1.div = t.div + 1 := by
  simp only [Timer.tick]
  split
  · simp only [Timer.increment]
    split <;> rfl
  · rfl

@[simp] theorem timerTick_tma (t : Timer) : t.tick.1.tma = t.tma := by
  simp only [Timer.tick]
  split
  · simp only [Timer.increment]
    split <;> rfl
  · rfl

@[simp] theorem timerTick_tac (t : Timer) : t.tick.1.tac = t.tac := by
  simp only [Timer.tick]
  split
  · simp only [Timer.increment]
    split <;> rfl
  · rfl

/-- The divider advances by four a cycle (spec/60_exceptions.md R422). -/
@[simp] theorem cycle_div (s : State) : (cycle s).timer.div = s.timer.div + 4 := by
  simp only [cycle, dmaTick_timer, tick_timer, timerTick_div]
  bv_omega

@[simp] theorem cycle_tma (s : State) : (cycle s).timer.tma = s.timer.tma := by simp [cycle]

@[simp] theorem cycle_tac (s : State) : (cycle s).timer.tac = s.timer.tac := by simp [cycle]

/-! ## A cycle does not see the CPU -/

@[simp] theorem busRead_updCpu (s : State) (g : Cpu → Cpu) (a : Word) : busRead (s.updCpu g) a = busRead s a := rfl

theorem tick_updCpu (s : State) (g : Cpu → Cpu) : tick (s.updCpu g) = (tick s).updCpu g := rfl

theorem dmaTick_updCpu (s : State) (g : Cpu → Cpu) : dmaTick (s.updCpu g) = (dmaTick s).updCpu g := by
  cases ha : s.dma.active <;> by_cases hd : 0 < s.dma.delay <;> simp [dmaTick, ha, hd] <;> rfl

theorem busWrite_updCpu (s : State) (g : Cpu → Cpu) (a : Word) (v : Byte) :
    busWrite (s.updCpu g) a v = (busWrite s a v).updCpu g := by
  unfold busWrite
  cases regionOf a with
  | oam => cases ha : s.dma.active <;> simp [ha] <;> rfl
  | io => simp only; split <;> [(rename_i r _; cases r <;> rfl); rfl]
  | _ => rfl

theorem cycle_updCpu (s : State) (g : Cpu → Cpu) : cycle (s.updCpu g) = (cycle s).updCpu g := by
  simp only [cycle, tick_updCpu, dmaTick_updCpu]

theorem writeCycle_updCpu (s : State) (g : Cpu → Cpu) (a : Word) (v : Byte) :
    writeCycle (s.updCpu g) a v = (writeCycle s a v).updCpu g := by
  rw [writeCycle, busWrite_updCpu, cycle_updCpu, writeCycle]

/-! ## Several cycles -/

@[simp] theorem cycles_zero (s : State) : cycles 0 s = s := rfl

theorem cycles_succ (n : Nat) (s : State) : cycles (n + 1) s = cycles n (cycle s) := rfl

theorem cycles_succ' (n : Nat) (s : State) : cycles (n + 1) s = cycle (cycles n s) := by
  induction n generalizing s with
  | zero => rfl
  | succ n ih => rw [cycles_succ, ih, cycles_succ]

theorem cycles_add (m n : Nat) (s : State) : cycles (m + n) s = cycles n (cycles m s) := by
  induction m generalizing s with
  | zero => simp
  | succ m ih => rw [Nat.succ_add, cycles_succ, ih, cycles_succ]

@[simp] theorem cycles_cpu (n : Nat) (s : State) : (cycles n s).cpu = s.cpu := by
  induction n generalizing s with
  | zero => rfl
  | succ n ih => simp [cycles, ih]

@[simp] theorem cycles_status (n : Nat) (s : State) : (cycles n s).status = s.status := by
  induction n generalizing s with
  | zero => rfl
  | succ n ih => simp [cycles, ih]

@[simp] theorem cycles_intEnable (n : Nat) (s : State) : (cycles n s).intEnable = s.intEnable := by
  induction n generalizing s with
  | zero => rfl
  | succ n ih => simp [cycles, ih]

@[simp] theorem cycles_joySel (n : Nat) (s : State) : (cycles n s).joySel = s.joySel := by
  induction n generalizing s with
  | zero => rfl
  | succ n ih => simp [cycles, ih]

@[simp] theorem cycles_buttons (n : Nat) (s : State) : (cycles n s).buttons = s.buttons := by
  induction n generalizing s with
  | zero => rfl
  | succ n ih => simp [cycles, ih]

@[simp] theorem cycles_sb (n : Nat) (s : State) : (cycles n s).sb = s.sb := by
  induction n generalizing s with
  | zero => rfl
  | succ n ih => simp [cycles, ih]

@[simp] theorem cycles_sc (n : Nat) (s : State) : (cycles n s).sc = s.sc := by
  induction n generalizing s with
  | zero => rfl
  | succ n ih => simp [cycles, ih]

@[simp] theorem cycles_cart (n : Nat) (s : State) : (cycles n s).cart = s.cart := by
  induction n generalizing s with
  | zero => rfl
  | succ n ih => simp [cycles, ih]

@[simp] theorem cycles_params (n : Nat) (s : State) : (cycles n s).params = s.params := by
  induction n generalizing s with
  | zero => rfl
  | succ n ih => simp [cycles, ih]

theorem cycles_updCpu (n : Nat) (s : State) (g : Cpu → Cpu) : cycles n (s.updCpu g) = (cycles n s).updCpu g := by
  induction n generalizing s with
  | zero => rfl
  | succ n ih => rw [cycles_succ, cycle_updCpu, ih, cycles_succ]

theorem cycles_dma_idle (n : Nat) (s : State) (h : s.dma.active = false) :
    (cycles n s).dma = s.dma ∧ (cycles n s).mem = s.mem := by
  induction n generalizing s with
  | zero => exact ⟨rfl, rfl⟩
  | succ n ih =>
    have hd := cycle_dma_idle s h
    have := ih (cycle s) (by rw [hd]; exact h)
    rw [cycles_succ]
    exact ⟨this.1.trans hd, this.2.trans (cycle_mem_idle s h)⟩

theorem cycles_wf (n : Nat) (s : State) (h : s.mem.wf = true) : (cycles n s).mem.wf = true := by
  induction n generalizing s with
  | zero => exact h
  | succ n ih => exact ih _ (cycle_wf s h)

/-- The keys of OAM (spec/10_state.md R32). -/
def inOam (k : Nat) : Prop := 0xFE00 ≤ k ∧ k < 0xFEA0

/-- A DMA engine whose offset is in range copies into OAM only. -/
theorem cycle_read_outside_oam (s : State) {k : Nat} (hd : s.dma.active = true → s.dma.offset < 160)
    (hk : ¬ inOam k) : (cycle s).mem.read k = s.mem.read k := by
  cases ha : s.dma.active with
  | false => rw [cycle_mem_idle s ha]
  | true =>
    have := hd ha
    exact cycle_read s (by simp only [oamKey]; simp only [inOam] at hk; omega)

/-! ## Fields a bus write keeps -/

@[simp] theorem busWrite_cpu (s : State) (a : Word) (v : Byte) : (busWrite s a v).cpu = s.cpu := by
  unfold busWrite
  cases regionOf a with
  | oam => simp only; split <;> rfl
  | io => simp only; split <;> [(rename_i r _; cases r <;> rfl); rfl]
  | _ => rfl

@[simp] theorem writeCycle_cpu (s : State) (a : Word) (v : Byte) : (writeCycle s a v).cpu = s.cpu := by
  simp [writeCycle]

@[simp] theorem busWrite_status (s : State) (a : Word) (v : Byte) : (busWrite s a v).status = s.status := by
  unfold busWrite
  cases regionOf a with
  | oam => simp only; split <;> rfl
  | io => simp only; split <;> [(rename_i r _; cases r <;> rfl); rfl]
  | _ => rfl

@[simp] theorem writeCycle_status (s : State) (a : Word) (v : Byte) : (writeCycle s a v).status = s.status := by
  simp [writeCycle]

@[simp] theorem busWrite_params (s : State) (a : Word) (v : Byte) : (busWrite s a v).params = s.params := by
  unfold busWrite
  cases regionOf a with
  | oam => simp only; split <;> rfl
  | io => simp only; split <;> [(rename_i r _; cases r <;> rfl); rfl]
  | _ => rfl

@[simp] theorem writeCycle_params (s : State) (a : Word) (v : Byte) : (writeCycle s a v).params = s.params := by
  simp [writeCycle]

/-! ## A bus write to plain memory -/

/-- A write to VRAM, WRAM or HRAM writes that key of the memory and nothing else. -/
theorem busWrite_ram (s : State) (a : Word) (v : Byte) (h : (regionOf a).isRam = true) :
    busWrite s a v = { s with mem := s.mem.write a.toNat v } := by
  unfold busWrite
  cases hr : regionOf a <;> simp_all [Region.isRam]

/-- A read of VRAM, WRAM or HRAM reads that key of the memory. -/
theorem busRead_ram (s : State) (a : Word) (h : (regionOf a).isRam = true) : busRead s a = s.mem.read a.toNat := by
  unfold busRead
  cases hr : regionOf a <;> simp_all [Region.isRam]

/-- What is written to VRAM, WRAM or HRAM is read back. -/
theorem busRead_busWrite_ram (s : State) (a : Word) (v : Byte) (h : (regionOf a).isRam = true) :
    busRead (busWrite s a v) a = v := by
  rw [busRead_ram _ _ h, busWrite_ram _ _ _ h]; simp

/-! ## The stack -/

theorem State.sp_addSp (s : State) (n : Word) : (s.addSp n).cpu.sp = s.cpu.sp + n := rfl

theorem cycle_addSp (s : State) (n : Word) : cycle (s.addSp n) = (cycle s).addSp n := cycle_updCpu _ _

theorem writeCycle_addSp (s : State) (n a : Word) (v : Byte) :
    writeCycle (s.addSp n) a v = (writeCycle s a v).addSp n := writeCycle_updCpu _ _ _ _

theorem State.addSp_addSp (s : State) (m n : Word) : (s.addSp m).addSp n = s.addSp (m + n) := by
  simp only [State.addSp, State.updCpu_updCpu]
  exact State.updCpu_congr _ (by simp only [BitVec.add_assoc])

/-- A push: the high byte at SP - 1, the low byte at SP - 2, three cycles, the first without an access
(spec/40_load.md R222). -/
theorem pushWord_eq (s : State) (v : Word) :
    pushWord s v = (writeCycle (writeCycle (cycle s) (s.cpu.sp - 1) (hiByte v)) (s.cpu.sp - 2) (loByte v)).updCpu
      (fun p => { p with sp := s.cpu.sp - 2 }) := by
  have h1 (x : Word) : x + 0xFFFF = x - 1 := by bv_omega
  have h2 (x : Word) : x - 1 - 1 = x - 2 := by bv_omega
  have e : pushWord s v =
      (writeCycle (writeCycle (cycle s) (s.cpu.sp - 1) (hiByte v)) (s.cpu.sp - 2) (loByte v)).addSp
        (0xFFFF + 0xFFFF) := by
    show writeCycle ((writeCycle (cycle (s.addSp 0xFFFF)) (cycle (s.addSp 0xFFFF)).cpu.sp (hiByte v)).addSp 0xFFFF)
      ((writeCycle (cycle (s.addSp 0xFFFF)) (cycle (s.addSp 0xFFFF)).cpu.sp (hiByte v)).addSp 0xFFFF).cpu.sp
      (loByte v) = _
    rw [cycle_addSp, writeCycle_addSp, writeCycle_addSp, writeCycle_addSp, State.addSp_addSp]
    rw [State.sp_addSp, State.sp_addSp, State.sp_addSp, writeCycle_cpu, cycle_cpu, h1, h1, h2]
  rw [e, State.addSp]
  apply State.updCpu_congr
  rw [writeCycle_cpu, writeCycle_cpu, cycle_cpu]
  rw [← BitVec.add_assoc, h1, h1, h2]

/-- A pop: the low byte at SP, the high byte at SP + 1 a cycle later, two cycles (spec/40_load.md R223). -/
theorem popWord_eq (s : State) :
    popWord s = (mk16 (busRead (cycle s) (s.cpu.sp + 1)) (busRead s s.cpu.sp),
      (cycle (cycle s)).updCpu (fun p => { p with sp := s.cpu.sp + 2 })) := by
  have h2 : s.cpu.sp + 1 + 1 = s.cpu.sp + 2 := by bv_omega
  simp only [popWord, readCycle, State.addSp, cycle_updCpu, State.updCpu_updCpu, State.updCpu_cpu, cycle_cpu,
    busRead_updCpu]
  rw [State.updCpu_congr (h := fun p => { p with sp := s.cpu.sp + 2 })]
  rw [cycle_cpu, cycle_cpu, h2]

/-! ## Instruction fetch -/

theorem fetchByte_after (n : Nat) (s : State) : (fetchByte (afterFetch n s)).2 = afterFetch (n + 1) s := by
  have h : s.cpu.pc + BitVec.ofNat 16 n + BitVec.ofNat 16 1 = s.cpu.pc + BitVec.ofNat 16 (n + 1) := by
    rw [BitVec.add_assoc, ← BitVec.ofNat_add]
  simp only [fetchByte, afterFetch, State.advancePc, cycles_updCpu, cycle_updCpu, cycles_succ', State.updCpu_updCpu]
  exact State.updCpu_congr _ (by simp only [cycle_cpu, cycles_cpu, h])

theorem fetchByte_value (n : Nat) (s : State) :
    (fetchByte (afterFetch n s)).1 = busRead (cycles n s) (s.cpu.pc + BitVec.ofNat 16 n) := by
  simp [fetchByte, afterFetch, State.advancePc, cycles_updCpu]

/-- The state after an instruction's fetch lines is that of as many cycles as its first byte asks for. -/
theorem fetchInstr_after (s : State) :
    (fetchInstr s).after = afterFetch (max 1 (min 3 (instrLength (busRead s s.cpu.pc)))) s := by
  have h0 : afterFetch 0 s = s := by simp [afterFetch, State.advancePc, State.updCpu]
  have hop : (fetchByte s).1 = busRead s s.cpu.pc := rfl
  have f1 : (fetchByte s).2 = afterFetch 1 s := by
    have := fetchByte_after 0 s; rwa [h0] at this
  have f2 : (fetchByte (fetchByte s).2).2 = afterFetch 2 s := by rw [f1]; exact fetchByte_after 1 s
  have f3 : (fetchByte (fetchByte (fetchByte s).2).2).2 = afterFetch 3 s := by rw [f2]; exact fetchByte_after 2 s
  have hl : instrLength (busRead s s.cpu.pc) = 1 ∨ instrLength (busRead s s.cpu.pc) = 2 ∨
      instrLength (busRead s s.cpu.pc) = 3 := by
    unfold instrLength; split <;> [simp; split <;> simp]
  rw [← hop] at hl ⊢
  unfold fetchInstr
  rcases hl with h | h | h <;> simp only [h] <;> assumption

end Sys2Proof.Machine
end

