-- ==== Sys2Proof/Laws/PerInstr.lean ====
section
/-! SUPPORT. The family `Encoding` of LAWS.json, one lemma for each constructor of Instr: the bytes of a well-formed
instruction are as many as their first byte says, and they read back as the instruction. -/

namespace Sys2Proof.Laws

/-- An instruction's word is the bytes of the two halves. -/
theorem mk16_halves (v : Word) : mk16 (hiByte v) (loByte v) = v := by
  apply BitVec.eq_of_getLsbD_eq
  intro i hi
  simp only [mk16, hiByte, loByte, BitVec.getLsbD_append, BitVec.getLsbD_extractLsb']
  by_cases h : i < 8
  · simp [h]
  · have h1 : i - 8 < 8 := by omega
    have h2 : 8 + (i - 8) = i := by omega
    simp [h, h1, h2]

namespace Encoding

/-- The bytes of a well-formed instruction have the length their first byte gives and read back as the instruction. -/
def Statement (i : Instr) : Prop :=
  i.wellFormed = true →
    (encode i).length = instrLength ((encode i).getD 0 0) ∧
    decodeBytes ((encode i).getD 0 0) ((encode i).getD 1 0) ((encode i).getD 2 0) = i

theorem nop : Statement .nop := fun _ => ⟨rfl, rfl⟩

theorem ldBCImm (nn : Word) : Statement (.ldBCImm nn) := fun _ =>
  ⟨rfl, show decodeBytes 0x01 (loByte nn) (hiByte nn) = _ by simp [decodeBytes, decodeBase, baseRow0, mk16_halves]⟩

theorem ldAtBCA : Statement .ldAtBCA := fun _ => ⟨rfl, rfl⟩

theorem incBC : Statement .incBC := fun _ => ⟨rfl, rfl⟩

theorem incB : Statement .incB := fun _ => ⟨rfl, rfl⟩

theorem decB : Statement .decB := fun _ => ⟨rfl, rfl⟩

theorem ldBImm (n : Byte) : Statement (.ldBImm n) := fun _ =>
  ⟨rfl, show decodeBytes 0x06 n 0 = _ by simp [decodeBytes, decodeBase, baseRow0]⟩

theorem rlca : Statement .rlca := fun _ => ⟨rfl, rfl⟩

theorem ldAt16SP (nn : Word) : Statement (.ldAt16SP nn) := fun _ =>
  ⟨rfl, show decodeBytes 0x08 (loByte nn) (hiByte nn) = _ by simp [decodeBytes, decodeBase, baseRow0, mk16_halves]⟩

theorem addHLBC : Statement .addHLBC := fun _ => ⟨rfl, rfl⟩

theorem ldAAtBC : Statement .ldAAtBC := fun _ => ⟨rfl, rfl⟩

theorem decBC : Statement .decBC := fun _ => ⟨rfl, rfl⟩

theorem incC : Statement .incC := fun _ => ⟨rfl, rfl⟩

theorem decC : Statement .decC := fun _ => ⟨rfl, rfl⟩

theorem ldCImm (n : Byte) : Statement (.ldCImm n) := fun _ =>
  ⟨rfl, show decodeBytes 0x0E n 0 = _ by simp [decodeBytes, decodeBase, baseRow0]⟩

theorem rrca : Statement .rrca := fun _ => ⟨rfl, rfl⟩

theorem stop : Statement .stop := fun _ => ⟨rfl, rfl⟩

theorem ldDEImm (nn : Word) : Statement (.ldDEImm nn) := fun _ =>
  ⟨rfl, show decodeBytes 0x11 (loByte nn) (hiByte nn) = _ by simp [decodeBytes, decodeBase, baseRow1, mk16_halves]⟩

theorem ldAtDEA : Statement .ldAtDEA := fun _ => ⟨rfl, rfl⟩

theorem incDE : Statement .incDE := fun _ => ⟨rfl, rfl⟩

theorem incD : Statement .incD := fun _ => ⟨rfl, rfl⟩

theorem decD : Statement .decD := fun _ => ⟨rfl, rfl⟩

theorem ldDImm (n : Byte) : Statement (.ldDImm n) := fun _ =>
  ⟨rfl, show decodeBytes 0x16 n 0 = _ by simp [decodeBytes, decodeBase, baseRow1]⟩

theorem rla : Statement .rla := fun _ => ⟨rfl, rfl⟩

theorem jr (e : Byte) : Statement (.jr e) := fun _ =>
  ⟨rfl, show decodeBytes 0x18 e 0 = _ by simp [decodeBytes, decodeBase, baseRow1]⟩

theorem addHLDE : Statement .addHLDE := fun _ => ⟨rfl, rfl⟩

theorem ldAAtDE : Statement .ldAAtDE := fun _ => ⟨rfl, rfl⟩

theorem decDE : Statement .decDE := fun _ => ⟨rfl, rfl⟩

theorem incE : Statement .incE := fun _ => ⟨rfl, rfl⟩

theorem decE : Statement .decE := fun _ => ⟨rfl, rfl⟩

theorem ldEImm (n : Byte) : Statement (.ldEImm n) := fun _ =>
  ⟨rfl, show decodeBytes 0x1E n 0 = _ by simp [decodeBytes, decodeBase, baseRow1]⟩

theorem rra : Statement .rra := fun _ => ⟨rfl, rfl⟩

theorem jrNZ (e : Byte) : Statement (.jrNZ e) := fun _ =>
  ⟨rfl, show decodeBytes 0x20 e 0 = _ by simp [decodeBytes, decodeBase, baseRow2]⟩

theorem ldHLImm (nn : Word) : Statement (.ldHLImm nn) := fun _ =>
  ⟨rfl, show decodeBytes 0x21 (loByte nn) (hiByte nn) = _ by simp [decodeBytes, decodeBase, baseRow2, mk16_halves]⟩

theorem ldAtHLIncA : Statement .ldAtHLIncA := fun _ => ⟨rfl, rfl⟩

theorem incHL : Statement .incHL := fun _ => ⟨rfl, rfl⟩

theorem incH : Statement .incH := fun _ => ⟨rfl, rfl⟩

theorem decH : Statement .decH := fun _ => ⟨rfl, rfl⟩

theorem ldHImm (n : Byte) : Statement (.ldHImm n) := fun _ =>
  ⟨rfl, show decodeBytes 0x26 n 0 = _ by simp [decodeBytes, decodeBase, baseRow2]⟩

theorem daa : Statement .daa := fun _ => ⟨rfl, rfl⟩

theorem jrZ (e : Byte) : Statement (.jrZ e) := fun _ =>
  ⟨rfl, show decodeBytes 0x28 e 0 = _ by simp [decodeBytes, decodeBase, baseRow2]⟩

theorem addHLHL : Statement .addHLHL := fun _ => ⟨rfl, rfl⟩

theorem ldAAtHLInc : Statement .ldAAtHLInc := fun _ => ⟨rfl, rfl⟩

theorem decHL : Statement .decHL := fun _ => ⟨rfl, rfl⟩

theorem incL : Statement .incL := fun _ => ⟨rfl, rfl⟩

theorem decL : Statement .decL := fun _ => ⟨rfl, rfl⟩

theorem ldLImm (n : Byte) : Statement (.ldLImm n) := fun _ =>
  ⟨rfl, show decodeBytes 0x2E n 0 = _ by simp [decodeBytes, decodeBase, baseRow2]⟩

theorem cpl : Statement .cpl := fun _ => ⟨rfl, rfl⟩

theorem jrNC (e : Byte) : Statement (.jrNC e) := fun _ =>
  ⟨rfl, show decodeBytes 0x30 e 0 = _ by simp [decodeBytes, decodeBase, baseRow3]⟩

theorem ldSPImm (nn : Word) : Statement (.ldSPImm nn) := fun _ =>
  ⟨rfl, show decodeBytes 0x31 (loByte nn) (hiByte nn) = _ by simp [decodeBytes, decodeBase, baseRow3, mk16_halves]⟩

theorem ldAtHLDecA : Statement .ldAtHLDecA := fun _ => ⟨rfl, rfl⟩

theorem incSP : Statement .incSP := fun _ => ⟨rfl, rfl⟩

theorem incAtHL : Statement .incAtHL := fun _ => ⟨rfl, rfl⟩

theorem decAtHL : Statement .decAtHL := fun _ => ⟨rfl, rfl⟩

theorem ldAtHLImm (n : Byte) : Statement (.ldAtHLImm n) := fun _ =>
  ⟨rfl, show decodeBytes 0x36 n 0 = _ by simp [decodeBytes, decodeBase, baseRow3]⟩

theorem scf : Statement .scf := fun _ => ⟨rfl, rfl⟩

theorem jrC (e : Byte) : Statement (.jrC e) := fun _ =>
  ⟨rfl, show decodeBytes 0x38 e 0 = _ by simp [decodeBytes, decodeBase, baseRow3]⟩

theorem addHLSP : Statement .addHLSP := fun _ => ⟨rfl, rfl⟩

theorem ldAAtHLDec : Statement .ldAAtHLDec := fun _ => ⟨rfl, rfl⟩

theorem decSP : Statement .decSP := fun _ => ⟨rfl, rfl⟩

theorem incA : Statement .incA := fun _ => ⟨rfl, rfl⟩

theorem decA : Statement .decA := fun _ => ⟨rfl, rfl⟩

theorem ldAImm (n : Byte) : Statement (.ldAImm n) := fun _ =>
  ⟨rfl, show decodeBytes 0x3E n 0 = _ by simp [decodeBytes, decodeBase, baseRow3]⟩

theorem ccf : Statement .ccf := fun _ => ⟨rfl, rfl⟩

theorem ldBB : Statement .ldBB := fun _ => ⟨rfl, rfl⟩

theorem ldBC : Statement .ldBC := fun _ => ⟨rfl, rfl⟩

theorem ldBD : Statement .ldBD := fun _ => ⟨rfl, rfl⟩

theorem ldBE : Statement .ldBE := fun _ => ⟨rfl, rfl⟩

theorem ldBH : Statement .ldBH := fun _ => ⟨rfl, rfl⟩

theorem ldBL : Statement .ldBL := fun _ => ⟨rfl, rfl⟩

theorem ldBAtHL : Statement .ldBAtHL := fun _ => ⟨rfl, rfl⟩

theorem ldBA : Statement .ldBA := fun _ => ⟨rfl, rfl⟩

theorem ldCB : Statement .ldCB := fun _ => ⟨rfl, rfl⟩

theorem ldCC : Statement .ldCC := fun _ => ⟨rfl, rfl⟩

theorem ldCD : Statement .ldCD := fun _ => ⟨rfl, rfl⟩

theorem ldCE : Statement .ldCE := fun _ => ⟨rfl, rfl⟩

theorem ldCH : Statement .ldCH := fun _ => ⟨rfl, rfl⟩

theorem ldCL : Statement .ldCL := fun _ => ⟨rfl, rfl⟩

theorem ldCAtHL : Statement .ldCAtHL := fun _ => ⟨rfl, rfl⟩

theorem ldCA : Statement .ldCA := fun _ => ⟨rfl, rfl⟩

theorem ldDB : Statement .ldDB := fun _ => ⟨rfl, rfl⟩

theorem ldDC : Statement .ldDC := fun _ => ⟨rfl, rfl⟩

theorem ldDD : Statement .ldDD := fun _ => ⟨rfl, rfl⟩

theorem ldDE : Statement .ldDE := fun _ => ⟨rfl, rfl⟩

theorem ldDH : Statement .ldDH := fun _ => ⟨rfl, rfl⟩

theorem ldDL : Statement .ldDL := fun _ => ⟨rfl, rfl⟩

theorem ldDAtHL : Statement .ldDAtHL := fun _ => ⟨rfl, rfl⟩

theorem ldDA : Statement .ldDA := fun _ => ⟨rfl, rfl⟩

theorem ldEB : Statement .ldEB := fun _ => ⟨rfl, rfl⟩

theorem ldEC : Statement .ldEC := fun _ => ⟨rfl, rfl⟩

theorem ldED : Statement .ldED := fun _ => ⟨rfl, rfl⟩

theorem ldEE : Statement .ldEE := fun _ => ⟨rfl, rfl⟩

theorem ldEH : Statement .ldEH := fun _ => ⟨rfl, rfl⟩

theorem ldEL : Statement .ldEL := fun _ => ⟨rfl, rfl⟩

theorem ldEAtHL : Statement .ldEAtHL := fun _ => ⟨rfl, rfl⟩

theorem ldEA : Statement .ldEA := fun _ => ⟨rfl, rfl⟩

theorem ldHB : Statement .ldHB := fun _ => ⟨rfl, rfl⟩

theorem ldHC : Statement .ldHC := fun _ => ⟨rfl, rfl⟩

theorem ldHD : Statement .ldHD := fun _ => ⟨rfl, rfl⟩

theorem ldHE : Statement .ldHE := fun _ => ⟨rfl, rfl⟩

theorem ldHH : Statement .ldHH := fun _ => ⟨rfl, rfl⟩

theorem ldHL : Statement .ldHL := fun _ => ⟨rfl, rfl⟩

theorem ldHAtHL : Statement .ldHAtHL := fun _ => ⟨rfl, rfl⟩

theorem ldHA : Statement .ldHA := fun _ => ⟨rfl, rfl⟩

theorem ldLB : Statement .ldLB := fun _ => ⟨rfl, rfl⟩

theorem ldLC : Statement .ldLC := fun _ => ⟨rfl, rfl⟩

theorem ldLD : Statement .ldLD := fun _ => ⟨rfl, rfl⟩

theorem ldLE : Statement .ldLE := fun _ => ⟨rfl, rfl⟩

theorem ldLH : Statement .ldLH := fun _ => ⟨rfl, rfl⟩

theorem ldLL : Statement .ldLL := fun _ => ⟨rfl, rfl⟩

theorem ldLAtHL : Statement .ldLAtHL := fun _ => ⟨rfl, rfl⟩

theorem ldLA : Statement .ldLA := fun _ => ⟨rfl, rfl⟩

theorem ldAtHLB : Statement .ldAtHLB := fun _ => ⟨rfl, rfl⟩

theorem ldAtHLC : Statement .ldAtHLC := fun _ => ⟨rfl, rfl⟩

theorem ldAtHLD : Statement .ldAtHLD := fun _ => ⟨rfl, rfl⟩

theorem ldAtHLE : Statement .ldAtHLE := fun _ => ⟨rfl, rfl⟩

theorem ldAtHLH : Statement .ldAtHLH := fun _ => ⟨rfl, rfl⟩

theorem ldAtHLL : Statement .ldAtHLL := fun _ => ⟨rfl, rfl⟩

theorem halt : Statement .halt := fun _ => ⟨rfl, rfl⟩

theorem ldAtHLA : Statement .ldAtHLA := fun _ => ⟨rfl, rfl⟩

theorem ldAB : Statement .ldAB := fun _ => ⟨rfl, rfl⟩

theorem ldAC : Statement .ldAC := fun _ => ⟨rfl, rfl⟩

theorem ldAD : Statement .ldAD := fun _ => ⟨rfl, rfl⟩

theorem ldAE : Statement .ldAE := fun _ => ⟨rfl, rfl⟩

theorem ldAH : Statement .ldAH := fun _ => ⟨rfl, rfl⟩

theorem ldAL : Statement .ldAL := fun _ => ⟨rfl, rfl⟩

theorem ldAAtHL : Statement .ldAAtHL := fun _ => ⟨rfl, rfl⟩

theorem ldAA : Statement .ldAA := fun _ => ⟨rfl, rfl⟩

theorem addAB : Statement .addAB := fun _ => ⟨rfl, rfl⟩

theorem addAC : Statement .addAC := fun _ => ⟨rfl, rfl⟩

theorem addAD : Statement .addAD := fun _ => ⟨rfl, rfl⟩

theorem addAE : Statement .addAE := fun _ => ⟨rfl, rfl⟩

theorem addAH : Statement .addAH := fun _ => ⟨rfl, rfl⟩

theorem addAL : Statement .addAL := fun _ => ⟨rfl, rfl⟩

theorem addAAtHL : Statement .addAAtHL := fun _ => ⟨rfl, rfl⟩

theorem addAA : Statement .addAA := fun _ => ⟨rfl, rfl⟩

theorem adcAB : Statement .adcAB := fun _ => ⟨rfl, rfl⟩

theorem adcAC : Statement .adcAC := fun _ => ⟨rfl, rfl⟩

theorem adcAD : Statement .adcAD := fun _ => ⟨rfl, rfl⟩

theorem adcAE : Statement .adcAE := fun _ => ⟨rfl, rfl⟩

theorem adcAH : Statement .adcAH := fun _ => ⟨rfl, rfl⟩

theorem adcAL : Statement .adcAL := fun _ => ⟨rfl, rfl⟩

theorem adcAAtHL : Statement .adcAAtHL := fun _ => ⟨rfl, rfl⟩

theorem adcAA : Statement .adcAA := fun _ => ⟨rfl, rfl⟩

theorem subB : Statement .subB := fun _ => ⟨rfl, rfl⟩

theorem subC : Statement .subC := fun _ => ⟨rfl, rfl⟩

theorem subD : Statement .subD := fun _ => ⟨rfl, rfl⟩

theorem subE : Statement .subE := fun _ => ⟨rfl, rfl⟩

theorem subH : Statement .subH := fun _ => ⟨rfl, rfl⟩

theorem subL : Statement .subL := fun _ => ⟨rfl, rfl⟩

theorem subAtHL : Statement .subAtHL := fun _ => ⟨rfl, rfl⟩

theorem subA : Statement .subA := fun _ => ⟨rfl, rfl⟩

theorem sbcAB : Statement .sbcAB := fun _ => ⟨rfl, rfl⟩

theorem sbcAC : Statement .sbcAC := fun _ => ⟨rfl, rfl⟩

theorem sbcAD : Statement .sbcAD := fun _ => ⟨rfl, rfl⟩

theorem sbcAE : Statement .sbcAE := fun _ => ⟨rfl, rfl⟩

theorem sbcAH : Statement .sbcAH := fun _ => ⟨rfl, rfl⟩

theorem sbcAL : Statement .sbcAL := fun _ => ⟨rfl, rfl⟩

theorem sbcAAtHL : Statement .sbcAAtHL := fun _ => ⟨rfl, rfl⟩

theorem sbcAA : Statement .sbcAA := fun _ => ⟨rfl, rfl⟩

theorem andB : Statement .andB := fun _ => ⟨rfl, rfl⟩

theorem andC : Statement .andC := fun _ => ⟨rfl, rfl⟩

theorem andD : Statement .andD := fun _ => ⟨rfl, rfl⟩

theorem andE : Statement .andE := fun _ => ⟨rfl, rfl⟩

theorem andH : Statement .andH := fun _ => ⟨rfl, rfl⟩

theorem andL : Statement .andL := fun _ => ⟨rfl, rfl⟩

theorem andAtHL : Statement .andAtHL := fun _ => ⟨rfl, rfl⟩

theorem andA : Statement .andA := fun _ => ⟨rfl, rfl⟩

theorem xorB : Statement .xorB := fun _ => ⟨rfl, rfl⟩

theorem xorC : Statement .xorC := fun _ => ⟨rfl, rfl⟩

theorem xorD : Statement .xorD := fun _ => ⟨rfl, rfl⟩

theorem xorE : Statement .xorE := fun _ => ⟨rfl, rfl⟩

theorem xorH : Statement .xorH := fun _ => ⟨rfl, rfl⟩

theorem xorL : Statement .xorL := fun _ => ⟨rfl, rfl⟩

theorem xorAtHL : Statement .xorAtHL := fun _ => ⟨rfl, rfl⟩

theorem xorA : Statement .xorA := fun _ => ⟨rfl, rfl⟩

theorem orB : Statement .orB := fun _ => ⟨rfl, rfl⟩

theorem orC : Statement .orC := fun _ => ⟨rfl, rfl⟩

theorem orD : Statement .orD := fun _ => ⟨rfl, rfl⟩

theorem orE : Statement .orE := fun _ => ⟨rfl, rfl⟩

theorem orH : Statement .orH := fun _ => ⟨rfl, rfl⟩

theorem orL : Statement .orL := fun _ => ⟨rfl, rfl⟩

theorem orAtHL : Statement .orAtHL := fun _ => ⟨rfl, rfl⟩

theorem orA : Statement .orA := fun _ => ⟨rfl, rfl⟩

theorem cpB : Statement .cpB := fun _ => ⟨rfl, rfl⟩

theorem cpC : Statement .cpC := fun _ => ⟨rfl, rfl⟩

theorem cpD : Statement .cpD := fun _ => ⟨rfl, rfl⟩

theorem cpE : Statement .cpE := fun _ => ⟨rfl, rfl⟩

theorem cpH : Statement .cpH := fun _ => ⟨rfl, rfl⟩

theorem cpL : Statement .cpL := fun _ => ⟨rfl, rfl⟩

theorem cpAtHL : Statement .cpAtHL := fun _ => ⟨rfl, rfl⟩

theorem cpA : Statement .cpA := fun _ => ⟨rfl, rfl⟩

theorem retNZ : Statement .retNZ := fun _ => ⟨rfl, rfl⟩

theorem popBC : Statement .popBC := fun _ => ⟨rfl, rfl⟩

theorem jpNZ (nn : Word) : Statement (.jpNZ nn) := fun _ =>
  ⟨rfl, show decodeBytes 0xC2 (loByte nn) (hiByte nn) = _ by simp [decodeBytes, decodeBase, baseRowC, mk16_halves]⟩

theorem jp (nn : Word) : Statement (.jp nn) := fun _ =>
  ⟨rfl, show decodeBytes 0xC3 (loByte nn) (hiByte nn) = _ by simp [decodeBytes, decodeBase, baseRowC, mk16_halves]⟩

theorem callNZ (nn : Word) : Statement (.callNZ nn) := fun _ =>
  ⟨rfl, show decodeBytes 0xC4 (loByte nn) (hiByte nn) = _ by simp [decodeBytes, decodeBase, baseRowC, mk16_halves]⟩

theorem pushBC : Statement .pushBC := fun _ => ⟨rfl, rfl⟩

theorem addAImm (n : Byte) : Statement (.addAImm n) := fun _ =>
  ⟨rfl, show decodeBytes 0xC6 n 0 = _ by simp [decodeBytes, decodeBase, baseRowC]⟩

theorem rst00 : Statement .rst00 := fun _ => ⟨rfl, rfl⟩

theorem retZ : Statement .retZ := fun _ => ⟨rfl, rfl⟩

theorem ret : Statement .ret := fun _ => ⟨rfl, rfl⟩

theorem jpZ (nn : Word) : Statement (.jpZ nn) := fun _ =>
  ⟨rfl, show decodeBytes 0xCA (loByte nn) (hiByte nn) = _ by simp [decodeBytes, decodeBase, baseRowC, mk16_halves]⟩

theorem prefixCb : Statement .prefixCb := by intro h; cases h

theorem callZ (nn : Word) : Statement (.callZ nn) := fun _ =>
  ⟨rfl, show decodeBytes 0xCC (loByte nn) (hiByte nn) = _ by simp [decodeBytes, decodeBase, baseRowC, mk16_halves]⟩

theorem call (nn : Word) : Statement (.call nn) := fun _ =>
  ⟨rfl, show decodeBytes 0xCD (loByte nn) (hiByte nn) = _ by simp [decodeBytes, decodeBase, baseRowC, mk16_halves]⟩

theorem adcAImm (n : Byte) : Statement (.adcAImm n) := fun _ =>
  ⟨rfl, show decodeBytes 0xCE n 0 = _ by simp [decodeBytes, decodeBase, baseRowC]⟩

theorem rst08 : Statement .rst08 := fun _ => ⟨rfl, rfl⟩

theorem retNC : Statement .retNC := fun _ => ⟨rfl, rfl⟩

theorem popDE : Statement .popDE := fun _ => ⟨rfl, rfl⟩

theorem jpNC (nn : Word) : Statement (.jpNC nn) := fun _ =>
  ⟨rfl, show decodeBytes 0xD2 (loByte nn) (hiByte nn) = _ by simp [decodeBytes, decodeBase, baseRowD, mk16_halves]⟩

theorem illegal (op : Byte) : Statement (.illegal op) := by
  unfold Statement; revert op; decide

theorem callNC (nn : Word) : Statement (.callNC nn) := fun _ =>
  ⟨rfl, show decodeBytes 0xD4 (loByte nn) (hiByte nn) = _ by simp [decodeBytes, decodeBase, baseRowD, mk16_halves]⟩

theorem pushDE : Statement .pushDE := fun _ => ⟨rfl, rfl⟩

theorem subImm (n : Byte) : Statement (.subImm n) := fun _ =>
  ⟨rfl, show decodeBytes 0xD6 n 0 = _ by simp [decodeBytes, decodeBase, baseRowD]⟩

theorem rst10 : Statement .rst10 := fun _ => ⟨rfl, rfl⟩

theorem retC : Statement .retC := fun _ => ⟨rfl, rfl⟩

theorem reti : Statement .reti := fun _ => ⟨rfl, rfl⟩

theorem jpC (nn : Word) : Statement (.jpC nn) := fun _ =>
  ⟨rfl, show decodeBytes 0xDA (loByte nn) (hiByte nn) = _ by simp [decodeBytes, decodeBase, baseRowD, mk16_halves]⟩

theorem callC (nn : Word) : Statement (.callC nn) := fun _ =>
  ⟨rfl, show decodeBytes 0xDC (loByte nn) (hiByte nn) = _ by simp [decodeBytes, decodeBase, baseRowD, mk16_halves]⟩

theorem sbcAImm (n : Byte) : Statement (.sbcAImm n) := fun _ =>
  ⟨rfl, show decodeBytes 0xDE n 0 = _ by simp [decodeBytes, decodeBase, baseRowD]⟩

theorem rst18 : Statement .rst18 := fun _ => ⟨rfl, rfl⟩

theorem ldhAt8A (n : Byte) : Statement (.ldhAt8A n) := fun _ =>
  ⟨rfl, show decodeBytes 0xE0 n 0 = _ by simp [decodeBytes, decodeBase, baseRowE]⟩

theorem popHL : Statement .popHL := fun _ => ⟨rfl, rfl⟩

theorem ldAtCA : Statement .ldAtCA := fun _ => ⟨rfl, rfl⟩

theorem pushHL : Statement .pushHL := fun _ => ⟨rfl, rfl⟩

theorem andImm (n : Byte) : Statement (.andImm n) := fun _ =>
  ⟨rfl, show decodeBytes 0xE6 n 0 = _ by simp [decodeBytes, decodeBase, baseRowE]⟩

theorem rst20 : Statement .rst20 := fun _ => ⟨rfl, rfl⟩

theorem addSPe (e : Byte) : Statement (.addSPe e) := fun _ =>
  ⟨rfl, show decodeBytes 0xE8 e 0 = _ by simp [decodeBytes, decodeBase, baseRowE]⟩

theorem jpHL : Statement .jpHL := fun _ => ⟨rfl, rfl⟩

theorem ldAt16A (nn : Word) : Statement (.ldAt16A nn) := fun _ =>
  ⟨rfl, show decodeBytes 0xEA (loByte nn) (hiByte nn) = _ by simp [decodeBytes, decodeBase, baseRowE, mk16_halves]⟩

theorem xorImm (n : Byte) : Statement (.xorImm n) := fun _ =>
  ⟨rfl, show decodeBytes 0xEE n 0 = _ by simp [decodeBytes, decodeBase, baseRowE]⟩

theorem rst28 : Statement .rst28 := fun _ => ⟨rfl, rfl⟩

theorem ldhAAt8 (n : Byte) : Statement (.ldhAAt8 n) := fun _ =>
  ⟨rfl, show decodeBytes 0xF0 n 0 = _ by simp [decodeBytes, decodeBase, baseRowF]⟩

theorem popAF : Statement .popAF := fun _ => ⟨rfl, rfl⟩

theorem ldAAtC : Statement .ldAAtC := fun _ => ⟨rfl, rfl⟩

theorem di : Statement .di := fun _ => ⟨rfl, rfl⟩

theorem pushAF : Statement .pushAF := fun _ => ⟨rfl, rfl⟩

theorem orImm (n : Byte) : Statement (.orImm n) := fun _ =>
  ⟨rfl, show decodeBytes 0xF6 n 0 = _ by simp [decodeBytes, decodeBase, baseRowF]⟩

theorem rst30 : Statement .rst30 := fun _ => ⟨rfl, rfl⟩

theorem ldHLSPe (e : Byte) : Statement (.ldHLSPe e) := fun _ =>
  ⟨rfl, show decodeBytes 0xF8 e 0 = _ by simp [decodeBytes, decodeBase, baseRowF]⟩

theorem ldSPHL : Statement .ldSPHL := fun _ => ⟨rfl, rfl⟩

theorem ldAAt16 (nn : Word) : Statement (.ldAAt16 nn) := fun _ =>
  ⟨rfl, show decodeBytes 0xFA (loByte nn) (hiByte nn) = _ by simp [decodeBytes, decodeBase, baseRowF, mk16_halves]⟩

theorem ei : Statement .ei := fun _ => ⟨rfl, rfl⟩

theorem cpImm (n : Byte) : Statement (.cpImm n) := fun _ =>
  ⟨rfl, show decodeBytes 0xFE n 0 = _ by simp [decodeBytes, decodeBase, baseRowF]⟩

theorem rst38 : Statement .rst38 := fun _ => ⟨rfl, rfl⟩

theorem rlcB : Statement .rlcB := fun _ => ⟨rfl, rfl⟩

theorem rlcC : Statement .rlcC := fun _ => ⟨rfl, rfl⟩

theorem rlcD : Statement .rlcD := fun _ => ⟨rfl, rfl⟩

theorem rlcE : Statement .rlcE := fun _ => ⟨rfl, rfl⟩

theorem rlcH : Statement .rlcH := fun _ => ⟨rfl, rfl⟩

theorem rlcL : Statement .rlcL := fun _ => ⟨rfl, rfl⟩

theorem rlcAtHL : Statement .rlcAtHL := fun _ => ⟨rfl, rfl⟩

theorem rlcA : Statement .rlcA := fun _ => ⟨rfl, rfl⟩

theorem rrcB : Statement .rrcB := fun _ => ⟨rfl, rfl⟩

theorem rrcC : Statement .rrcC := fun _ => ⟨rfl, rfl⟩

theorem rrcD : Statement .rrcD := fun _ => ⟨rfl, rfl⟩

theorem rrcE : Statement .rrcE := fun _ => ⟨rfl, rfl⟩

theorem rrcH : Statement .rrcH := fun _ => ⟨rfl, rfl⟩

theorem rrcL : Statement .rrcL := fun _ => ⟨rfl, rfl⟩

theorem rrcAtHL : Statement .rrcAtHL := fun _ => ⟨rfl, rfl⟩

theorem rrcA : Statement .rrcA := fun _ => ⟨rfl, rfl⟩

theorem rlB : Statement .rlB := fun _ => ⟨rfl, rfl⟩

theorem rlC : Statement .rlC := fun _ => ⟨rfl, rfl⟩

theorem rlD : Statement .rlD := fun _ => ⟨rfl, rfl⟩

theorem rlE : Statement .rlE := fun _ => ⟨rfl, rfl⟩

theorem rlH : Statement .rlH := fun _ => ⟨rfl, rfl⟩

theorem rlL : Statement .rlL := fun _ => ⟨rfl, rfl⟩

theorem rlAtHL : Statement .rlAtHL := fun _ => ⟨rfl, rfl⟩

theorem rlA : Statement .rlA := fun _ => ⟨rfl, rfl⟩

theorem rrB : Statement .rrB := fun _ => ⟨rfl, rfl⟩

theorem rrC : Statement .rrC := fun _ => ⟨rfl, rfl⟩

theorem rrD : Statement .rrD := fun _ => ⟨rfl, rfl⟩

theorem rrE : Statement .rrE := fun _ => ⟨rfl, rfl⟩

theorem rrH : Statement .rrH := fun _ => ⟨rfl, rfl⟩

theorem rrL : Statement .rrL := fun _ => ⟨rfl, rfl⟩

theorem rrAtHL : Statement .rrAtHL := fun _ => ⟨rfl, rfl⟩

theorem rrA : Statement .rrA := fun _ => ⟨rfl, rfl⟩

theorem slaB : Statement .slaB := fun _ => ⟨rfl, rfl⟩

theorem slaC : Statement .slaC := fun _ => ⟨rfl, rfl⟩

theorem slaD : Statement .slaD := fun _ => ⟨rfl, rfl⟩

theorem slaE : Statement .slaE := fun _ => ⟨rfl, rfl⟩

theorem slaH : Statement .slaH := fun _ => ⟨rfl, rfl⟩

theorem slaL : Statement .slaL := fun _ => ⟨rfl, rfl⟩

theorem slaAtHL : Statement .slaAtHL := fun _ => ⟨rfl, rfl⟩

theorem slaA : Statement .slaA := fun _ => ⟨rfl, rfl⟩

theorem sraB : Statement .sraB := fun _ => ⟨rfl, rfl⟩

theorem sraC : Statement .sraC := fun _ => ⟨rfl, rfl⟩

theorem sraD : Statement .sraD := fun _ => ⟨rfl, rfl⟩

theorem sraE : Statement .sraE := fun _ => ⟨rfl, rfl⟩

theorem sraH : Statement .sraH := fun _ => ⟨rfl, rfl⟩

theorem sraL : Statement .sraL := fun _ => ⟨rfl, rfl⟩

theorem sraAtHL : Statement .sraAtHL := fun _ => ⟨rfl, rfl⟩

theorem sraA : Statement .sraA := fun _ => ⟨rfl, rfl⟩

theorem swapB : Statement .swapB := fun _ => ⟨rfl, rfl⟩

theorem swapC : Statement .swapC := fun _ => ⟨rfl, rfl⟩

theorem swapD : Statement .swapD := fun _ => ⟨rfl, rfl⟩

theorem swapE : Statement .swapE := fun _ => ⟨rfl, rfl⟩

theorem swapH : Statement .swapH := fun _ => ⟨rfl, rfl⟩

theorem swapL : Statement .swapL := fun _ => ⟨rfl, rfl⟩

theorem swapAtHL : Statement .swapAtHL := fun _ => ⟨rfl, rfl⟩

theorem swapA : Statement .swapA := fun _ => ⟨rfl, rfl⟩

theorem srlB : Statement .srlB := fun _ => ⟨rfl, rfl⟩

theorem srlC : Statement .srlC := fun _ => ⟨rfl, rfl⟩

theorem srlD : Statement .srlD := fun _ => ⟨rfl, rfl⟩

theorem srlE : Statement .srlE := fun _ => ⟨rfl, rfl⟩

theorem srlH : Statement .srlH := fun _ => ⟨rfl, rfl⟩

theorem srlL : Statement .srlL := fun _ => ⟨rfl, rfl⟩

theorem srlAtHL : Statement .srlAtHL := fun _ => ⟨rfl, rfl⟩

theorem srlA : Statement .srlA := fun _ => ⟨rfl, rfl⟩

theorem bit0B : Statement .bit0B := fun _ => ⟨rfl, rfl⟩

theorem bit0C : Statement .bit0C := fun _ => ⟨rfl, rfl⟩

theorem bit0D : Statement .bit0D := fun _ => ⟨rfl, rfl⟩

theorem bit0E : Statement .bit0E := fun _ => ⟨rfl, rfl⟩

theorem bit0H : Statement .bit0H := fun _ => ⟨rfl, rfl⟩

theorem bit0L : Statement .bit0L := fun _ => ⟨rfl, rfl⟩

theorem bit0AtHL : Statement .bit0AtHL := fun _ => ⟨rfl, rfl⟩

theorem bit0A : Statement .bit0A := fun _ => ⟨rfl, rfl⟩

theorem bit1B : Statement .bit1B := fun _ => ⟨rfl, rfl⟩

theorem bit1C : Statement .bit1C := fun _ => ⟨rfl, rfl⟩

theorem bit1D : Statement .bit1D := fun _ => ⟨rfl, rfl⟩

theorem bit1E : Statement .bit1E := fun _ => ⟨rfl, rfl⟩

theorem bit1H : Statement .bit1H := fun _ => ⟨rfl, rfl⟩

theorem bit1L : Statement .bit1L := fun _ => ⟨rfl, rfl⟩

theorem bit1AtHL : Statement .bit1AtHL := fun _ => ⟨rfl, rfl⟩

theorem bit1A : Statement .bit1A := fun _ => ⟨rfl, rfl⟩

theorem bit2B : Statement .bit2B := fun _ => ⟨rfl, rfl⟩

theorem bit2C : Statement .bit2C := fun _ => ⟨rfl, rfl⟩

theorem bit2D : Statement .bit2D := fun _ => ⟨rfl, rfl⟩

theorem bit2E : Statement .bit2E := fun _ => ⟨rfl, rfl⟩

theorem bit2H : Statement .bit2H := fun _ => ⟨rfl, rfl⟩

theorem bit2L : Statement .bit2L := fun _ => ⟨rfl, rfl⟩

theorem bit2AtHL : Statement .bit2AtHL := fun _ => ⟨rfl, rfl⟩

theorem bit2A : Statement .bit2A := fun _ => ⟨rfl, rfl⟩

theorem bit3B : Statement .bit3B := fun _ => ⟨rfl, rfl⟩

theorem bit3C : Statement .bit3C := fun _ => ⟨rfl, rfl⟩

theorem bit3D : Statement .bit3D := fun _ => ⟨rfl, rfl⟩

theorem bit3E : Statement .bit3E := fun _ => ⟨rfl, rfl⟩

theorem bit3H : Statement .bit3H := fun _ => ⟨rfl, rfl⟩

theorem bit3L : Statement .bit3L := fun _ => ⟨rfl, rfl⟩

theorem bit3AtHL : Statement .bit3AtHL := fun _ => ⟨rfl, rfl⟩

theorem bit3A : Statement .bit3A := fun _ => ⟨rfl, rfl⟩

theorem bit4B : Statement .bit4B := fun _ => ⟨rfl, rfl⟩

theorem bit4C : Statement .bit4C := fun _ => ⟨rfl, rfl⟩

theorem bit4D : Statement .bit4D := fun _ => ⟨rfl, rfl⟩

theorem bit4E : Statement .bit4E := fun _ => ⟨rfl, rfl⟩

theorem bit4H : Statement .bit4H := fun _ => ⟨rfl, rfl⟩

theorem bit4L : Statement .bit4L := fun _ => ⟨rfl, rfl⟩

theorem bit4AtHL : Statement .bit4AtHL := fun _ => ⟨rfl, rfl⟩

theorem bit4A : Statement .bit4A := fun _ => ⟨rfl, rfl⟩

theorem bit5B : Statement .bit5B := fun _ => ⟨rfl, rfl⟩

theorem bit5C : Statement .bit5C := fun _ => ⟨rfl, rfl⟩

theorem bit5D : Statement .bit5D := fun _ => ⟨rfl, rfl⟩

theorem bit5E : Statement .bit5E := fun _ => ⟨rfl, rfl⟩

theorem bit5H : Statement .bit5H := fun _ => ⟨rfl, rfl⟩

theorem bit5L : Statement .bit5L := fun _ => ⟨rfl, rfl⟩

theorem bit5AtHL : Statement .bit5AtHL := fun _ => ⟨rfl, rfl⟩

theorem bit5A : Statement .bit5A := fun _ => ⟨rfl, rfl⟩

theorem bit6B : Statement .bit6B := fun _ => ⟨rfl, rfl⟩

theorem bit6C : Statement .bit6C := fun _ => ⟨rfl, rfl⟩

theorem bit6D : Statement .bit6D := fun _ => ⟨rfl, rfl⟩

theorem bit6E : Statement .bit6E := fun _ => ⟨rfl, rfl⟩

theorem bit6H : Statement .bit6H := fun _ => ⟨rfl, rfl⟩

theorem bit6L : Statement .bit6L := fun _ => ⟨rfl, rfl⟩

theorem bit6AtHL : Statement .bit6AtHL := fun _ => ⟨rfl, rfl⟩

theorem bit6A : Statement .bit6A := fun _ => ⟨rfl, rfl⟩

theorem bit7B : Statement .bit7B := fun _ => ⟨rfl, rfl⟩

theorem bit7C : Statement .bit7C := fun _ => ⟨rfl, rfl⟩

theorem bit7D : Statement .bit7D := fun _ => ⟨rfl, rfl⟩

theorem bit7E : Statement .bit7E := fun _ => ⟨rfl, rfl⟩

theorem bit7H : Statement .bit7H := fun _ => ⟨rfl, rfl⟩

theorem bit7L : Statement .bit7L := fun _ => ⟨rfl, rfl⟩

theorem bit7AtHL : Statement .bit7AtHL := fun _ => ⟨rfl, rfl⟩

theorem bit7A : Statement .bit7A := fun _ => ⟨rfl, rfl⟩

theorem res0B : Statement .res0B := fun _ => ⟨rfl, rfl⟩

theorem res0C : Statement .res0C := fun _ => ⟨rfl, rfl⟩

theorem res0D : Statement .res0D := fun _ => ⟨rfl, rfl⟩

theorem res0E : Statement .res0E := fun _ => ⟨rfl, rfl⟩

theorem res0H : Statement .res0H := fun _ => ⟨rfl, rfl⟩

theorem res0L : Statement .res0L := fun _ => ⟨rfl, rfl⟩

theorem res0AtHL : Statement .res0AtHL := fun _ => ⟨rfl, rfl⟩

theorem res0A : Statement .res0A := fun _ => ⟨rfl, rfl⟩

theorem res1B : Statement .res1B := fun _ => ⟨rfl, rfl⟩

theorem res1C : Statement .res1C := fun _ => ⟨rfl, rfl⟩

theorem res1D : Statement .res1D := fun _ => ⟨rfl, rfl⟩

theorem res1E : Statement .res1E := fun _ => ⟨rfl, rfl⟩

theorem res1H : Statement .res1H := fun _ => ⟨rfl, rfl⟩

theorem res1L : Statement .res1L := fun _ => ⟨rfl, rfl⟩

theorem res1AtHL : Statement .res1AtHL := fun _ => ⟨rfl, rfl⟩

theorem res1A : Statement .res1A := fun _ => ⟨rfl, rfl⟩

theorem res2B : Statement .res2B := fun _ => ⟨rfl, rfl⟩

theorem res2C : Statement .res2C := fun _ => ⟨rfl, rfl⟩

theorem res2D : Statement .res2D := fun _ => ⟨rfl, rfl⟩

theorem res2E : Statement .res2E := fun _ => ⟨rfl, rfl⟩

theorem res2H : Statement .res2H := fun _ => ⟨rfl, rfl⟩

theorem res2L : Statement .res2L := fun _ => ⟨rfl, rfl⟩

theorem res2AtHL : Statement .res2AtHL := fun _ => ⟨rfl, rfl⟩

theorem res2A : Statement .res2A := fun _ => ⟨rfl, rfl⟩

theorem res3B : Statement .res3B := fun _ => ⟨rfl, rfl⟩

theorem res3C : Statement .res3C := fun _ => ⟨rfl, rfl⟩

theorem res3D : Statement .res3D := fun _ => ⟨rfl, rfl⟩

theorem res3E : Statement .res3E := fun _ => ⟨rfl, rfl⟩

theorem res3H : Statement .res3H := fun _ => ⟨rfl, rfl⟩

theorem res3L : Statement .res3L := fun _ => ⟨rfl, rfl⟩

theorem res3AtHL : Statement .res3AtHL := fun _ => ⟨rfl, rfl⟩

theorem res3A : Statement .res3A := fun _ => ⟨rfl, rfl⟩

theorem res4B : Statement .res4B := fun _ => ⟨rfl, rfl⟩

theorem res4C : Statement .res4C := fun _ => ⟨rfl, rfl⟩

theorem res4D : Statement .res4D := fun _ => ⟨rfl, rfl⟩

theorem res4E : Statement .res4E := fun _ => ⟨rfl, rfl⟩

theorem res4H : Statement .res4H := fun _ => ⟨rfl, rfl⟩

theorem res4L : Statement .res4L := fun _ => ⟨rfl, rfl⟩

theorem res4AtHL : Statement .res4AtHL := fun _ => ⟨rfl, rfl⟩

theorem res4A : Statement .res4A := fun _ => ⟨rfl, rfl⟩

theorem res5B : Statement .res5B := fun _ => ⟨rfl, rfl⟩

theorem res5C : Statement .res5C := fun _ => ⟨rfl, rfl⟩

theorem res5D : Statement .res5D := fun _ => ⟨rfl, rfl⟩

theorem res5E : Statement .res5E := fun _ => ⟨rfl, rfl⟩

theorem res5H : Statement .res5H := fun _ => ⟨rfl, rfl⟩

theorem res5L : Statement .res5L := fun _ => ⟨rfl, rfl⟩

theorem res5AtHL : Statement .res5AtHL := fun _ => ⟨rfl, rfl⟩

theorem res5A : Statement .res5A := fun _ => ⟨rfl, rfl⟩

theorem res6B : Statement .res6B := fun _ => ⟨rfl, rfl⟩

theorem res6C : Statement .res6C := fun _ => ⟨rfl, rfl⟩

theorem res6D : Statement .res6D := fun _ => ⟨rfl, rfl⟩

theorem res6E : Statement .res6E := fun _ => ⟨rfl, rfl⟩

theorem res6H : Statement .res6H := fun _ => ⟨rfl, rfl⟩

theorem res6L : Statement .res6L := fun _ => ⟨rfl, rfl⟩

theorem res6AtHL : Statement .res6AtHL := fun _ => ⟨rfl, rfl⟩

theorem res6A : Statement .res6A := fun _ => ⟨rfl, rfl⟩

theorem res7B : Statement .res7B := fun _ => ⟨rfl, rfl⟩

theorem res7C : Statement .res7C := fun _ => ⟨rfl, rfl⟩

theorem res7D : Statement .res7D := fun _ => ⟨rfl, rfl⟩

theorem res7E : Statement .res7E := fun _ => ⟨rfl, rfl⟩

theorem res7H : Statement .res7H := fun _ => ⟨rfl, rfl⟩

theorem res7L : Statement .res7L := fun _ => ⟨rfl, rfl⟩

theorem res7AtHL : Statement .res7AtHL := fun _ => ⟨rfl, rfl⟩

theorem res7A : Statement .res7A := fun _ => ⟨rfl, rfl⟩

theorem set0B : Statement .set0B := fun _ => ⟨rfl, rfl⟩

theorem set0C : Statement .set0C := fun _ => ⟨rfl, rfl⟩

theorem set0D : Statement .set0D := fun _ => ⟨rfl, rfl⟩

theorem set0E : Statement .set0E := fun _ => ⟨rfl, rfl⟩

theorem set0H : Statement .set0H := fun _ => ⟨rfl, rfl⟩

theorem set0L : Statement .set0L := fun _ => ⟨rfl, rfl⟩

theorem set0AtHL : Statement .set0AtHL := fun _ => ⟨rfl, rfl⟩

theorem set0A : Statement .set0A := fun _ => ⟨rfl, rfl⟩

theorem set1B : Statement .set1B := fun _ => ⟨rfl, rfl⟩

theorem set1C : Statement .set1C := fun _ => ⟨rfl, rfl⟩

theorem set1D : Statement .set1D := fun _ => ⟨rfl, rfl⟩

theorem set1E : Statement .set1E := fun _ => ⟨rfl, rfl⟩

theorem set1H : Statement .set1H := fun _ => ⟨rfl, rfl⟩

theorem set1L : Statement .set1L := fun _ => ⟨rfl, rfl⟩

theorem set1AtHL : Statement .set1AtHL := fun _ => ⟨rfl, rfl⟩

theorem set1A : Statement .set1A := fun _ => ⟨rfl, rfl⟩

theorem set2B : Statement .set2B := fun _ => ⟨rfl, rfl⟩

theorem set2C : Statement .set2C := fun _ => ⟨rfl, rfl⟩

theorem set2D : Statement .set2D := fun _ => ⟨rfl, rfl⟩

theorem set2E : Statement .set2E := fun _ => ⟨rfl, rfl⟩

theorem set2H : Statement .set2H := fun _ => ⟨rfl, rfl⟩

theorem set2L : Statement .set2L := fun _ => ⟨rfl, rfl⟩

theorem set2AtHL : Statement .set2AtHL := fun _ => ⟨rfl, rfl⟩

theorem set2A : Statement .set2A := fun _ => ⟨rfl, rfl⟩

theorem set3B : Statement .set3B := fun _ => ⟨rfl, rfl⟩

theorem set3C : Statement .set3C := fun _ => ⟨rfl, rfl⟩

theorem set3D : Statement .set3D := fun _ => ⟨rfl, rfl⟩

theorem set3E : Statement .set3E := fun _ => ⟨rfl, rfl⟩

theorem set3H : Statement .set3H := fun _ => ⟨rfl, rfl⟩

theorem set3L : Statement .set3L := fun _ => ⟨rfl, rfl⟩

theorem set3AtHL : Statement .set3AtHL := fun _ => ⟨rfl, rfl⟩

theorem set3A : Statement .set3A := fun _ => ⟨rfl, rfl⟩

theorem set4B : Statement .set4B := fun _ => ⟨rfl, rfl⟩

theorem set4C : Statement .set4C := fun _ => ⟨rfl, rfl⟩

theorem set4D : Statement .set4D := fun _ => ⟨rfl, rfl⟩

theorem set4E : Statement .set4E := fun _ => ⟨rfl, rfl⟩

theorem set4H : Statement .set4H := fun _ => ⟨rfl, rfl⟩

theorem set4L : Statement .set4L := fun _ => ⟨rfl, rfl⟩

theorem set4AtHL : Statement .set4AtHL := fun _ => ⟨rfl, rfl⟩

theorem set4A : Statement .set4A := fun _ => ⟨rfl, rfl⟩

theorem set5B : Statement .set5B := fun _ => ⟨rfl, rfl⟩

theorem set5C : Statement .set5C := fun _ => ⟨rfl, rfl⟩

theorem set5D : Statement .set5D := fun _ => ⟨rfl, rfl⟩

theorem set5E : Statement .set5E := fun _ => ⟨rfl, rfl⟩

theorem set5H : Statement .set5H := fun _ => ⟨rfl, rfl⟩

theorem set5L : Statement .set5L := fun _ => ⟨rfl, rfl⟩

theorem set5AtHL : Statement .set5AtHL := fun _ => ⟨rfl, rfl⟩

theorem set5A : Statement .set5A := fun _ => ⟨rfl, rfl⟩

theorem set6B : Statement .set6B := fun _ => ⟨rfl, rfl⟩

theorem set6C : Statement .set6C := fun _ => ⟨rfl, rfl⟩

theorem set6D : Statement .set6D := fun _ => ⟨rfl, rfl⟩

theorem set6E : Statement .set6E := fun _ => ⟨rfl, rfl⟩

theorem set6H : Statement .set6H := fun _ => ⟨rfl, rfl⟩

theorem set6L : Statement .set6L := fun _ => ⟨rfl, rfl⟩

theorem set6AtHL : Statement .set6AtHL := fun _ => ⟨rfl, rfl⟩

theorem set6A : Statement .set6A := fun _ => ⟨rfl, rfl⟩

theorem set7B : Statement .set7B := fun _ => ⟨rfl, rfl⟩

theorem set7C : Statement .set7C := fun _ => ⟨rfl, rfl⟩

theorem set7D : Statement .set7D := fun _ => ⟨rfl, rfl⟩

theorem set7E : Statement .set7E := fun _ => ⟨rfl, rfl⟩

theorem set7H : Statement .set7H := fun _ => ⟨rfl, rfl⟩

theorem set7L : Statement .set7L := fun _ => ⟨rfl, rfl⟩

theorem set7AtHL : Statement .set7AtHL := fun _ => ⟨rfl, rfl⟩

theorem set7A : Statement .set7A := fun _ => ⟨rfl, rfl⟩

end Encoding

end Sys2Proof.Laws
end

