-- ==== Sys2Proof/Laws/Ppu.lean ====
section
/-! SUPPORT. What the functions of the video controller compute, as numbers and field by field. -/

namespace Sys2Proof.Machine

open Sys2Proof

/-! ## Colour indices and colours -/

/-- A bit of a byte as a number. -/
theorem bitOf_toNat (b : Byte) (i : Nat) (h : i < 8) : (bitOf b i).toNat = b.toNat / 2 ^ i % 2 := by
  have : i = 0 ∨ i = 1 ∨ i = 2 ∨ i = 3 ∨ i = 4 ∨ i = 5 ∨ i = 6 ∨ i = 7 := by omega
  rcases this with rfl | rfl | rfl | rfl | rfl | rfl | rfl | rfl <;> (revert b; decide)

theorem twoBits_toNat (x y : Bool) : (BitVec.ofBool x ++ BitVec.ofBool y : BitVec 2).toNat = 2 * x.toNat + y.toNat := by
  revert x y; decide

/-- The colour index of a tile column as the two bits of its row in memory (spec/61_video.md R474). -/
theorem tileIndex_toNat (mem : Memory) (t : Byte) (r c : Nat) (un : Bool) (hc : c < 8) :
    (tileIndex mem t r c un).toNat =
      let base := if un then 0x8000 + 16 * t.toNat
        else if t.toNat < 128 then 0x9000 + 16 * t.toNat else 0x8000 + 16 * t.toNat
      2 * ((mem.read (base + 2 * r + 1)).toNat / 2 ^ (7 - c) % 2) +
        (mem.read (base + 2 * r + 0)).toNat / 2 ^ (7 - c) % 2 := by
  have hb : 0x8000 + tileRowOffset t r un = (if un then 0x8000 + 16 * t.toNat
        else if t.toNat < 128 then 0x9000 + 16 * t.toNat else 0x8000 + 16 * t.toNat) + 2 * r := by
    unfold tileRowOffset
    cases un
    · simp only [Bool.false_eq_true, if_false]
      rw [BitVec.toInt_eq_toNat_cond]
      have := t.isLt
      split <;> split <;> omega
    · simp; omega
  simp only [tileIndex, twoBits_toNat, vramByte]
  rw [bitOf_toNat _ _ (by omega), bitOf_toNat _ _ (by omega), ← hb]
  rfl

/-- A palette entry as the ramp's colour of two bits of the register (spec/61_video.md R480). -/
theorem paletteColour_eq (par : Config.Params) (b : Byte) (i : BitVec 2) : paletteColour par b i =
    [par.ramp.shade0, par.ramp.shade1, par.ramp.shade2, par.ramp.shade3].getD (b.toNat / 4 ^ i.toNat % 4) 0 := by
  have h : (shadeOf b i).toNat = b.toNat / 4 ^ i.toNat % 4 := by revert b i; decide
  rw [← h]
  unfold paletteColour
  generalize shadeOf b i = x
  have : x = 0 ∨ x = 1 ∨ x = 2 ∨ x = 3 := by revert x; decide
  rcases this with rfl | rfl | rfl | rfl <;> rfl

theorem mapTile_eq (mem : Memory) (p : Ppu) (i : Nat) (x y : Nat) :
    mapTile mem (bitOf p.lcdc i) x y = mem.read ((if p.lcdc.getLsbD i then 0x9C00 else 0x9800) + y / 8 * 32 + x / 8) := by
  unfold mapTile vramByte mapOffset
  have : bitOf p.lcdc i = p.lcdc.getLsbD i := rfl
  rw [this]
  cases p.lcdc.getLsbD i <;> simp <;> congr 1 <;> omega

/-! ## What a pixel depends on -/

/-- The sprite in front depends on the PPU only through the sprites' colour indices. -/
theorem spriteAmong_congr (mem : Memory) (p q : Ppu) (sx : Int) (h : ∀ sp, p.spriteIndex mem sp sx = q.spriteIndex mem sp sx) :
    ∀ l, p.spriteAmong mem sx l = q.spriteAmong mem sx l := by
  intro l
  induction l with
  | nil => rfl
  | cons a l ih => simp only [Ppu.spriteAmong, h, ih]

/-- A PPU with other values in the pipeline's own fields. -/
def Ppu.withPipeline (p : Ppu) (mode : LcdMode) (lineTicks fetchX lineX pushedX : Nat) (fetchState : FetchState)
    (fifo : List Colour) (framebuffer : List (Nat × Colour)) : Ppu :=
  { p with
    mode := mode, lineTicks := lineTicks, fetchX := fetchX, lineX := lineX, pushedX := pushedX
    fetchState := fetchState, fifo := fifo, framebuffer := framebuffer }

/-- A pixel does not depend on the pipeline's own fields (spec/61_video.md R475). -/
theorem pixel_withPipeline (mem : Memory) (par : Config.Params) (p : Ppu) (u : Nat) (mode : LcdMode)
    (lineTicks fetchX lineX pushedX : Nat) (fetchState : FetchState) (fifo : List Colour)
    (framebuffer : List (Nat × Colour)) :
    (p.withPipeline mode lineTicks fetchX lineX pushedX fetchState fifo framebuffer).pixel mem par u =
      p.pixel mem par u := by
  let q := p.withPipeline mode lineTicks fetchX lineX pushedX fetchState fifo framebuffer
  have h : ∀ sx, q.spritePixel mem sx = p.spritePixel mem sx := fun sx =>
    congrArg (fun z => if p.spritesEnabled then z else (0, 0)) (spriteAmong_congr mem q p sx (fun _ => rfl) p.lineSprites)
  show q.pixel mem par u = _
  unfold Ppu.pixel
  simp only [h]
  rfl

/-! ## The pipeline -/

theorem pixelKey_inj {r c r' c' : Nat} (h : c < 160) (h' : c' < 160) :
    pixelKey r c = pixelKey r' c' ↔ r = r' ∧ c = c' := by
  simp only [pixelKey, Config.screenWidth]; omega

/-- The queue after a fetcher step. -/
def Ppu.queueAfterFetch (mem : Memory) (par : Config.Params) (p : Ppu) : List Colour :=
  if decide (p.fetchState = .push ∧ p.fifo.length ≤ 8) then
    p.fifo ++ (List.range 8).map (fun i => p.pixel mem par (p.fetchX + i))
  else p.fifo

/-- A fetcher step changes the fetcher and the queue (spec/61_video.md R466). -/
theorem Ppu.fetcherStep_eq (mem : Memory) (par : Config.Params) (p : Ppu) : p.fetcherStep mem par =
    { p with
      fetchState := match p.fetchState with
        | .tile => .data0
        | .data0 => .data1
        | .data1 => .idle
        | .idle => .push
        | .push => if decide (p.fetchState = .push ∧ p.fifo.length ≤ 8) then .tile else .push
      fetchX := if decide (p.fetchState = .push ∧ p.fifo.length ≤ 8) then p.fetchX + 8 else p.fetchX
      fifo := p.queueAfterFetch mem par } := by
  obtain ⟨lcdc, statSel, coin, mode, scy, scx, ly, lyc, bgp, obp0, obp1, wy, wx, lineTicks, windowLine, lineSprites,
    objHeight, fetchState, fetchX, lineX, pushedX, fineX, fifo, framebuffer, fc, won⟩ := p
  cases fetchState
  · rfl
  · rfl
  · rfl
  · rfl
  · by_cases h : fifo.length ≤ 8
    · simp [Ppu.fetcherStep, Ppu.queueAfterFetch, h, Ppu.nextGroup]
    · simp [Ppu.fetcherStep, Ppu.queueAfterFetch, h]

/-- A pop step changes the queue, the column and one pixel of the framebuffer (spec/61_video.md R467). -/
theorem Ppu.popStep_eq (par : Config.Params) (p : Ppu) : p.popStep par =
   { p with
     fifo := if decide (8 ≤ p.fifo.length) then p.fifo.tail else p.fifo
     lineX := if decide (8 ≤ p.fifo.length) then p.lineX + 1 else p.lineX
     pushedX := if decide (8 ≤ p.fifo.length ∧ p.fineX ≤ p.lineX) then p.pushedX + 1 else p.pushedX
     framebuffer :=
       if decide (8 ≤ p.fifo.length ∧ p.fineX ≤ p.lineX) then
         Cells.write par.ramp.shade0 p.framebuffer (pixelKey p.ly.toNat p.pushedX) (p.fifo.headD 0)
       else p.framebuffer } := by
  obtain ⟨lcdc, statSel, coin, mode, scy, scx, ly, lyc, bgp, obp0, obp1, wy, wx, lineTicks, windowLine, lineSprites,
    objHeight, fetchState, fetchX, lineX, pushedX, fineX, fifo, framebuffer, fc, won⟩ := p
  cases fifo with
  | nil => rfl
  | cons a l =>
    by_cases h : 8 ≤ (a :: l).length <;> by_cases h' : fineX ≤ lineX
    · have h2 : 7 ≤ l.length := by simpa using h
      simp [Ppu.popStep, h', h2]
    · have h2 : 7 ≤ l.length := by simpa using h
      simp [Ppu.popStep, h', h2]
    · have h2 : ¬ 7 ≤ l.length := by simpa using h
      simp [Ppu.popStep, h', h2]
    · have h2 : ¬ 7 ≤ l.length := by simpa using h
      simp [Ppu.popStep, h', h2]

end Sys2Proof.Machine
end

