-- ==== Sys2Proof/Laws/Shapes.lean ====
section
/-! SUPPORT. What `exec` does with the instructions of one shape, by the names Decode.lean groups them under. -/

namespace Sys2Proof.Machine

open Sys2Proof

variable (s : State)

/-! ## Loads and the stack -/

theorem exec_loadRR (dst r : Reg8) : exec (.loadRR dst r) s = .next (loadRegReg dst r s) := by
  cases dst <;> cases r <;> rfl

theorem exec_loadRImm (dst : Reg8) (n : Byte) : exec (.loadRImm dst n) s = .next (loadRegImm dst n s) := by
  cases dst <;> rfl

theorem exec_loadRAtHL (dst : Reg8) : exec (.loadRAtHL dst) s = .next (loadRegAtHL dst s) := by cases dst <;> rfl

theorem exec_storeAtHLR (r : Reg8) : exec (.storeAtHLR r) s = .next (storeAtHLReg r s) := by cases r <;> rfl

theorem exec_loadPair (dd : Pair) (nn : Word) : exec (.loadPair dd nn) s = .next (loadPairImm dd nn s) := by
  cases dd <;> rfl

theorem exec_push (qq : StackPair) : exec (.push qq) s = .next (pushPair qq s) := by cases qq <;> rfl

theorem exec_pop (qq : StackPair) : exec (.pop qq) s = .next (popPair qq s) := by cases qq <;> rfl

/-! ## Arithmetic and logic -/

theorem exec_aluR (op : AluOp) (r : Reg8) : exec (.aluR op r) s = .next (aluReg op r s) := by
  cases op <;> cases r <;> rfl

theorem exec_aluHL (op : AluOp) : exec (.aluHL op) s = .next (aluAtHL op s) := by cases op <;> rfl

theorem exec_aluN (op : AluOp) (n : Byte) : exec (.aluN op n) s = .next (aluImm op n s) := by cases op <;> rfl

theorem exec_incR (r : Reg8) : exec (.incR r) s = .next (incReg r s) := by cases r <;> rfl

theorem exec_decR (r : Reg8) : exec (.decR r) s = .next (decReg r s) := by cases r <;> rfl

theorem exec_addHL (dd : Pair) : exec (.addHL dd) s = .next (addHLPair dd s) := by cases dd <;> rfl

theorem exec_incPair (dd : Pair) : exec (.incPair dd) s = .next (incPair dd s) := by cases dd <;> rfl

theorem exec_decPair (dd : Pair) : exec (.decPair dd) s = .next (decPair dd s) := by cases dd <;> rfl

/-! ## Rotates, shifts and bits -/

theorem exec_rotR (op : RotOp) (r : Reg8) : exec (.rotR op r) s = .next (rotReg op r s) := by
  cases op <;> cases r <;> rfl

theorem exec_rotHL (op : RotOp) : exec (.rotHL op) s = .next (rotAtHL op s) := by cases op <;> rfl

/-- The eight values of a bit index. -/
theorem fin8_cases {P : Fin 8 → Prop} (h0 : P 0) (h1 : P 1) (h2 : P 2) (h3 : P 3) (h4 : P 4) (h5 : P 5) (h6 : P 6)
    (h7 : P 7) (n : Fin 8) : P n := by
  match n with
  | 0 => exact h0
  | 1 => exact h1
  | 2 => exact h2
  | 3 => exact h3
  | 4 => exact h4
  | 5 => exact h5
  | 6 => exact h6
  | 7 => exact h7

theorem exec_bitR (n : Fin 8) (r : Reg8) : exec (.bitR n r) s = .next (bitReg n r s) := by
  cases r <;> revert n <;> exact fin8_cases rfl rfl rfl rfl rfl rfl rfl rfl

theorem exec_bitHL (n : Fin 8) : exec (.bitHL n) s = .next (bitAtHL n s) := by
  revert n; exact fin8_cases rfl rfl rfl rfl rfl rfl rfl rfl

theorem exec_resR (n : Fin 8) (r : Reg8) : exec (.resR n r) s = .next (resReg n r s) := by
  cases r <;> revert n <;> exact fin8_cases rfl rfl rfl rfl rfl rfl rfl rfl

theorem exec_resHL (n : Fin 8) : exec (.resHL n) s = .next (resAtHL n s) := by
  revert n; exact fin8_cases rfl rfl rfl rfl rfl rfl rfl rfl

theorem exec_setR (n : Fin 8) (r : Reg8) : exec (.setR n r) s = .next (setReg n r s) := by
  cases r <;> revert n <;> exact fin8_cases rfl rfl rfl rfl rfl rfl rfl rfl

theorem exec_setHL (n : Fin 8) : exec (.setHL n) s = .next (setAtHL n s) := by
  revert n; exact fin8_cases rfl rfl rfl rfl rfl rfl rfl rfl

/-! ## Control -/

theorem exec_jpIf (cc : Cond) (nn : Word) : exec (.jpIf cc nn) s = .next (jumpAbsIf cc nn s) := by cases cc <;> rfl

theorem exec_jrIf (cc : Cond) (e : Byte) : exec (.jrIf cc e) s = .next (jumpRelIf cc e s) := by cases cc <;> rfl

theorem exec_callIf (cc : Cond) (nn : Word) : exec (.callIf cc nn) s = .next (callAbsIf cc nn s) := by
  cases cc <;> rfl

theorem exec_retIf (cc : Cond) : exec (.retIf cc) s = .next (returnIf cc s) := by cases cc <;> rfl

theorem exec_rst (t : Fin 8) : exec (.rst t) s = .next (restart (BitVec.ofNat 16 (8 * t.val)) s) := by
  revert t; exact fin8_cases rfl rfl rfl rfl rfl rfl rfl rfl

end Sys2Proof.Machine
end

