-- ==== Sys2Proof/Tests/Slice0.lean ====
section
/-! SUPPORT. Tests, each of one step or one operation. The expected results are the spec's: the worked examples of the
rules, the vectors of spec/95_test_vectors.md (named V<n> in the comments), or the fields of spec/30_encoding.md written
out. The last part shows, for every statement that has hypotheses, a state and operands that meet them. -/

namespace Sys2Proof.Tests

open Sys2Proof Sys2Proof.Machine

/-! ## The start state of spec/95_test_vectors.md -/

/-- The vectors' common start: the reset state, a plain cartridge of zeros, the bytes at 0xC000 and PC there. -/
def start (bytes : List Byte) : State :=
  { State.reset with
    cart := Cartridge.blank, mem := Memory.ofBytes 0xC000 bytes, cpu := { State.reset.cpu with pc := 0xC000 } }

/-- The start with the CPU changed. -/
def startCpu (bytes : List Byte) (g : Cpu → Cpu) : State := (start bytes).updCpu g

/-- Store a byte in a memory of the core. -/
def at' (s : State) (k : Nat) (v : Byte) : State := { s with mem := s.mem.write k v }

/-- Set IE and IF. -/
def ints (s : State) (enable : Byte) (flags : BitVec 5) : State := { s with intEnable := enable, intFlags := flags }

/-- The state after one step, a stopping one included. -/
def after (s : State) : State := stateAfterStep s

/-- A, then F. -/
def af (s : State) : Byte × Byte := (s.cpu.a, s.cpu.f)

/-- CPU cycles between two states, by the divider. -/
def cyclesTo (s t : State) : Nat := (t.timer.div - s.timer.div).toNat / 4

/-! ## WellFormed: the ill-formed terms are refused -/

/-- `illegal` of an opcode that is not one of the eleven (R151): NOP's. -/
theorem test_wf_refuses_illegal_nop : (Instr.illegal 0x00).wellFormed = false := by decide

/-- The opcode of STOP is not illegal (R151). -/
theorem test_wf_refuses_illegal_stop : (Instr.illegal 0x10).wellFormed = false := by decide

/-- The prefix byte by itself is no instruction (R152). -/
theorem test_wf_refuses_prefix : Instr.prefixCb.wellFormed = false := by decide

theorem test_wf_accepts_illegal : (Instr.illegal 0xFC).wellFormed = true := by decide

theorem test_wf_accepts_set : Instr.set7AtHL.wellFormed = true := by decide

/-! ## Decoding: words written out from the fields of spec/30_encoding.md

R142: B 000, C 001, D 010, E 011, H 100, L 101, (HL) 110, A 111. R143: BC 00, DE 01, HL 10, SP or AF 11. R144: NZ 00,
Z 01, NC 10, C 11. R147: ADD ADC SUB SBC AND XOR OR CP. R149: class, subtype or bit, operand. -/

/-- 01 ddd sss. -/
theorem test_decode_ld_a_b : decode [0b01111000] = .ok (.ldAB, []) := rfl

/-- 01 ddd 110. -/
theorem test_decode_ld_h_hl : decode [0b01100110] = .ok (.ldHAtHL, []) := rfl

/-- 01 110 sss. -/
theorem test_decode_ld_hl_e : decode [0b01110011] = .ok (.ldAtHLE, []) := rfl

/-- 00 ddd 110. -/
theorem test_decode_ld_d_d8 : decode [0b00010110, 0x5A] = .ok (.ldDImm 0x5A, []) := rfl

/-- 00 dd 0001, low byte first. -/
theorem test_decode_ld_hl_d16 : decode [0b00100001, 0x34, 0x12] = .ok (.ldHLImm 0x1234, []) := rfl

/-- 0x08. -/
theorem test_decode_ld_a16_sp : decode [0b00001000, 0x00, 0xC1] = .ok (.ldAt16SP 0xC100, []) := rfl

/-- 0xE0. -/
theorem test_decode_ldh_a8_a : decode [0b11100000, 0x80] = .ok (.ldhAt8A 0x80, []) := rfl

/-- 11 qq 0101. -/
theorem test_decode_push_de : decode [0b11010101] = .ok (.pushDE, []) := rfl

/-- 11 qq 0001. -/
theorem test_decode_pop_af : decode [0b11110001] = .ok (.popAF, []) := rfl

/-- 10 yyy sss. -/
theorem test_decode_sbc_l : decode [0b10011101] = .ok (.sbcAL, []) := rfl

/-- 11 yyy 110. -/
theorem test_decode_xor_d8 : decode [0b11101110, 0x0F] = .ok (.xorImm 0x0F, []) := rfl

/-- 00 ddd 100. -/
theorem test_decode_inc_c : decode [0b00001100] = .ok (.incC, []) := rfl

/-- 00 110 101. -/
theorem test_decode_dec_hl : decode [0b00110101] = .ok (.decAtHL, []) := rfl

/-- 00 dd 1001. -/
theorem test_decode_add_hl_sp : decode [0b00111001] = .ok (.addHLSP, []) := rfl

/-- 00 dd 1011. -/
theorem test_decode_dec_de : decode [0b00011011] = .ok (.decDE, []) := rfl

/-- 00 011 111. -/
theorem test_decode_rra : decode [0b00011111] = .ok (.rra, []) := rfl

/-- 110 cc 010. -/
theorem test_decode_jp_nc : decode [0b11010010, 0x50, 0x01] = .ok (.jpNC 0x0150, []) := rfl

/-- 001 cc 000. -/
theorem test_decode_jr_z : decode [0b00101000, 0xFC] = .ok (.jrZ 0xFC, []) := rfl

/-- 110 cc 100. -/
theorem test_decode_call_c : decode [0b11011100, 0x00, 0x20] = .ok (.callC 0x2000, []) := rfl

/-- 110 cc 000. -/
theorem test_decode_ret_nz : decode [0b11000000] = .ok (.retNZ, []) := rfl

/-- 11 ttt 111. -/
theorem test_decode_rst_18 : decode [0b11011111] = .ok (.rst18, []) := rfl

/-- the place of LD (HL),(HL). -/
theorem test_decode_halt : decode [0b01110110] = .ok (.halt, []) := rfl

/-- 0xFB. -/
theorem test_decode_ei : decode [0b11111011] = .ok (.ei, []) := rfl

/-- R151. -/
theorem test_decode_illegal : decode [0b11111100] = .ok (.illegal 0xFC, []) := rfl

theorem test_decode_rr_d : decode [0b11001011, 0b00011010] = .ok (.rrD, []) := rfl

theorem test_decode_swap_hl : decode [0b11001011, 0b00110110] = .ok (.swapAtHL, []) := rfl

theorem test_decode_bit_5_h : decode [0b11001011, 0b01101100] = .ok (.bit5H, []) := rfl

theorem test_decode_res_2_a : decode [0b11001011, 0b10010111] = .ok (.res2A, []) := rfl

theorem test_decode_set_6_hl : decode [0b11001011, 0b11110110] = .ok (.set6AtHL, []) := rfl

/-- STOP is one byte; the byte after it is not its own (R342). -/
theorem test_decode_stop : decode [0b00010000, 0x00] = .ok (.stop, [0x00]) := rfl

/-- An instruction cut short is rejected by name. -/
theorem test_decode_truncated : decode [0xC3, 0x50] = .error (.truncated 0xC3) := rfl

theorem test_decode_nothing : decode [] = .error .noBytes := rfl

/-- The opcode table gives CB rows two bytes, the prefix byte the more significant one (log 8). -/
theorem test_table_word_cb : decodeTableWord 16 0xCB37 = some .swapA := by decide

/-- An operand word of zeros where the table gives it no bits. -/
theorem test_table_word_jp : decodeTableWord 8 0xC3 = some (.jp 0x0000) := by decide

/-- The next step runs the placed word: LD A,d8 at the reset PC. -/
theorem test_with_fetch_word : (after (State.reset.withFetchWord 16 0x5A3E)).cpu.a = 0x5A := by decide

/-- A placed CB word. -/
theorem test_with_fetch_word_cb :
    (after (({ State.reset with cpu := { State.reset.cpu with a := 0xF0 } }).withFetchWord 16 0xCB37)).cpu.a = 0x0F := by
  decide

/-! ## Loads, stores, stack (spec/40_load.md) -/

/-- V1. -/
theorem test_ld_a_b : (after (startCpu [0x78] (fun p => { p with b := 0x12 }))).cpu.a = 0x12 := by decide

/-- R203's corner: the address is formed before the load overwrites H. -/
theorem test_ld_h_from_hl :
    (after (startCpu [0x66] (fun p => { p with h := 0xC0, l := 0x00 }))).cpu.h = 0x66 := by
  decide

/-- V2: a store to IE, HL wraps. -/
theorem test_ld_hlinc_a :
    (after (startCpu [0x22] (fun p => { p with h := 0xFF, l := 0xFF, a := 0x5A }))).intEnable = 0x5A ∧ (after (startCpu [0x22] (fun p => { p with h := 0xFF, l := 0xFF, a := 0x5A }))).cpu.hl = 0x0000 := by
  decide

/-- V3. -/
theorem test_ld_a_hldec :
    (after (startCpu [0x3A] (fun p => { p with h := 0x00, l := 0x00 }))).cpu.hl = 0xFFFF := by
  decide

/-- V4: an unmapped register reads 0x00. -/
theorem test_ld_a_c : (after (startCpu [0xF2] (fun p => { p with c := 0x03 }))).cpu.a = 0x00 := by decide

/-- V5: TAC's unused bits read 1. -/
theorem test_ldh_a_a8 : (after (start [0xF0, 0x07])).cpu.a = 0xF8 := by decide

set_option maxRecDepth 4000 in
/-- V6: a write of IF keeps bits 4:0. -/
theorem test_ldh_a8_a : (after (startCpu [0xE0, 0x0F] (fun p => { p with a := 0xFF }))).intFlags = 0x1F := by decide

/-- V7: the echo region reads `ECHO_READ`. -/
theorem test_ld_a_a16 : (after (start [0xFA, 0x23, 0xE1])).cpu.a = 0x00 := by decide

/-- V8: a store to the echo region is dropped. -/
theorem test_ld_a16_a :
    busRead (after (startCpu [0xEA, 0x00, 0xE0] (fun p => { p with a := 0x99 }))) 0xC000 = 0xEA := by
  decide

/-- V9. -/
theorem test_push_bc :
    let t := after (startCpu [0xC5] (fun p => { p with b := 0x12, c := 0x34, sp := 0xD000 })); (t.cpu.sp, busRead t 0xCFFF, busRead t 0xCFFE) = (0xCFFE, 0x12, 0x34) := by
  decide

/-- V10: F's low nibble is forced to 0. -/
theorem test_pop_af :
    af (after (at' (at' (startCpu [0xF1] (fun p => { p with sp := 0xD000 })) 0xD000 0xFF) 0xD001 0x12)) = (0x12, 0xF0) := by
  decide

/-- V11: SP wraps and IE is read. -/
theorem test_pop_bc :
    let t := after { startCpu [0xC1] (fun p => { p with sp := 0xFFFF }) with intEnable := 0x34 }; (t.cpu.b, t.cpu.c, t.cpu.sp) = (0x00, 0x34, 0x0001) := by
  decide

/-- R224's example. -/
theorem test_ld_a16_sp :
    let t := after (startCpu [0x08, 0x00, 0xC1] (fun p => { p with sp := 0xFFF8 })); (busRead t 0xC100, busRead t 0xC101) = (0xF8, 0xFF) := by
  decide

/-- V13. -/
theorem test_ld_hl_sp_e8 :
    let t := after (startCpu [0xF8, 0x80] (fun p => { p with sp := 0x0000 })); (t.cpu.hl, t.cpu.f) = (0xFF80, 0x00) := by
  decide

/-- R225's example. -/
theorem test_ld_hl_sp_e8_carries :
    let t := after (startCpu [0xF8, 0x08] (fun p => { p with sp := 0xFFF8 })); (t.cpu.hl, t.cpu.f) = (0x0000, 0x30) := by
  decide

/-- V14: the store to OAM is dropped while the DMA engine copies its first byte. -/
theorem test_ld_hl_d8_busy :
    (after { at' (startCpu [0x36, 0x42] (fun p => { p with h := 0xFE, l := 0x00 })) 0xD000 0x99 with dma := ⟨true, 2, 0, 0xD0, 0xD0⟩ }).mem.read 0xFE00 = 0x99 := by
  decide

/-- V15: OAM reads 0xFF during a DMA. -/
theorem test_ld_a_hl_busy :
    (after { at' (startCpu [0x7E] (fun p => { p with h := 0xFE, l := 0x00 })) 0xFE00 0x42 with dma := ⟨true, 2, 0, 0xD0, 0xD0⟩ }).cpu.a = 0xFF := by
  decide

/-- R221's example. -/
theorem test_ld_sp_hl :
    (after (startCpu [0xF9] (fun p => { p with h := 0xDF, l := 0xF0 }))).cpu.sp = 0xDFF0 := by
  decide

/-! ## 8-bit arithmetic and logic (spec/41_alu8.md) -/

/-- V16. -/
theorem test_add_a_b :
    af (after (startCpu [0x80] (fun p => { p with a := 0xFF, f := 0xB0, b := 0x01 }))) = (0x00, 0xB0) := by
  decide

/-- V17. -/
theorem test_add_a_b_no_overflow :
    af (after (startCpu [0x80] (fun p => { p with a := 0x7F, f := 0xB0, b := 0x01 }))) = (0x80, 0x20) := by
  decide

/-- V18: the carry counts in H. -/
theorem test_adc_a_b_half :
    af (after (startCpu [0x88] (fun p => { p with a := 0x0F, f := 0x10, b := 0x00 }))) = (0x10, 0x20) := by
  decide

/-- V19. -/
theorem test_adc_a_b_full :
    af (after (startCpu [0x88] (fun p => { p with a := 0xFF, f := 0x10, b := 0xFF }))) = (0xFF, 0x30) := by
  decide

/-- V20. -/
theorem test_sub_b :
    af (after (startCpu [0x90] (fun p => { p with a := 0x00, f := 0xB0, b := 0x01 }))) = (0xFF, 0x70) := by
  decide

/-- V22. -/
theorem test_sbc_a_b :
    af (after (startCpu [0x98] (fun p => { p with a := 0x00, f := 0x10, b := 0xFF }))) = (0x00, 0xF0) := by
  decide

/-- V23. -/
theorem test_sbc_a_a :
    af (after (startCpu [0x9F] (fun p => { p with a := 0x12, f := 0x10, b := 0x00 }))) = (0xFF, 0x70) := by
  decide

/-- V24. -/
theorem test_and_b :
    af (after (startCpu [0xA0] (fun p => { p with a := 0xF0, f := 0x00, b := 0x0F }))) = (0x00, 0xA0) := by
  decide

/-- V25. -/
theorem test_xor_a :
    af (after (startCpu [0xAF] (fun p => { p with a := 0x12, f := 0xF0, b := 0x00 }))) = (0x00, 0x80) := by
  decide

/-- V26: A is kept. -/
theorem test_cp_b :
    af (after (startCpu [0xB8] (fun p => { p with a := 0x10, f := 0x00, b := 0x11 }))) = (0x10, 0x70) := by
  decide

/-- R261's example. -/
theorem test_or_d8 :
    af (after (startCpu [0xF6, 0x00] (fun p => { p with a := 0x00, f := 0xF0 }))) = (0x00, 0x80) := by
  decide

/-- V27: C is kept. -/
theorem test_inc_b :
    let t := after (startCpu [0x04] (fun p => { p with b := 0x0F, f := 0x10 })); (t.cpu.b, t.cpu.f) = (0x10, 0x30) := by
  decide

/-- V29. -/
theorem test_dec_b :
    let t := after (startCpu [0x05] (fun p => { p with b := 0x00, f := 0x10 })); (t.cpu.b, t.cpu.f) = (0xFF, 0x70) := by
  decide

/-- R268's example. -/
theorem test_dec_hl :
    let t := after (startCpu [0x35] (fun p => { p with h := 0xC1, l := 0x00, f := 0x00 })); (busRead t 0xC100, t.cpu.f) = (0xFF, 0x60) := by
  decide

/-- The source's example E6. -/
theorem test_daa_wrap :
    af (after (startCpu [0x27] (fun p => { p with a := 0x9A, f := 0x00, b := 0x00 }))) = (0x00, 0x90) := by
  decide

/-- V33. -/
theorem test_daa_sub :
    af (after (startCpu [0x27] (fun p => { p with a := 0xA0, f := 0x70, b := 0x00 }))) = (0x3A, 0x50) := by
  decide

/-- R270's example; Z and C kept. -/
theorem test_cpl :
    af (after (startCpu [0x2F] (fun p => { p with a := 0x35, f := 0x90, b := 0x00 }))) = (0xCA, 0xF0) := by
  decide

/-- R271's example. -/
theorem test_scf :
    af (after (startCpu [0x37] (fun p => { p with a := 0x01, f := 0xE0, b := 0x00 }))) = (0x01, 0x90) := by
  decide

/-- V35. -/
theorem test_ccf :
    af (after (startCpu [0x3F] (fun p => { p with a := 0x01, f := 0x80, b := 0x00 }))) = (0x01, 0x90) := by
  decide

/-! ## 16-bit arithmetic (spec/42_alu16.md) -/

/-- V36: Z is kept. -/
theorem test_add_hl_de :
    let t := after (startCpu [0x19] (fun p => { p with h := 0xFF, l := 0xFF, d := 0x00, e := 0x01, f := 0x80 })); (t.cpu.hl, t.cpu.f) = (0x0000, 0xB0) := by
  decide

/-- V38. -/
theorem test_add_hl_hl :
    let t := after (startCpu [0x29] (fun p => { p with h := 0x80, l := 0x00, f := 0x00 })); (t.cpu.hl, t.cpu.f) = (0x0000, 0x10) := by
  decide

/-- V39: no flag. -/
theorem test_inc_sp :
    let t := after (startCpu [0x33] (fun p => { p with sp := 0xFFFF, f := 0xF0 })); (t.cpu.sp, t.cpu.f) = (0x0000, 0xF0) := by
  decide

/-- V40. -/
theorem test_dec_bc :
    let t := after (startCpu [0x0B] (fun p => { p with b := 0x00, c := 0x00, f := 0x00 })); (t.cpu.b, t.cpu.c, t.cpu.f) = (0xFF, 0xFF, 0x00) := by
  decide

/-- V41. -/
theorem test_add_sp_e8 :
    let t := after (startCpu [0xE8, 0xFF] (fun p => { p with sp := 0x0001 })); (t.cpu.sp, t.cpu.f) = (0x0000, 0x30) := by
  decide

/-! ## Rotates, shifts and bits (spec/43_rotate_shift_bit.md) -/

/-- V43: Z is 0 always. -/
theorem test_rlca :
    af (after (startCpu [0x07] (fun p => { p with a := 0x00, f := 0xF0, b := 0x00 }))) = (0x00, 0x00) := by
  decide

/-- V45. -/
theorem test_rla :
    af (after (startCpu [0x17] (fun p => { p with a := 0x80, f := 0x00, b := 0x00 }))) = (0x00, 0x10) := by
  decide

/-- R292's example. -/
theorem test_rrca :
    af (after (startCpu [0x0F] (fun p => { p with a := 0x3B, f := 0x00, b := 0x00 }))) = (0x9D, 0x10) := by
  decide

/-- R294's example. -/
theorem test_rra :
    af (after (startCpu [0x1F] (fun p => { p with a := 0x81, f := 0x00, b := 0x00 }))) = (0x40, 0x10) := by
  decide

/-- V44. -/
theorem test_rlc_a :
    let t := after (startCpu [0xCB, 0x07] (fun p => { p with a := 0x00 })); (t.cpu.a, t.cpu.f) = (0x00, 0x80) := by
  decide

/-- R297's example. -/
theorem test_rl_l :
    let t := after (startCpu [0xCB, 0x15] (fun p => { p with l := 0x80, f := 0x00 })); (t.cpu.l, t.cpu.f) = (0x00, 0x90) := by
  decide

/-- R298's example. -/
theorem test_rr_a :
    let t := after (startCpu [0xCB, 0x1F] (fun p => { p with a := 0x01, f := 0x00 })); (t.cpu.a, t.cpu.f) = (0x00, 0x90) := by
  decide

/-- R299's example. -/
theorem test_sla_d :
    let t := after (startCpu [0xCB, 0x22] (fun p => { p with d := 0x80 })); (t.cpu.d, t.cpu.f) = (0x00, 0x90) := by
  decide

/-- V46. -/
theorem test_sra_b :
    let t := after (startCpu [0xCB, 0x28] (fun p => { p with b := 0x80 })); (t.cpu.b, t.cpu.f) = (0xC0, 0x00) := by
  decide

/-- V47. -/
theorem test_srl_b :
    let t := after (startCpu [0xCB, 0x38] (fun p => { p with b := 0x80 })); (t.cpu.b, t.cpu.f) = (0x40, 0x00) := by
  decide

/-- R301's example. -/
theorem test_swap_a :
    let t := after (startCpu [0xCB, 0x37] (fun p => { p with a := 0xF0 })); (t.cpu.a, t.cpu.f) = (0x0F, 0x00) := by
  decide

/-- V49. -/
theorem test_rrc_hl :
    let t := after (at' (startCpu [0xCB, 0x0E] (fun p => { p with h := 0xC1, l := 0x00 })) 0xC100 0x01); (busRead t 0xC100, t.cpu.f) = (0x80, 0x10) := by
  decide

/-- V50: the byte is not written. -/
theorem test_bit_3_hl :
    let t := after (at' (startCpu [0xCB, 0x5E] (fun p => { p with h := 0xC1, l := 0x00, f := 0x10 })) 0xC100 0x08); (busRead t 0xC100, t.cpu.f) = (0x08, 0x30) := by
  decide

/-- V51. -/
theorem test_res_0_a :
    let t := after (startCpu [0xCB, 0x87] (fun p => { p with a := 0xFF, f := 0xF0 })); (t.cpu.a, t.cpu.f) = (0xFE, 0xF0) := by
  decide

/-- V52. -/
theorem test_set_7_b :
    let t := after (startCpu [0xCB, 0xF8] (fun p => { p with b := 0x00 })); t.cpu.b = 0x80 := by
  decide

/-! ## Control transfer (spec/44_control.md) -/

/-- V53. -/
theorem test_jr_back : (after (start [0x18, 0x80])).cpu.pc = 0xBF82 := by decide

/-- V54. -/
theorem test_jr_forward : (after (start [0x18, 0x7F])).cpu.pc = 0xC081 := by decide

/-- V55, two cycles. -/
theorem test_jr_c_not_taken :
    let s := startCpu [0x38, 0x02] (fun p => { p with f := 0x00 }); ((after s).cpu.pc, cyclesTo s (after s)) = (0xC002, 2) := by
  decide

/-- V56. -/
theorem test_jp_nc_not_taken :
    (after (startCpu [0xD2, 0x34, 0x12] (fun p => { p with f := 0x10 }))).cpu.pc = 0xC003 := by
  decide

set_option maxRecDepth 4000 in
/-- R321's example, four cycles. -/
theorem test_jp :
    let s := start [0xC3, 0x50, 0x01]; ((after s).cpu.pc, cyclesTo s (after s)) = (0x0150, 4) := by
  decide

/-- V63. -/
theorem test_jp_hl : (after (startCpu [0xE9] (fun p => { p with h := 0x40, l := 0x00 }))).cpu.pc = 0x4000 := by decide

set_option maxRecDepth 4000 in
/-- V57, six cycles. -/
theorem test_call :
    let s := startCpu [0xCD, 0x34, 0x12] (fun p => { p with sp := 0xD000 }); let t := after s; (t.cpu.pc, t.cpu.sp, busRead t 0xCFFF, busRead t 0xCFFE, cyclesTo s t) = (0x1234, 0xCFFE, 0xC0, 0x03, 6) := by
  decide

/-- V58. -/
theorem test_call_z_not_taken :
    let t := after (startCpu [0xCC, 0x34, 0x12] (fun p => { p with sp := 0xD000, f := 0x00 })); (t.cpu.pc, t.cpu.sp) = (0xC003, 0xD000) := by
  decide

set_option maxRecDepth 4000 in
/-- V59, four cycles. -/
theorem test_ret :
    let s := at' (at' (startCpu [0xC9] (fun p => { p with sp := 0xCFFE })) 0xCFFE 0x03) 0xCFFF 0xC0; ((after s).cpu.pc, (after s).cpu.sp, cyclesTo s (after s)) = (0xC003, 0xD000, 4) := by
  decide

set_option maxRecDepth 4000 in
/-- V60, five cycles. -/
theorem test_ret_c :
    let s := at' (at' (startCpu [0xD8] (fun p => { p with sp := 0xCFFE, f := 0x10 })) 0xCFFE 0x03) 0xCFFF 0xC0; ((after s).cpu.pc, (after s).cpu.sp, cyclesTo s (after s)) = (0xC003, 0xD000, 5) := by
  decide

/-- V61. -/
theorem test_rst_38 :
    let t := after (startCpu [0xFF] (fun p => { p with sp := 0xD000 })); (t.cpu.pc, busRead t 0xCFFF, busRead t 0xCFFE) = (0x0038, 0xC0, 0x01) := by
  decide

set_option maxRecDepth 4000 in
/-- V62: the same step dispatches, nine cycles. -/
theorem test_reti :
    let s := ints (at' (at' (startCpu [0xD9] (fun p => { p with sp := 0xCFFE })) 0xCFFE 0x03) 0xCFFF 0xC0) 0x01 0x01; let t := after s; (t.cpu.pc, t.cpu.sp, t.cpu.ime, t.intFlags, cyclesTo s t) = (0x0040, 0xCFFE, false, 0x00, 9) := by
  decide

/-! ## System instructions and interrupts (spec/45_system.md, spec/60_exceptions.md) -/

/-- V64. -/
theorem test_di :
    let t := after (ints (startCpu [0xF3] (fun p => { p with ime := true })) 0x01 0x01); (t.cpu.pc, t.cpu.ime, t.intFlags) = (0xC001, false, 0x01) := by
  decide

/-- V65: no dispatch in the step of EI. -/
theorem test_ei :
    let t := after (ints (startCpu [0xFB] (fun p => { p with ime := false })) 0x04 0x04); (t.cpu.pc, t.cpu.ime, t.cpu.imePending) = (0xC001, true, false) := by
  decide

/-- V74: the step after EI dispatches after its instruction. -/
theorem test_ei_nop :
    let t := after (after (ints (startCpu [0xFB, 0x00, 0x00] (fun p => { p with sp := 0xD000 })) 0x01 0x01)); (t.cpu.pc, busRead t 0xCFFF, busRead t 0xCFFE) = (0x0040, 0xC0, 0x02) := by
  decide

/-- V66, one cycle. -/
theorem test_illegal :
    let s := start [0xFC]; ((after s).status, (after s).cpu.pc, cyclesTo s (after s)) = (.faulted 0xC000 0xFC, 0xC001, 1) := by
  decide

/-- V68. -/
theorem test_stop :
    let s := start [0x10, 0x00]; ((after s).status, (after s).cpu.pc) = (.refused (.stop 0xC000), 0xC001) := by
  decide

set_option maxRecDepth 4000 in
/-- V69: the step of HALT dispatches. -/
theorem test_halt :
    let t := after (ints (startCpu [0x76] (fun p => { p with ime := true, sp := 0xD000 })) 0x02 0x02); (t.cpu.pc, t.cpu.halted, t.intFlags, busRead t 0xCFFE) = (0x0048, false, 0x00, 0x01) := by
  decide

/-- V72: the poll wakes without a dispatch. -/
theorem test_halted_wakes :
    let t := after (ints (startCpu [0x00] (fun p => { p with halted := true })) 0x01 0x01); (t.cpu.halted, t.cpu.pc, t.intFlags) = (false, 0xC000, 0x01) := by
  decide

set_option maxRecDepth 4000 in
/-- V70. -/
theorem test_dispatch_priority :
    let s := ints (startCpu [0x00] (fun p => { p with ime := true, sp := 0xD000 })) 0x1F 0x1F; let t := after s; (t.cpu.pc, t.intFlags, t.cpu.ime, cyclesTo s t) = (0x0040, 0x1E, false, 6) := by
  decide

set_option maxRecDepth 4000 in
/-- V71. -/
theorem test_dispatch_enabled :
    let t := after (ints (startCpu [0x00] (fun p => { p with ime := true, sp := 0xD000 })) 0x04 0x05); (t.cpu.pc, t.intFlags) = (0x0050, 0x01) := by
  decide

/-- V75: the push writes IE, the dispatch goes on. -/
theorem test_dispatch_push_to_ie :
    let t := after (ints (startCpu [0x00] (fun p => { p with ime := true, sp := 0x0000 })) 0x01 0x01); (t.cpu.pc, t.intEnable, busRead t 0xFFFE) = (0x0040, 0xC0, 0x01) := by
  decide

/-! ## Devices -/

/-- V78, the source's example E5. -/
theorem test_timer_reload :
    let t := timerTick { start [] with timer := ⟨0x000F, 0xFF, 0x05, 0b101⟩, intFlags := 0 }; (t.timer.div, t.timer.tima, t.intFlags) = (0x0010, 0x05, 0x04) := by
  decide

/-- V81: the wrap of the divider is a falling edge. -/
theorem test_timer_wrap :
    (timerTick { start [] with timer := ⟨0xFFFF, 0x00, 0x00, 0b100⟩ }).timer.tima = 0x01 := by
  decide

/-- V87: two ticks of delay, then the first byte. -/
theorem test_dma_delay :
    let t := dmaTick (dmaTick (dmaTick (busWrite (start [0x42]) 0xFF46 0xC0))); (t.dma.delay, t.dma.offset, t.mem.read 0xFE00) = (0, 1, 0x42) := by
  decide

/-- V96: the mode and LY are 0, STAT reads 0x80 when the coincidence flag was 0. -/
theorem test_lcd_off :
    let s := start []; let t := ppuTick { s with ppu := { s.ppu with lcdc := 0x11, ly := 2, coincidence := false } }; (t.ppu.ly, busRead t 0xFF41) = (0x00, 0x80) := by
  decide

/-- V99: one row of a tall sprite is on line 0. -/
theorem test_sprites :
    let s := { start [] with mem := Memory.ofBytes 0xFE00 [1, 8] }; (({ s.ppu with lcdc := 0x91 }.oamScan s.mem).lineSprites.length, ({ s.ppu with lcdc := 0x95 }.oamScan s.mem).lineSprites.length) = (0, 1) := by
  decide

/-- V101, columns 0 to 3: the indices 0, 2, 3, 3. -/
theorem test_pixel :
    let m := Memory.ofBytes 0x8000 [0x3C, 0x7E]; let s := start []; (List.range 4).map ({ s.ppu with bgp := 0xE4 }.pixel m s.params) = [0xFFFFFFFF, 0xFF555555, 0xFF000000, 0xFF000000] := by
  decide

/-- V118, V119: Family B never selects bank 0. -/
theorem test_rom_bank_zero :
    let c := { Cartridge.blank with family := .familyB, romBanks := 8 }; ((c.writeControl 0x2000 0x00).romSel, (c.writeControl 0x2000 0x80).romSel) = (0x01, 0x01) := by
  decide

/-- V115: bank 6 modulo 4 banks. -/
theorem test_rom_bank_mod :
    ({ Cartridge.blank with family := .familyA, romBanks := 4, romSel := 6 } : Cartridge).romOffset 0x4000 = 0x8000 := by
  decide

/-- V123: 0xFF, and nothing is written. -/
theorem test_ram_disabled :
    let c := { Cartridge.blank with family := .familyA, battery := true, ramBanks := 4 }; (c.readRam 0xA000, (c.writeRam 0xA000 0x55).needsSave) = (0xFF, false) := by
  decide

/-- The empty image has no header (R111, R121), so reset's first step is refused (log 4). -/
theorem test_reset_refused :
    (after State.reset).status = .refused (.unsupportedCartridge .shortImage 0x0100) := by decide

/-- R438: a press of a selected row's button requests the joypad interrupt. -/
theorem test_joypad_request :
    ((start []).pressButtons { Config.noButtons with start := true }).intFlags = 0x11 := by
  decide

/-! ## Every hypothesis is met

A family of theorems for each statement that has hypotheses: a concrete state and operands that meet all of them
together, at the ends of the ranges where a statement has several clauses. -/

theorem test_meets_DecodeInvertsEncode : (Instr.illegal 0xD3).wellFormed = true ∧ Instr.nop.wellFormed = true :=
  ⟨rfl, rfl⟩

theorem test_meets_EncodeInvertsDecode : decode [0xCB, 0xFF, 0x00] = .ok (.set7A, [0x00]) := rfl

/-- A running machine with NOP at PC. -/
theorem start_runs (bytes : List Byte) : (start bytes).Runs := ⟨rfl, rfl⟩

theorem test_meets_StepRunsDecoded_next : (start [0x00]).Runs ∧ (start [0x00]).cpu.halted = false ∧
    decode [busRead (start [0x00]) 0xC000, busRead (cycle (start [0x00])) 0xC001,
      busRead (cycles 2 (start [0x00])) 0xC002] = .ok (.nop, [0x00, 0x00]) ∧
    exec .nop (afterFetch 1 (start [0x00])) = .next (afterFetch 1 (start [0x00])) :=
  ⟨start_runs _, rfl, rfl, rfl⟩

/-- Three bytes, the last of them read two cycles after the first. -/
theorem test_meets_StepRunsDecoded_three :
    decode [busRead (start [0xC3, 0x50, 0x01]) 0xC000, busRead (cycle (start [0xC3, 0x50, 0x01])) 0xC001,
      busRead (cycles 2 (start [0xC3, 0x50, 0x01])) 0xC002] = .ok (.jp 0x0150, []) := rfl

theorem test_meets_StepRunsDecoded_fault :
    decode [busRead (start [0xFD]) 0xC000, busRead (cycle (start [0xFD])) 0xC001,
      busRead (cycles 2 (start [0xFD])) 0xC002] = .ok (.illegal 0xFD, [0x00, 0x00]) ∧
    exec (.illegal 0xFD) (afterFetch 1 (start [0xFD])) = .fault (.illegalOpcode 0xC000 0xFD) := ⟨rfl, rfl⟩

theorem test_meets_StepRunsDecoded_refused :
    decode [busRead (start [0x10]) 0xC000, busRead (cycle (start [0x10])) 0xC001,
      busRead (cycles 2 (start [0x10])) 0xC002] = .ok (.stop, [0x00, 0x00]) ∧
    exec .stop (afterFetch 1 (start [0x10])) = .refused (.stop 0xC000) := ⟨rfl, rfl⟩

theorem test_meets_StoppedMachineStays :
    ({ start [] with status := .faulted 0xC000 0xFD } : State).status ≠ .running ∧
    ({ start [] with status := .refused (.stop 0xC000) } : State).status = .refused (.stop 0xC000) ∧
    State.reset.status = .running ∧ State.reset.cart.rejected = some .shortImage := by decide

theorem test_meets_FatalDecodeError : (start [0xD3]).Runs ∧ (start [0xD3]).cpu.halted = false ∧
    busRead (start [0xD3]) (start [0xD3]).cpu.pc = 0xD3 ∧ busRead (start [0xFD]) (start [0xFD]).cpu.pc = 0xFD :=
  ⟨start_runs _, rfl, rfl, rfl⟩

theorem test_meets_StopRefused : (start [0x10]).Runs ∧ (start [0x10]).cpu.halted = false ∧
    busRead (start [0x10]) (start [0x10]).cpu.pc = 0x10 := ⟨start_runs _, rfl, rfl⟩

theorem test_meets_OnlyStopAndIllegalStop : (start [0x00]).Runs ∧
    busRead (start [0x00]) (start [0x00]).cpu.pc ∉
      ([0x10, 0xD3, 0xDB, 0xDD, 0xE3, 0xE4, 0xEB, 0xEC, 0xED, 0xF4, 0xFC, 0xFD] : List Byte) :=
  ⟨start_runs _, by decide⟩

theorem test_meets_OnlyStopAndIllegalStop_halted : (startCpu [0x10] (fun p => { p with halted := true })).Runs ∧
    (startCpu [0x10] (fun p => { p with halted := true })).cpu.halted = true := ⟨⟨rfl, rfl⟩, rfl⟩

theorem test_meets_SubtractAndCompare : AluOp.cp = .sub ∨ AluOp.cp = .sbc ∨ AluOp.cp = .cp := by decide

theorem test_meets_LogicOperations : (AluOp.xor = .and ∧ xor = and) ∨ (AluOp.xor = .xor ∧ xor = xor) ∨
    (AluOp.xor = .or ∧ xor = or) := Or.inr (Or.inl ⟨rfl, rfl⟩)

theorem test_meets_AccumulatorAdjustments : (startCpu [] (fun p => { p with f := 0x00 })).cpu.f.getLsbD 6 = false ∧
    (startCpu [] (fun p => { p with f := 0x40 })).cpu.f.getLsbD 6 = true := by decide

/-- The DMA engine at rest keeps its ranges. -/
theorem start_dma (bytes : List Byte) : (start bytes).dma.Inv :=
  ⟨Nat.zero_le _, Nat.zero_le _, fun h => absurd (h : false = true) Bool.false_ne_true,
    fun h => absurd (h : 0 < 0) (Nat.lt_irrefl 0)⟩

/-- A transfer about to copy its last byte is in range too. -/
theorem test_meets_dma_inv_last : (⟨true, 0, 159, 0xC0, 0xC0⟩ : Dma).Inv :=
  ⟨by decide, by decide, fun _ => by decide, fun h => absurd h (by decide)⟩

theorem test_meets_MemoryFrame : (start []).dma.Inv ∧
    exec (.ldAt16A 0xC000) (start []) = .next (writeCycle (start []) 0xC000 0x01) ∧
    storeAddresses (.ldAt16A 0xC000) (start []) = [0xC000] := ⟨start_dma _, rfl, rfl⟩

/-- The premises on an address, at both ends of the plain regions and of sprite memory. -/
theorem test_meets_MemoryFrame_addresses :
    ([0x0000, 0x7FFF, 0x8000, 0x9FFF, 0xA000, 0xBFFF, 0xC001, 0xDFFF, 0xE000, 0xFDFF, 0xFE00, 0xFE9F, 0xFEA0, 0xFEFF,
      0xFF80, 0xFFFE, 0xFFFF] : List Word).all (fun b => b != 0xC000 && (regionOf b).plain) = true ∧
    (start []).dma.active = false ∧ ioRegAt 0xC000 ≠ some .dma ∧ regionOf 0xC000 ≠ .rom := by decide

theorem test_meets_StoredByteReadsBack : (start []).dma.Inv ∧
    ([0x8000, 0x9FFF, 0xC000, 0xDFFF, 0xFF80, 0xFFFE] : List Word).all (fun a => (regionOf a).isRam) = true :=
  ⟨start_dma _, by decide⟩

theorem test_meets_InstructionCycles : Instr.ldAAtHL ≠ .prefixCb ∧ storeAddresses .ldAAtHL (start []) = [] ∧
    0xFF04 ∉ storeAddresses .ldAAtHL (start []) ∧ (∃ t, exec .ldAAtHL (start []) = .next t) :=
  ⟨by decide, rfl, by decide, _, rfl⟩

theorem test_meets_InterruptDispatch_quiet : (start []).cpu.ime = false ∧
    (start []).intEnable.extractLsb' 0 5 &&& (start []).intFlags = 0 := by decide

/-- The lowest and the highest source. -/
theorem test_meets_InterruptDispatch :
    let s := ints (startCpu [] (fun p => { p with ime := true })) 0x11 0x11
    let u := ints (startCpu [] (fun p => { p with ime := true })) 0x10 0x1F
    s.intEnable.getLsbD 0 = true ∧ s.intFlags.getLsbD 0 = true ∧ s.cpu.ime = true ∧
    u.intEnable.getLsbD 4 = true ∧ u.intFlags.getLsbD 4 = true ∧ u.cpu.ime = true ∧
    ∀ j, j < 4 → (u.intEnable.getLsbD j && u.intFlags.getLsbD j) = false := by decide

/-- A halted machine. -/
def halted (ime : Bool) (enable : Byte) (flags : BitVec 5) : State :=
  ints (startCpu [] (fun p => { p with halted := true, ime := ime })) enable flags

theorem test_meets_HaltedPoll : (halted false 0x00 0x1F).Runs ∧ (halted false 0x00 0x1F).cpu.halted = true ∧
    (halted false 0x00 0x1F).cpu.imePending = false ∧
    (halted false 0x00 0x1F).intEnable.extractLsb' 0 5 &&& (halted false 0x00 0x1F).intFlags = 0 :=
  ⟨⟨rfl, rfl⟩, rfl, rfl, by decide⟩

theorem test_meets_HaltedPoll_wakes : (halted false 0x10 0x10).Runs ∧ (halted true 0x10 0x10).Runs ∧
    (halted false 0x10 0x10).intEnable.extractLsb' 0 5 &&& (halted false 0x10 0x10).intFlags ≠ 0 ∧
    (halted true 0x10 0x10).cpu.ime = true ∧ (halted true 0x10 0x10).cpu.imePending = false :=
  ⟨⟨rfl, rfl⟩, ⟨rfl, rfl⟩, by decide, rfl, rfl⟩

theorem test_meets_EiDelay : (start [0xFB, 0x00]).Runs ∧ (start [0xFB, 0x00]).cpu.halted = false ∧
    (start [0xFB, 0x00]).cpu.ime = false ∧ (start [0xFB, 0x00]).cpu.imePending = false ∧
    busRead (start [0xFB, 0x00]) (start [0xFB, 0x00]).cpu.pc = 0xFB ∧
    busRead (cycle (start [0xFB, 0x00])) ((start [0xFB, 0x00]).cpu.pc + 1) = 0x00 :=
  ⟨start_runs _, rfl, rfl, rfl, rfl, rfl⟩

/-- The four selected bits at a falling edge, with TIMA about to overflow, and a tick later without an edge. -/
theorem test_meets_TimerTick :
    ([(0b100, 0x03FF, 9), (0b101, 0x000F, 3), (0b110, 0x003F, 5), (0b111, 0xFFFF, 7)] : List (BitVec 3 × Word × Nat)).all
      (fun x => let b := if x.1.getLsbD 1 then (if x.1.getLsbD 0 then 7 else 5) else (if x.1.getLsbD 0 then 3 else 9)
        b == x.2.2 && x.1.getLsbD 2 && (x.2.1 + 1).toNat % 2 ^ (b + 1) == 0 && (x.2.1 + 2).toNat % 2 ^ (b + 1) != 0)
      = true := by decide

/-- The pages at the ends of each clause's range, and the first byte of HRAM in page 0xFF. -/
theorem test_meets_DmaTransfer : (0x00 : Byte).toNat < 0xE0 ∧ (0xDF : Byte).toNat < 0xE0 ∧
    (0xE0 ≤ (0xE0 : Byte).toNat ∧ (0xE0 : Byte).toNat < 0xFE) ∧ (0xE0 ≤ (0xFD : Byte).toNat ∧ (0xFD : Byte).toNat < 0xFE) ∧
    ((0xFE : Byte).toNat = 0xFE ∧ ¬(0xFE : Byte).toNat < 0xFE) ∧ ((0xFF : Byte).toNat = 0xFF ∧ 0x80 ≤ 0x80 ∧ 0x9F < 160) ∧
    (0xFDFF < 0xFE00 ∨ 0xFEA0 ≤ 0xFDFF) ∧ (0xFEA0 < 0xFE00 ∨ 0xFEA0 ≤ 0xFEA0) := by decide

/-- Each clause's premise at both ends of its range; the ranges meet without a gap and without an overlap. -/
theorem test_meets_AddressMap :
    let rom (a : Word) : Bool := a.toNat < 0x8000
    let ram (a : Word) : Bool := 0x8000 ≤ a.toNat ∧ a.toNat < 0xA000 ∨ 0xC000 ≤ a.toNat ∧ a.toNat < 0xE000 ∨
      0xFF80 ≤ a.toNat ∧ a.toNat < 0xFFFF
    let ext (a : Word) : Bool := 0xA000 ≤ a.toNat ∧ a.toNat < 0xC000
    let echo (a : Word) : Bool := 0xE000 ≤ a.toNat ∧ a.toNat < 0xFE00
    let oam (a : Word) : Bool := 0xFE00 ≤ a.toNat ∧ a.toNat < 0xFEA0
    let unusable (a : Word) : Bool := 0xFEA0 ≤ a.toNat ∧ a.toNat < 0xFF00
    (rom 0x0000 ∧ rom 0x7FFF ∧ ¬rom 0x8000) ∧
    (ram 0x8000 ∧ ram 0x9FFF ∧ ¬ram 0xA000 ∧ ram 0xC000 ∧ ram 0xDFFF ∧ ¬ram 0xE000 ∧ ram 0xFF80 ∧ ram 0xFFFE ∧
      ¬ram 0xFFFF) ∧
    (ext 0xA000 ∧ ext 0xBFFF ∧ ¬ext 0xC000) ∧ (echo 0xE000 ∧ echo 0xFDFF ∧ ¬echo 0xFE00) ∧
    (oam 0xFE00 ∧ oam 0xFE9F ∧ ¬oam 0xFEA0) ∧ (unusable 0xFEA0 ∧ unusable 0xFEFF ∧ ¬unusable 0xFF00) := by
  decide +kernel

theorem test_meets_AddressMap_dma : (start []).dma.active = false ∧ (busWrite (start []) 0xFF46 0xC0).dma.active = true :=
  ⟨rfl, rfl⟩

/-- The unmapped ranges at their ends, and mapped addresses beside them. -/
theorem test_meets_IoRegisters :
    let unmapped (a : Word) : Bool := a.toNat = 0xFF03 ∨ (0xFF08 ≤ a.toNat ∧ a.toNat ≤ 0xFF0E) ∨
      (0xFF10 ≤ a.toNat ∧ a.toNat ≤ 0xFF3F) ∨ (0xFF4C ≤ a.toNat ∧ a.toNat ≤ 0xFF7F)
    ([0xFF03, 0xFF08, 0xFF0E, 0xFF10, 0xFF3F, 0xFF4C, 0xFF7F] : List Word).all unmapped = true ∧
    ([0xFF00, 0xFF01, 0xFF02, 0xFF04, 0xFF07, 0xFF0F, 0xFF40, 0xFF4B] : List Word).any unmapped = false := by decide

theorem test_meets_Gamepad : ∃ action direction : List Bool,
    action = [(start []).buttons.a, (start []).buttons.b, (start []).buttons.select, (start []).buttons.start] ∧
    direction = [(start []).buttons.right, (start []).buttons.left, (start []).buttons.up, (start []).buttons.down] :=
  ⟨_, _, rfl, rfl⟩

/-- Pressing Start pulls line 3 of a selected row from 1 to 0. -/
theorem test_meets_Gamepad_falls : (busRead (start []) 0xFF00).getLsbD 3 = true ∧
    (busRead ((start []).pressButtons { Config.noButtons with start := true }) 0xFF00).getLsbD 3 = false := by decide

/-- The four ranges of control addresses at their ends, and a cartridge of each family. -/
theorem test_meets_BankControl :
    (0x1FFF : Word).toNat < 0x2000 ∧ (0x2000 ≤ (0x2000 : Word).toNat ∧ (0x3FFF : Word).toNat < 0x4000) ∧
    (0x4000 ≤ (0x4000 : Word).toNat ∧ (0x5FFF : Word).toNat < 0x6000) ∧ 0x6000 ≤ (0x6000 : Word).toNat ∧
    Cartridge.blank.family = .plain ∧ { Cartridge.blank with family := .familyA }.family = .familyA ∧
    { Cartridge.blank with family := .familyB }.family = .familyB := by decide

/-- A Family A cartridge with four RAM banks, RAM enabled. -/
def bankedRam : Cartridge :=
  { Cartridge.blank with family := .familyA, battery := true, ramBanks := 4, ramEnabled := true, bankMode := true }

/-- The image's last byte and the first past it. -/
theorem test_meets_CartridgeWindows_rom : (0x7FFF : Word).toNat < Cartridge.blank.romLen ∧
    ({ Cartridge.blank with romLen := 16384 } : Cartridge).romLen ≤ (0x4000 : Word).toNat := by decide

/-- The last bank that answers and the first that does not. -/
theorem test_meets_CartridgeWindows_ram :
    bankedRam.family ≠ .plain ∧ bankedRam.ramEnabled = true ∧ ({ bankedRam with ramSel := 3 }).ramSel.toNat < 4 ∧
    ¬({ bankedRam with ramSel := 3 }).ramSel.toNat < 3 ∧ 0xA000 ≤ (0xA000 : Word).toNat ∧
    0xA000 ≤ (0xBFFF : Word).toNat ∧ (0xBFFF : Word) ≠ 0xA000 := by decide

set_option maxRecDepth 4000 in
/-- An image that is only a header is admitted; it has no byte past 0x14F. -/
theorem test_meets_CartridgeAdmission : (loadCartridge (List.replicate 0x150 0x00) none).rejected = none ∧
    (loadCartridge (List.replicate 0x14F 0x00) none).rejected = some .shortImage := by decide

/-- An image of 0x150 bytes with battery RAM: type 0x03, RAM-size code 2. -/
def batteryImage : List Byte := List.replicate 0x147 0x00 ++ [0x03, 0x00, 0x02] ++ List.replicate 6 0x00

set_option maxRecDepth 4000 in
theorem test_meets_BatteryRoundTrip : (loadCartridge batteryImage none).rejected = none ∧
    (loadCartridge batteryImage none).ramBanks ≠ 0 ∧
    (loadCartridge (List.replicate 0x150 0x00) none).ramBanks = 0 := by decide

/-- A save of the length the statement asks for. -/
theorem test_meets_BatteryRoundTrip_save : (List.replicate 8192 (0x5A : Byte)).length = 8192 := List.length_replicate

/-- A state at the last tick of a line. -/
def lineEnd (ly : Byte) (mode : LcdMode) : State :=
  { start [] with ppu := { State.reset.ppu with ly := ly, mode := mode, lineTicks := 455 } }

/-- The first line, the last two visible lines, the lines around the end of the frame. -/
theorem test_meets_LineTransition :
    ∀ x ∈ ([(0, .hblank), (142, .hblank), (143, .hblank), (144, .vblank), (152, .vblank), (153, .vblank)] :
      List (Byte × LcdMode)),
      (lineEnd x.1 x.2).ppu.lcdc.getLsbD 7 = true ∧ (lineEnd x.1 x.2).ppu.lcdWasOn = true ∧
      ((lineEnd x.1 x.2).ppu.mode = .hblank ∨ (lineEnd x.1 x.2).ppu.mode = .vblank) ∧
      (lineEnd x.1 x.2).ppu.lineTicks = 455 ∧ (lineEnd x.1 x.2).ppu.ly.toNat ≤ 153 := by decide

/-- A sprite that covers line 0 in its last row, and one that ends above it. -/
theorem test_meets_OamScan : ((9 : Byte).toNat ≤ (0 : Byte).toNat + 16 ∧ (0 : Byte).toNat + 16 < (9 : Byte).toNat + 8) ∧
    ¬((0 : Byte).toNat + 16 < (8 : Byte).toNat + 8) := by decide

/-- The background on and off with sprites off, the window at its left edge, and each reason for which it is not shown:
disabled, below, past column 166, left of its edge, in the discarded columns. -/
theorem test_meets_BackgroundPixel :
    let p := State.reset.ppu
    let inWindow (p : Ppu) (u : Nat) : Bool := p.lcdc.getLsbD 5 = true ∧ p.wy.toNat ≤ p.ly.toNat ∧ p.wx.toNat ≤ 166 ∧
      p.fineX + p.wx.toNat ≤ u + 7 ∧ p.fineX ≤ u
    p.lcdc.getLsbD 1 = false ∧ p.lcdc.getLsbD 0 = true ∧ ({ p with lcdc := 0x90 }).lcdc.getLsbD 0 = false ∧
    ({ p with lcdc := 0xB1 }).lcdc.getLsbD 0 = true ∧
    inWindow { p with lcdc := 0xB1, wx := 166 } 159 = true ∧ inWindow { p with lcdc := 0xB1, wx := 7, fineX := 1 } 1 = true ∧
    inWindow { p with lcdc := 0xB1, wx := 166 } 158 = false ∧ inWindow { p with lcdc := 0xB1, fineX := 1 } 0 = false ∧
    inWindow p 200 = false ∧ inWindow { p with lcdc := 0xB1, wy := 1 } 200 = false ∧
    inWindow { p with lcdc := 0xB1, wx := 167 } 200 = false := by decide

/-- Two sprites in column 0 of line 0, the first without a pixel there; the background below is tile 1 or tile 0. -/
def spriteLine : Ppu :=
  { State.reset.ppu with
    lcdc := 0x93
    lineSprites := [⟨16, 8, 0, 0x00, 0⟩, ⟨16, 8, 1, 0x80, 1⟩] }

/-- The first sprite shows nothing in column 0, the second index 3 behind a background of index 3 or 0. -/
theorem test_meets_SpritePixel :
    let mem : Memory := [(0x8010, 0x80), (0x8011, 0x80)]
    let covered : Memory := mem ++ [(0x9800, 1)]
    spriteLine.lcdc.getLsbD 1 = true ∧ spriteLine.lineSprites = [] ++ [⟨16, 8, 0, 0x00, 0⟩] ++ ⟨16, 8, 1, 0x80, 1⟩ :: [] ∧
    ((8 : Int) - 8 ≤ 0 ∧ (0 : Int) < 8) ∧ spriteLine.spriteIndex mem ⟨16, 8, 0, 0x00, 0⟩ 0 = 0 ∧
    spriteLine.spriteIndex mem ⟨16, 8, 1, 0x80, 1⟩ 0 = 3 ∧
    (spriteLine.bgPixel covered Config.defaultParams 0).1 = 3 ∧ (spriteLine.bgPixel mem Config.defaultParams 0).1 = 0 := by
  decide

/-- Pixel transfer at its first and at its last column, a full group queued and the fetcher about to push. -/
theorem test_meets_TransferTick :
    ∀ x ∈ ([0, 159] : List Nat),
      let p := { State.reset.ppu with
        mode := .transfer, pushedX := x, fetchState := .push, fifo := List.replicate 8 0 }
      p.lcdc.getLsbD 7 = true ∧ p.lcdWasOn = true ∧ p.mode = .transfer ∧ p.pushedX < 160 ∧
      p.fetchState = .push ∧ p.fifo.length ≤ 8 ∧ 8 ≤ p.fifo.length := by decide

/-- The state before pixel transfer starts, for the two ends of `fine_x`. -/
theorem test_meets_PixelTransferLength :
    ∀ scx ∈ ([0x00, 0x07, 0xFF] : List Byte),
      let p := { State.reset.ppu with scx := scx, lineTicks := 79 }
      p.lcdc.getLsbD 7 = true ∧ p.lcdWasOn = true ∧ p.lineTicks = 79 ∧ p.mode = .oamScan := by decide

/-- The last visible line before its pixel transfer, with another row and the last column. -/
theorem test_meets_LineDrawn :
    let p := { State.reset.ppu with ly := 143, scx := 0x07, lineTicks := 79 }
    p.lcdc.getLsbD 7 = true ∧ p.lcdWasOn = true ∧ p.lineTicks = 79 ∧ p.mode = .oamScan ∧ 0 ≠ p.ly.toNat ∧ 159 < 160 := by
  decide

theorem test_meets_FrameTiming : State.reset.ppu.lcdc.getLsbD 7 = true ∧ State.reset.ppu.lcdWasOn = true ∧
    State.reset.ppu.mode = .oamScan ∧ State.reset.ppu.ly = 0 ∧ State.reset.ppu.lineTicks = 0 := by decide

theorem test_meets_LcdOffAndOn :
    ({ State.reset.ppu with lcdc := 0x11 }).lcdc.getLsbD 7 = false ∧ State.reset.ppu.lcdWasOn = true ∧
    ({ State.reset.ppu with lcdWasOn := false }).lcdWasOn = false ∧ State.reset.ppu.lcdc.getLsbD 7 = true := by decide

/-- The machine of `start [0x00]` meets the invariant, and its next step goes on. -/
theorem test_meets_StepKeepsInvariant : (start [0x00]).Inv ∧ ∃ t, step (start [0x00]) = .next t :=
  ⟨{ cpu := ⟨by decide, rfl⟩
     canonical := rfl
     keys := fun x hx => absurd hx (by decide +revert)
     dma := start_dma _
     ppu :=
       { line := by decide
         vblank := by decide
         ticks := by decide
         oamScan := fun _ => by decide
         transfer := fun h => absurd h (by decide)
         off := fun h => absurd h (by decide)
         sprites := by decide
         spriteIndex := fun _ h => absurd h (List.not_mem_nil)
         pushed := by decide
         fine := by decide
         fifo := by decide
         frames := by decide
         canonical := rfl
         pixels := fun _ h => absurd h (List.not_mem_nil) }
     cart :=
       { romCanonical := rfl
         romKeys := fun _ h => absurd h (List.not_mem_nil)
         ramCanonical := rfl
         ramKeys := fun _ h => absurd h (List.not_mem_nil)
         romSelNonzero := by decide
         romSelA := fun h => absurd h (by decide)
         romSelB := fun h => absurd h (by decide)
         banks := fun _ => by decide } },
   _, rfl⟩

/-- The last byte of each memory. -/
theorem test_meets_ResetState : 8191 < 8192 ∧ 159 < 160 ∧ 126 < 127 := by decide

end Sys2Proof.Tests
end

