-- ==== Sys2Proof/Proofs/CbOpcode.lean ====
section
/-! The CB opcode by its fields: the decoder read from the side of the operation class `b[7:6]`, the index or subtype
`b[5:3]` and the operand `b[2:0]` (spec/30_encoding.md R149, R152). -/

namespace Sys2Proof.Machine

/-! ## Class 0: the subtype is the rotate or shift -/

@[simp] theorem decodeCb_rotR (op : RotOp) (r : Reg8) :
    decodeCb (opcodeByte (8 * op.number + r.number)) = .rotR op r := by
  cases op <;> cases r <;> rfl

@[simp] theorem decodeCb_rotHL (op : RotOp) : decodeCb (opcodeByte (8 * op.number + 6)) = .rotHL op := by
  cases op <;> rfl

/-! ## Classes 1, 2 and 3: the index is the bit tested, reset or set -/

theorem decodeCb_bitR_resR_setR (n : Fin 8) (r : Reg8) :
    decodeCb (opcodeByte (0x40 + 8 * n.val + r.number)) = .bitR n r ∧
      decodeCb (opcodeByte (0x80 + 8 * n.val + r.number)) = .resR n r ∧
      decodeCb (opcodeByte (0xC0 + 8 * n.val + r.number)) = .setR n r := by
  fin_cases n <;> cases r <;> exact ⟨rfl, rfl, rfl⟩

theorem decodeCb_bitHL_resHL_setHL (n : Fin 8) :
    decodeCb (opcodeByte (0x40 + 8 * n.val + 6)) = .bitHL n ∧
      decodeCb (opcodeByte (0x80 + 8 * n.val + 6)) = .resHL n ∧
      decodeCb (opcodeByte (0xC0 + 8 * n.val + 6)) = .setHL n := by
  fin_cases n <;> exact ⟨rfl, rfl, rfl⟩

/-! ## The fields of a byte -/

@[simp] theorem opcodeByte_toNat (b : Byte) : opcodeByte b.toNat = b := BitVec.ofNat_toNat 8 b

/-- The byte put together again from its bits 7-6, 5-3 and 2-0. -/
theorem opcodeByte_fields (b : Byte) :
    opcodeByte (64 * (b.toNat / 64) + 8 * (b.toNat / 8 % 8) + b.toNat % 8) = b := by
  have hfields : 64 * (b.toNat / 64) + 8 * (b.toNat / 8 % 8) + b.toNat % 8 = b.toNat := by omega
  rw [hfields, opcodeByte_toNat]

/-- Settles O3: class 0 by its subtype, classes 1 to 3 by their bit index, and every byte has the three fields. -/
theorem cbOpcodeFields : Obligations.CbOpcodeFields := by
  refine ⟨decodeCb_rotR, decodeCb_rotHL, decodeCb_bitR_resR_setR, decodeCb_bitHL_resHL_setHL, fun b => ?_⟩
  have hbyte : b.toNat < 256 := b.isLt
  exact ⟨b.toNat / 64, b.toNat / 8 % 8, b.toNat % 8, by omega, by omega, by omega, (opcodeByte_fields b).symm⟩

end Sys2Proof.Machine
end

