-- ==== Sys2Proof/Proofs/Load.lean ====
section
/-! Loads, stores and the stack (spec/40_load.md R201-R225, and R283 beside R225): the encodings of each shape, then what
each operation of Machine/Load.lean makes of the state, as its cycles and accesses with the CPU replaced, then the rules
put together from the two. -/

namespace Sys2Proof.Machine

/-! ## Encodings of one shape -/

theorem encode_loadRR (dst r : Reg8) :
    encode (.loadRR dst r) = [opcodeByte (0x40 + 8 * dst.number + r.number)] := by
  cases dst <;> cases r <;> rfl

theorem encode_loadRImm (dst : Reg8) (n : Byte) :
    encode (.loadRImm dst n) = [opcodeByte (0x06 + 8 * dst.number), n] := by cases dst <;> rfl

theorem encode_loadRAtHL (dst : Reg8) : encode (.loadRAtHL dst) = [opcodeByte (0x46 + 8 * dst.number)] := by
  cases dst <;> rfl

theorem encode_storeAtHLR (r : Reg8) : encode (.storeAtHLR r) = [opcodeByte (0x70 + r.number)] := by
  cases r <;> rfl

theorem encode_push (qq : StackPair) : encode (.push qq) = [opcodeByte (0xC5 + 16 * qq.number)] := by
  cases qq <;> rfl

theorem encode_pop (qq : StackPair) : encode (.pop qq) = [opcodeByte (0xC1 + 16 * qq.number)] := by
  cases qq <;> rfl

/-- A 16-bit immediate is encoded with its low byte first. -/
theorem imm16_bytes (op lo hi : Byte) : [op, loByte (hi ++ lo), hiByte (hi ++ lo)] = [op, lo, hi] := by
  rw [loByte_append, hiByte_append]

theorem encode_loadPair (dd : Pair) (lo hi : Byte) :
    encode (.loadPair dd (hi ++ lo)) = [opcodeByte (0x01 + 16 * dd.number), lo, hi] := by
  cases dd <;> exact imm16_bytes _ lo hi

/-! ## Loads, and the step of HL -/

/-- Equal states are equal answers. -/
theorem answer_next_congr {s t : State} (h : s = t) : (.next s : Answer) = .next t := congrArg _ h

theorem loadRegAt_eq (dst : Reg8) (a : Word) (s : State) :
    loadRegAt dst a s = (cycle s).withCpu (s.cpu.setReg dst (busRead s a)) := by
  simp only [loadRegAt, readCycle, updCpu_eq_withCpu _ (cycle_cpu s)]

theorem storeAHLStep_eq (st : HLStep) (s : State) :
    storeAHLStep st s = (cycle (busWrite s (s.cpu.pair .hl) s.cpu.a)).withCpu
      (s.cpu.setPair .hl (s.cpu.pair .hl + st.delta)) :=
  updCpu_eq_withCpu _ (writeCycle_cpu s _ _)

theorem loadAHLStep_eq (st : HLStep) (s : State) :
    loadAHLStep st s = (cycle s).withCpu
      ({ s.cpu with a := busRead s (s.cpu.pair .hl) }.setPair .hl (s.cpu.pair .hl + st.delta)) := by
  rw [loadAHLStep, loadRegAt_eq]; rfl

/-- The form `(HL-)` adds 0xFFFF, which is one back modulo 65536. -/
theorem add_dec_delta (v : Word) : v + HLStep.dec.delta = v - 1 := by
  rw [HLStep.delta]; bv_omega

theorem loadSPHL_eq (s : State) : loadSPHL s = (cycle s).withCpu { s.cpu with sp := s.cpu.pair .hl } :=
  updCpu_eq_withCpu _ (cycle_cpu s)

/-! ## The stack -/

theorem pushPair_eq (qq : StackPair) (s : State) :
    pushPair qq s =
      (cycle (busWrite
        (cycle (busWrite (cycle s) (s.cpu.sp - 1) (hiByte (s.cpu.stackPair qq))))
        (s.cpu.sp - 2) (loByte (s.cpu.stackPair qq)))).withCpu { s.cpu with sp := s.cpu.sp - 2 } := by
  rw [pushPair, pushWord_eq]
  exact updCpu_eq_withCpu _ (by rw [writeCycle_cpu, writeCycle_cpu, cycle_cpu])

theorem popPair_eq (qq : StackPair) (s : State) :
    popPair qq s = (cycles 2 s).withCpu
      ({ s.cpu with sp := s.cpu.sp + 2 }.setStackPair qq
        (busRead (cycle s) (s.cpu.sp + 1) ++ busRead s s.cpu.sp)) := by
  rw [popPair, popWord_eq, State.updCpu_updCpu]
  exact updCpu_eq_withCpu _ (cycles_cpu 2 s)

/-- Clearing the low nibble keeps the four flags and nothing else. -/
theorem and_F0_eq_flagsByte (v : Byte) :
    v &&& 0xF0 = flagsByte (v.getLsbD 7) (v.getLsbD 6) (v.getLsbD 5) (v.getLsbD 4) := by
  have hlow : v &&& 0xF0 &&& 0x0F = 0 := by rw [BitVec.and_assoc]; exact BitVec.and_zero
  rw [← packFlags_eq, ← packFlags_of_low _ hlow]
  simp [bitOf]

theorem storeAbsSP_eq (nn : Word) (s : State) :
    storeAbsSP nn s = cycle (busWrite (cycle (busWrite s nn (loByte s.cpu.sp))) (nn + 1) (hiByte s.cpu.sp)) := by
  simp only [storeAbsSP, writeCycle, cycle_cpu, busWrite_cpu]

/-! ## SP and a signed offset -/

/-- Adding the sign-extended byte is the signed sum modulo 65536. -/
theorem add_sext16_eq (v : Word) (e : Byte) : v + sext16 e = BitVec.ofInt 16 ((v.toNat : Int) + e.toInt) := by
  rw [BitVec.ofInt_add, BitVec.ofInt_natCast, BitVec.ofNat_toNat, BitVec.setWidth_eq]; rfl

/-- The F byte of SP plus an offset: Z and N 0, and the carries of the unsigned addition of the low bytes (R225). -/
def offsetFlags (sp : Word) (e : Byte) : Byte :=
  flagsByte false false (sp.toNat % 16 + e.toNat % 16 > 0x0F) (sp.toNat % 256 + e.toNat > 0xFF)

/-- `addOffset` sets the flags of `offsetFlags`. -/
theorem setFlags_addOffset (p : Cpu) (sp : Word) (e : Byte) :
    p.setFlags (addOffset sp e).z (addOffset sp e).n (addOffset sp e).h (addOffset sp e).c =
      { p with f := offsetFlags sp e } := by
  rw [offsetFlags, ← packFlags_eq]; rfl

theorem loadHLSPe_eq (e : Byte) (s : State) :
    loadHLSPe e s = (cycle s).withCpu
      ({ s.cpu with f := offsetFlags s.cpu.sp e }.setPair .hl (s.cpu.sp + sext16 e)) := by
  simp only [loadHLSPe, setFlags_addOffset, updCpu_eq_withCpu _ (cycle_cpu s)]; rfl

theorem addSPImm_eq (e : Byte) (s : State) :
    addSPImm e s = (cycles 2 s).withCpu
      { s.cpu with sp := s.cpu.sp + sext16 e, f := offsetFlags s.cpu.sp e } := by
  simp only [addSPImm, setFlags_addOffset]
  exact updCpu_eq_withCpu _ (cycles_cpu 2 s)

end Sys2Proof.Machine

namespace Sys2Proof.Proofs

open Sys2Proof.Machine

/-! ## The rules -/

/-- Settles O11: an update of the CPU alone, with no cycle after the fetch lines. -/
theorem loadRegister : Obligations.LoadRegister := fun dst s =>
  ⟨fun r => ⟨encode_loadRR dst r, exec_loadRR s dst r⟩, fun n => ⟨encode_loadRImm dst n, exec_loadRImm s dst n⟩⟩

/-- Settles O12: every form is `loadRegAt` at the address it forms before the load. -/
theorem loadFromMemory : Obligations.LoadFromMemory := by
  intro s
  have load (dst : Reg8) (a : Word) := answer_next_congr (loadRegAt_eq dst a s)
  refine ⟨fun dst => ⟨encode_loadRAtHL dst, ?hl⟩, rfl, load .a _, rfl, load .a _,
    fun lo hi => ⟨imm16_bytes _ lo hi, load .a _⟩, fun n => ⟨rfl, load .a _⟩, rfl, load .a _⟩
  case hl => exact (exec_loadRAtHL s dst).trans (load dst _)

/-- Settles O13: every form is one `writeCycle` at its address. -/
theorem storeToMemory : Obligations.StoreToMemory := fun s =>
  ⟨fun r => ⟨encode_storeAtHLR r, exec_storeAtHLR s r⟩, fun _ => ⟨rfl, rfl⟩, rfl, rfl, rfl, rfl,
    fun lo hi => ⟨imm16_bytes _ lo hi, rfl⟩, fun _ => ⟨rfl, rfl⟩, rfl, rfl⟩

/-- Settles O14: the access at the old HL, then HL moved by the form's step. -/
theorem loadStoreStepHL : Obligations.LoadStoreStepHL := by
  intro s
  rw [← add_dec_delta]
  exact ⟨rfl, answer_next_congr (storeAHLStep_eq .inc s), rfl, answer_next_congr (loadAHLStep_eq .inc s),
    rfl, answer_next_congr (storeAHLStep_eq .dec s), rfl, answer_next_congr (loadAHLStep_eq .dec s)⟩

/-- Settles O15: LD dd,d16 is an update of the CPU alone, LD SP,HL has one internal cycle. -/
theorem loadPair : Obligations.LoadPair := fun s =>
  ⟨fun dd lo hi => ⟨encode_loadPair dd lo hi, exec_loadPair s dd _⟩, rfl, answer_next_congr (loadSPHL_eq s)⟩

/-- Settles O16: `pushWord` writes the halves of the pair, the high one first. -/
theorem pushPair : Obligations.PushPair := by
  intro qq s
  rw [opcodeByte_high, opcodeByte_low]
  exact ⟨encode_push qq, (exec_push s qq).trans (answer_next_congr (pushPair_eq qq s))⟩

/-- Settles O17: the popped word is written to the pair by its halves, F without its low nibble. -/
theorem popPair : Obligations.PopPair := by
  intro s lo hi
  have pop (qq : StackPair) : exec (.pop qq) s = .next ((cycles 2 s).withCpu
      ({ s.cpu with sp := s.cpu.sp + 2 }.setStackPair qq (hi ++ lo))) :=
    (exec_pop s qq).trans (answer_next_congr (popPair_eq qq s))
  refine ⟨encode_pop, ?bc, ?de, ?hl, ?af⟩
  case bc | de | hl => rw [pop, Cpu.setStackPair, hiByte_append, loByte_append]
  case af => rw [pop, Cpu.setStackPair, hiByte_append, loByte_append, and_F0_eq_flagsByte]

/-- Settles O18: two bus writes of the halves of SP, the low one first. -/
theorem storeStackPointer : Obligations.StoreStackPointer := by
  intro lo hi s
  rw [opcodeByte_high, opcodeByte_low]
  exact ⟨imm16_bytes _ lo hi, answer_next_congr (storeAbsSP_eq _ s)⟩

/-- Settles O19: both forms take value and flags from `addOffset`, whose sum is the signed one. -/
theorem stackPointerOffset : Obligations.StackPointerOffset := by
  intro e s sum f
  have hsum : s.cpu.sp + sext16 e = sum := add_sext16_eq s.cpu.sp e
  rw [← hsum]
  exact ⟨rfl, answer_next_congr (loadHLSPe_eq e s), rfl, answer_next_congr (addSPImm_eq e s)⟩

end Sys2Proof.Proofs
end

