-- ==== Sys2Proof/Proofs/Alu8.lean ====
section
/-! 8-bit arithmetic and logic (spec/41_alu8.md R240-R272): the CPU after each operation of Machine/Alu8.lean with its F
byte as `flagsByte`, the three operand forms of an ALU operation, then the rules put together from the two. -/

namespace Sys2Proof.Machine

/-! ## A flag update as an F byte -/

/-- A flag update replaces F by the byte of the four flags, `none` keeping the flag as it was. -/
theorem setFlags_eq (p : Cpu) (z n h c : Option Bool) :
    p.setFlags z n h c =
      { p with
        f := flagsByte (z.getD (p.f.getLsbD 7)) (n.getD (p.f.getLsbD 6)) (h.getD (p.f.getLsbD 5))
          (c.getD (p.f.getLsbD 4)) } := by
  rw [← packFlags_eq]; rfl

/-- Whether a sum is 0 as a byte. -/
theorem ofNat_beq_zero (n : Nat) : (BitVec.ofNat 8 n == 0) = decide (n % 256 = 0) := by
  rw [Bool.beq_eq_decide_eq]
  refine decide_eq_decide.mpr ?_
  rw [BitVec.toNat_eq, BitVec.toNat_ofNat]
  rfl

/-- Whether a difference is 0 as a byte. -/
theorem ofInt_beq_zero (i : Int) : (BitVec.ofInt 8 i == 0) = decide (i % 256 = 0) := by
  rw [Bool.beq_eq_decide_eq]
  refine decide_eq_decide.mpr ?_
  rw [BitVec.toNat_eq, BitVec.toNat_ofInt]
  change (i % 256).toNat = 0 ↔ _
  omega

/-! ## The three operand forms of an ALU operation -/

theorem encode_aluR (op : AluOp) (r : Reg8) :
    encode (.aluR op r) = [opcodeByte (0x80 + 8 * op.number + r.number)] := by cases op <;> cases r <;> rfl

theorem encode_aluHL (op : AluOp) : encode (.aluHL op) = [opcodeByte (0x86 + 8 * op.number)] := by
  cases op <;> rfl

theorem encode_aluN (op : AluOp) (n : Byte) :
    encode (.aluN op n) = [opcodeByte (0xC6 + 8 * op.number), n] := by cases op <;> rfl

/-- The form `(HL)` reads its operand in one cycle. -/
theorem aluAtHL_eq (op : AluOp) (s : State) :
    aluAtHL op s = (cycle s).withCpu (s.cpu.alu op (busRead s (s.cpu.pair .hl))) :=
  updCpu_eq_withCpu (fun p => p.alu op (busRead s (s.cpu.pair .hl))) (cycle_cpu s)

/-- An ALU operation on a register, on the byte at HL and on an immediate is one function of the operand's value: any
other function `after` that agrees with it describes all three forms. -/
theorem alu_forms {op : AluOp} {s : State} {after : Byte → Cpu} (h : ∀ v, s.cpu.alu op v = after v) :
    (∀ r : Reg8, encode (.aluR op r) = [opcodeByte (0x80 + 8 * op.number + r.number)] ∧
      exec (.aluR op r) s = .next (s.withCpu (after (s.cpu.reg r)))) ∧
    encode (.aluHL op) = [opcodeByte (0x86 + 8 * op.number)] ∧
    exec (.aluHL op) s = .next ((cycle s).withCpu (after (busRead s (s.cpu.pair .hl)))) ∧
    (∀ n : Byte, encode (.aluN op n) = [opcodeByte (0xC6 + 8 * op.number), n] ∧
      exec (.aluN op n) s = .next (s.withCpu (after n))) := by
  simp only [← h]
  exact ⟨fun r => ⟨encode_aluR op r, exec_aluR s op r⟩, encode_aluHL op,
    (exec_aluHL s op).trans (answer_next_congr (aluAtHL_eq op s)),
    fun n => ⟨encode_aluN op n, exec_aluN s op n⟩⟩

/-! ## The CPU after an ALU operation -/

/-- ADD and ADC differ in the carry-in alone. -/
theorem aluResult_add (withCarry : Bool) (a v : Byte) (c : Bool) :
    aluResult (if withCarry then .adc else .add) a v c = add8 a v (withCarry && c) := by cases withCarry <;> rfl

/-- SUB, SBC and CP are one subtraction; they differ in the carry-in, and in whether A takes the difference. -/
theorem aluResult_sub {op : AluOp} (hop : op = .sub ∨ op = .sbc ∨ op = .cp) (a v : Byte) (c : Bool) :
    aluResult op a v c =
      { sub8 a v (op == .sbc && c) with
        value := if op = .cp then a else (sub8 a v (op == .sbc && c)).value } := by
  obtain rfl | rfl | rfl := hop <;> rfl

/-- AND, XOR and OR are one bitwise operation; H is 1 for AND. -/
theorem aluResult_logic {op : AluOp} {bit : Bool → Bool → Bool}
    (hop : (op = .and ∧ bit = and) ∨ (op = .xor ∧ bit = xor) ∨ (op = .or ∧ bit = or)) (a v : Byte) (c : Bool) :
    ∃ w : Byte, aluResult op a v c = logic8 w (op = .and) ∧
      ∀ i, i < 8 → w.getLsbD i = bit (a.getLsbD i) (v.getLsbD i) := by
  obtain ⟨rfl, rfl⟩ | ⟨rfl, rfl⟩ | ⟨rfl, rfl⟩ := hop
  · exact ⟨a &&& v, rfl, fun i _ => BitVec.getLsbD_and⟩
  · exact ⟨a ^^^ v, rfl, fun i _ => BitVec.getLsbD_xor⟩
  · exact ⟨a ||| v, rfl, fun i _ => BitVec.getLsbD_or⟩

theorem alu_add (p : Cpu) (withCarry : Bool) (v : Byte) :
    let cin := (withCarry && p.f.getLsbD 4).toNat
    p.alu (if withCarry then .adc else .add) v =
      { p with
        a := BitVec.ofNat 8 (p.a.toNat + v.toNat + cin)
        f := flagsByte ((p.a.toNat + v.toNat + cin) % 256 = 0) false
          (p.a.toNat % 16 + v.toNat % 16 + cin > 0x0F) (p.a.toNat + v.toNat + cin > 0xFF) } := by
  simp only [Cpu.alu, Cpu.applyFlags, setFlags_eq, aluResult_add, add8, carryNat_eq, ofNat_beq_zero]
  rfl

theorem alu_sub {op : AluOp} (hop : op = .sub ∨ op = .sbc ∨ op = .cp) (p : Cpu) (v : Byte) :
    let cin := (op == .sbc && p.f.getLsbD 4).toNat
    let diff : Int := (p.a.toNat : Int) - v.toNat - cin
    p.alu op v =
      { p with
        a := if op = .cp then p.a else BitVec.ofInt 8 diff
        f := flagsByte (diff % 256 = 0) true (p.a.toNat % 16 < v.toNat % 16 + cin) (p.a.toNat < v.toNat + cin) } := by
  simp only [Cpu.alu, Cpu.applyFlags, setFlags_eq, aluResult_sub hop, sub8, carryNat_eq, ofInt_beq_zero]
  rfl

theorem alu_logic {op : AluOp} {bit : Bool → Bool → Bool}
    (hop : (op = .and ∧ bit = and) ∨ (op = .xor ∧ bit = xor) ∨ (op = .or ∧ bit = or)) (p : Cpu) (v : Byte) :
    (∀ i, i < 8 → (p.alu op v).a.getLsbD i = bit (p.a.getLsbD i) (v.getLsbD i)) ∧
    p.alu op v = { p with
      a := (p.alu op v).a, f := flagsByte ((p.alu op v).a = 0) false (op = .and) false } := by
  obtain ⟨w, hw, hbits⟩ := aluResult_logic hop p.a v p.cf
  have halu : p.alu op v = { p with a := w, f := flagsByte (w = 0) false (op = .and) false } := by
    simp only [Cpu.alu, Cpu.applyFlags, setFlags_eq, hw, logic8, Bool.beq_eq_decide_eq]; rfl
  rw [halu]
  exact ⟨hbits, rfl⟩

/-! ## INC and DEC -/

theorem encode_incR (r : Reg8) : encode (.incR r) = [opcodeByte (0x04 + 8 * r.number)] := by cases r <;> rfl

theorem encode_decR (r : Reg8) : encode (.decR r) = [opcodeByte (0x05 + 8 * r.number)] := by cases r <;> rfl

theorem modifyReg_eq (p : Cpu) (r : Reg8) (g : Byte → Result8) :
    p.modifyReg r g = ({ p.setReg r (g (p.reg r)).value with f := (p.applyFlags (g (p.reg r))).f } : Cpu) := by
  simp only [Cpu.modifyReg, Cpu.applyFlags, setFlags_eq, Cpu.setReg_f]

theorem modifyAtHL_eq (g : Byte → Result8) (s : State) :
    modifyAtHL g s = (cycle (busWrite (cycle s) (s.cpu.pair .hl) (g (busRead s (s.cpu.pair .hl))).value)).withCpu
      (s.cpu.applyFlags (g (busRead s (s.cpu.pair .hl)))) := by
  have hcpu : (writeCycle (cycle s) s.cpu.hl (g (busRead s s.cpu.hl)).value).cpu = s.cpu := by
    rw [writeCycle_cpu, cycle_cpu]
  simp only [modifyAtHL, readCycle, cycle_cpu]
  exact updCpu_eq_withCpu _ hcpu

/-- Z and H of INC: the byte wraps to 0 from 0xFF only, and bit 3 carries from a low nibble of 15. -/
theorem applyFlags_inc8 (p : Cpu) (v : Byte) : p.applyFlags (inc8 v) =
    { p with f := flagsByte (v = 0xFF) false (v.toNat % 16 = 15) (p.f.getLsbD 4) } := by
  have hz : (v + 1 == 0) = decide (v = 0xFF) := by revert v; decide
  have hh : (v &&& 0x0F == 0x0F) = decide (v.toNat % 16 = 15) := by revert v; decide
  simp only [Cpu.applyFlags, setFlags_eq, inc8, hz, hh]; rfl

/-- Z and H of DEC: the byte becomes 0 from 1 only, and bit 4 is borrowed from by a low nibble of 0. -/
theorem applyFlags_dec8 (p : Cpu) (v : Byte) : p.applyFlags (dec8 v) =
    { p with f := flagsByte (v = 0x01) true (v.toNat % 16 = 0) (p.f.getLsbD 4) } := by
  have hz : (v - 1 == 0) = decide (v = 0x01) := by revert v; decide
  have hh : (v &&& 0x0F == 0x00) = decide (v.toNat % 16 = 0) := by revert v; decide
  simp only [Cpu.applyFlags, setFlags_eq, dec8, hz, hh]; rfl

/-! ## DAA -/

/-- Adding 0x60 keeps the low nibble, so both corrections can be read off the A before them. -/
theorem daaAfterAdd_eq (a : Byte) (h c : Bool) :
    let high : Bool := c ∨ a.toNat > 0x99
    let low : Bool := h ∨ a.toNat % 16 > 9
    daaAfterAdd a h c =
      (BitVec.ofNat 8 ((a.toNat + (if high then 0x60 else 0) + (if low then 0x06 else 0)) % 256), high) := by
  intro high low
  have hhigh : (c || decide (a.toNat > 0x99)) = high := by simp [high]
  have hnibble : (if high then a + 0x60 else a).toNat % 16 = a.toNat % 16 := by split <;> bv_omega
  have hlow : (h || decide (a.toNat % 16 > 0x09)) = low := by simp [low]
  simp only [daaAfterAdd, hhigh, hnibble, hlow]
  refine Prod.ext ?_ rfl
  dsimp only
  split <;> split <;> bv_omega

theorem daaAfterSub_eq (a : Byte) (h c : Bool) :
    daaAfterSub a h c =
      (BitVec.ofNat 8 ((a.toNat + 512 - (if c then 0x60 else 0) - (if h then 0x06 else 0)) % 256), c) := by
  refine Prod.ext ?_ rfl
  simp only [daaAfterSub]
  split <;> split <;> bv_omega

/-- The complement of a byte is 255 less it. -/
theorem not_eq_ofNat (a : Byte) : ~~~a = BitVec.ofNat 8 (255 - a.toNat) := by bv_omega

/-- DAA takes value and C from its addition or subtraction half by N; Z is the value's, H becomes 0, N stays. -/
theorem decimalAdjust_eq (s : State) {n c : Bool} {v : Nat} (hn : s.cpu.nf = n)
    (h : (if n then daaAfterSub s.cpu.a s.cpu.hf s.cpu.cf else daaAfterAdd s.cpu.a s.cpu.hf s.cpu.cf) =
      (BitVec.ofNat 8 (v % 256), c)) :
    decimalAdjust s = s.withCpu
      { s.cpu with a := BitVec.ofNat 8 (v % 256), f := flagsByte (v % 256 = 0) n false c } := by
  subst hn
  refine congrArg s.withCpu ?_
  simp only [Cpu.modifyReg, Cpu.reg, Cpu.setReg, Cpu.applyFlags, setFlags_eq, daaResult, h, ofNat_beq_zero, Nat.mod_mod]
  rfl

theorem complementA_eq (s : State) :
    complementA s = s.withCpu
      { s.cpu with
        a := BitVec.ofNat 8 (255 - s.cpu.a.toNat)
        f := flagsByte (s.cpu.f.getLsbD 7) true true (s.cpu.f.getLsbD 4) } := by
  rw [← not_eq_ofNat]
  exact congrArg s.withCpu (setFlags_eq _ ..)

end Sys2Proof.Machine

namespace Sys2Proof.Proofs

open Sys2Proof.Machine

/-! ## The rules -/

/-- Settles O20: the three operand forms of one sum. -/
theorem addWithAndWithoutCarry : Obligations.AddWithAndWithoutCarry := fun s withCarry =>
  alu_forms (alu_add s.cpu withCarry)

/-- Settles O21: the three operand forms of one difference. -/
theorem subtractAndCompare : Obligations.SubtractAndCompare := fun s _ hop =>
  alu_forms (alu_sub hop s.cpu)

/-- Settles O22: the three operand forms of one bitwise operation. -/
theorem logicOperations : Obligations.LogicOperations := by
  intro s op bit hop after
  obtain ⟨hreg, hencHL, hexecHL, himm⟩ := alu_forms (fun v => Eq.refl (s.cpu.alu op v))
  have hafter (v : Byte) : after v (s.cpu.alu op v) := alu_logic hop s.cpu v
  exact ⟨fun r => ⟨(hreg r).1, _, (hreg r).2, hafter _⟩, hencHL, ⟨_, hexecHL, hafter _⟩,
    fun n => ⟨(himm n).1, _, (himm n).2, hafter _⟩⟩

/-- Settles O23: a register is replaced by an update of the CPU alone, the byte at HL by a read and a write cycle. -/
theorem incrementDecrement : Obligations.IncrementDecrement := by
  intro s c fInc fDec v
  have hincR (r : Reg8) : s.cpu.modifyReg r inc8 =
      { s.cpu.setReg r (s.cpu.reg r + 1) with f := fInc (s.cpu.reg r) } := by
    rw [modifyReg_eq, applyFlags_inc8]; rfl
  have hdecR (r : Reg8) : s.cpu.modifyReg r dec8 =
      { s.cpu.setReg r (s.cpu.reg r - 1) with f := fDec (s.cpu.reg r) } := by
    rw [modifyReg_eq, applyFlags_dec8]; rfl
  have hincHL := modifyAtHL_eq inc8 s
  have hdecHL := modifyAtHL_eq dec8 s
  rw [applyFlags_inc8] at hincHL
  rw [applyFlags_dec8] at hdecHL
  exact ⟨fun r => ⟨encode_incR r, (exec_incR s r).trans (answer_next_congr (congrArg s.withCpu (hincR r))),
      encode_decR r, (exec_decR s r).trans (answer_next_congr (congrArg s.withCpu (hdecR r)))⟩,
    rfl, answer_next_congr hincHL, rfl, answer_next_congr hdecHL⟩

/-- Settles O24: DAA by the direction N gives, the other three as flag updates. -/
theorem accumulatorAdjustments : Obligations.AccumulatorAdjustments := by
  intro s a z n h c high low sum diff
  have daaAdd (hn : n = false) := decimalAdjust_eq s hn (daaAfterAdd_eq s.cpu.a h c)
  have daaSub (hn : n = true) := decimalAdjust_eq s hn (daaAfterSub_eq s.cpu.a h c)
  have setFlags (n' h' c' : Option Bool) := congrArg s.withCpu (setFlags_eq s.cpu none n' h' c')
  exact ⟨rfl, fun hn => answer_next_congr (daaAdd hn), fun hn => answer_next_congr (daaSub hn),
    rfl, answer_next_congr (complementA_eq s), rfl, answer_next_congr (setFlags _ _ (some true)),
    rfl, answer_next_congr (setFlags _ _ (some !c))⟩

end Sys2Proof.Proofs
end

