-- ==== Sys2Proof/Proofs/Alu16.lean ====
section
/-! 16-bit arithmetic (spec/42_alu16.md R280-R282): the encodings of each shape, then what each operation of
Machine/Alu16.lean makes of the state, its sum written as one of numbers, then the rules put together from the two. -/

namespace Sys2Proof.Machine

/-! ## Encodings of one shape -/

theorem encode_addHL (dd : Pair) : encode (.addHL dd) = [opcodeByte (0x09 + 16 * dd.number)] := by
  cases dd <;> rfl

theorem encode_incPair (dd : Pair) : encode (.incPair dd) = [opcodeByte (0x03 + 16 * dd.number)] := by
  cases dd <;> rfl

theorem encode_decPair (dd : Pair) : encode (.decPair dd) = [opcodeByte (0x0B + 16 * dd.number)] := by
  cases dd <;> rfl

/-! ## The operations -/

/-- The F byte of a 16-bit sum: Z kept, N 0, the carries out of bits 11 and 15 (R280). -/
def add16Flags (p : Cpu) (a b : Word) : Byte :=
  flagsByte (p.f.getLsbD 7) false (a.toNat % 0x1000 + b.toNat % 0x1000 > 0x0FFF) (a.toNat + b.toNat > 0xFFFF)

/-- `add16` sets the flags of `add16Flags`. -/
theorem setFlags_add16 (p : Cpu) (a b : Word) :
    p.setFlags (add16 a b).z (add16 a b).n (add16 a b).h (add16 a b).c = { p with f := add16Flags p a b } :=
  setFlags_eq p ..

/-- Writing HL leaves F alone, so the flags may be set before it as well as after it. -/
theorem addHLPair_eq (dd : Pair) (s : State) :
    addHLPair dd s = (cycle s).withCpu
      ({ s.cpu with f := add16Flags s.cpu (s.cpu.pair .hl) (s.cpu.pair dd) }.setPair .hl
        (BitVec.ofNat 16 ((s.cpu.pair .hl).toNat + (s.cpu.pair dd).toNat))) := by
  rw [← BitVec.add_def]
  simp only [addHLPair, setFlags_add16, updCpu_eq_withCpu _ (cycle_cpu s)]
  rfl

theorem incPair_eq (dd : Pair) (s : State) :
    incPair dd s = (cycle s).withCpu (s.cpu.setPair dd (BitVec.ofNat 16 ((s.cpu.pair dd).toNat + 1))) := by
  have hinc : s.cpu.pair dd + 1 = BitVec.ofNat 16 ((s.cpu.pair dd).toNat + 1) := BitVec.add_def _ 1
  rw [← hinc]
  exact updCpu_eq_withCpu _ (cycle_cpu s)

/-- Taking 1 is adding 0xFFFF modulo 65536. -/
theorem decPair_eq (dd : Pair) (s : State) :
    decPair dd s = (cycle s).withCpu (s.cpu.setPair dd (BitVec.ofNat 16 ((s.cpu.pair dd).toNat + 0xFFFF))) := by
  have hdec : s.cpu.pair dd - 1 = BitVec.ofNat 16 ((s.cpu.pair dd).toNat + 0xFFFF) := by bv_omega
  rw [← hdec]
  exact updCpu_eq_withCpu _ (cycle_cpu s)

end Sys2Proof.Machine

namespace Sys2Proof.Proofs

open Sys2Proof.Machine

/-! ## The rules -/

/-- Settles O25: each form is one internal cycle, then the pair replaced by its sum. -/
theorem pairArithmetic : Obligations.PairArithmetic := fun dd s =>
  ⟨encode_addHL dd, (exec_addHL s dd).trans (answer_next_congr (addHLPair_eq dd s)),
    encode_incPair dd, (exec_incPair s dd).trans (answer_next_congr (incPair_eq dd s)),
    encode_decPair dd, (exec_decPair s dd).trans (answer_next_congr (decPair_eq dd s))⟩

end Sys2Proof.Proofs
end

