-- ==== Sys2Proof/Proofs/RotateShiftBit.lean ====
section
/-! Rotates, shifts and bit operations (spec/43_rotate_shift_bit.md R290-R305): the encodings of each shape, the results
of Machine/Flags.lean as the rules' numbers and bits, what each operation of Machine/RotateShiftBit.lean makes of the
state, then the rules put together from them. -/

namespace Sys2Proof.Machine

/-! ## Encodings of one shape -/

theorem encode_rotR (op : RotOp) (r : Reg8) :
    encode (.rotR op r) = [0xCB, opcodeByte (8 * op.number + r.number)] := by cases op <;> cases r <;> rfl

theorem encode_rotHL (op : RotOp) : encode (.rotHL op) = [0xCB, opcodeByte (8 * op.number + 6)] := by
  cases op <;> rfl

theorem encode_bitR (n : Fin 8) (r : Reg8) :
    encode (.bitR n r) = [0xCB, opcodeByte (0x40 + 8 * n.val + r.number)] := by
  fin_cases n <;> cases r <;> rfl

theorem encode_bitHL (n : Fin 8) : encode (.bitHL n) = [0xCB, opcodeByte (0x40 + 8 * n.val + 6)] := by
  fin_cases n <;> rfl

theorem encode_resR (n : Fin 8) (r : Reg8) :
    encode (.resR n r) = [0xCB, opcodeByte (0x80 + 8 * n.val + r.number)] := by
  fin_cases n <;> cases r <;> rfl

theorem encode_resHL (n : Fin 8) : encode (.resHL n) = [0xCB, opcodeByte (0x80 + 8 * n.val + 6)] := by
  fin_cases n <;> rfl

theorem encode_setR (n : Fin 8) (r : Reg8) :
    encode (.setR n r) = [0xCB, opcodeByte (0xC0 + 8 * n.val + r.number)] := by
  fin_cases n <;> cases r <;> rfl

theorem encode_setHL (n : Fin 8) : encode (.setHL n) = [0xCB, opcodeByte (0xC0 + 8 * n.val + 6)] := by
  fin_cases n <;> rfl

/-! ## A rotate or shift as numbers

Every rotate and shift but SWAP moves the byte one place and puts one bit in at the free end. -/

/-- A bit put in at bit 0 of a byte moved left. -/
theorem shiftLeft_or_bit (v : Byte) (b : Bool) :
    v <<< 1 ||| byteOfBool b = BitVec.ofNat 8 (2 * v.toNat % 256 + b.toNat) := by
  revert v; cases b <;> decide

/-- A bit put in at bit 7 of a byte moved right. -/
theorem shiftRight_or_bit (v : Byte) (b : Bool) :
    v >>> 1 ||| byteOfBool b <<< 7 = BitVec.ofNat 8 (v.toNat / 2 + 128 * b.toNat) := by
  revert v; cases b <;> decide

theorem bitOf_seven_toNat (v : Byte) : (bitOf v 7).toNat = v.toNat / 128 := by
  rw [bitOf_toNat v 7 (by decide)]; omega

theorem bitOf_zero_toNat (v : Byte) : (bitOf v 0).toNat = v.toNat % 2 := by
  rw [bitOf_toNat v 0 (by decide)]; omega

theorem bitOf_seven_eq (v : Byte) : bitOf v 7 = decide (v.toNat / 128 = 1) := by
  rw [← bitOf_seven_toNat]; cases bitOf v 7 <;> rfl

theorem bitOf_zero_eq (v : Byte) : bitOf v 0 = decide (v.toNat % 2 = 1) := by
  rw [← bitOf_zero_toNat]; cases bitOf v 0 <;> rfl

/-- The bit SRA keeps is bit 7, put in again. -/
theorem and_80_eq_bit (v : Byte) : v &&& (0x80 : Byte) = byteOfBool (bitOf v 7) <<< 7 := by revert v; decide

/-- SWAP: the halves of the byte do not overlap. -/
theorem swap_halves (v : Byte) :
    (v &&& 0x0F) <<< 4 ||| v >>> 4 = BitVec.ofNat 8 (16 * (v.toNat % 16) + v.toNat / 16) := by revert v; decide

/-- The rules' numbers give what `rotate` computes on bits (R295-R302). -/
theorem rotate_eq (op : RotOp) (v : Byte) (cin : Bool) :
    rotate op v cin =
      (BitVec.ofNat 8 (op.result v.toNat cin.toNat).1, (op.result v.toNat cin.toNat).2) := by
  have hleft := shiftLeft_or_bit v
  have hright := shiftRight_or_bit v
  cases op with
  | rlc => rw [rotate, hleft, bitOf_seven_toNat, bitOf_seven_eq]; rfl
  | rrc => rw [rotate, hright, bitOf_zero_toNat, bitOf_zero_eq]; rfl
  | rl => rw [rotate, hleft, bitOf_seven_eq]; rfl
  | rr => rw [rotate, hright, bitOf_zero_eq]; rfl
  | sla => rw [rotate, ← BitVec.or_zero (x := v <<< 1), bitOf_seven_eq]; exact Prod.ext (hleft false) rfl
  | sra => rw [rotate, and_80_eq_bit, hright, bitOf_seven_toNat, bitOf_zero_eq]; rfl
  | swap => rw [rotate, swap_halves]; rfl
  | srl => rw [rotate, ← BitVec.or_zero (x := v >>> 1), bitOf_zero_eq]; exact Prod.ext (hright false) rfl

/-- A rule's result is the number of a byte. -/
theorem rotOp_result_lt (op : RotOp) (v : Byte) (cin : Bool) : (op.result v.toNat cin.toNat).1 < 256 := by
  have hv := v.isLt
  have hc := cin.toNat_le
  cases op <;> simp only [RotOp.result] <;> omega

theorem rotResult_eq (op : RotOp) (v : Byte) (cin : Bool) :
    rotResult op v cin =
      { value := BitVec.ofNat 8 (op.result v.toNat cin.toNat).1
        z := some ((op.result v.toNat cin.toNat).1 = 0)
        n := some false, h := some false, c := some (op.result v.toNat cin.toNat).2 } := by
  simp only [rotResult, rotate_eq, ofNat_beq_zero, Nat.mod_eq_of_lt (rotOp_result_lt op v cin)]

/-! ## One bit as a number, and one bit changed -/

/-- Z of BIT: the bit is 0. -/
theorem not_bitOf_eq (v : Byte) (i : Nat) : (!bitOf v i) = decide (v.toNat / 2 ^ i % 2 = 0) := by
  rw [bitOf, getLsbD_eq, ← decide_not]
  exact decide_eq_decide.mpr Nat.mod_two_not_eq_one

theorem applyFlags_bitResult (p : Cpu) (n : Fin 8) (v : Byte) : p.applyFlags (bitResult n v) =
    { p with f := flagsByte (v.toNat / 2 ^ n.val % 2 = 0) false true (p.f.getLsbD 4) } := by
  simp only [Cpu.applyFlags, setFlags_eq, bitResult, not_bitOf_eq]; rfl

/-- The byte with bit n alone. -/
theorem bitMask_getLsbD (n : Fin 8) (i : Nat) : (1#8 <<< n.val).getLsbD i = decide (i = n.val) := by
  rw [← BitVec.twoPow_eq, BitVec.getLsbD_twoPow]
  simp [eq_comm]

theorem resValue_getLsbD (n : Fin 8) (v : Byte) (i : Nat) (hi : i < 8) :
    (resValue n v).getLsbD i = if i = n.val then false else v.getLsbD i := by
  rw [resValue, BitVec.getLsbD_and, BitVec.getLsbD_not, bitMask_getLsbD]
  split <;> simp [*]

theorem setValue_getLsbD (n : Fin 8) (v : Byte) (i : Nat) (hi : i < 8) :
    (setValue n v).getLsbD i = if i = n.val then true else v.getLsbD i := by
  rw [setValue, BitVec.getLsbD_or, bitMask_getLsbD]
  split <;> simp [*]

/-! ## The operations -/

theorem rotA_eq (op : RotOp) (s : State) :
    rotA op s = s.withCpu
      { s.cpu with
        a := BitVec.ofNat 8 (op.result s.cpu.a.toNat (s.cpu.f.getLsbD 4).toNat).1
        f := flagsByte false false false (op.result s.cpu.a.toNat (s.cpu.f.getLsbD 4).toNat).2 } := by
  refine congrArg s.withCpu ?_
  simp only [modifyReg_eq, rotAResult, rotResult_eq, Cpu.applyFlags, setFlags_eq]
  rfl

theorem bitAtHL_eq (n : Fin 8) (s : State) :
    bitAtHL n s = (cycle s).withCpu (s.cpu.applyFlags (bitResult n (busRead s (s.cpu.pair .hl)))) :=
  updCpu_eq_withCpu (fun p => p.applyFlags (bitResult n (busRead s (s.cpu.pair .hl)))) (cycle_cpu s)

/-- RES and SET of the byte at HL: the address of the write is HL from before the read cycle. -/
theorem rewriteAtHL_eq (g : Byte → Byte) (s : State) :
    rewriteAtHL g s = cycle (busWrite (cycle s) (s.cpu.pair .hl) (g (busRead s (s.cpu.pair .hl)))) := by
  simp only [rewriteAtHL, readCycle, writeCycle, cycle_cpu]; rfl

end Sys2Proof.Machine

namespace Sys2Proof.Proofs

open Sys2Proof.Machine

/-! ## The rules -/

/-- Settles O26: the CB operation on A with Z forced to 0, at each of the four opcodes. -/
theorem rotateAccumulator : Obligations.RotateAccumulator := fun s =>
  ⟨rfl, answer_next_congr (rotA_eq .rlc s), rfl, answer_next_congr (rotA_eq .rrc s),
    rfl, answer_next_congr (rotA_eq .rl s), rfl, answer_next_congr (rotA_eq .rr s)⟩

/-- Settles O27: a register is replaced by an update of the CPU alone, the byte at HL by a read and a write cycle. -/
theorem rotateAndShift : Obligations.RotateAndShift := by
  intro op s result f v
  have hflags (w : Byte) : s.cpu.applyFlags (rotResult op w s.cpu.cf) = { s.cpu with f := f w } := by
    rw [rotResult_eq]; exact setFlags_eq ..
  have hvalue (w : Byte) : (rotResult op w s.cpu.cf).value = BitVec.ofNat 8 (result w).1 := by
    rw [rotResult_eq]; rfl
  have hreg (r : Reg8) : s.cpu.modifyReg r (rotResult op · s.cpu.cf) =
      { s.cpu.setReg r (BitVec.ofNat 8 (result (s.cpu.reg r)).1) with f := f (s.cpu.reg r) } := by
    rw [modifyReg_eq, hflags, hvalue]
  have hHL := modifyAtHL_eq (rotResult op · s.cpu.cf) s
  rw [hflags, hvalue] at hHL
  exact ⟨fun r => ⟨encode_rotR op r, (exec_rotR s op r).trans (answer_next_congr (congrArg s.withCpu (hreg r)))⟩,
    encode_rotHL op, (exec_rotHL s op).trans (answer_next_congr hHL)⟩

/-- Settles O28: the flags of `bitResult` alone, after one read cycle for the form `(HL)`. -/
theorem testBit : Obligations.TestBit := by
  intro n s f
  have hflags (v : Byte) : s.cpu.applyFlags (bitResult n v) = { s.cpu with f := f v } :=
    applyFlags_bitResult s.cpu n v
  refine ⟨fun r => ⟨encode_bitR n r, ?reg⟩, encode_bitHL n, ?hl⟩
  case reg => exact (exec_bitR s n r).trans (answer_next_congr (congrArg s.withCpu (hflags _)))
  case hl => rw [exec_bitHL, bitAtHL_eq, hflags]

/-- Settles O29: RES and SET put in `resValue` and `setValue` of the operand. -/
theorem resetAndSetBit : Obligations.ResetAndSetBit := by
  intro n s set put base onR onHL
  cases set with
  | false =>
    exact ⟨fun r => ⟨encode_resR n r, _, resValue_getLsbD n _, exec_resR s n r⟩,
      encode_resHL n, _, resValue_getLsbD n _,
      (exec_resHL s n).trans (answer_next_congr (rewriteAtHL_eq _ s))⟩
  | true =>
    exact ⟨fun r => ⟨encode_setR n r, _, setValue_getLsbD n _, exec_setR s n r⟩,
      encode_setHL n, _, setValue_getLsbD n _,
      (exec_setHL s n).trans (answer_next_congr (rewriteAtHL_eq _ s))⟩

end Sys2Proof.Proofs
end

