-- ==== Sys2Proof/Proofs/Control.lean ====
section
/-! Control transfer (spec/44_control.md R320-R327, R330): the encodings of each shape, then what each operation of
Machine/Control.lean makes of the state, then the rules put together from the two. -/

namespace Sys2Proof.Machine

/-! ## Encodings of one shape -/

theorem encode_jpIf (cc : Cond) (lo hi : Byte) :
    encode (.jpIf cc (hi ++ lo)) = [opcodeByte (0xC2 + 8 * cc.number), lo, hi] := by
  cases cc <;> exact imm16_bytes _ lo hi

theorem encode_jrIf (cc : Cond) (e : Byte) : encode (.jrIf cc e) = [opcodeByte (0x20 + 8 * cc.number), e] := by
  cases cc <;> rfl

theorem encode_callIf (cc : Cond) (lo hi : Byte) :
    encode (.callIf cc (hi ++ lo)) = [opcodeByte (0xC4 + 8 * cc.number), lo, hi] := by
  cases cc <;> exact imm16_bytes _ lo hi

theorem encode_rst (y : Fin 8) : encode (.rst y) = [opcodeByte (0xC7 + 8 * y.val)] := by
  revert y; exact fin8_cases rfl rfl rfl rfl rfl rfl rfl rfl

/-! ## Jumps -/

/-- Writing PC is replacing the CPU, here by the one a state `s` before the cycles had. -/
theorem setPc_eq_withCpu {s t : State} (v : Word) (h : t.cpu = s.cpu) :
    t.setPc v = t.withCpu { s.cpu with pc := v } :=
  updCpu_eq_withCpu (fun p => { p with pc := v }) h

theorem jumpAbs_eq (nn : Word) (s : State) : jumpAbs nn s = (cycle s).withCpu { s.cpu with pc := nn } :=
  setPc_eq_withCpu nn (cycle_cpu s)

/-- The target is the sum with the signed offset, from the PC the fetch lines left (R324). -/
theorem jumpRel_eq (e : Byte) (s : State) :
    jumpRel e s = (cycle s).withCpu
      { s.cpu with pc := BitVec.ofInt 16 ((s.cpu.pc.toNat : Int) + e.toInt) } := by
  rw [← add_sext16_eq]
  exact setPc_eq_withCpu _ (cycle_cpu s)

theorem jumpAbsIf_eq (cc : Cond) (nn : Word) (s : State) :
    jumpAbsIf cc nn s = if cc.holds s.cpu.f then (cycle s).withCpu { s.cpu with pc := nn } else s := by
  rw [jumpAbsIf, cond_eq_holds, jumpAbs_eq]

theorem jumpRelIf_eq (cc : Cond) (e : Byte) (s : State) :
    jumpRelIf cc e s = if cc.holds s.cpu.f then (cycle s).withCpu
      { s.cpu with pc := BitVec.ofInt 16 ((s.cpu.pc.toNat : Int) + e.toInt) } else s := by
  rw [jumpRelIf, cond_eq_holds, jumpRel_eq]

/-! ## Calls -/

/-- A call is a push of PC, as PUSH makes it, with PC written after it (R326). -/
theorem callAbs_eq (nn : Word) (s : State) :
    callAbs nn s =
      (cycle (busWrite (cycle (busWrite (cycle s) (s.cpu.sp - 1) (hiByte s.cpu.pc)))
        (s.cpu.sp - 2) (loByte s.cpu.pc))).withCpu { s.cpu with sp := s.cpu.sp - 2, pc := nn } := by
  rw [callAbs, pushWord_eq, State.setPc, State.updCpu_updCpu]
  exact updCpu_eq_withCpu _ (by rw [writeCycle_cpu, writeCycle_cpu, cycle_cpu])

theorem callAbsIf_eq (cc : Cond) (nn : Word) (s : State) :
    callAbsIf cc nn s = if cc.holds s.cpu.f then callAbs nn s else s := by
  rw [callAbsIf, cond_eq_holds]

end Sys2Proof.Machine

namespace Sys2Proof.Proofs

open Sys2Proof.Machine

/-! ## The rules -/

/-- Settles O30: an absolute or relative jump is one internal cycle and PC written, JP HL the latter alone. -/
theorem jumps : Obligations.Jumps := fun lo hi e cc s =>
  ⟨imm16_bytes _ lo hi, answer_next_congr (jumpAbs_eq _ s),
    encode_jpIf cc lo hi, (exec_jpIf s cc _).trans (answer_next_congr (jumpAbsIf_eq cc _ s)),
    rfl, rfl,
    rfl, answer_next_congr (jumpRel_eq e s),
    encode_jrIf cc e, (exec_jrIf s cc e).trans (answer_next_congr (jumpRelIf_eq cc e s))⟩

/-- Settles O31: CALL and RST are `callAbs` at their target, CALL cc is it under its condition. -/
theorem calls : Obligations.Calls := by
  intro lo hi cc y s calls
  have hcalls (target : Word) : callAbs target s = calls target := by
    rw [callAbs_eq, ← opcodeByte_high, ← opcodeByte_low]
  have hcallIf : callAbsIf cc (hi ++ lo) s = if cc.holds s.cpu.f then calls (hi ++ lo) else s := by
    rw [callAbsIf_eq, hcalls]
  exact ⟨imm16_bytes _ lo hi, answer_next_congr (hcalls _),
    encode_callIf cc lo hi, (exec_callIf s cc _).trans (answer_next_congr hcallIf),
    encode_rst y, (exec_rst s y).trans (answer_next_congr (hcalls _))⟩

end Sys2Proof.Proofs
end

