-- ==== Sys2Proof/Proofs/Encoding.lean ====
section
/-! Decoding against encoding (spec/30_encoding.md R140-R152): the encodings of Laws/PerInstr.lean for every instruction
at once, and the bytes of whatever decodes, by the length its first byte gives. -/

namespace Sys2Proof.Machine

/-! ## From an instruction to its bytes and back -/

open Laws.Encoding in
/-- An instruction with an immediate and the two constructors with ill-formed terms by their own law; for every other
one both sides are closed and compute. -/
theorem encoding_statement (i : Instr) : Laws.Encoding.Statement i := by
  cases i with
  | ldBCImm nn => exact ldBCImm nn
  | ldBImm n => exact ldBImm n
  | ldAt16SP nn => exact ldAt16SP nn
  | ldCImm n => exact ldCImm n
  | ldDEImm nn => exact ldDEImm nn
  | ldDImm n => exact ldDImm n
  | jr e => exact jr e
  | ldEImm n => exact ldEImm n
  | jrNZ e => exact jrNZ e
  | ldHLImm nn => exact ldHLImm nn
  | ldHImm n => exact ldHImm n
  | jrZ e => exact jrZ e
  | ldLImm n => exact ldLImm n
  | jrNC e => exact jrNC e
  | ldSPImm nn => exact ldSPImm nn
  | ldAtHLImm n => exact ldAtHLImm n
  | jrC e => exact jrC e
  | ldAImm n => exact ldAImm n
  | jpNZ nn => exact jpNZ nn
  | jp nn => exact jp nn
  | callNZ nn => exact callNZ nn
  | addAImm n => exact addAImm n
  | jpZ nn => exact jpZ nn
  | callZ nn => exact callZ nn
  | call nn => exact call nn
  | adcAImm n => exact adcAImm n
  | jpNC nn => exact jpNC nn
  | illegal op => exact illegal op
  | callNC nn => exact callNC nn
  | subImm n => exact subImm n
  | jpC nn => exact jpC nn
  | callC nn => exact callC nn
  | sbcAImm n => exact sbcAImm n
  | ldhAt8A n => exact ldhAt8A n
  | andImm n => exact andImm n
  | addSPe e => exact addSPe e
  | ldAt16A nn => exact ldAt16A nn
  | xorImm n => exact xorImm n
  | ldhAAt8 n => exact ldhAAt8 n
  | orImm n => exact orImm n
  | ldHLSPe e => exact ldHLSPe e
  | ldAAt16 nn => exact ldAAt16 nn
  | cpImm n => exact cpImm n
  | prefixCb => exact prefixCb
  | _ => exact fun _ => ⟨rfl, rfl⟩

theorem instrLength_cases (op : Byte) : instrLength op = 1 ∨ instrLength op = 2 ∨ instrLength op = 3 := by
  unfold instrLength; split <;> [simp; split <;> simp]

/-- A sequence decodes when it has the bytes its first one asks for; the rest is left over. -/
theorem decode_of_length {bytes : List Byte} (hlen : bytes.length = instrLength (bytes.getD 0 0)) (rest : List Byte) :
    decode (bytes ++ rest) =
      .ok (decodeBytes (bytes.getD 0 0) (bytes.getD 1 0) (bytes.getD 2 0), rest) := by
  match bytes, hlen with
  | [], h => exact absurd h.symm (by decide)
  | [op], h | [op, b1], h | [op, b1, b2], h =>
    have h : instrLength op = _ := h.symm
    simp [decode, h]
  | op :: _ :: _ :: _ :: _, h =>
    have h : _ = instrLength op := h
    rcases instrLength_cases op with h1 | h1 | h1 <;> simp [h1] at h

/-! ## From bytes to an instruction and back -/

theorem encode_decodeBytes_one (op : Byte) (h : instrLength op = 1) :
    (decodeBytes op 0 0).wellFormed = true ∧ encode (decodeBytes op 0 0) = [op] := by
  revert op; decide

theorem encode_decodeCb (b : Byte) : (decodeCb b).wellFormed = true ∧ encode (decodeCb b) = [0xCB, b] := by
  revert b; decide

theorem encode_decodeBytes_two (op b1 : Byte) (h : instrLength op = 2) :
    (decodeBytes op b1 0).wellFormed = true ∧ encode (decodeBytes op b1 0) = [op, b1] := by
  have hmem : op = 0xCB ∨ op ∈ twoByteOpcodes.erase 0xCB := by revert op; decide
  rcases hmem with rfl | hmem
  · exact encode_decodeCb b1
  · fin_cases hmem <;> exact ⟨rfl, rfl⟩

/-- The word of the two immediate bytes has them as its halves. -/
theorem encode_decodeBytes_three (op b1 b2 : Byte) (h : instrLength op = 3) :
    (decodeBytes op b1 b2).wellFormed = true ∧ encode (decodeBytes op b1 b2) = [op, b1, b2] := by
  have hmem : op ∈ threeByteOpcodes := by revert op; decide
  fin_cases hmem <;> exact ⟨rfl, imm16_bytes _ b1 b2⟩

end Sys2Proof.Machine

namespace Sys2Proof.Proofs

open Sys2Proof.Machine

/-- Settles O1: the bytes are as many as the first one asks for, and they read back as the instruction. -/
theorem decodeInvertsEncode : Obligations.DecodeInvertsEncode := by
  intro i rest hwf
  obtain ⟨hlen, hback⟩ := encoding_statement i hwf
  rw [decode_of_length hlen, hback]

/-- Settles O2: by the length the first byte gives. -/
theorem encodeInvertsDecode : Obligations.EncodeInvertsDecode := by
  intro bytes i rest h
  cases bytes with
  | nil => simp [decode] at h
  | cons op bytes =>
    simp only [decode] at h
    split at h
    next h1 =>
      cases h
      obtain ⟨hwf, henc⟩ := encode_decodeBytes_one op h1
      exact ⟨hwf, by rw [henc]; rfl⟩
    next b1 bytes h2 =>
      cases h
      obtain ⟨hwf, henc⟩ := encode_decodeBytes_two op b1 h2
      exact ⟨hwf, by rw [henc]; rfl⟩
    next b1 b2 bytes h3 =>
      cases h
      obtain ⟨hwf, henc⟩ := encode_decodeBytes_three op b1 b2 h3
      exact ⟨hwf, by rw [henc]; rfl⟩
    next => cases h

/-- Settles O4: each word by evaluation. -/
theorem someWordsDecode : Obligations.SomeWordsDecode :=
  ⟨rfl, rfl, rfl, rfl, rfl, rfl, rfl, rfl, rfl, rfl, rfl, rfl⟩

end Sys2Proof.Proofs
end

