-- ==== Sys2Proof/Proofs/Performs.lean ====
section
/-! What an instruction does after its fetch lines, said once for all of them: so many cycles, each without a store or
with one, at the addresses and in the number that spec/70_reset_and_hazards.md R540 and the rules give, and a CPU update.
-/

namespace Sys2Proof.Machine

/-! ## Cycles with and without a store -/

/-- What the CPU does in a cycle besides reading: nothing, or a store of a byte at an address. -/
abbrev Access := Option (Word × Byte)

/-- The cycles of a list of accesses. -/
def perform : List Access → State → State
  | [], s => s
  | none :: l, s => perform l (cycle s)
  | some (a, v) :: l, s => perform l (writeCycle s a v)

/-- The addresses stored to, in order. -/
def storedAt (l : List Access) : List Word := l.filterMap (Option.map Prod.fst)

@[simp] theorem storedAt_none (l : List Access) : storedAt (none :: l) = storedAt l := rfl

@[simp] theorem storedAt_some (a : Word) (v : Byte) (l : List Access) :
    storedAt (some (a, v) :: l) = a :: storedAt l := rfl

@[simp] theorem perform_cpu (l : List Access) (s : State) : (perform l s).cpu = s.cpu := by
  induction l generalizing s with
  | nil => rfl
  | cons x l ih => cases x <;> simp [perform, ih]

theorem perform_updCpu (l : List Access) (s : State) (g : Cpu → Cpu) :
    perform l (s.updCpu g) = (perform l s).updCpu g := by
  induction l generalizing s with
  | nil => rfl
  | cons x l ih => cases x <;> simp only [perform, cycle_updCpu, writeCycle_updCpu, ih]

theorem perform_withCpu (l : List Access) (s : State) (p : Cpu) :
    perform l (s.withCpu p) = (perform l s).withCpu p := perform_updCpu l s fun _ => p

theorem perform_append (l m : List Access) (s : State) : perform (l ++ m) s = perform m (perform l s) := by
  induction l generalizing s with
  | nil => rfl
  | cons x l ih => cases x <;> exact ih _

/-- Cycles without a store are cycles without an access. -/
theorem perform_of_no_store {l : List Access} (h : storedAt l = []) (s : State) : perform l s = cycles l.length s := by
  induction l generalizing s with
  | nil => rfl
  | cons x l ih =>
    cases x with
    | none => exact ih h _
    | some x => cases h

/-- A property that a cycle and a bus write keep, the write at one of the addresses stored to. -/
theorem perform_keeps {P : State → Prop} {l : List Access} (hcycle : ∀ s, P s → P (cycle s))
    (hwrite : ∀ s, ∀ a ∈ storedAt l, ∀ v, P s → P (busWrite s a v)) {s : State} (hs : P s) : P (perform l s) := by
  induction l generalizing s with
  | nil => exact hs
  | cons x l ih =>
    cases x with
    | none => exact ih hwrite (hcycle s hs)
    | some x =>
      exact ih (fun s a ha => hwrite s a (List.mem_cons_of_mem _ ha))
        (hcycle _ (hwrite s x.1 List.mem_cons_self x.2 hs))

/-! ## What an operation performs -/

/-- From `s` to `t` in `n` cycles with stores at `as` alone; the CPU is replaced, F's low nibble staying 0. -/
def Performs (s t : State) (n : Nat) (as : List Word) : Prop :=
  ∃ l : List Access, l.length = n ∧ storedAt l = as ∧ t = (perform l s).withCpu t.cpu ∧
    (s.cpu.f &&& 0x0F = 0 → t.cpu.f &&& 0x0F = 0)

variable (s : State)

/-- The cycles of a list of accesses with the CPU replaced. -/
theorem perform_performs (l : List Access) {p : Cpu} (hf : s.cpu.f &&& 0x0F = 0 → p.f &&& 0x0F = 0) :
    Performs s ((perform l s).withCpu p) l.length (storedAt l) := ⟨l, rfl, rfl, rfl, hf⟩

/-- The cycles of a list of accesses with the CPU as it is. -/
theorem perform_performs_self (l : List Access) : Performs s (perform l s) l.length (storedAt l) :=
  ⟨l, rfl, rfl, rfl, fun h => (congrArg (fun p : Cpu => p.f &&& 0x0F) (perform_cpu l s)).trans h⟩

theorem Performs.trans {s t u : State} {m n : Nat} {as bs : List Word} (h : Performs s t m as)
    (h' : Performs t u n bs) :
    Performs s u (m + n) (as ++ bs) := by
  obtain ⟨l, rfl, rfl, ht, hf⟩ := h
  obtain ⟨l', rfl, rfl, hu, hf'⟩ := h'
  refine ⟨l ++ l', List.length_append, List.filterMap_append, ?_, hf' ∘ hf⟩
  rw [perform_append, ← withCpu_withCpu _ t.cpu, ← perform_withCpu, ← ht]
  exact hu

/-- An update of the CPU that ends with a flag update. -/
theorem setFlags_performs {g : Cpu → Cpu} (hg : ∃ p z n h c, g s.cpu = Cpu.setFlags p z n h c) :
    Performs s (s.updCpu g) 0 [] := by
  obtain ⟨p, z, n, h, c, hg⟩ := hg
  exact perform_performs s [] fun _ => hg ▸ p.setFlags_low z n h c

/-- An update of the CPU that keeps F. -/
theorem updCpu_performs {g : Cpu → Cpu} (hg : (g s.cpu).f = s.cpu.f) : Performs s (s.updCpu g) 0 [] :=
  perform_performs s [] fun h => hg ▸ h

/-! ## The operations -/

theorem loadRegAt_performs (dst : Reg8) (a : Word) : Performs s (loadRegAt dst a s) 1 [] := by
  rw [loadRegAt_eq]
  exact perform_performs s [none] fun h => (s.cpu.setReg_f dst _).symm ▸ h

theorem loadAHLStep_performs (st : HLStep) : Performs s (loadAHLStep st s) 1 [] := by
  rw [loadAHLStep_eq]
  exact perform_performs s [none] id

theorem writeCycle_performs (a : Word) (v : Byte) : Performs s (writeCycle s a v) 1 [a] :=
  perform_performs_self s [some (a, v)]

theorem storeAHLStep_performs (st : HLStep) : Performs s (storeAHLStep st s) 1 [s.cpu.hl] := by
  rw [storeAHLStep_eq]
  exact perform_performs s [some (_, _)] id

theorem storeAbsSP_performs (nn : Word) : Performs s (storeAbsSP nn s) 2 [nn, nn + 1] := by
  rw [storeAbsSP_eq]
  exact perform_performs_self s [some (_, _), some (_, _)]

theorem loadSPHL_performs : Performs s (loadSPHL s) 1 [] := by
  rw [loadSPHL_eq]
  exact perform_performs s [none] id

theorem flagsByte_low (z n h c : Bool) : flagsByte z n h c &&& 0x0F = 0 := by
  rw [← packFlags_eq]; exact packFlags_low z n h c

theorem loadHLSPe_performs (e : Byte) : Performs s (loadHLSPe e s) 1 [] := by
  rw [loadHLSPe_eq]
  exact perform_performs s [none] fun _ => flagsByte_low ..

theorem addSPImm_performs (e : Byte) : Performs s (addSPImm e s) 2 [] := by
  rw [addSPImm_eq]
  exact perform_performs s [none, none] fun _ => flagsByte_low ..

theorem pushPair_performs (qq : StackPair) :
    Performs s (pushPair qq s) 3 [s.cpu.sp - 1, s.cpu.sp - 2] := by
  rw [pushPair_eq]
  exact perform_performs s [none, some (_, _), some (_, _)] id

theorem setStackPair_low (p : Cpu) (qq : StackPair) (v : Word) (h : p.f &&& 0x0F = 0) :
    (p.setStackPair qq v).f &&& 0x0F = 0 := by
  cases qq with
  | af => exact (BitVec.and_assoc ..).trans BitVec.and_zero
  | _ => exact h

theorem popPair_performs (qq : StackPair) : Performs s (popPair qq s) 2 [] := by
  rw [popPair_eq]
  exact perform_performs s [none, none] (setStackPair_low { s.cpu with sp := s.cpu.sp + 2 } qq _)

theorem addHLPair_performs (dd : Pair) : Performs s (addHLPair dd s) 1 [] := by
  rw [addHLPair_eq]
  exact perform_performs s [none] fun _ => flagsByte_low ..

theorem incPair_performs (dd : Pair) : Performs s (incPair dd s) 1 [] := by
  rw [incPair_eq]
  exact perform_performs s [none] fun h => (s.cpu.setPair_f dd _).symm ▸ h

theorem decPair_performs (dd : Pair) : Performs s (decPair dd s) 1 [] := by
  rw [decPair_eq]
  exact perform_performs s [none] fun h => (s.cpu.setPair_f dd _).symm ▸ h

theorem aluAtHL_performs (op : AluOp) : Performs s (aluAtHL op s) 1 [] := by
  rw [aluAtHL_eq]
  exact perform_performs s [none] fun _ => Cpu.setFlags_low ..

theorem modifyAtHL_performs (g : Byte → Result8) : Performs s (modifyAtHL g s) 2 [s.cpu.hl] := by
  rw [modifyAtHL_eq]
  exact perform_performs s [none, some (_, _)] fun _ => Cpu.setFlags_low ..

theorem bitAtHL_performs (n : Fin 8) : Performs s (bitAtHL n s) 1 [] := by
  rw [bitAtHL_eq]
  exact perform_performs s [none] fun _ => Cpu.setFlags_low ..

theorem rewriteAtHL_performs (g : Byte → Byte) : Performs s (rewriteAtHL g s) 2 [s.cpu.hl] := by
  rw [rewriteAtHL_eq]
  exact perform_performs_self s [none, some (_, _)]

theorem jumpAbs_performs (nn : Word) : Performs s (jumpAbs nn s) 1 [] := by
  rw [jumpAbs_eq]
  exact perform_performs s [none] id

theorem jumpAbsIf_performs (cc : Cond) (nn : Word) :
    Performs s (jumpAbsIf cc nn s) ((if cc.holds s.cpu.f then 4 else 3) - 3) [] := by
  rw [jumpAbsIf, cond_eq_holds]
  split <;> [exact jumpAbs_performs s nn; exact perform_performs_self s []]

theorem jumpRel_performs (e : Byte) : Performs s (jumpRel e s) 1 [] := by
  rw [jumpRel_eq]
  exact perform_performs s [none] id

theorem jumpRelIf_performs (cc : Cond) (e : Byte) :
    Performs s (jumpRelIf cc e s) ((if cc.holds s.cpu.f then 3 else 2) - 2) [] := by
  rw [jumpRelIf, cond_eq_holds]
  split <;> [exact jumpRel_performs s e; exact perform_performs_self s []]

theorem callAbs_performs (nn : Word) : Performs s (callAbs nn s) 3 [s.cpu.sp - 1, s.cpu.sp - 2] := by
  rw [callAbs_eq]
  exact perform_performs s [none, some (_, _), some (_, _)] id

theorem callAbsIf_performs (cc : Cond) (nn : Word) :
    Performs s (callAbsIf cc nn s) ((if cc.holds s.cpu.f then 6 else 3) - 3)
      (if cc.holds s.cpu.f then [s.cpu.sp - 1, s.cpu.sp - 2] else []) := by
  rw [callAbsIf_eq]
  split <;> [exact callAbs_performs s nn; exact perform_performs_self s []]

/-! ## Returning -/

/-- RET: the popped word to PC, two cycles of the pop and an internal one (spec/44_control.md R328). -/
theorem returnFromCall_eq :
    returnFromCall s = (cycles 3 s).withCpu
      { s.cpu with pc := busRead (cycle s) (s.cpu.sp + 1) ++ busRead s s.cpu.sp, sp := s.cpu.sp + 2 } := by
  simp only [returnFromCall, popWord_eq, cycle_updCpu, State.setPc, State.updCpu_updCpu]
  exact updCpu_eq_withCpu _ (cycles_cpu 3 s)

theorem returnFromInterrupt_eq :
    returnFromInterrupt s = (cycles 3 s).withCpu
      { s.cpu with
        pc := busRead (cycle s) (s.cpu.sp + 1) ++ busRead s s.cpu.sp, sp := s.cpu.sp + 2, ime := true } := by
  rw [returnFromInterrupt, returnFromCall_eq]; rfl

theorem returnIf_eq (cc : Cond) :
    returnIf cc s = if cc.holds s.cpu.f then returnFromCall (cycle s) else cycle s := by
  rw [returnIf, cond_eq_holds]

theorem returnFromCall_performs : Performs s (returnFromCall s) 3 [] := by
  rw [returnFromCall_eq]
  exact perform_performs s [none, none, none] id

theorem returnFromInterrupt_performs : Performs s (returnFromInterrupt s) 3 [] := by
  rw [returnFromInterrupt_eq]
  exact perform_performs s [none, none, none] id

theorem cycle_performs : Performs s (cycle s) 1 [] := perform_performs_self s [none]

theorem returnIf_performs (cc : Cond) :
    Performs s (returnIf cc s) ((if cc.holds s.cpu.f then 5 else 2) - 1) [] := by
  rw [returnIf_eq]
  split
  · exact (cycle_performs s).trans (returnFromCall_performs (cycle s))
  · exact cycle_performs s

/-! ## Every instruction -/

/-- An instruction other than STOP, the illegal opcodes and the byte 0xCB by itself completes, in the cycles of the
table of R540 and with the stores of its rule. -/
theorem exec_performs (i : Instr) (hstop : i ≠ .stop) (hillegal : ∀ op, i ≠ .illegal op) (hcb : i ≠ .prefixCb) :
    ∃ t, exec i s = .next t ∧
      Performs s t (i.cycles (taken i s.cpu.f) - (encode i).length) (storeAddresses i s) := by
  cases i with
  | stop => exact absurd rfl hstop
  | illegal op => exact absurd rfl (hillegal op)
  | prefixCb => exact absurd rfl hcb
  | nop => exact ⟨_, rfl, perform_performs_self s []⟩
  | ldBB | ldBC | ldBD | ldBE | ldBH | ldBL | ldBA | ldCB | ldCC | ldCD | ldCE | ldCH | ldCL | ldCA | ldDB | ldDC
  | ldDD | ldDE | ldDH | ldDL | ldDA | ldEB | ldEC | ldED | ldEE | ldEH | ldEL | ldEA | ldHB | ldHC | ldHD | ldHE
  | ldHH | ldHL | ldHA | ldLB | ldLC | ldLD | ldLE | ldLH | ldLL | ldLA | ldAB | ldAC | ldAD | ldAE | ldAH | ldAL
  | ldAA | ldBImm n | ldCImm n | ldDImm n | ldEImm n | ldHImm n | ldLImm n | ldAImm n | res0B | res0C | res0D
  | res0E | res0H | res0L | res0A | res1B | res1C | res1D | res1E | res1H | res1L | res1A | res2B | res2C | res2D
  | res2E | res2H | res2L | res2A | res3B | res3C | res3D | res3E | res3H | res3L | res3A | res4B | res4C | res4D
  | res4E | res4H | res4L | res4A | res5B | res5C | res5D | res5E | res5H | res5L | res5A | res6B | res6C | res6D
  | res6E | res6H | res6L | res6A | res7B | res7C | res7D | res7E | res7H | res7L | res7A | set0B | set0C | set0D
  | set0E | set0H | set0L | set0A | set1B | set1C | set1D | set1E | set1H | set1L | set1A | set2B | set2C | set2D
  | set2E | set2H | set2L | set2A | set3B | set3C | set3D | set3E | set3H | set3L | set3A | set4B | set4C | set4D
  | set4E | set4H | set4L | set4A | set5B | set5C | set5D | set5E | set5H | set5L | set5A | set6B | set6C | set6D
  | set6E | set6H | set6L | set6A | set7B | set7C | set7D | set7E | set7H | set7L | set7A =>
    exact ⟨_, rfl, updCpu_performs s (s.cpu.setReg_f _ _)⟩
  | ldBCImm nn | ldDEImm nn | ldHLImm nn | ldSPImm nn => exact ⟨_, rfl, updCpu_performs s (s.cpu.setPair_f _ _)⟩
  | halt | di | ei => exact ⟨_, rfl, updCpu_performs s rfl⟩
  | jpHL => exact ⟨_, rfl, perform_performs s [] id⟩
  | ldBAtHL | ldCAtHL | ldDAtHL | ldEAtHL | ldHAtHL | ldLAtHL | ldAAtHL | ldAAtBC | ldAAtDE | ldAAt16 nn
  | ldhAAt8 n | ldAAtC => exact ⟨_, rfl, loadRegAt_performs s _ _⟩
  | ldAAtHLInc | ldAAtHLDec => exact ⟨_, rfl, loadAHLStep_performs s _⟩
  | ldAtHLB | ldAtHLC | ldAtHLD | ldAtHLE | ldAtHLH | ldAtHLL | ldAtHLA | ldAtHLImm n | ldAtBCA | ldAtDEA
  | ldAt16A nn | ldhAt8A n | ldAtCA => exact ⟨_, rfl, writeCycle_performs s _ _⟩
  | ldAtHLIncA | ldAtHLDecA => exact ⟨_, rfl, storeAHLStep_performs s _⟩
  | ldAt16SP nn => exact ⟨_, rfl, storeAbsSP_performs s _⟩
  | ldSPHL => exact ⟨_, rfl, loadSPHL_performs s⟩
  | ldHLSPe e => exact ⟨_, rfl, loadHLSPe_performs s _⟩
  | addSPe e => exact ⟨_, rfl, addSPImm_performs s _⟩
  | pushBC | pushDE | pushHL | pushAF => exact ⟨_, rfl, pushPair_performs s _⟩
  | popBC | popDE | popHL | popAF => exact ⟨_, rfl, popPair_performs s _⟩
  | addHLBC | addHLDE | addHLHL | addHLSP => exact ⟨_, rfl, addHLPair_performs s _⟩
  | incBC | incDE | incHL | incSP => exact ⟨_, rfl, incPair_performs s _⟩
  | decBC | decDE | decHL | decSP => exact ⟨_, rfl, decPair_performs s _⟩
  | addAAtHL | adcAAtHL | subAtHL | sbcAAtHL | andAtHL | xorAtHL | orAtHL | cpAtHL =>
    exact ⟨_, rfl, aluAtHL_performs s _⟩
  | incAtHL | decAtHL | rlcAtHL | rrcAtHL | rlAtHL | rrAtHL | slaAtHL | sraAtHL | swapAtHL | srlAtHL =>
    exact ⟨_, rfl, modifyAtHL_performs s _⟩
  | bit0AtHL | bit1AtHL | bit2AtHL | bit3AtHL | bit4AtHL | bit5AtHL | bit6AtHL | bit7AtHL =>
    exact ⟨_, rfl, bitAtHL_performs s _⟩
  | res0AtHL | res1AtHL | res2AtHL | res3AtHL | res4AtHL | res5AtHL | res6AtHL | res7AtHL | set0AtHL | set1AtHL
  | set2AtHL | set3AtHL | set4AtHL | set5AtHL | set6AtHL | set7AtHL => exact ⟨_, rfl, rewriteAtHL_performs s _⟩
  | jp nn => exact ⟨_, rfl, jumpAbs_performs s _⟩
  | jpNZ nn | jpZ nn | jpNC nn | jpC nn => exact ⟨_, rfl, jumpAbsIf_performs s _ _⟩
  | jr e => exact ⟨_, rfl, jumpRel_performs s _⟩
  | jrNZ e | jrZ e | jrNC e | jrC e => exact ⟨_, rfl, jumpRelIf_performs s _ _⟩
  | call nn | rst00 | rst08 | rst10 | rst18 | rst20 | rst28 | rst30 | rst38 => exact ⟨_, rfl, callAbs_performs s _⟩
  | callNZ nn | callZ nn | callNC nn | callC nn => exact ⟨_, rfl, callAbsIf_performs s _ _⟩
  | ret => exact ⟨_, rfl, returnFromCall_performs s⟩
  | reti => exact ⟨_, rfl, returnFromInterrupt_performs s⟩
  | retNZ | retZ | retNC | retC => exact ⟨_, rfl, returnIf_performs s _⟩
  | _ => exact ⟨_, rfl, setFlags_performs s ⟨_, _, _, _, _, rfl⟩⟩

/-- What a completed instruction performed. -/
theorem performs_of_exec {i : Instr} {t : State} (hcb : i ≠ .prefixCb) (h : exec i s = .next t) :
    Performs s t (i.cycles (taken i s.cpu.f) - (encode i).length) (storeAddresses i s) := by
  have hstop : i ≠ .stop := by rintro rfl; cases h
  have hillegal (op : Byte) : i ≠ .illegal op := by rintro rfl; cases h
  obtain ⟨u, hu, hperforms⟩ := exec_performs s i hstop hillegal hcb
  obtain rfl : u = t := by injection hu.symm.trans h
  exact hperforms

end Sys2Proof.Machine
end

