-- ==== Sys2Proof/Proofs/Cartridge.lean ====
section
/-! The cartridge (spec/20_memory.md R110-R131): what the bank controller's writes do, what the ROM and RAM windows
read, which images are admitted, and the battery image. -/

namespace Sys2Proof.Machine

/-! ## The bank controller's fields of a written byte -/

theorem ramEnable_eq (v : Byte) : (v &&& 0x0F == 0x0A) = decide (v.toNat % 16 = 0x0A) := by revert v; decide

theorem coerceBank_five (v : Byte) :
    coerceBank (v &&& 0x1F) = BitVec.ofNat 8 (if v.toNat % 32 = 0 then 1 else v.toNat % 32) := by revert v; decide

theorem coerceBank_seven (v : Byte) :
    coerceBank (v &&& 0x7F) = BitVec.ofNat 8 (if v.toNat % 128 = 0 then 1 else v.toNat % 128) := by revert v; decide

theorem ramSelect_eq (v : Byte) : v.extractLsb' 0 2 = BitVec.ofNat 2 v.toNat := by revert v; decide

variable (c : Cartridge) (a : Word) (v : Byte)

/-! ## The ROM window -/

theorem romOffset_eq : c.romOffset a =
    if c.family = .plain ∨ a.toNat < 0x4000 then a.toNat
    else c.romSel.toNat % c.romBanks * 16384 + (a.toNat - 0x4000) := by
  unfold Cartridge.romOffset
  cases hf : c.family with
  | plain => exact (if_pos (.inl rfl)).symm
  | familyA | familyB =>
    refine if_congr ?_ rfl rfl
    simp

/-! ## The RAM window -/

/-- External RAM answers on a cartridge with a controller, while enabled and in a bank that exists. -/
theorem ramAccessible_iff :
    c.ramAccessible = true ↔ c.family ≠ .plain ∧ c.ramEnabled = true ∧ c.activeRamBank < c.ramBanks := by
  unfold Cartridge.ramAccessible
  cases c.family <;> simp

theorem writeRam_of_accessible (h : c.ramAccessible = true) :
    c.writeRam a v = { c with ram := c.ram.write (c.ramKey a) v, needsSave := c.needsSave || c.battery } := if_pos h

theorem writeRam_of_not_accessible (h : ¬ c.ramAccessible = true) : c.writeRam a v = c := if_neg h

/-- A write to external RAM changes neither the window nor the ROM. -/
theorem writeRam_readRom (b : Word) : (c.writeRam a v).readRom b = c.readRom b := by
  unfold Cartridge.writeRam; split <;> rfl

theorem ramKey_inj {b : Word} (ha : 0xA000 ≤ a.toNat) (hb : 0xA000 ≤ b.toNat) (h : b ≠ a) :
    c.ramKey b ≠ c.ramKey a := by
  have hne : b.toNat ≠ a.toNat := fun e => h (BitVec.eq_of_toNat_eq e)
  intro he
  have hoff : b.toNat - 0xA000 = a.toNat - 0xA000 := Nat.add_left_cancel he
  omega

theorem readRam_writeRam_same (h : c.ramAccessible = true) : (c.writeRam a v).readRam a = v := by
  rw [writeRam_of_accessible c a v h]
  exact (if_pos h).trans (Memory.read_write_same _ _ _)

theorem readRam_writeRam_other {b : Word} (ha : 0xA000 ≤ a.toNat) (hb : 0xA000 ≤ b.toNat) (h : b ≠ a) :
    (c.writeRam a v).readRam b = c.readRam b := by
  by_cases hacc : c.ramAccessible = true
  · rw [writeRam_of_accessible c a v hacc]
    have hread := Memory.read_write_other c.ram v (ramKey_inj c a ha hb h)
    exact congrArg (fun x => if c.ramAccessible = true then x else openBus) hread
  · rw [writeRam_of_not_accessible c a v hacc]

/-! ## Loading an image -/

theorem typeCodeInfo_isSome (code : Byte) : (typeCodeInfo code).isSome = true ↔
    code.toNat ∈ [0x00, 0x01, 0x02, 0x03, 0x0F, 0x10, 0x11, 0x12, 0x13] := by revert code; decide

theorem typeCodeInfo_fields (code : Byte) : ∀ info ∈ typeCodeInfo code,
    (info.1 = .plain ↔ code.toNat = 0x00) ∧ (info.1 = .familyA ↔ 0x01 ≤ code.toNat ∧ code.toNat ≤ 0x03) ∧
    (info.1 = .familyB ↔ 0x0F ≤ code.toNat) ∧ (info.2 = true ↔ code.toNat ∈ [0x03, 0x0F, 0x10, 0x13]) := by
  revert code; decide

theorem romBankCount_eq_some (code : Byte) (n : Nat) :
    romBankCount code = some n ↔ code.toNat ≤ 8 ∧ n = 2 * 2 ^ code.toNat := by
  rw [romBankCount, Nat.shiftLeft_eq]
  split <;> simp [*, eq_comm]

theorem ramBankCount_eq (code : Byte) :
    ramBankCount code = if code.toNat ≤ 5 then some ([0, 0, 1, 4, 16, 8].getD code.toNat 0) else none := by
  revert code; decide

theorem ramBankCount_eq_some (code : Byte) (n : Nat) :
    ramBankCount code = some n ↔ code.toNat ≤ 5 ∧ n = [0, 0, 1, 4, 16, 8].getD code.toNat 0 := by
  rw [ramBankCount_eq]
  split <;> simp [*, eq_comm]

/-- The cartridge of an image whose header's three codes are read as `family`, `hasBattery` and the bank counts. -/
def admittedCartridge (image : List Byte) (battery : Option (List Byte)) (info : Family × Bool)
    (romBanks ramBanks : Nat) : Cartridge :=
  { Cartridge.absent with
    rom := Memory.ofBytes 0 image, romLen := image.length, header := some (parseHeader image), rejected := none
    family := info.1, battery := info.2, romBanks := romBanks, ramBanks := ramBanks
    ram := initialRam ramBanks battery }

/-- An image with a header whose three codes are in their tables is admitted (spec/20_memory.md R121). -/
theorem loadCartridge_of_codes {image : List Byte} {info : Family × Bool} {romBanks ramBanks : Nat}
    (battery : Option (List Byte)) (hlen : 0x150 ≤ image.length)
    (htype : typeCodeInfo (image.getD 0x147 0) = some info) (hrom : romBankCount (image.getD 0x148 0) = some romBanks)
    (hram : ramBankCount (image.getD 0x149 0) = some ramBanks) :
    loadCartridge image battery = admittedCartridge image battery info romBanks ramBanks := by
  have htype' : typeCodeInfo (parseHeader image).typeCode = some (info.1, info.2) := htype
  have hrom' : romBankCount (parseHeader image).romSizeCode = some romBanks := hrom
  have hram' : ramBankCount (parseHeader image).ramSizeCode = some ramBanks := hram
  simp only [loadCartridge, if_neg (Nat.not_lt.mpr hlen), htype', hrom', hram']
  rfl

/-- No other image is admitted: each missing code sets `rejected`. -/
theorem codes_of_admitted {image : List Byte} {battery : Option (List Byte)}
    (h : (loadCartridge image battery).rejected = none) : ∃ info romBanks ramBanks, 0x150 ≤ image.length ∧
      typeCodeInfo (image.getD 0x147 0) = some info ∧ romBankCount (image.getD 0x148 0) = some romBanks ∧
      ramBankCount (image.getD 0x149 0) = some ramBanks := by
  unfold loadCartridge at h
  split at h
  next => cases h
  next hlen =>
    dsimp only at h
    split at h
    next => cases h
    next family hasBattery htype =>
      split at h
      next => cases h
      next romBanks hrom =>
        split at h
        next => cases h
        next ramBanks hram => exact ⟨_, romBanks, ramBanks, Nat.not_lt.mp hlen, htype, hrom, hram⟩

theorem ofBytes_read (bytes : List Byte) (k : Nat) : (Memory.ofBytes 0 bytes).read k = bytes.getD k 0 := by
  rw [Memory.ofBytes, Memory.read, Cells.read_ofList, if_pos (Nat.zero_le k), Nat.sub_zero]; rfl

/-! ## The battery image -/

/-- Reading a memory of a list over the list's length gives the list back. -/
theorem map_read_ofBytes (bytes : List Byte) :
    (List.range bytes.length).map (Memory.ofBytes 0 bytes).read = bytes := by
  refine List.ext_getElem (by simp) fun k h _ => ?_
  have hk : k < bytes.length := by simpa using h
  simp [ofBytes_read, hk]

theorem map_read_nil (n : Nat) : (List.range n).map (Memory.read []) = List.replicate n 0 := by
  refine List.ext_getElem (by simp) fun k _ _ => ?_
  rw [List.getElem_map, List.getElem_replicate]; rfl

theorem initialRam_save {ramBanks : Nat} (h : ramBanks ≠ 0) {save : List Byte} (hlen : save.length = 8192) :
    initialRam ramBanks (some save) = Memory.ofBytes 0 save := by
  have htake : save.take Config.ramBankSize = save := List.take_of_length_le hlen.le
  rw [initialRam, if_neg h, htake]

theorem loadCartridge_ram {image : List Byte} {battery : Option (List Byte)}
    (h : (loadCartridge image battery).rejected = none) :
    (loadCartridge image battery).ram = initialRam (loadCartridge image battery).ramBanks battery := by
  obtain ⟨_, _, _, hlen, htype, hrom, hram⟩ := codes_of_admitted h
  rw [loadCartridge_of_codes battery hlen htype hrom hram]; rfl

end Sys2Proof.Machine

namespace Sys2Proof.Proofs

open Sys2Proof.Machine

/-- Settles O45: the range of the address chooses the register, its bits are the low bits of the byte. -/
theorem bankControl : Obligations.BankControl := by
  intro c a v
  simp only [← ramEnable_eq, ← coerceBank_five, ← coerceBank_seven, ← ramSelect_eq, ← bitOf_zero_eq]
  have controller (h : c.family ≠ .plain) : c.family = .familyA ∨ c.family = .familyB := by
    cases hf : c.family <;> simp_all
  refine ⟨fun h => by rw [Cartridge.writeControl, h], fun h ha => ?_, fun h ha hb => ?_, fun h ha hb => ?_,
    fun h ha hb => ?_, fun h ha => ?_, fun h ha => ?_⟩
  · rcases controller h with h | h <;> simp only [Cartridge.writeControl, h, if_pos ha]
  · simp only [Cartridge.writeControl, h, if_neg (Nat.not_lt.mpr ha), if_pos hb]
  · simp only [Cartridge.writeControl, h, if_neg (Nat.not_lt.mpr ha), if_pos hb]
  · have h1 : ¬ a.toNat < 0x2000 := by omega
    rcases controller h with h | h <;>
      simp only [Cartridge.writeControl, h, if_neg h1, if_neg (Nat.not_lt.mpr ha), if_pos hb]
  all_goals
    have h1 : ¬ a.toNat < 0x2000 := by omega
    have h2 : ¬ a.toNat < 0x4000 := by omega
    simp only [Cartridge.writeControl, h, if_neg h1, if_neg h2, if_neg (Nat.not_lt.mpr ha)]

/-- Settles O46: the offset and the bank of the statement are the model's, and writes of the RAM go to one key. -/
theorem cartridgeWindows : Obligations.CartridgeWindows := by
  intro c a v offset bank answers
  have hoffset : c.romOffset a = offset := romOffset_eq c a
  have hanswers : answers ↔ c.ramAccessible = true := (ramAccessible_iff c).symm
  rw [hanswers]
  refine ⟨fun h => ?_, fun h => ?_, fun h => ⟨if_neg h, writeRam_of_not_accessible c a v h⟩, fun h =>
    ⟨readRam_writeRam_same c a v h, writeRam_of_accessible c a v h, fun b ha hb => readRam_writeRam_other c a v ha hb⟩⟩
  · rw [Cartridge.readRom, hoffset]; exact if_pos h
  · rw [Cartridge.readRom, hoffset]; exact if_neg (Nat.not_lt.mpr h)

/-- Settles O47: the three codes' tables as sets of numbers. -/
theorem cartridgeAdmission : Obligations.CartridgeAdmission := by
  intro image battery code rom ram c
  refine ⟨⟨fun h => ?_, fun ⟨hlen, hcode, hrom, hram⟩ => ?_⟩, fun h => ?_⟩
  · obtain ⟨info, romBanks, ramBanks, hlen, htype, hrom, hram⟩ := codes_of_admitted h
    exact ⟨hlen, (typeCodeInfo_isSome _).mp (Option.isSome_of_mem htype), ((romBankCount_eq_some _ _).mp hrom).1,
      ((ramBankCount_eq_some _ _).mp hram).1⟩
  · obtain ⟨info, htype⟩ := Option.isSome_iff_exists.mp ((typeCodeInfo_isSome _).mpr hcode)
    exact congrArg Cartridge.rejected (loadCartridge_of_codes battery hlen htype
      ((romBankCount_eq_some _ _).mpr ⟨hrom, rfl⟩) ((ramBankCount_eq_some _ _).mpr ⟨hram, rfl⟩))
  · obtain ⟨info, romBanks, ramBanks, hlen, htype, hrom, hram⟩ := codes_of_admitted h
    obtain ⟨hplain, hA, hB, hbattery⟩ := typeCodeInfo_fields _ info htype
    have hc : c = admittedCartridge image battery info romBanks ramBanks :=
      loadCartridge_of_codes battery hlen htype hrom hram
    rw [hc]
    exact ⟨((romBankCount_eq_some _ _).mp hrom).2, ((ramBankCount_eq_some _ _).mp hram).2, hplain, hA, hB, hbattery,
      rfl, ofBytes_read image, rfl, rfl, rfl, rfl, rfl⟩

/-- Settles O48: a save reads the memory that loading made of the battery image. -/
theorem batteryRoundTrip : Obligations.BatteryRoundTrip := by
  intro st save hlen hadmitted
  have hsave (h : (loadCartridge st.cart st.battery).ramBanks ≠ 0) : (resetWith st).saveBattery =
      some ((List.range 8192).map (initialRam (loadCartridge st.cart st.battery).ramBanks st.battery).read) := by
    rw [← loadCartridge_ram hadmitted]; exact if_neg h
  refine ⟨fun h => if_pos h, fun h hbattery => ?_, fun h hbattery => ?_⟩
  · rw [hsave h, hbattery, initialRam_save (hbattery ▸ h) hlen, ← hlen, map_read_ofBytes]
  · rw [hsave h, hbattery]
    exact congrArg some (map_read_nil 8192)

end Sys2Proof.Proofs
end

