-- ==== Sys2Proof/Proofs/Bus.lean ====
section
/-! The bus (spec/20_memory.md R80-R101): the regions as ranges, one read and one write of each region, the registers of
the I/O block, the gamepad latch, and which bytes a write leaves as they were. -/

namespace Sys2Proof.Machine

/-! ## Regions -/

/-- The first address of a region (spec/20_memory.md R81). -/
def Region.first : Region → Nat
  | .rom => 0
  | .vram => 0x8000
  | .externalRam => 0xA000
  | .wram => 0xC000
  | .echo => 0xE000
  | .oam => 0xFE00
  | .unusable => 0xFEA0
  | .io => 0xFF00
  | .hram => 0xFF80
  | .intEnable => 0xFFFF

/-- The first address after a region. -/
def Region.stop : Region → Nat
  | .rom => 0x8000
  | .vram => 0xA000
  | .externalRam => 0xC000
  | .wram => 0xE000
  | .echo => 0xFE00
  | .oam => 0xFEA0
  | .unusable => 0xFF00
  | .io => 0xFF80
  | .hram => 0xFFFF
  | .intEnable => 0x10000

theorem region_bounds (a : Word) : (regionOf a).first ≤ a.toNat ∧ a.toNat < (regionOf a).stop := by
  have ha := a.isLt
  unfold regionOf
  split_ifs <;> simp only [Region.first, Region.stop] <;> omega

theorem regions_disjoint (q r : Region) : q = r ∨ q.stop ≤ r.first ∨ r.stop ≤ q.first := by
  cases q <;> cases r <;> decide

/-- The regions are the ranges of the address map, one after the other. -/
theorem regionOf_eq {a : Word} (r : Region) (h : r.first ≤ a.toNat) (h' : a.toNat < r.stop) : regionOf a = r := by
  have hbounds := region_bounds a
  rcases regions_disjoint (regionOf a) r with heq | hlow | hhigh
  · exact heq
  · omega
  · omega

variable (s : State)

/-! ## A read and a write of each region -/

theorem busRead_oam_free {a : Word} (h : regionOf a = .oam) (hfree : s.dma.active = false) :
    busRead s a = s.mem.read a.toNat := by
  simp only [busRead, h, hfree, Bool.false_eq_true, if_false]

theorem busWrite_oam_free {a : Word} (v : Byte) (h : regionOf a = .oam) (hfree : s.dma.active = false) :
    busWrite s a v = { s with mem := s.mem.write a.toNat v } := by
  simp only [busWrite, h, hfree, Bool.false_eq_true, if_false]

/-- An address of the I/O block without a handler reads 0 and takes no write (spec/20_memory.md R95). -/
theorem bus_unmapped {a : Word} (v : Byte) (h : regionOf a = .io) (hreg : ioRegAt a = none) :
    busRead s a = 0x00 ∧ busWrite s a v = s := by
  simp only [busRead, busWrite, h, hreg]
  exact ⟨rfl, trivial⟩

/-! ## What a write leaves as it was -/

theorem busWrite_intEnable_other {a : Word} (v : Byte) (h : regionOf a ≠ .intEnable) :
    (busWrite s a v).intEnable = s.intEnable := by
  unfold busWrite
  cases hr : regionOf a with
  | intEnable => exact absurd hr h
  | oam => simp only; split <;> rfl
  | io => simp only; split <;> [(rename_i r _; cases r <;> rfl); rfl]
  | _ => rfl

theorem busWrite_dma_other {a : Word} (v : Byte) (h : ioRegAt a ≠ some .dma) : (busWrite s a v).dma = s.dma := by
  unfold busWrite
  cases regionOf a with
  | oam => simp only; split <;> rfl
  | io =>
    simp only
    split
    next r hr =>
      cases r with
      | dma => exact absurd hr h
      | _ => rfl
    next => rfl
  | _ => rfl

theorem busWrite_mem_other {a : Word} (v : Byte) {k : Nat} (h : k ≠ a.toNat) :
    (busWrite s a v).mem.read k = s.mem.read k := by
  unfold busWrite
  cases regionOf a with
  | vram | wram | hram => exact Memory.read_write_other _ _ h
  | oam => simp only; split <;> [rfl; exact Memory.read_write_other _ _ h]
  | io => simp only; split <;> [(rename_i r _; cases r <;> rfl); rfl]
  | _ => rfl

/-- A write outside the ROM window leaves the banks as they are and at most stores to external RAM. -/
theorem busWrite_cart {a : Word} (v : Byte) (h : regionOf a ≠ .rom) :
    (busWrite s a v).cart = s.cart ∨
      regionOf a = .externalRam ∧ (busWrite s a v).cart = s.cart.writeRam a v := by
  unfold busWrite
  cases hr : regionOf a with
  | rom => exact absurd hr h
  | externalRam => exact .inr ⟨rfl, rfl⟩
  | oam => simp only; split <;> exact .inl rfl
  | io => simp only; split <;> [(rename_i r _; cases r <;> exact .inl rfl); exact .inl rfl]
  | _ => exact .inl rfl

/-! ## Requests -/

/-- A request sets the source's bit and no other (spec/60_exceptions.md R401). -/
theorem requestIf_getLsbD (cond : Bool) (flags : BitVec 5) (src : IntSource) (k : Nat) :
    (requestIf cond flags src).getLsbD k = (flags.getLsbD k || (cond && decide (k = src.bit))) := by
  cases cond with
  | false => simp [requestIf]
  | true =>
    have hbit : (1#5 <<< src.bit).getLsbD k = decide (k = src.bit) := by
      have hlt : src.bit < 5 := by cases src <;> decide
      rw [← BitVec.twoPow_eq, BitVec.getLsbD_twoPow, decide_eq_true hlt, Bool.true_and]
      exact decide_eq_decide.mpr eq_comm
    simp [requestIf, requestIn, hbit]

/-! ## The registers of the I/O block -/

theorem tac_read (x : BitVec 3) : (0b11111#5 ++ x : Byte).toNat = 0xF8 + x.toNat := by revert x; decide

theorem intFlags_read (x : BitVec 5) : (0b111#3 ++ x : Byte).toNat = 0xE0 + x.toNat := by revert x; decide

theorem stat_read (sel : BitVec 4) (c : Bool) (m : BitVec 2) :
    (0b1#1 ++ sel ++ BitVec.ofBool c ++ m : Byte).toNat = 0x80 + 8 * sel.toNat + 4 * c.toNat + m.toNat := by
  revert sel c m; decide

theorem p1_read (sel : BitVec 2) (lines : BitVec 4) :
    (0b11#2 ++ sel ++ lines : Byte).toNat / 16 = 0x0C + sel.toNat := by revert sel lines; decide

theorem tac_write (v : Byte) : v.extractLsb' 0 3 = BitVec.ofNat 3 v.toNat := by revert v; decide

theorem intFlags_write (v : Byte) : v.extractLsb' 0 5 = BitVec.ofNat 5 v.toNat := by revert v; decide

theorem stat_write (v : Byte) : v.extractLsb' 3 4 = BitVec.ofNat 4 (v.toNat / 8) := by revert v; decide

theorem p1_write (v : Byte) : v.extractLsb' 4 2 = BitVec.ofNat 2 (v.toNat / 16) := by revert v; decide

theorem tac_written (v : Byte) : (0b11111#5 ++ v.extractLsb' 0 3 : Byte) = v ||| 0xF8 := by revert v; decide

theorem intFlags_written (v : Byte) : (0b111#3 ++ v.extractLsb' 0 5 : Byte) = v ||| 0xE0 := by revert v; decide

/-- The read-only low bits of STAT stay, its select bits are the written ones. -/
theorem stat_written (v : Byte) (sel : BitVec 4) (c : Bool) (m : BitVec 2) :
    (0b1#1 ++ v.extractLsb' 3 4 ++ BitVec.ofBool c ++ m : Byte) =
      0x80 ||| v &&& 0x78 ||| (0b1#1 ++ sel ++ BitVec.ofBool c ++ m : Byte) &&& 0x07 := by
  have hlow : (0b1#1 ++ sel ++ BitVec.ofBool c ++ m : Byte) &&& 0x07 = 0#1 ++ 0#4 ++ BitVec.ofBool c ++ m := by
    revert sel c m; decide
  rw [hlow]
  clear hlow
  revert c m v; decide

/-- The input lines of P1 do not reach its high nibble. -/
theorem p1_written (v : Byte) (lines : BitVec 4) :
    (0b11#2 ++ v.extractLsb' 4 2 ++ lines : Byte) &&& 0xF0 = 0xC0 ||| v &&& 0x30 := by
  have hhigh (sel : BitVec 2) : (0b11#2 ++ sel ++ lines : Byte) &&& 0xF0 = 0b11#2 ++ sel ++ 0#4 := by
    revert sel lines; decide
  rw [hhigh]
  revert v; decide

/-! ## The gamepad latch -/

theorem actionBits_getLsbD (b : Config.Buttons) {i : Nat} (h : i < 4) :
    (actionBits b).getLsbD i = [b.a, b.b, b.select, b.start].getD i false := by
  rw [actionBits]
  generalize b.a = x0, b.b = x1, b.select = x2, b.start = x3
  revert x0 x1 x2 x3
  interval_cases i <;> decide

theorem directionBits_getLsbD (b : Config.Buttons) {i : Nat} (h : i < 4) :
    (directionBits b).getLsbD i = [b.right, b.left, b.up, b.down].getD i false := by
  rw [directionBits]
  generalize b.right = x0, b.left = x1, b.up = x2, b.down = x3
  revert x0 x1 x2 x3
  interval_cases i <;> decide

theorem joypadLines_getLsbD (sel : BitVec 2) (b : Config.Buttons) {i : Nat} (h : i < 4) :
    (joypadLines sel b).getLsbD i =
      !((!sel.getLsbD 1 && (actionBits b).getLsbD i) || (!sel.getLsbD 0 && (directionBits b).getLsbD i)) := by
  have hrow (c : Bool) (x : BitVec 4) : (if c then 0 else x).getLsbD i = (!c && x.getLsbD i) := by cases c <;> simp
  rw [joypadLines, BitVec.getLsbD_not, BitVec.getLsbD_or, hrow, hrow, decide_eq_true h, Bool.true_and]

/-- P1 bits 3:0 are the input lines. -/
theorem busRead_p1_line {i : Nat} (h : i < 4) : (busRead s 0xFF00).getLsbD i = s.lines.getLsbD i := by
  have happend (x : BitVec 4) (y : BitVec 4) : (x ++ y : Byte).getLsbD i = y.getLsbD i := by
    rw [BitVec.getLsbD_append, if_pos h]
  exact happend (0b11#2 ++ s.joySel) s.lines

theorem lines_fall_iff (x y : BitVec 4) :
    (x &&& ~~~y != 0) = true ↔ ∃ i, i < 4 ∧ x.getLsbD i = true ∧ y.getLsbD i = false := by revert x y; decide

/-- A change of the rows or the buttons requests the joypad interrupt when a line falls, and no other. -/
theorem setJoypad_requests (sel : BitVec 2) (b : Config.Buttons) {k : Nat} :
    (s.setJoypad sel b).intFlags.getLsbD k = true ↔ s.intFlags.getLsbD k = true ∨ k = 4 ∧
      ∃ i, i < 4 ∧ (busRead s 0xFF00).getLsbD i = true ∧ (busRead (s.setJoypad sel b) 0xFF00).getLsbD i = false := by
  have hlines : (∃ i, i < 4 ∧ (busRead s 0xFF00).getLsbD i = true ∧
      (busRead (s.setJoypad sel b) 0xFF00).getLsbD i = false) ↔ (s.lines &&& ~~~(joypadLines sel b) != 0) = true := by
    rw [lines_fall_iff]
    exact exists_congr fun i => and_congr_right fun hi => by rw [busRead_p1_line _ hi, busRead_p1_line _ hi]; rfl
  rw [hlines, State.setJoypad_intFlags, requestIf_getLsbD, Bool.or_eq_true, Bool.and_eq_true, decide_eq_true_eq,
    and_comm]
  rfl

end Sys2Proof.Machine

namespace Sys2Proof.Proofs

open Sys2Proof.Machine

/-- Settles O42: each range is its region, and a region answers by its arm of the bus operations. -/
theorem addressMap : Obligations.AddressMap := by
  intro s a v
  refine ⟨fun h => ?_, fun h => ?_, fun h => ?_, fun h => ?_, fun h => ⟨fun hbusy => ?_, fun hfree => ?_⟩, fun h => ?_,
    fun h => ?_⟩
  · have hr := regionOf_eq .rom (Nat.zero_le _) h
    simp only [busRead, busWrite, hr, and_self]
  · have hr : (regionOf a).isRam = true := by
      rcases h with h | h | h
      · rw [regionOf_eq .vram h.1 h.2]; rfl
      · rw [regionOf_eq .wram h.1 h.2]; rfl
      · rw [regionOf_eq .hram h.1 h.2]; rfl
    exact ⟨busRead_ram s a hr, busWrite_ram s a v hr, busRead_busWrite_ram s a v hr⟩
  · have hr := regionOf_eq .externalRam h.1 h.2
    simp only [busRead, busWrite, hr, and_self]
  · have hr := regionOf_eq .echo h.1 h.2
    simp only [busRead, busWrite, hr, and_self]
  · have hr := regionOf_eq .oam h.1 h.2
    simp only [busRead, busWrite, hr, hbusy, if_true]
    exact ⟨rfl, trivial⟩
  · have hr := regionOf_eq .oam h.1 h.2
    refine ⟨busRead_oam_free s hr hfree, busWrite_oam_free s v hr hfree, ?_⟩
    rw [busWrite_oam_free s v hr hfree]
    exact (busRead_oam_free { s with mem := s.mem.write a.toNat v } hr hfree).trans (Memory.read_write_same _ _ _)
  · have hr := regionOf_eq .unusable h.1 h.2
    simp only [busRead, busWrite, hr, and_self]
  · have hr := regionOf_eq .intEnable h.ge (h.trans_lt (by decide))
    simp only [busRead, busWrite, hr, and_self]

/-- Settles O43: each address selects its register, and the fields of a written byte are its bits. -/
theorem ioRegisters : Obligations.IoRegisters := by
  intro s v
  have hp1 : busWrite s 0xFF00 v = s.setJoypad (v.extractLsb' 4 2) s.buttons := rfl
  rw [← tac_write, ← intFlags_write, ← stat_write, ← p1_write]
  refine ⟨⟨rfl, rfl⟩, ⟨rfl, rfl⟩, ⟨rfl, hiByte_toNat _⟩, ⟨rfl, rfl⟩, ⟨rfl, rfl⟩, ⟨rfl, tac_read _⟩,
    ⟨rfl, intFlags_read _⟩, ⟨rfl, rfl⟩, ⟨rfl, stat_read ..⟩, ⟨rfl, rfl⟩, ⟨rfl, rfl⟩, ⟨rfl, rfl⟩, ⟨rfl, rfl⟩, ⟨rfl, rfl⟩,
    ⟨rfl, rfl⟩, ⟨rfl, rfl⟩, ⟨rfl, rfl⟩, ⟨rfl, rfl⟩, ⟨rfl, rfl⟩, ⟨rfl, fun k hk => ?_, fun h => ?_, p1_read _ _⟩, ?_,
    intFlags_written v, tac_written v, (by decide : hiByte 0 = 0x00), stat_written v _ _ _,
    p1_written v _, fun a ha => ?_⟩
  · have hk4 : decide (k = IntSource.joypad.bit) = false := decide_eq_false (Nat.ne_of_lt hk)
    rw [hp1, State.setJoypad_intFlags, requestIf_getLsbD, hk4, Bool.and_false, Bool.or_false]
  · rw [hp1, State.setJoypad_intFlags, requestIf_getLsbD, h, Bool.true_or]
  · intro a ha
    fin_cases ha <;> rfl
  · have hr := regionOf_eq (a := a) .io (by simp only [Region.first]; omega) (by simp only [Region.stop]; omega)
    refine bus_unmapped s v hr ?_
    unfold ioRegAt
    split
    case h_21 => rfl
    all_goals omega

/-- Settles O44: both ways to move the latch are `setJoypad`, on the buttons or on the row select. -/
theorem gamepad : Obligations.Gamepad := by
  refine ⟨fun s action direction haction hdirection i hi => ?_, fun s b v => ?_⟩
  · rw [busRead_p1_line s hi, State.lines, joypadLines_getLsbD _ _ hi, actionBits_getLsbD _ hi,
      directionBits_getLsbD _ hi, haction, hdirection]
  · rw [← p1_write]
    exact ⟨rfl, rfl, fun k _ => setJoypad_requests s s.joySel b,
      fun k _ => setJoypad_requests s (v.extractLsb' 4 2) s.buttons⟩

end Sys2Proof.Proofs
end

