-- ==== Sys2Proof/Proofs/Frame.lean ====
section
/-! The frames of every instruction, from what it performs: the CB opcodes by their forms, the bytes a store and a cycle
leave as they were, and the divider. -/

namespace Sys2Proof.Machine

/-! ## The CB opcodes by their forms -/

theorem reg8_of_field {z : Nat} (h : z < 8) : z = 6 ∨ ∃ r : Reg8, r.number = z := by
  interval_cases z
  · exact .inr ⟨.b, rfl⟩
  · exact .inr ⟨.c, rfl⟩
  · exact .inr ⟨.d, rfl⟩
  · exact .inr ⟨.e, rfl⟩
  · exact .inr ⟨.h, rfl⟩
  · exact .inr ⟨.l, rfl⟩
  · exact .inl rfl
  · exact .inr ⟨.a, rfl⟩

theorem rotOp_of_field {y : Nat} (h : y < 8) : ∃ op : RotOp, op.number = y := by
  interval_cases y
  · exact ⟨.rlc, rfl⟩
  · exact ⟨.rrc, rfl⟩
  · exact ⟨.rl, rfl⟩
  · exact ⟨.rr, rfl⟩
  · exact ⟨.sla, rfl⟩
  · exact ⟨.sra, rfl⟩
  · exact ⟨.swap, rfl⟩
  · exact ⟨.srl, rfl⟩

/-- Every CB opcode is one of the eight forms of spec/30_encoding.md R149. -/
theorem cbOpcode_cases {P : Byte → Prop} (hrot : ∀ (op : RotOp) (r : Reg8), P (opcodeByte (8 * op.number + r.number)))
    (hrotHL : ∀ op : RotOp, P (opcodeByte (8 * op.number + 6)))
    (hreg : ∀ (n : Fin 8) (r : Reg8), P (opcodeByte (0x40 + 8 * n.val + r.number)) ∧
      P (opcodeByte (0x80 + 8 * n.val + r.number)) ∧ P (opcodeByte (0xC0 + 8 * n.val + r.number)))
    (hHL : ∀ n : Fin 8, P (opcodeByte (0x40 + 8 * n.val + 6)) ∧ P (opcodeByte (0x80 + 8 * n.val + 6)) ∧
      P (opcodeByte (0xC0 + 8 * n.val + 6))) (b : Byte) : P b := by
  obtain ⟨cls, y, z, hcls, hy, hz, rfl⟩ := cbOpcodeFields.2.2.2.2 b
  obtain ⟨op, hop⟩ := rotOp_of_field hy
  have hregY := hreg ⟨y, hy⟩
  have hHLY := hHL ⟨y, hy⟩
  rcases reg8_of_field hz with rfl | ⟨r, rfl⟩
  · interval_cases cls
    · rw [Nat.mul_zero, Nat.zero_add, ← hop]; exact hrotHL op
    · exact hHLY.1
    · exact hHLY.2.1
    · exact hHLY.2.2
  · interval_cases cls
    · rw [Nat.mul_zero, Nat.zero_add, ← hop]; exact hrot op r
    · exact (hregY r).1
    · exact (hregY r).2.1
    · exact (hregY r).2.2

variable (s : State)

/-- The byte 0xCB by itself executes what the opcode after it decodes to (spec/45_system.md R345). -/
theorem exec_decodeCb (b : Byte) : exec (decodeCb b) s = .next (execCbOpcode b s) := by
  refine cbOpcode_cases (P := fun b => exec (decodeCb b) s = .next (execCbOpcode b s)) (fun op r => ?_) (fun op => ?_)
    (fun n r => ?_) (fun n => ?_) b
  · rw [decodeCb_rotR, exec_rotR]; cases op <;> cases r <;> rfl
  · rw [decodeCb_rotHL, exec_rotHL]; cases op <;> rfl
  · obtain ⟨hbit, hres, hset⟩ := decodeCb_bitR_resR_setR n r
    rw [hbit, hres, hset, exec_bitR, exec_resR, exec_setR]
    fin_cases n <;> cases r <;> exact ⟨rfl, rfl, rfl⟩
  · obtain ⟨hbit, hres, hset⟩ := decodeCb_bitHL_resHL_setHL n
    rw [hbit, hres, hset, exec_bitHL, exec_resHL, exec_setHL]
    fin_cases n <;> exact ⟨rfl, rfl, rfl⟩

/-- A CB opcode stores to HL exactly when its operand is `(HL)` and it is no BIT. -/
theorem storeAddresses_decodeCb (b : Byte) :
    storeAddresses (decodeCb b) s = if b.toNat % 8 = 6 ∧ b.toNat / 64 ≠ 1 then [s.cpu.hl] else [] := by
  refine cbOpcode_cases (P := fun b => storeAddresses (decodeCb b) s =
    if b.toNat % 8 = 6 ∧ b.toNat / 64 ≠ 1 then [s.cpu.hl] else []) (fun op r => ?_) (fun op => ?_)
    (fun n r => ?_) (fun n => ?_) b
  · rw [decodeCb_rotR]; cases op <;> cases r <;> rfl
  · rw [decodeCb_rotHL]; cases op <;> rfl
  · obtain ⟨hbit, hres, hset⟩ := decodeCb_bitR_resR_setR n r
    rw [hbit, hres, hset]
    fin_cases n <;> cases r <;> exact ⟨rfl, rfl, rfl⟩
  · obtain ⟨hbit, hres, hset⟩ := decodeCb_bitHL_resHL_setHL n
    rw [hbit, hres, hset]
    fin_cases n <;> exact ⟨rfl, rfl, rfl⟩

theorem fetchByte_eq : fetchByte s =
    (busRead s s.cpu.pc, (cycle s).withCpu { s.cpu with pc := s.cpu.pc + 1 }) :=
  Prod.ext rfl ((cycle_updCpu s _).trans (updCpu_eq_withCpu _ (cycle_cpu s)))

theorem decodeCb_ne_prefixCb (b : Byte) : decodeCb b ≠ .prefixCb := fun h => by
  have hwf := (encode_decodeCb b).1
  rw [h] at hwf
  cases hwf

/-- The cycles and stores of the byte 0xCB by itself: a fetch cycle, then those of its opcode. -/
theorem execPrefixCb_performs : ∃ n, Performs s (prefixedOperation s) n (storeAddresses .prefixCb s) := by
  have hfetch : Performs s (fetchByte s).2 1 [] := by
    rw [fetchByte_eq]
    exact perform_performs s [none] id
  have hop := performs_of_exec (fetchByte s).2 (decodeCb_ne_prefixCb (busRead s s.cpu.pc)) (exec_decodeCb _ _)
  have hstores : storeAddresses (decodeCb (busRead s s.cpu.pc)) (fetchByte s).2 = storeAddresses .prefixCb s := by
    rw [storeAddresses_decodeCb, fetchByte_eq]; rfl
  rw [hstores] at hop
  exact ⟨_, hfetch.trans hop⟩

/-- Every completed instruction performs stores at the addresses of its rule alone. -/
theorem stores_of_exec {i : Instr} {t : State} (h : exec i s = .next t) :
    ∃ n, Performs s t n (storeAddresses i s) := by
  by_cases hcb : i = .prefixCb
  · subst hcb
    obtain rfl : prefixedOperation s = t := by injection h
    exact execPrefixCb_performs s
  · exact ⟨_, performs_of_exec s hcb h⟩

/-! ## The DMA engine -/

/-- The DMA engine stays in its ranges in a cycle (spec/60_exceptions.md R431). -/
theorem cycle_dma_inv (h : s.dma.Inv) : (cycle s).dma.Inv := by
  rw [cycle_dma]
  unfold dmaTick
  split
  next => exact h
  next hactive =>
    split
    next hdelay =>
      have := h.delay
      exact ⟨Nat.le_trans (Nat.sub_le _ _) h.delay, h.offset, h.active, fun _ => h.delayed hdelay⟩
    next hdelay =>
      have hlt := h.active (by simpa using hactive)
      exact ⟨h.delay, hlt, fun hmore => Nat.lt_of_le_of_ne hlt (of_decide_eq_true hmore), fun hd => absurd hd hdelay⟩

theorem dmaStart_inv (v : Byte) : (dmaStart v).Inv :=
  ⟨Nat.le_refl 2, Nat.zero_le _, fun _ => (by decide : 0 < 160), fun _ => ⟨rfl, rfl⟩⟩

theorem busWrite_dma_inv (a : Word) (v : Byte) (h : s.dma.Inv) : (busWrite s a v).dma.Inv := by
  unfold busWrite
  cases regionOf a with
  | oam => simp only; split <;> exact h
  | io =>
    simp only
    split
    next r _ =>
      cases r with
      | dma => exact dmaStart_inv v
      | _ => exact h
    next => exact h
  | _ => exact h

/-! ## The bytes a cycle and a store leave as they were -/

/-- A cycle shows in no byte outside the I/O block and, while a transfer runs, outside OAM. -/
theorem busRead_cycle {b : Word} (hdma : s.dma.Inv) (hplain : (regionOf b).plain = true)
    (hoam : regionOf b = .oam → s.dma.active = false) : busRead (cycle s) b = busRead s b := by
  have hmem (hout : ¬ inOam b.toNat) := cycle_read_outside_oam s hdma.active hout
  have hbounds := region_bounds b
  cases hr : regionOf b with
  | oam =>
    have hfree := hoam hr
    rw [busRead_oam_free _ hr (by rw [cycle_dma_idle s hfree, hfree]), busRead_oam_free s hr hfree,
      cycle_mem_idle s hfree]
  | vram | wram | hram =>
    rw [hr] at hbounds
    have hram : (regionOf b).isRam = true := by rw [hr]; rfl
    simp only [Region.first, Region.stop] at hbounds
    rw [busRead_ram _ b hram, busRead_ram s b hram, hmem (by simp only [inOam]; omega)]
  | io => rw [hr] at hplain; cases hplain
  | _ => simp only [busRead, hr, cycle_cart, cycle_params, cycle_intEnable]

/-- A store shows in no other byte outside the I/O block; one to the cartridge's control range may change its
windows, one to the DMA register OAM. -/
theorem busRead_busWrite_other {a b : Word} (v : Byte) (hne : b ≠ a) (hplain : (regionOf b).plain = true)
    (hoam : regionOf b = .oam → s.dma.active = false ∧ ioRegAt a ≠ some .dma)
    (hrom : regionOf b = .rom ∨ regionOf b = .externalRam → regionOf a ≠ .rom) :
    busRead (busWrite s a v) b = busRead s b := by
  have hmem : (busWrite s a v).mem.read b.toNat = s.mem.read b.toNat :=
    busWrite_mem_other s v fun h => hne (BitVec.eq_of_toNat_eq h)
  cases hr : regionOf b with
  | rom =>
    simp only [busRead, hr]
    rcases busWrite_cart s v (hrom (.inl hr)) with h | ⟨-, h⟩ <;> rw [h]
    exact writeRam_readRom _ _ _ _
  | externalRam =>
    simp only [busRead, hr]
    rcases busWrite_cart s v (hrom (.inr hr)) with h | ⟨ha, h⟩ <;> rw [h]
    have hbounds := region_bounds b
    have hbounds' := region_bounds a
    rw [hr] at hbounds
    rw [ha] at hbounds'
    exact readRam_writeRam_other _ _ _ hbounds'.1 hbounds.1 hne
  | oam =>
    obtain ⟨hfree, hreg⟩ := hoam hr
    have hdma := busWrite_dma_other s v hreg
    rw [busRead_oam_free _ hr (hdma ▸ hfree), busRead_oam_free s hr hfree, hmem]
  | vram | wram | hram =>
    have hram : (regionOf b).isRam = true := by rw [hr]; rfl
    rw [busRead_ram _ b hram, busRead_ram s b hram, hmem]
  | echo | unusable => simp only [busRead, hr, busWrite_params]
  | io => rw [hr] at hplain; cases hplain
  | intEnable =>
    have ha : regionOf a ≠ .intEnable := fun ha => hne (by
      have hbounds := region_bounds b
      have hbounds' := region_bounds a
      rw [hr] at hbounds
      rw [ha] at hbounds'
      simp only [Region.first, Region.stop] at hbounds hbounds'
      exact BitVec.eq_of_toNat_eq (by omega))
    simp only [busRead, hr, busWrite_intEnable_other s v ha]

/-! ## The divider -/

theorem ioRegAt_div {a : Word} (h : ioRegAt a = some .div) : a = 0xFF04 := by
  unfold ioRegAt at h
  split at h
  case h_4 hdiv => exact BitVec.eq_of_toNat_eq hdiv
  all_goals cases h

theorem busWrite_div_other {a : Word} (v : Byte) (h : a ≠ 0xFF04) : (busWrite s a v).timer.div = s.timer.div := by
  unfold busWrite
  cases regionOf a with
  | oam => simp only; split <;> rfl
  | io =>
    simp only
    split
    next r hr =>
      cases r with
      | div => exact absurd (ioRegAt_div hr) h
      | _ => rfl
    next => rfl
  | _ => rfl

theorem perform_div {l : List Access} (h : 0xFF04 ∉ storedAt l) :
    (perform l s).timer.div = s.timer.div + BitVec.ofNat 16 (4 * l.length) := by
  induction l generalizing s with
  | nil => simp [perform]
  | cons x l ih =>
    have hdiv (d : Word) : d + 4 + BitVec.ofNat 16 (4 * l.length) = d + BitVec.ofNat 16 (4 * (l.length + 1)) := by
      rw [Nat.mul_succ, Nat.add_comm, BitVec.ofNat_add, BitVec.add_assoc]; rfl
    cases x with
    | none => exact (ih (cycle s) h).trans (by rw [cycle_div, hdiv]; rfl)
    | some x =>
      obtain ⟨a, v⟩ := x
      rw [storedAt_some, List.mem_cons, not_or] at h
      have hwrite := busWrite_div_other s v (Ne.symm h.1)
      exact (ih (writeCycle s a v) h.2).trans (by rw [writeCycle, cycle_div, hwrite, hdiv]; rfl)

end Sys2Proof.Machine

namespace Sys2Proof.Proofs

open Sys2Proof.Machine

/-- Settles O34: no cycle and no store of those performed shows in the byte. -/
theorem memoryFrame : Obligations.MemoryFrame := by
  intro i s t hdma hexec b hb hplain hoam hrom
  obtain ⟨n, l, -, hl, ht, -⟩ := stores_of_exec s hexec
  rw [← hl] at hb hoam hrom
  have hkept : (perform l s).dma.Inv ∧ (regionOf b = .oam → (perform l s).dma.active = false) ∧
      busRead (perform l s) b = busRead s b := by
    refine perform_keeps (P := fun u => u.dma.Inv ∧ (regionOf b = .oam → u.dma.active = false) ∧
      busRead u b = busRead s b) (fun u ⟨hinv, hfree, hread⟩ => ?_) (fun u a ha v ⟨hinv, hfree, hread⟩ => ?_)
      ⟨hdma, fun h => (hoam h).1, rfl⟩
    · exact ⟨cycle_dma_inv u hinv, fun h => by rw [cycle_dma_idle u (hfree h), hfree h],
        (busRead_cycle u hinv hplain hfree).trans hread⟩
    · have hne : b ≠ a := fun h => hb (h ▸ ha)
      refine ⟨busWrite_dma_inv u a v hinv, fun h => ?_, Eq.trans ?_ hread⟩
      · rw [busWrite_dma_other u v ((hoam h).2 a ha)]; exact hfree h
      · exact busRead_busWrite_other u v hne hplain (fun h => ⟨hfree h, (hoam h).2 a ha⟩) fun h => hrom h a ha
  rw [ht]
  exact hkept.2.2

/-- Settles O35: the write is read back at once, and the cycle's DMA tick writes OAM only. -/
theorem storedByteReadsBack : Obligations.StoredByteReadsBack := by
  intro s a v hdma hram
  have hplain : (regionOf a).plain = true ∧ regionOf a ≠ .oam := by
    revert hram; cases regionOf a <;> decide
  rw [busRead_cycle _ (busWrite_dma_inv s a v hdma) hplain.1 fun h => absurd h hplain.2]
  exact busRead_busWrite_ram s a v hram

/-- Settles O36: without a store the accesses are cycles, and only a store to DIV breaks the divider's count. -/
theorem instructionCycles : Obligations.InstructionCycles := by
  intro i s t hcb hexec
  obtain ⟨l, hlen, hl, ht, -⟩ := performs_of_exec s hcb hexec
  rw [← hl, ← hlen]
  refine ⟨fun h => ?_, fun h => ?_⟩
  · rw [← perform_of_no_store h]; exact ht
  · rw [ht]; exact perform_div s h

end Sys2Proof.Proofs
end

