-- ==== Sys2Proof/Proofs/Step.lean ====
section
/-! The step (spec/30_encoding.md R160): what is fetched against what decodes, the stops, the interrupt phase and the
halted poll, and what a step leaves as loading set it. -/

namespace Sys2Proof.Machine

variable (s : State)

theorem cycle_withCpu (p : Cpu) : cycle (s.withCpu p) = (cycle s).withCpu p := cycle_updCpu s fun _ => p

/-! ## Fetch -/

/-- Three bytes always begin an instruction. -/
theorem decode_three (op b1 b2 : Byte) : ∃ i rest, decode [op, b1, b2] = .ok (i, rest) := by
  rcases instrLength_cases op with h | h | h <;> simp only [decode, h] <;> exact ⟨_, _, rfl⟩

/-- The state after the fetch lines: as many cycles, and PC as much further. -/
theorem afterFetch_eq (n : Nat) :
    afterFetch n s = (cycles n s).withCpu { s.cpu with pc := s.cpu.pc + BitVec.ofNat 16 n } := by
  rw [afterFetch, State.advancePc, cycles_updCpu]
  exact updCpu_eq_withCpu _ (cycles_cpu n s)

/-- The fetch lines read the bytes that the instruction decodes from, and no more of them. -/
theorem fetchInstr_of_decode {i : Instr} {rest : List Byte}
    (h : decode [busRead s s.cpu.pc, busRead (cycle s) (s.cpu.pc + 1), busRead (cycles 2 s) (s.cpu.pc + 2)] =
      .ok (i, rest)) :
    (fetchInstr s).instr = i ∧ (fetchInstr s).after = afterFetch (encode i).length s := by
  have hop : (fetchByte s).1 = busRead s s.cpu.pc := rfl
  have hfetch : (fetchByte s).2 = afterFetch 1 s :=
    (congrArg Prod.snd (fetchByte_eq s)).trans (afterFetch_eq s 1).symm
  have hb1 : (fetchByte (afterFetch 1 s)).1 = busRead (cycle s) (s.cpu.pc + 1) := fetchByte_value 1 s
  have hb2 : (fetchByte (afterFetch 2 s)).1 = busRead (cycles 2 s) (s.cpu.pc + 2) := fetchByte_value 2 s
  rw [fetchInstr_after]
  rcases instrLength_cases (busRead s s.cpu.pc) with hlen | hlen | hlen <;>
    simp only [decode, hlen, Except.ok.injEq, Prod.mk.injEq] at h <;> obtain ⟨rfl, -⟩ := h <;>
    simp only [hlen, Fetched.instr, fetchInstr, hop, hfetch, hb1, fetchByte_after, hb2, true_and]
  · rw [(encode_decodeBytes_one _ hlen).2]; rfl
  · rw [(encode_decodeBytes_two _ _ hlen).2]; rfl
  · rw [(encode_decodeBytes_three _ _ _ hlen).2]; rfl

variable {s} in
/-- A running machine that is not halted executes what it fetches. -/
theorem step_of_runs (hruns : s.Runs) (hhalted : s.cpu.halted = false) :
    step s = afterInstruction (exec (fetchInstr s).instr (fetchInstr s).after) := by
  simp only [step, hruns.1, hruns.2, hhalted, Bool.false_eq_true, if_false]

variable {s} in
theorem step_of_halted (hruns : s.Runs) (hhalted : s.cpu.halted = true) :
    step s = .next (endOfStep (haltedPoll s)) := by
  simp only [step, hruns.1, hruns.2, hhalted, if_true]

variable {s} in
/-- A step by what the bytes at PC decode to. -/
theorem step_of_decode (hruns : s.Runs) (hhalted : s.cpu.halted = false) {i : Instr} {rest : List Byte}
    (h : decode [busRead s s.cpu.pc, busRead (cycle s) (s.cpu.pc + 1), busRead (cycles 2 s) (s.cpu.pc + 2)] =
      .ok (i, rest)) : step s = afterInstruction (exec i (afterFetch (encode i).length s)) := by
  obtain ⟨hi, hafter⟩ := fetchInstr_of_decode s h
  rw [step_of_runs hruns hhalted, hi, hafter]

/-! ## Stops -/

theorem stateAfterStep_stopped (h : s.status ≠ .running) : stateAfterStep s = s := by
  unfold stateAfterStep
  split
  next => rfl
  next => rfl
  next hrun => exact absurd hrun h

theorem runFor_stopped (h : s.status ≠ .running) (n : Nat) : runFor n s = s := by
  induction n with
  | zero => rfl
  | succ n ih => rw [runFor, stateAfterStep_stopped s h, ih]

/-- The state after the one fetch cycle of an instruction of one byte. -/
def fetchedOne : State := (cycle s).withCpu { s.cpu with pc := s.cpu.pc + 1 }

/-- An instruction of one byte is fetched in one cycle. -/
theorem fetchInstr_one_byte {i : Instr} (hwf : i.wellFormed = true) (h : encode i = [busRead s s.cpu.pc]) :
    (fetchInstr s).instr = i ∧ (fetchInstr s).after = fetchedOne s := by
  have hdecode := Proofs.decodeInvertsEncode i
    [busRead (cycle s) (s.cpu.pc + 1), busRead (cycles 2 s) (s.cpu.pc + 2)] hwf
  rw [h] at hdecode
  obtain ⟨hinstr, hafter⟩ := fetchInstr_of_decode s hdecode
  rw [h, afterFetch_eq] at hafter
  exact ⟨hinstr, hafter⟩

theorem add_one_sub_one (v : Word) : v + 1 - 1 = v := by bv_omega

/-! ## The interrupt phase -/

theorem pendingEnabled_getLsbD {j : Nat} (h : j < 5) :
    s.pendingEnabled.getLsbD j = (s.intEnable.getLsbD j && s.intFlags.getLsbD j) := by
  rw [State.pendingEnabled, BitVec.getLsbD_and, BitVec.getLsbD_extractLsb', decide_eq_true h, Bool.true_and,
    Nat.zero_add]

/-- The selected source is the lowest one (spec/60_exceptions.md R402). -/
theorem selectedBit_eq {v : BitVec 5} {k : Nat} (hk : k < 5) (hset : v.getLsbD k = true)
    (hlow : ∀ j, j < k → v.getLsbD j = false) : selectedBit v = k := by
  have low (j : Nat) (hj : j < k) : ¬ v.getLsbD j = true := Bool.eq_false_iff.mp (hlow j hj)
  unfold selectedBit
  interval_cases k
  · rw [if_pos hset]
  · rw [if_neg (low 0 (by decide)), if_pos hset]
  · rw [if_neg (low 0 (by decide)), if_neg (low 1 (by decide)), if_pos hset]
  · rw [if_neg (low 0 (by decide)), if_neg (low 1 (by decide)), if_neg (low 2 (by decide)), if_pos hset]
  · rw [if_neg (low 0 (by decide)), if_neg (low 1 (by decide)), if_neg (low 2 (by decide)), if_neg (low 3 (by decide))]

/-- The state whose IF has bit k cleared. -/
def State.clearFlag (k : Nat) : State := { s with intFlags := s.intFlags &&& ~~~(1#5 <<< k) }

/-- The CPU after the dispatch of source k. -/
def Cpu.dispatched (p : Cpu) (k : Nat) : Cpu :=
  { p with ime := false, imePending := false, halted := false, sp := p.sp - 2, pc := serviceAddress k }

/-- A dispatch: two cycles without an access, PC pushed, a fifth cycle (spec/60_exceptions.md R404). -/
theorem dispatch_eq {k : Nat} (hk : selectedBit s.pendingEnabled = k) :
    dispatch s = (perform [none, none, some (s.cpu.sp - 1, hiByte s.cpu.pc), some (s.cpu.sp - 2, loByte s.cpu.pc), none]
      (s.clearFlag k)).withCpu (s.cpu.dispatched k) := by
  have hack : acknowledge s k = (s.clearFlag k).updCpu fun _ => (acknowledge s k).cpu := rfl
  subst hk
  simp only [dispatch, pushWord_eq, cycle_cpu]
  rw [hack]
  simp only [cycle_updCpu, writeCycle_updCpu, State.setPc, State.updCpu_updCpu]
  rfl

theorem interruptPhase_of_not_ime (h : s.cpu.ime = false) : interruptPhase s = s := by
  rw [interruptPhase, h, Bool.false_and]; rfl

theorem interruptPhase_of_none_pending (h : s.pendingEnabled = 0) : interruptPhase s = s := by
  rw [interruptPhase, State.interruptPending, h]
  simp

theorem interruptPhase_of_pending (hime : s.cpu.ime = true) (h : s.pendingEnabled ≠ 0) :
    interruptPhase s = dispatch s := by
  rw [interruptPhase, State.interruptPending, hime, bne_iff_ne.mpr h]; rfl

theorem endOfStep_of_latch_clear (h : s.cpu.imePending = false) : endOfStep s = s := by
  rw [endOfStep, h]; rfl

/-- The interrupt phase is a dispatch or nothing. -/
theorem interruptPhase_cases : interruptPhase s = s ∨ interruptPhase s = dispatch s := by
  unfold interruptPhase
  split <;> simp

theorem dispatch_imePending : (dispatch s).cpu.imePending = false := by rw [dispatch_eq s rfl]; rfl

theorem interruptPhase_imePending (h : s.cpu.imePending = false) : (interruptPhase s).cpu.imePending = false := by
  rcases interruptPhase_cases s with hphase | hphase <;> rw [hphase]
  · exact h
  · exact dispatch_imePending s

/-! ## What loading fixed -/

/-- What loading fixed of a cartridge is the same. -/
structure Cartridge.SameLoad (c d : Cartridge) : Prop where
  rom : d.rom = c.rom
  romLen : d.romLen = c.romLen
  header : d.header = c.header
  rejected : d.rejected = c.rejected
  family : d.family = c.family
  battery : d.battery = c.battery
  romBanks : d.romBanks = c.romBanks
  ramBanks : d.ramBanks = c.ramBanks

theorem Cartridge.SameLoad.refl (c : Cartridge) : c.SameLoad c := ⟨rfl, rfl, rfl, rfl, rfl, rfl, rfl, rfl⟩

theorem writeControl_sameLoad (c : Cartridge) (a : Word) (v : Byte) : c.SameLoad (c.writeControl a v) := by
  unfold Cartridge.writeControl
  split
  · exact .refl c
  all_goals split_ifs <;> exact ⟨rfl, rfl, rfl, rfl, rfl, rfl, rfl, rfl⟩

theorem writeRam_sameLoad (c : Cartridge) (a : Word) (v : Byte) : c.SameLoad (c.writeRam a v) := by
  unfold Cartridge.writeRam
  split <;> exact ⟨rfl, rfl, rfl, rfl, rfl, rfl, rfl, rfl⟩

/-- Two states with the same status, parameters, buttons and loaded cartridge. -/
structure SameLoad (s t : State) : Prop where
  status : t.status = s.status
  params : t.params = s.params
  buttons : t.buttons = s.buttons
  cart : s.cart.SameLoad t.cart

theorem SameLoad.of_cart_eq {s t : State} (hstatus : t.status = s.status) (hparams : t.params = s.params)
    (hbuttons : t.buttons = s.buttons) (hcart : t.cart = s.cart) : SameLoad s t :=
  ⟨hstatus, hparams, hbuttons, hcart ▸ .refl _⟩

theorem SameLoad.refl : SameLoad s s := .of_cart_eq rfl rfl rfl rfl

theorem SameLoad.trans {s t u : State} (h : SameLoad s t) (h' : SameLoad t u) : SameLoad s u :=
  ⟨h'.status.trans h.status, h'.params.trans h.params, h'.buttons.trans h.buttons,
    ⟨h'.cart.rom.trans h.cart.rom, h'.cart.romLen.trans h.cart.romLen, h'.cart.header.trans h.cart.header,
      h'.cart.rejected.trans h.cart.rejected, h'.cart.family.trans h.cart.family, h'.cart.battery.trans h.cart.battery,
      h'.cart.romBanks.trans h.cart.romBanks, h'.cart.ramBanks.trans h.cart.ramBanks⟩⟩

theorem cycle_sameLoad : SameLoad s (cycle s) :=
  .of_cart_eq (cycle_status s) (cycle_params s) (cycle_buttons s) (cycle_cart s)

/-- Replacing the CPU changes nothing that loading fixed. -/
theorem withCpu_sameLoad (p : Cpu) : SameLoad s (s.withCpu p) := .of_cart_eq rfl rfl rfl rfl

theorem busWrite_sameLoad (a : Word) (v : Byte) : SameLoad s (busWrite s a v) := by
  have same {t : State} (hstatus : t.status = s.status) (hparams : t.params = s.params)
      (hbuttons : t.buttons = s.buttons) (hcart : t.cart = s.cart) : SameLoad s t :=
    .of_cart_eq hstatus hparams hbuttons hcart
  unfold busWrite
  cases regionOf a with
  | rom => exact ⟨rfl, rfl, rfl, writeControl_sameLoad s.cart a v⟩
  | externalRam => exact ⟨rfl, rfl, rfl, writeRam_sameLoad s.cart a v⟩
  | oam => simp only; split <;> exact same rfl rfl rfl rfl
  | io =>
    simp only
    split
    next r _ => cases r <;> exact same rfl rfl rfl rfl
    next => exact SameLoad.refl s
  | _ => exact same rfl rfl rfl rfl

theorem perform_sameLoad (l : List Access) : SameLoad s (perform l s) :=
  perform_keeps (P := SameLoad s) (fun u h => h.trans (cycle_sameLoad u))
    (fun u a _ v h => h.trans (busWrite_sameLoad u a v)) (SameLoad.refl s)

theorem afterFetch_sameLoad (n : Nat) : SameLoad s (afterFetch n s) := by
  rw [afterFetch_eq]
  refine SameLoad.trans ?_ (withCpu_sameLoad _ _)
  exact .of_cart_eq (cycles_status n s) (cycles_params n s) (cycles_buttons n s) (cycles_cart n s)

theorem dispatch_sameLoad : SameLoad s (dispatch s) := by
  have hclear (k : Nat) : SameLoad s (s.clearFlag k) := .of_cart_eq rfl rfl rfl rfl
  rw [dispatch_eq s rfl]
  exact ((hclear _).trans (perform_sameLoad _ _)).trans (withCpu_sameLoad _ _)

theorem interruptPhase_sameLoad : SameLoad s (interruptPhase s) := by
  rcases interruptPhase_cases s with h | h <;> rw [h]
  · exact SameLoad.refl s
  · exact dispatch_sameLoad s

/-- The latch is an update of the CPU alone. -/
theorem endOfStep_eq : endOfStep s =
    s.withCpu { s.cpu with ime := s.cpu.ime || s.cpu.imePending, imePending := false } := by
  unfold endOfStep
  cases h : s.cpu.imePending
  · rw [if_neg (by decide), Bool.or_false, ← h]; rfl
  · rw [if_pos rfl, Bool.or_true]; rfl

theorem endOfStep_sameLoad : SameLoad s (endOfStep s) := by
  rw [endOfStep_eq]
  exact withCpu_sameLoad _ _

/-- The poll is a dispatch or one cycle, and wakes the CPU. -/
theorem haltedPoll_cases : ∃ p : Cpu, p.f = s.cpu.f ∧
    (haltedPoll s = dispatch (s.withCpu p) ∨ haltedPoll s = cycle (s.withCpu p)) := by
  unfold haltedPoll
  split
  · refine ⟨{ s.cpu with halted := false }, rfl, ?_⟩
    dsimp only
    split <;> [exact .inl rfl; exact .inr rfl]
  · exact ⟨s.cpu, rfl, .inr rfl⟩

theorem haltedPoll_sameLoad : SameLoad s (haltedPoll s) := by
  obtain ⟨p, -, h | h⟩ := haltedPoll_cases s <;> rw [h]
  · exact (withCpu_sameLoad s p).trans (dispatch_sameLoad _)
  · exact (withCpu_sameLoad s p).trans (cycle_sameLoad _)

variable {s} in
theorem SameLoad.runs {t : State} (h : SameLoad s t) (hruns : s.Runs) : t.Runs :=
  ⟨h.status.trans hruns.1, h.cart.rejected.trans hruns.2⟩

/-! ## The step as a whole -/

variable {s} in
/-- What a step that goes on did: a poll, or an instruction's stores and cycles with the interrupt phase after it. -/
theorem step_cases {t : State} (h : step s = .next t) : s.Runs ∧
    ((s.cpu.halted = true ∧ t = endOfStep (haltedPoll s)) ∨
      (s.cpu.halted = false ∧ ∃ i n k as u, exec i (afterFetch n s) = .next u ∧ Performs (afterFetch n s) u k as ∧
        t = endOfStep (interruptPhase u))) := by
  unfold step at h
  split at h
  · cases h
  · cases h
  next hstatus =>
    split at h
    · cases h
    next hcart =>
      refine ⟨⟨hstatus, hcart⟩, ?_⟩
      split at h
      next hhalted => exact .inl ⟨hhalted, by injection h with h; exact h.symm⟩
      next hhalted =>
        obtain ⟨i, rest, hdecode⟩ := decode_three (busRead s s.cpu.pc) (busRead (cycle s) (s.cpu.pc + 1))
          (busRead (cycles 2 s) (s.cpu.pc + 2))
        obtain ⟨hinstr, hafter⟩ := fetchInstr_of_decode s hdecode
        rw [hinstr, hafter] at h
        cases hexec : exec i (afterFetch (encode i).length s) with
        | next u =>
          rw [hexec] at h
          obtain ⟨k, hperforms⟩ := stores_of_exec _ hexec
          exact .inr ⟨Bool.eq_false_iff.mpr hhalted, i, _, k, _, u, hexec, hperforms,
            by injection h with h; exact h.symm⟩
        | fault f => rw [hexec] at h; cases h
        | refused r => rw [hexec] at h; cases h

variable {s} in
theorem step_sameLoad {t : State} (h : step s = .next t) : SameLoad s t := by
  obtain ⟨-, ⟨-, rfl⟩ | ⟨-, i, n, k, as, u, -, ⟨l, -, -, hu, -⟩, rfl⟩⟩ := step_cases h
  · exact (haltedPoll_sameLoad s).trans (endOfStep_sameLoad _)
  · have hexec : SameLoad (afterFetch n s) u := by
      rw [hu]; exact (perform_sameLoad _ l).trans (withCpu_sameLoad _ _)
    exact (((afterFetch_sameLoad s n).trans hexec).trans (interruptPhase_sameLoad u)).trans (endOfStep_sameLoad _)

/-- A first byte that is neither STOP nor illegal decodes to an instruction that goes on. -/
theorem decoded_goes_on {op b1 b2 : Byte} {i : Instr} {rest : List Byte} (h : decode [op, b1, b2] = .ok (i, rest))
    (hop : op ∉ 0x10 :: illegalOpcodes) : i ≠ .stop ∧ (∀ x, i ≠ .illegal x) ∧ i ≠ .prefixCb := by
  obtain ⟨hwf, hbytes⟩ := Proofs.encodeInvertsDecode _ _ _ h
  refine ⟨?_, fun x => ?_, ?_⟩ <;> rintro rfl
  · have hhead : 0x10 = op := (List.cons.inj hbytes).1
    exact hop (hhead ▸ List.mem_cons_self)
  · have hhead : x = op := (List.cons.inj hbytes).1
    exact hop (hhead ▸ List.mem_cons_of_mem _ (List.contains_iff_mem.mp hwf))
  · cases hwf

end Sys2Proof.Machine

namespace Sys2Proof.Proofs

open Sys2Proof.Machine

/-- Settles O5: the fetched bytes are those decoded, and `afterInstruction` is the rest of the step. -/
theorem stepRunsDecoded : Obligations.StepRunsDecoded := by
  intro s i rest hruns hhalted hdecode
  rw [step_of_decode hruns hhalted hdecode]
  exact ⟨fun t h => by rw [h]; rfl, fun f h => by rw [h]; rfl, fun r h => by rw [h]; rfl⟩

/-- Settles O6: a stopped machine is a fixed point of `stateAfterStep`. -/
theorem stoppedMachineStays : Obligations.StoppedMachineStays := by
  refine ⟨fun s n h => runFor_stopped s h n, fun s pc op h => ?_, fun s r h => ?_, fun s f n hrun hrejected => ?_⟩
  · simp only [step, h]
  · simp only [step, h]
  · have hstep : step s = .refused (.unsupportedCartridge f s.cpu.pc) := by simp only [step, hrun, hrejected]
    have hafter : stateAfterStep s = { s with status := .refused (.unsupportedCartridge f s.cpu.pc) } := by
      simp only [stateAfterStep, hrun, hstep]
    refine ⟨hstep, ?_⟩
    rw [runFor, hafter]
    exact runFor_stopped _ (by simp) n

/-- Settles O7: an illegal opcode is one byte, and its meaning faults with PC past it. -/
theorem fatalDecodeError : Obligations.FatalDecodeError := by
  refine ⟨fun _ _ => rfl, fun s hruns hhalted hmem => ?_⟩
  have hwf : (Instr.illegal (busRead s s.cpu.pc)).wellFormed = true := List.contains_iff_mem.mpr hmem
  obtain ⟨hinstr, hafter⟩ := fetchInstr_one_byte s hwf rfl
  have hstep : step s = .fault (.illegalOpcode s.cpu.pc (busRead s s.cpu.pc)) := by
    rw [step_of_runs hruns hhalted, hinstr, hafter]
    exact congrArg (fun pc => Host.Outcome.fault (Fault.illegalOpcode pc _)) (add_one_sub_one s.cpu.pc)
  refine ⟨hstep, ?_⟩
  simp only [stateAfterStep, hruns.1, hstep, hafter]
  rfl

/-- Settles O8: STOP is one byte, and its meaning refuses with PC past it. -/
theorem stopRefused : Obligations.StopRefused := by
  refine ⟨rfl, fun _ => rfl, fun s hruns hhalted hop => ?_⟩
  obtain ⟨hinstr, hafter⟩ := fetchInstr_one_byte (i := .stop) s rfl (by rw [hop]; rfl)
  have hstep : step s = .refused (.stop s.cpu.pc) := by
    rw [step_of_runs hruns hhalted, hinstr, hafter]
    exact congrArg (fun pc => Host.Outcome.refused (Refusal.stop pc)) (add_one_sub_one s.cpu.pc)
  refine ⟨hstep, ?_⟩
  simp only [stateAfterStep, hruns.1, hstep, hafter]
  rfl

/-- Settles O9: of the decoded instructions only STOP and the illegal opcodes stop, and no step changes the status or
the cartridge's admission. -/
theorem onlyStopAndIllegalStop : Obligations.OnlyStopAndIllegalStop := by
  intro s hruns hop
  suffices hnext : ∃ t, step s = .next t by
    obtain ⟨t, ht⟩ := hnext
    exact ⟨t, ht, (step_sameLoad ht).runs hruns⟩
  cases hhalted : s.cpu.halted with
  | true => exact ⟨_, step_of_halted hruns hhalted⟩
  | false =>
    have hop' := hop.resolve_left (by rw [hhalted]; decide)
    obtain ⟨i, rest, hdecode⟩ := decode_three (busRead s s.cpu.pc) (busRead (cycle s) (s.cpu.pc + 1))
      (busRead (cycles 2 s) (s.cpu.pc + 2))
    obtain ⟨hstop, hillegal, hcb⟩ := decoded_goes_on hdecode hop'
    obtain ⟨u, hu, -⟩ := exec_performs (afterFetch (encode i).length s) i hstop hillegal hcb
    rw [step_of_decode hruns hhalted hdecode, hu]
    exact ⟨_, rfl⟩

/-- Settles O10: reads of what is written, and the pairs as their halves. -/
theorem registerFile : Obligations.RegisterFile := by
  refine ⟨Cpu.reg_setReg, fun p r v => ?_, fun p dd v => ?_, fun p v => ?_, fun p => ?_⟩
  · cases r <;> rfl
  · cases dd <;> [exact Laws.mk16_halves v; exact Laws.mk16_halves v; exact Laws.mk16_halves v; rfl]
  · rw [opcodeByte_high, opcodeByte_low]; exact ⟨rfl, rfl, rfl, rfl⟩
  · exact ⟨mk16_toNat _ _, mk16_toNat _ _, mk16_toNat _ _, rfl, rfl, mk16_toNat _ _, rfl, rfl, rfl⟩

/-- Settles O32: the pop's two cycles and an internal one; RET cc has a cycle for the test before them. -/
theorem returns : Obligations.Returns := by
  intro cc s popped
  have hret := returnFromCall_eq
  have hretIf : returnIf cc s = if cc.holds s.cpu.f then
      (cycles 4 s).withCpu { s.cpu with pc := popped (cycle s), sp := s.cpu.sp + 2 } else cycle s := by
    rw [returnIf_eq, hret, cycle_cpu]; rfl
  refine ⟨rfl, answer_next_congr (hret s), ?_, (exec_retIf s cc).trans (answer_next_congr hretIf), rfl,
    answer_next_congr (returnFromInterrupt_eq s)⟩
  cases cc <;> rfl

/-- Settles O33: updates of the CPU alone; the opcode after 0xCB is executed as it decodes. -/
theorem systemInstructions : Obligations.SystemInstructions := by
  intro s
  refine ⟨rfl, rfl, rfl, rfl, rfl, rfl, rfl, rfl, _, rfl, ?_⟩
  rw [exec_decodeCb, prefixedOperation, fetchByte_eq]

/-- Settles O37: the lowest pending and enabled source is dispatched when IME is set. -/
theorem interruptDispatch : Obligations.InterruptDispatch := by
  refine ⟨interruptPhase_of_not_ime, interruptPhase_of_none_pending, fun s k hk henable hflag hlow hime => ?_⟩
  have hpending : s.pendingEnabled.getLsbD k = true := by rw [pendingEnabled_getLsbD s hk, henable, hflag]; rfl
  have hselected : selectedBit s.pendingEnabled = k := selectedBit_eq hk hpending fun j hj => by
    rw [pendingEnabled_getLsbD s (hj.trans hk), hlow j hj]
  have hmask : (1#5 <<< k) = BitVec.ofNat 5 (2 ^ k) := by interval_cases k <;> rfl
  rw [interruptPhase_of_pending s hime (fun h => by rw [h] at hpending; simp at hpending), dispatch_eq s hselected,
    opcodeByte_high, opcodeByte_low, ← hmask]
  rfl

/-- Settles O38: the poll's three outcomes; a dispatch clears the halted flag that the poll has cleared. -/
theorem haltedPoll : Obligations.HaltedPoll := by
  intro s hruns hhalted hlatch pending
  rw [step_of_halted hruns hhalted]
  have hnone (h : pending = 0) : s.interruptPending = false := bne_eq_false_iff_eq.mpr h
  have hsome (h : pending ≠ 0) : s.interruptPending = true := bne_iff_ne.mpr h
  refine ⟨fun h => ?_, fun h hime => ?_, fun h hime => ?_⟩ <;> refine answer_next_congr ?_
  · rw [Machine.haltedPoll, hnone h]
    exact endOfStep_of_latch_clear _ (by simpa using hlatch)
  · have hpoll : Machine.haltedPoll s = (cycle s).withCpu { s.cpu with halted := false } := by
      rw [← updCpu_eq_withCpu (fun p => { p with halted := false }) (cycle_cpu s), ← cycle_updCpu]
      simp only [Machine.haltedPoll, hsome h, State.updCpu_cpu, hime, if_true, Bool.false_eq_true, if_false]
    rw [hpoll]
    exact endOfStep_of_latch_clear _ hlatch
  · rw [interruptPhase_of_pending s hime h]
    simp only [Machine.haltedPoll, hsome h, State.updCpu_cpu, hime, if_true]
    exact endOfStep_of_latch_clear _ (dispatch_imePending _)

/-- Settles O39: EI sets the latch alone, the end of its step IME; the phase of NOP's step finds IME set. -/
theorem eiDelay : Obligations.EiDelay := by
  intro s hruns hhalted hime hlatch hei hnop
  constructor
  · obtain ⟨hinstr, hafter⟩ := fetchInstr_one_byte (i := .ei) s rfl (by rw [hei]; rfl)
    rw [step_of_runs hruns hhalted, hinstr, hafter]
    refine answer_next_congr ?_
    have hphase := interruptPhase_of_not_ime
      ((cycle s).withCpu { s.cpu with pc := s.cpu.pc + 1, imePending := true }) hime
    refine (congrArg endOfStep hphase).trans ?_
    exact congrArg (fun l => (cycle s).withCpu { s.cpu with pc := s.cpu.pc + 1, ime := true, imePending := l })
      hlatch.symm
  · generalize hp : ({ s.cpu with pc := s.cpu.pc + 1, ime := true } : Cpu) = p
    have hruns' : ((cycle s).withCpu p).Runs :=
      ⟨(cycle_status s).trans hruns.1, (congrArg _ (cycle_cart s)).trans hruns.2⟩
    have hnop' : busRead ((cycle s).withCpu p) p.pc = 0x00 := by rw [← hp]; exact hnop
    obtain ⟨hinstr, hafter⟩ := fetchInstr_one_byte (i := .nop) ((cycle s).withCpu p) rfl
      (congrArg (fun b => [b]) hnop'.symm)
    rw [step_of_runs hruns' (by rw [← hp]; exact hhalted), hinstr, hafter, fetchedOne, cycle_withCpu, withCpu_withCpu]
    have hpc : s.cpu.pc + 1 + 1 = s.cpu.pc + 2 := by bv_omega
    have hcpu : { p with pc := p.pc + 1 } = ({ s.cpu with pc := s.cpu.pc + 2, ime := true } : Cpu) := by
      rw [← hp, ← hpc]
    refine answer_next_congr ?_
    rw [withCpu_cpu, hcpu]
    exact endOfStep_of_latch_clear _ (interruptPhase_imePending _ hlatch)

end Sys2Proof.Proofs
end

