-- ==== Sys2Proof/Proofs/Devices.lean ====
section
/-! The timer tick (spec/60_exceptions.md R421-R423) and the DMA transfer (R430-R434). -/

namespace Sys2Proof.Machine

/-! ## The timer -/

/-- The selected divider bit, by the two low bits of TAC. -/
theorem edgeBit_eq (t : Timer) : t.edgeBit =
    if t.tac.getLsbD 1 then (if t.tac.getLsbD 0 then 7 else 5) else (if t.tac.getLsbD 0 then 3 else 9) := by
  rw [Timer.edgeBit]
  generalize t.tac = tac
  revert tac; decide

/-- A bit of a divider as a number; `getLsbD_eq` says it of a byte. -/
theorem word_getLsbD_eq (v : Word) (i : Nat) : v.getLsbD i = decide (v.toNat / 2 ^ i % 2 = 1) := by
  rw [BitVec.getLsbD, Nat.testBit_eq_decide_div_mod_eq]

/-- The selected bit falls when the divider advances to a multiple of the next power of two (R421). -/
theorem fallingEdge_iff (t : Timer) : t.fallingEdge = true ↔ (t.div + 1).toNat % 2 ^ (t.edgeBit + 1) = 0 := by
  have hbit : t.edgeBit = 3 ∨ t.edgeBit = 5 ∨ t.edgeBit = 7 ∨ t.edgeBit = 9 := by
    rw [edgeBit_eq]; split_ifs <;> decide
  have hdiv : (t.div + 1).toNat = (t.div.toNat + 1) % 65536 := BitVec.toNat_add _ _
  simp only [Timer.fallingEdge, word_getLsbD_eq, hdiv, Bool.and_eq_true, Bool.not_eq_true', decide_eq_true_eq,
    decide_eq_false_iff_not]
  rcases hbit with h | h | h | h <;> rw [h] <;> omega

/-! ## Bytes outside the I/O block while nothing is accessed -/

variable (s : State)

theorem region_plain_of_lt {a : Word} (h : a.toNat < 0xE000) : (regionOf a).plain = true ∧ regionOf a ≠ .oam := by
  have hbounds := region_bounds a
  cases hr : regionOf a with
  | rom | vram | externalRam | wram => exact ⟨rfl, by decide⟩
  | _ => rw [hr] at hbounds; simp only [Region.first] at hbounds; omega

/-- A timer and PPU tick shows in no byte outside the I/O block. -/
theorem busRead_tick {b : Word} (hplain : (regionOf b).plain = true) : busRead (tick s) b = busRead s b := by
  unfold busRead
  cases hr : regionOf b with
  | io => rw [hr] at hplain; cases hplain
  | _ => rfl

theorem cycles_dma_inv (n : Nat) (h : s.dma.Inv) : (cycles n s).dma.Inv := by
  induction n with
  | zero => exact h
  | succ n ih => rw [cycles_succ']; exact cycle_dma_inv _ ih

/-- Cycles without an access show in no byte outside the I/O block and OAM. -/
theorem busRead_cycles {b : Word} (n : Nat) (hdma : s.dma.Inv) (hplain : (regionOf b).plain = true)
    (hoam : regionOf b ≠ .oam) : busRead (cycles n s) b = busRead s b := by
  induction n with
  | zero => rfl
  | succ n ih =>
    rw [cycles_succ', busRead_cycle _ (cycles_dma_inv s n hdma) hplain fun h => absurd h hoam, ih]

theorem cycles_read_outside_oam {k : Nat} (n : Nat) (hdma : s.dma.Inv) (hk : ¬ inOam k) :
    (cycles n s).mem.read k = s.mem.read k := by
  induction n with
  | zero => rfl
  | succ n ih => rw [cycles_succ', cycle_read_outside_oam _ (cycles_dma_inv s n hdma).active hk, ih]

/-! ## The transfer -/

/-- The state in which the transfer of page v is started. -/
def State.startDma (v : Byte) : State := { s with dma := dmaStart v }

/-- The engine `n` cycles after the start of a transfer: two of delay, then one byte a cycle
(spec/60_exceptions.md R430, R431). -/
def transferDma (v : Byte) (n : Nat) : Dma :=
  { active := decide (n < 162), delay := 2 - n, offset := n - 2, src := v, reg := v }

theorem transferDma_delay (v : Byte) {n : Nat} (h : n < 2) :
    { transferDma v n with delay := (transferDma v n).delay - 1 } = transferDma v (n + 1) := by
  simp only [transferDma, Dma.mk.injEq, and_true]
  exact ⟨decide_eq_decide.mpr (by omega), by omega, by omega⟩

theorem transferDma_copy (v : Byte) {n : Nat} (h : 2 ≤ n) (h' : n < 162) :
    { transferDma v n with
      offset := (transferDma v n).offset + 1, active := decide ((transferDma v n).offset + 1 ≠ Config.dmaLength) } =
      transferDma v (n + 1) := by
  simp only [transferDma, Dma.mk.injEq, Config.dmaLength, and_true]
  exact ⟨decide_eq_decide.mpr (by omega), by omega, by omega⟩

theorem dmaTick_delay {s : State} (hactive : s.dma.active = true) (hdelay : 0 < s.dma.delay) :
    dmaTick s = { s with dma := { s.dma with delay := s.dma.delay - 1 } } := by
  rw [dmaTick, hactive, if_neg (by decide), if_pos hdelay]

theorem dmaTick_copy {s : State} (hactive : s.dma.active = true) (hdelay : ¬ 0 < s.dma.delay) :
    dmaTick s = dmaCopy s := by
  rw [dmaTick, hactive, if_neg (by decide), if_neg hdelay]

theorem cycles_startDma_dma (v : Byte) {n : Nat} (h : n ≤ 162) : (cycles n (s.startDma v)).dma = transferDma v n := by
  induction n with
  | zero => rfl
  | succ n ih =>
    have hdma := ih (by omega)
    have hactive : (cycles n (s.startDma v)).dma.active = true := by
      rw [hdma]; exact decide_eq_true (by omega)
    rw [cycles_succ', cycle_dma]
    by_cases hn : n < 2
    · have hdelay : 0 < (cycles n (s.startDma v)).dma.delay := by rw [hdma]; exact Nat.sub_pos_of_lt hn
      rw [dmaTick_delay hactive hdelay, hdma]
      exact transferDma_delay v hn
    · have hdelay : ¬ 0 < (cycles n (s.startDma v)).dma.delay := by
        rw [hdma]; exact fun h => hn (Nat.lt_of_sub_pos h)
      rw [dmaTick_copy hactive hdelay, dmaCopy_dma, hdma]
      exact transferDma_copy v (Nat.not_lt.mp hn) h

/-- The address of byte k of page v. -/
theorem transferDma_sourceAddress (v : Byte) (k : Nat) :
    (transferDma v (k + 2)).sourceAddress = BitVec.ofNat 16 (256 * v.toNat + k) := by
  apply BitVec.eq_of_toNat_eq
  have h0 : (0x00 : Byte).toNat = 0 := rfl
  simp only [Dma.sourceAddress, transferDma, Nat.add_sub_cancel, BitVec.toNat_add, mk16_toNat, BitVec.toNat_ofNat, h0]
  omega

/-- The byte that cycle k + 3 of a transfer copies. -/
def copiedByte (v : Byte) (k : Nat) : Byte :=
  busRead (tick (tick (tick (tick (cycles (k + 2) (s.startDma v)))))) (BitVec.ofNat 16 (256 * v.toNat + k))

theorem cycles_startDma_mem (v : Byte) {k : Nat} (h : k < 160) :
    (cycles (k + 3) (s.startDma v)).mem =
      (cycles (k + 2) (s.startDma v)).mem.write (0xFE00 + k) (copiedByte s v k) := by
  have hdma := cycles_startDma_dma s v (n := k + 2) (by omega)
  have hactive : (cycles (k + 2) (s.startDma v)).dma.active = true := by
    rw [hdma]; exact decide_eq_true (by omega)
  have hdelay : ¬ 0 < (cycles (k + 2) (s.startDma v)).dma.delay := by rw [hdma]; simp [transferDma]
  have hcycle : cycle (cycles (k + 2) (s.startDma v)) =
      dmaCopy (tick (tick (tick (tick (cycles (k + 2) (s.startDma v)))))) := dmaTick_copy hactive hdelay
  rw [cycles_succ' (k + 2), hcycle, dmaCopy_mem]
  simp only [tick_dma, tick_mem, hdma, transferDma_sourceAddress]
  rfl

/-- A byte copied is not written again. -/
theorem cycles_startDma_copied (v : Byte) {k n : Nat} (hk : k < 160) (hn : k + 3 ≤ n) (hn' : n ≤ 162) :
    (cycles n (s.startDma v)).mem.read (0xFE00 + k) = copiedByte s v k := by
  induction n, hn using Nat.le_induction with
  | base => rw [cycles_startDma_mem s v hk, Memory.read_write_same]
  | succ n hn ih =>
    obtain ⟨j, rfl⟩ : ∃ j, n = j + 2 := ⟨n - 2, by omega⟩
    rw [cycles_startDma_mem s v (by omega), Memory.read_write_other _ _ (by omega)]
    exact ih (by omega)

theorem startDma_inv (v : Byte) : (s.startDma v).dma.Inv := dmaStart_inv v

/-- A source byte outside the I/O block and OAM is copied as it is when the transfer starts. -/
theorem copiedByte_plain (v : Byte) {k : Nat} (hplain : (regionOf (BitVec.ofNat 16 (256 * v.toNat + k))).plain = true)
    (hoam : regionOf (BitVec.ofNat 16 (256 * v.toNat + k)) ≠ .oam) :
    copiedByte s v k = busRead s (BitVec.ofNat 16 (256 * v.toNat + k)) := by
  have hstart : busRead (s.startDma v) (BitVec.ofNat 16 (256 * v.toNat + k)) =
      busRead s (BitVec.ofNat 16 (256 * v.toNat + k)) := by
    unfold busRead
    cases hr : regionOf (BitVec.ofNat 16 (256 * v.toNat + k)) with
    | io => rw [hr] at hplain; cases hplain
    | oam => exact absurd hr hoam
    | _ => rfl
  rw [copiedByte, busRead_tick _ hplain, busRead_tick _ hplain, busRead_tick _ hplain, busRead_tick _ hplain,
    busRead_cycles _ _ (startDma_inv s v) hplain hoam, hstart]

/-- OAM reads as busy while the engine copies from it. -/
theorem copiedByte_oam (v : Byte) {k : Nat} (hk : k < 160)
    (hoam : regionOf (BitVec.ofNat 16 (256 * v.toNat + k)) = .oam) : copiedByte s v k = 0xFF := by
  have hactive : (cycles (k + 2) (s.startDma v)).dma.active = true := by
    rw [cycles_startDma_dma s v (by omega)]; exact decide_eq_true (by omega)
  simp only [copiedByte, busRead, hoam, tick_dma, hactive, if_true]
  rfl

end Sys2Proof.Machine

namespace Sys2Proof.Proofs

open Sys2Proof.Machine

/-- Settles O40: TIMA counts on a falling edge of the selected bit. -/
theorem timerTick : Obligations.TimerTick := by
  intro s div b counts
  have hcounts : counts ↔ (s.timer.enabled && s.timer.fallingEdge) = true := by
    rw [Bool.and_eq_true, fallingEdge_iff, edgeBit_eq]; rfl
  rw [hcounts]
  refine ⟨fun h => ?_, fun h hne => ?_, fun h heq => ?_⟩
  · simp only [Machine.timerTick, Timer.tick, if_neg h]; rfl
  · simp only [Machine.timerTick, Timer.tick, if_pos h, Timer.increment, if_neg hne]; rfl
  · simp only [Machine.timerTick, Timer.tick, if_pos h, Timer.increment, if_pos heq]; rfl

/-- Settles O41: the engine's counters by the cycle, and each byte at the one cycle that copies it. -/
theorem dmaTransfer : Obligations.DmaTransfer := by
  intro s v started source copied
  have hstarted : started = s.startDma v := rfl
  have hcopied (k : Nat) (hk : k < 160) : copied k = copiedByte s v k :=
    cycles_startDma_copied s v hk (by omega) (Nat.le_refl _)
  have hsource (k : Nat) (hk : k < 160) : (source k).toNat = 256 * v.toNat + k := by
    have hv := v.isLt
    exact (BitVec.toNat_ofNat _ _).trans (Nat.mod_eq_of_lt (by omega))
  refine ⟨fun n hn => ?_, ?_, hcopied, fun k hk => ?_, fun k hk => ?_⟩
  · exact (congrArg Dma.active (cycles_startDma_dma s v hn.le)).trans (decide_eq_true hn)
  · rw [hstarted, cycles_startDma_dma s v (Nat.le_refl 162)]; rfl
  · have ha := hsource k hk
    rw [hcopied k hk]
    refine ⟨fun hv => ?_, fun hv hv' => ?_, fun hv => ?_, fun hv hk' => ?_⟩
    · have hlow : (source k).toNat < 0xE000 := by omega
      have hr := region_plain_of_lt hlow
      exact copiedByte_plain s v hr.1 hr.2
    · have hr : regionOf (source k) = .echo :=
        regionOf_eq .echo (by simp only [Region.first]; omega) (by simp only [Region.stop]; omega)
      refine (copiedByte_plain s v (congrArg Region.plain hr) (fun h => by cases hr.symm.trans h)).trans ?_
      simp only [busRead, source, hr]
    · have hr : regionOf (source k) = .oam :=
        regionOf_eq .oam (by simp only [Region.first]; omega) (by simp only [Region.stop]; omega)
      exact copiedByte_oam s v hk hr
    · have hr : regionOf (source k) = .hram :=
        regionOf_eq .hram (by simp only [Region.first]; omega) (by simp only [Region.stop]; omega)
      refine (copiedByte_plain s v (congrArg Region.plain hr) (fun h => by cases hr.symm.trans h)).trans ?_
      refine (busRead_ram s (source k) (congrArg Region.isRam hr)).trans (congrArg s.mem.read ?_)
      omega
  · rw [hstarted]
    exact cycles_read_outside_oam (s.startDma v) 162 (startDma_inv s v) (by simp only [inOam]; omega)

end Sys2Proof.Proofs
end

