-- ==== Sys2Proof/Proofs/Pixels.lean ====
section
/-! The OAM scan (spec/61_video.md R463, R464) and the pixel at a line coordinate (R470-R480): the selection as a sorted
list, the background or window pixel and the sprite in front as the numbers of their tiles and palettes. -/

namespace Sys2Proof.Machine

/-! ## The selection order -/

theorem before_iff (s t : Sprite) :
    s.before t = true ↔ s.x.toNat < t.x.toNat ∨ s.x = t.x ∧ s.index < t.index := by simp [Sprite.before]

theorem before_trans {s t u : Sprite} (h : s.before t = true) (h' : t.before u = true) : s.before u = true := by
  rw [before_iff] at *
  rcases h with h | ⟨hx, h⟩ <;> rcases h' with h' | ⟨hx', h'⟩
  · exact .inl (h.trans h')
  · exact .inl (hx' ▸ h)
  · exact .inl (hx ▸ h')
  · exact .inr ⟨hx.trans hx', h.trans h'⟩

/-- Of two sprites with different OAM indices one comes before the other. -/
theorem before_of_not_before {s t : Sprite} (hne : t.index ≠ s.index) (h : ¬ s.before t = true) :
    t.before s = true := by
  rw [before_iff] at *
  have hx : s.x.toNat = t.x.toNat ↔ s.x = t.x := BitVec.toNat_inj
  have hx' : t.x = s.x ↔ s.x = t.x := eq_comm
  rw [← hx] at h
  rw [hx', ← hx]
  omega

theorem insertSprite_perm (s : Sprite) (l : List Sprite) : (insertSprite s l).Perm (s :: l) := by
  induction l with
  | nil => exact .refl _
  | cons t l ih =>
    rw [insertSprite]
    split
    · exact .refl _
    · exact (ih.cons t).trans (.swap s t l)

theorem sortSprites_perm (l : List Sprite) : (sortSprites l).Perm l := by
  induction l with
  | nil => exact .refl _
  | cons s l ih => exact (insertSprite_perm s _).trans (ih.cons s)

theorem insertSprite_sorted {s : Sprite} {l : List Sprite} (hl : l.Pairwise fun t u => t.before u = true)
    (hs : ∀ t ∈ l, t.index ≠ s.index) : (insertSprite s l).Pairwise fun t u => t.before u = true := by
  induction l with
  | nil => exact List.pairwise_singleton _ _
  | cons t l ih =>
    rw [List.pairwise_cons] at hl
    obtain ⟨ht, hl⟩ := hl
    rw [insertSprite]
    split
    next hst =>
      refine List.pairwise_cons.mpr ⟨fun u hu => ?_, List.pairwise_cons.mpr ⟨ht, hl⟩⟩
      rcases List.mem_cons.mp hu with rfl | hu
      · exact hst
      · exact before_trans hst (ht u hu)
    next hst =>
      refine List.pairwise_cons.mpr ⟨fun u hu => ?_, ih hl fun u hu => hs u (List.mem_cons_of_mem _ hu)⟩
      rcases List.mem_cons.mp ((insertSprite_perm s l).mem_iff.mp hu) with rfl | hu
      · exact before_of_not_before (hs t List.mem_cons_self) hst
      · exact ht u hu

theorem sortSprites_sorted {l : List Sprite} (hl : l.Pairwise fun t u => t.index ≠ u.index) :
    (sortSprites l).Pairwise fun t u => t.before u = true := by
  induction l with
  | nil => exact .nil
  | cons s l ih =>
    rw [List.pairwise_cons] at hl
    exact insertSprite_sorted (ih hl.2) fun t ht => (hl.1 t ((sortSprites_perm l).mem_iff.mp ht)).symm

/-! ## The scan -/

theorem mem_coveringSprites {mem : Memory} {ly : Byte} {rows : Nat} {sp : Sprite} :
    sp ∈ coveringSprites mem ly rows ↔ ∃ k, (k < 40 ∧ (oamEntry mem k).y.toNat ≤ ly.toNat + 16 ∧
      ly.toNat + 16 < (oamEntry mem k).y.toNat + rows) ∧ sp = oamEntry mem k := by
  simp only [coveringSprites, List.mem_filter, List.mem_map, List.mem_range, Sprite.covers, Bool.and_eq_true,
    decide_eq_true_eq]
  constructor
  · rintro ⟨⟨k, hk, rfl⟩, hcovers⟩; exact ⟨k, ⟨hk, hcovers⟩, rfl⟩
  · rintro ⟨k, ⟨hk, hcovers⟩, rfl⟩; exact ⟨⟨k, hk, rfl⟩, hcovers⟩

theorem coveringSprites_index_ne (mem : Memory) (ly : Byte) (rows : Nat) :
    (coveringSprites mem ly rows).Pairwise fun t u => t.index ≠ u.index := by
  refine List.Pairwise.filter _ (List.pairwise_map.mpr ?_)
  exact List.Pairwise.imp (fun h => Nat.ne_of_lt h) List.pairwise_lt_range

/-- The sprites in the order of the selection, before it is cut to ten. -/
def sortedSprites (mem : Memory) (p : Ppu) : List Sprite :=
  sortSprites (coveringSprites mem p.ly (if p.lcdc.getLsbD 2 then 16 else 8))

theorem oamScan_rows (mem : Memory) (p : Ppu) :
    (p.oamScan mem).objHeight.rows = if p.lcdc.getLsbD 2 then 16 else 8 := by
  show (if p.tallSprites then ObjHeight.tall else .short).rows = _
  unfold Ppu.tallSprites bitOf
  split <;> rfl

theorem oamScan_lineSprites (mem : Memory) (p : Ppu) : (p.oamScan mem).lineSprites = (sortedSprites mem p).take 10 := by
  rw [sortedSprites, ← oamScan_rows mem p]; rfl

theorem mem_sortedSprites {mem : Memory} {p : Ppu} {sp : Sprite} :
    sp ∈ sortedSprites mem p ↔ sp ∈ coveringSprites mem p.ly (if p.lcdc.getLsbD 2 then 16 else 8) :=
  (sortSprites_perm _).mem_iff

/-- Whatever is left out by the cut comes after the ten selected. -/
theorem sorted_take_or_after {l : List Sprite} (hl : l.Pairwise fun t u => t.before u = true) {sp : Sprite}
    (hsp : sp ∈ l) (n : Nat) : sp ∈ l.take n ∨ (l.take n).length = n ∧ ∀ t ∈ l.take n, t.before sp = true := by
  rw [← List.take_append_drop n l, List.mem_append] at hsp
  rw [← List.take_append_drop n l, List.pairwise_append] at hl
  rcases hsp with hsp | hsp
  · exact .inl hsp
  · have hpos := List.length_pos_of_mem hsp
    rw [List.length_drop] at hpos
    exact .inr ⟨by rw [List.length_take]; omega, fun t ht => hl.2.2 t ht sp hsp⟩

/-! ## Tiles and palettes -/

theorem and_F8_toNat (v : Byte) : (v &&& 0xF8).toNat = v.toNat / 8 * 8 := by revert v; decide

theorem and_FE_toNat (v : Byte) : (v &&& 0xFE).toNat = v.toNat / 2 * 2 := by revert v; decide

variable (mem : Memory) (par : Config.Params) (p : Ppu) (u : Nat)

/-- The pixel comes from the window: visible on the line, and the column past its left edge (R470, R471). -/
theorem window_shows_iff (hbg : p.bgEnabled = true) :
    (p.windowVisible = true ∧ (p.wx.toNat : Int) - 7 ≤ (u : Int) - p.fineX ∧ 0 ≤ (u : Int) - p.fineX) ↔
      p.lcdc.getLsbD 5 = true ∧ p.wy.toNat ≤ p.ly.toNat ∧ p.wx.toNat ≤ 166 ∧ p.fineX + p.wx.toNat ≤ u + 7 ∧
        p.fineX ≤ u := by
  have hleft : (p.wx.toNat : Int) - 7 ≤ (u : Int) - p.fineX ↔ p.fineX + p.wx.toNat ≤ u + 7 := by omega
  have hzero : 0 ≤ (u : Int) - p.fineX ↔ p.fineX ≤ u := by omega
  rw [Ppu.windowVisible, hbg, hleft, hzero]
  simp only [Bool.and_true, Bool.and_eq_true, decide_eq_true_eq, and_assoc]
  rfl

/-! ## The sprite in front -/

/-- A sprite shows at a screen column: it covers the column and its colour index there is not 0 (R477). -/
def Ppu.shows (sx : Int) (sp : Sprite) : Prop :=
  ((sp.x.toNat : Int) - 8 ≤ sx ∧ sx < sp.x.toNat) ∧ p.spriteIndex mem sp sx ≠ 0

theorem spriteAmong_none {sx : Int} {l : List Sprite} (h : ∀ sp ∈ l, ¬ p.shows mem sx sp) :
    p.spriteAmong mem sx l = (0, 0) := by
  induction l with
  | nil => rfl
  | cons sp l ih =>
    have hl := ih fun t ht => h t (List.mem_cons_of_mem _ ht)
    have hsp := h sp List.mem_cons_self
    rw [Ppu.spriteAmong]
    split
    next hcovers =>
      have hzero : p.spriteIndex mem sp sx = 0 := of_not_not fun hne => hsp ⟨hcovers, hne⟩
      simp only [hzero, ne_eq, not_true_eq_false, if_false]
      exact hl
    next => exact hl

theorem spriteAmong_front {sx : Int} {front behind : List Sprite} {sp : Sprite}
    (hfront : ∀ t ∈ front, ¬ p.shows mem sx t) (hsp : p.shows mem sx sp) :
    p.spriteAmong mem sx (front ++ sp :: behind) = (p.spriteIndex mem sp sx, sp.attr) := by
  induction front with
  | nil =>
    rw [List.nil_append, Ppu.spriteAmong, if_pos hsp.1]
    simp only [if_pos hsp.2]
  | cons t front ih =>
    have hrest := ih fun t' ht' => hfront t' (List.mem_cons_of_mem _ ht')
    have ht := hfront t List.mem_cons_self
    rw [List.cons_append, Ppu.spriteAmong]
    split
    next hcovers =>
      have hzero : p.spriteIndex mem t sx = 0 := of_not_not fun hne => ht ⟨hcovers, hne⟩
      simp only [hzero, ne_eq, not_true_eq_false, if_false]
      exact hrest
    next => exact hrest

/-- The row of a sprite's tiles that the line shows, flipped by bit 6 of its flags. -/
def Ppu.spriteRow (sp : Sprite) : Nat :=
  if sp.attr.getLsbD 6 then p.objHeight.rows - 1 - (p.ly.toNat + 16 - sp.y.toNat) else p.ly.toNat + 16 - sp.y.toNat

/-- The number of the tile that the row lies in: a tall sprite is two tiles from an even number on. -/
def Ppu.spriteTile (sp : Sprite) : Nat :=
  if p.objHeight.rows = 16 then (sp.tile.toNat / 2 * 2 + p.spriteRow sp / 8) % 256 else sp.tile.toNat

/-- The column of the tile, flipped by bit 5 of the sprite's flags. -/
def spriteColumn (sx : Int) (sp : Sprite) : Nat :=
  if sp.attr.getLsbD 5 then 7 - (sx + 8 - sp.x.toNat).toNat else (sx + 8 - sp.x.toNat).toNat

theorem spriteIndex_toNat {sx : Int} {sp : Sprite} (hcovers : (sp.x.toNat : Int) - 8 ≤ sx ∧ sx < sp.x.toNat) :
    (p.spriteIndex mem sp sx).toNat =
      2 * ((mem.read (0x8000 + 16 * p.spriteTile sp + 2 * (p.spriteRow sp % 8) + 1)).toNat /
          2 ^ (7 - spriteColumn sx sp) % 2) +
        (mem.read (0x8000 + 16 * p.spriteTile sp + 2 * (p.spriteRow sp % 8) + 0)).toNat /
          2 ^ (7 - spriteColumn sx sp) % 2 := by
  have hcol : sx - ((sp.x.toNat : Int) - 8) = sx + 8 - sp.x.toNat := by omega
  have hlt : spriteColumn sx sp < 8 := by unfold spriteColumn; split <;> omega
  have htile : (match p.objHeight with
      | .short => sp.tile
      | .tall => (sp.tile &&& 0xFE) + BitVec.ofNat 8 (p.spriteRow sp / 8)).toNat = p.spriteTile sp := by
    unfold Ppu.spriteTile
    cases p.objHeight with
    | short => rfl
    | tall =>
      simp only [BitVec.toNat_add, and_FE_toNat, BitVec.toNat_ofNat]
      exact Eq.trans (by omega) (if_pos (show ObjHeight.tall.rows = 16 from rfl)).symm
  have hindex := tileIndex_toNat mem (match p.objHeight with
      | .short => sp.tile
      | .tall => (sp.tile &&& 0xFE) + BitVec.ofNat 8 (p.spriteRow sp / 8)) (p.spriteRow sp % 8) _ true hlt
  simp only [if_true] at hindex
  rw [htile] at hindex
  rw [← hindex, Ppu.spriteIndex, hcol]
  rfl

end Sys2Proof.Machine

namespace Sys2Proof.Proofs

open Sys2Proof.Machine

/-- Settles O50: the covering sprites sorted by the selection order, cut to ten. -/
theorem oamScan : Obligations.OamScan := by
  intro mem p rows entry covers before l
  have hl : l = (sortedSprites mem p).take 10 := oamScan_lineSprites mem p
  have hsorted : (sortedSprites mem p).Pairwise fun t u => t.before u = true :=
    sortSprites_sorted (coveringSprites_index_ne ..)
  have hbefore {t u : Sprite} (h : t.before u = true) : before t u := (before_iff t u).mp h
  rw [hl]
  refine ⟨List.length_take_le _ _, fun sp hsp => ?_, ?_, fun k hk => ?_, oamScan_rows mem p⟩
  · exact mem_coveringSprites.mp (mem_sortedSprites.mp (List.mem_of_mem_take hsp))
  · exact (hsorted.sublist (List.take_sublist _ _)).imp hbefore
  · have hmem : entry k ∈ sortedSprites mem p := mem_sortedSprites.mpr (mem_coveringSprites.mpr ⟨k, hk, rfl⟩)
    exact (sorted_take_or_after hsorted hmem 10).imp_right fun ⟨hlen, hall⟩ => ⟨hlen, fun t ht => hbefore (hall t ht)⟩

/-- Settles O51: the two tile maps as numbers, chosen between by the window's left edge. -/
theorem backgroundPixel : Obligations.BackgroundPixel := by
  intro mem par p u ramp map index shows inWindow
  have hwindow (hbg : p.lcdc.getLsbD 0 = true) := window_shows_iff p u hbg
  have hshows {pixel : BitVec 2 × Colour} {i : BitVec 2} (hpixel : pixel = (i, paletteColour par p.bgp i)) :
      pixel.1.toNat = i.toNat ∧ pixel.2 = ramp (p.bgp.toNat / 4 ^ i.toNat % 4) := by
    rw [hpixel]; exact ⟨rfl, paletteColour_eq par p.bgp i⟩
  have hindex (bit x y : Nat) : (tileIndex mem (mapTile mem (bitOf p.lcdc bit) x y) (y % 8) (x % 8)
      p.unsignedTiles).toNat = index (map bit) x y := by
    rw [tileIndex_toNat mem _ _ _ _ (Nat.mod_lt _ (by decide)), mapTile_eq mem p]; rfl
  have henabled (hbg : p.lcdc.getLsbD 0 = true) : ¬ p.bgEnabled = false := ne_false_of_eq_true hbg
  refine ⟨fun hbg => ?_, fun hbg hin => ?_, fun hbg hout => ?_, fun hsprites => ?_⟩
  · exact if_pos hbg
  · have hcol : ((u : Int) - p.fineX - ((p.wx.toNat : Int) - 7)).toNat = u + 7 - p.fineX - p.wx.toNat := by omega
    have hpixel : p.bgPixel mem par u = (p.windowIndex mem (u + 7 - p.fineX - p.wx.toNat),
        paletteColour par p.bgp (p.windowIndex mem (u + 7 - p.fineX - p.wx.toNat))) := by
      rw [← hcol, Ppu.bgPixel, if_neg (henabled hbg), if_pos ((hwindow hbg).mpr hin)]
    have := hshows hpixel
    rw [show (p.windowIndex mem _).toNat = _ from hindex 6 _ _] at this
    exact this
  · have hpixel : p.bgPixel mem par u = (p.bgIndex mem u, paletteColour par p.bgp (p.bgIndex mem u)) := by
      rw [Ppu.bgPixel, if_neg (henabled hbg), if_neg (mt (hwindow hbg).mp hout)]
    have hbgIndex : (p.bgIndex mem u).toNat =
        index (map 3) ((p.scx.toNat / 8 * 8 + u) % 256) ((p.ly.toNat + p.scy.toNat) % 256) := by
      rw [← and_F8_toNat]; exact hindex 3 _ _
    have := hshows hpixel
    rw [hbgIndex] at this
    exact this
  · have hnone : p.spritePixel mem ((u : Int) - p.fineX) = (0, 0) := if_neg (ne_true_of_eq_false hsprites)
    rw [Ppu.pixel, hnone]
    exact if_neg fun h => h.1 rfl

/-- Settles O58: the first sprite that shows, its index as the numbers of its row, tile and column. -/
theorem spritePixel : Obligations.SpritePixel := by
  intro mem par p u hsprites ramp column covers row tile col bit index opaqueAt colour bg
  have hindex {sp : Sprite} (hcovers : covers sp) : (p.spriteIndex mem sp column).toNat = index sp :=
    spriteIndex_toNat mem p hcovers
  have hshows (sp : Sprite) : opaqueAt sp ↔ p.shows mem column sp :=
    and_congr_right fun hcovers => by
      rw [← hindex hcovers]
      exact not_congr (BitVec.toNat_eq (y := (0 : BitVec 2))).symm
  have hsprite : p.spritePixel mem column = p.spriteAmong mem column p.lineSprites := if_pos hsprites
  simp only [hshows]
  refine ⟨fun hnone => ?_, fun front behind sp hline hfront hsp => ?_⟩
  · rw [Ppu.pixel, show p.spritePixel mem _ = _ from hsprite, spriteAmong_none mem p hnone]
    exact if_neg fun h => h.1 rfl
  · have hpixel : p.spritePixel mem column = (p.spriteIndex mem sp column, sp.attr) := by
      rw [hsprite, hline, spriteAmong_front mem p hfront hsp]
    have hcolour : p.objColour par (p.spriteIndex mem sp column) sp.attr = colour sp := by
      rw [Ppu.objColour, paletteColour_eq, hindex hsp.1]; rfl
    refine ⟨fun h => ?_, fun hbg hbehind hne => ?_⟩
    · rw [Ppu.pixel, show p.spritePixel mem _ = _ from hpixel, ← hcolour]
      exact if_pos ⟨hsp.2, h⟩
    · rw [Ppu.pixel, show p.spritePixel mem _ = _ from hpixel]
      refine if_neg fun h => ?_
      rcases h.2 with h | h | h
      · exact absurd (h.symm.trans hbg) (by decide)
      · exact absurd (h.symm.trans hbehind) (by decide)
      · exact hne h

end Sys2Proof.Proofs
end

