-- ==== Sys2Proof/Proofs/Lines.lean ====
section
/-! One PPU tick with the LCD on, off and between (spec/61_video.md R461, R466-R468, R492-R493, R496). -/

namespace Sys2Proof.Machine

variable (mem : Memory) (par : Config.Params) (p : Ppu) (flags : BitVec 5)

theorem ppuTick_eq {s : State} {q : Ppu} {f : BitVec 5} (h : s.ppu.tick s.mem s.params s.intFlags = (q, f)) :
    ppuTick s = { s with ppu := q, intFlags := f } := by
  rw [ppuTick, h]

theorem Ppu.tick_off (h : p.lcdc.getLsbD 7 = false) : p.tick mem par flags = (p.offTick, flags) :=
  if_neg (ne_true_of_eq_false h)

theorem Ppu.tick_on (hon : p.lcdc.getLsbD 7 = true) (hwas : p.lcdWasOn = true) :
    p.tick mem par flags = p.countTick.modeTick mem par flags := by
  have hturn : p.turnOn = p := if_pos hwas
  rw [Ppu.tick, if_pos (show p.lcdOn = true from hon), hturn]

/-- The tick that sees the LCD turned on is tick 0 of line 0. -/
theorem tick_turns_on (hon : p.lcdc.getLsbD 7 = true) (hwas : p.lcdWasOn = false) : p.tick mem par flags =
    ({ p with
       lcdWasOn := true, ly := 0, lineTicks := 1, windowLine := 0, mode := .oamScan, coincidence := p.lyc == 0 },
     flags) := by
  rw [Ppu.tick, if_pos (show p.lcdOn = true from hon), Ppu.turnOn, if_neg (ne_true_of_eq_false hwas),
    show ((0 : Byte) == p.lyc) = (p.lyc == 0) from Bool.beq_comm]
  rfl

/-! ## The line transition -/

/-- The line after LY: 153 is the last. -/
def Ppu.nextLy : Byte := if p.ly = 153 then 0 else p.ly + 1

/-- The line transition without its flags. -/
def Ppu.afterLine : Ppu :=
  { p with
    ly := p.nextLy, lineTicks := 0, fifo := [], lineSprites := [], fetchState := .tile
    mode := if p.nextLy = 144 then .vblank else if p.nextLy.toNat < 144 then .oamScan else p.mode
    windowLine := if p.nextLy = 0 then 0 else p.windowLine
    frameCounter := if p.nextLy = 144 then (p.frameCounter + 1) % 2 ^ par.frameCounterBits else p.frameCounter
    coincidence := p.nextLy == p.lyc }

/-- The requests of a line transition: V-blank, the entered mode's STAT event, and the line comparison's. -/
def Ppu.lineFlags : BitVec 5 :=
  requestIf (p.nextLy == p.lyc && p.lycSelected)
    (requestIf (decide (p.nextLy.toNat < 144) && p.oamSelected)
      (requestIf (p.nextLy == 144 && p.vblankSelected) (requestIf (p.nextLy == 144) flags .vblank) .lcdStat) .lcdStat)
    .lcdStat

theorem nextLy_toNat (hly : p.ly.toNat ≤ 153) :
    p.nextLy.toNat = if p.ly.toNat = 153 then 0 else p.ly.toNat + 1 := by
  have h153 : p.ly = 153 ↔ p.ly.toNat = 153 := BitVec.toNat_eq
  by_cases h : p.ly.toNat = 153
  · rw [Ppu.nextLy, if_pos (h153.mpr h), if_pos h]; rfl
  · rw [Ppu.nextLy, if_neg (mt h153.mp h), if_neg h, BitVec.toNat_add]
    exact Nat.mod_eq_of_lt (show p.ly.toNat + 1 < 256 by omega)

/-- The next line by its four kinds: V-blank's first, the frame's first, a visible one, a later one of V-blank. -/
theorem nextLine_eq (hly : p.ly.toNat ≤ 153) : p.nextLine par flags =
    ({ p with
       ly := p.nextLy
       mode := if p.nextLy = 144 then .vblank else if p.nextLy.toNat < 144 then .oamScan else p.mode
       windowLine := if p.nextLy = 0 then 0 else p.windowLine
       frameCounter := if p.nextLy = 144 then (p.frameCounter + 1) % 2 ^ par.frameCounterBits else p.frameCounter },
     requestIf (decide (p.nextLy.toNat < 144) && p.oamSelected)
       (requestIf (p.nextLy == 144 && p.vblankSelected) (requestIf (p.nextLy == 144) flags .vblank) .lcdStat)
       .lcdStat) := by
  by_cases hlast : p.ly = 153
  · have hnext : p.nextLy = 0 := if_pos hlast
    have h154 : p.ly + 1 = 154 := by rw [hlast]; rfl
    rw [hnext, Ppu.nextLine, h154]
    rfl
  have hnext : p.nextLy = p.ly + 1 := if_neg hlast
  have hnotLast : ¬ p.ly + 1 = 154 := by bv_omega
  have hne : ¬ p.ly + 1 = 0 := by bv_omega
  by_cases hvblank : p.ly + 1 = 144
  · rw [hnext, Ppu.nextLine, hvblank]
    rfl
  simp only [hnext, Ppu.nextLine, if_neg hvblank, if_neg hnotLast, if_neg hne, beq_eq_false_iff_ne.mpr hvblank]
  by_cases hlt : (p.ly + 1).toNat < 144
  · simp only [if_pos hlt, decide_eq_true hlt, Bool.true_and]
    rfl
  · simp only [if_neg hlt, decide_eq_false hlt]
    rfl

theorem lineTransition_eq (hly : p.ly.toNat ≤ 153) :
    p.lineTransition par flags = (p.afterLine par, p.lineFlags flags) := by
  rw [Ppu.lineTransition, nextLine_eq par p.clearLine flags hly]
  rfl

theorem lineFlags_getLsbD (k : Nat) : (p.lineFlags flags).getLsbD k = (flags.getLsbD k ||
    (p.nextLy == 144 && decide (k = 0)) || (p.nextLy == 144 && p.vblankSelected && decide (k = 1)) ||
    (decide (p.nextLy.toNat < 144) && p.oamSelected && decide (k = 1)) ||
    (p.nextLy == p.lyc && p.lycSelected && decide (k = 1))) := by
  simp only [Ppu.lineFlags, requestIf_getLsbD]
  rfl

/-- The last tick of a line is the line transition. -/
theorem tick_line_end (hon : p.lcdc.getLsbD 7 = true) (hwas : p.lcdWasOn = true)
    (hmode : p.mode = .hblank ∨ p.mode = .vblank) (hticks : p.lineTicks = 455) (hly : p.ly.toNat ≤ 153) :
    p.tick mem par flags = (p.afterLine par, p.lineFlags flags) := by
  have hend : p.countTick.lineTicks = Config.ticksPerLine := congrArg (· + 1) hticks
  have htick : p.countTick.modeTick mem par flags = p.countTick.lineTransition par flags := by
    rcases hmode with h | h <;> simp only [Ppu.modeTick, show p.countTick.mode = _ from h, if_pos hend]
  rw [Ppu.tick_on mem par p flags hon hwas, htick]
  exact lineTransition_eq par p.countTick flags hly

/-! ## A tick of pixel transfer -/

/-- The fetcher step and the pop step of a tick. -/
def Ppu.pipelineStep : Ppu := (p.fetcherStep mem par).popStep par

/-- Whether the fetcher pushes a group at this tick. -/
def Ppu.pushes : Bool := p.fetchState = .push ∧ p.fifo.length ≤ 8

/-- Whether the oldest pixel leaves the queue at this tick. -/
def Ppu.pops : Bool := 8 ≤ (p.queueAfterFetch mem par).length

/-- Whether the popped pixel lands in the framebuffer. -/
def Ppu.lands : Bool := p.pops mem par ∧ p.fineX ≤ p.lineX

/-- The fetcher's next state: the push state is left when a group is pushed. -/
def FetchState.next (pushes : Bool) : FetchState → FetchState
  | .tile => .data0
  | .data0 => .data1
  | .data1 => .idle
  | .idle => .push
  | .push => if pushes then .tile else .push

theorem pipelineStep_eq : p.pipelineStep mem par =
    { p with
      fetchState := p.fetchState.next p.pushes
      fetchX := if p.pushes then p.fetchX + 8 else p.fetchX
      fifo := if p.pops mem par then (p.queueAfterFetch mem par).tail else p.queueAfterFetch mem par
      lineX := if p.pops mem par then p.lineX + 1 else p.lineX
      pushedX := if p.lands mem par then p.pushedX + 1 else p.pushedX
      framebuffer :=
        if p.lands mem par then
          Cells.write par.ramp.shade0 p.framebuffer (pixelKey p.ly.toNat p.pushedX)
            ((p.queueAfterFetch mem par).headD 0)
        else p.framebuffer } := by
  have hlands : p.lands mem par = decide (8 ≤ (p.queueAfterFetch mem par).length ∧ p.fineX ≤ p.lineX) := by
    simp only [Ppu.lands, Ppu.pops, decide_eq_true_eq]
  rw [hlands, Ppu.pipelineStep, Ppu.popStep_eq, Ppu.fetcherStep_eq]
  rfl

theorem countTick_pixel (u : Nat) : p.countTick.pixel mem par u = p.pixel mem par u :=
  pixel_withPipeline mem par p u p.mode (p.lineTicks + 1) p.fetchX p.lineX p.pushedX p.fetchState p.fifo p.framebuffer

theorem countTick_queueAfterFetch : p.countTick.queueAfterFetch mem par = p.queueAfterFetch mem par := by
  simp only [Ppu.queueAfterFetch, countTick_pixel]
  rfl

/-- Counting a tick changes nothing that the pipeline's steps look at. -/
theorem countTick_pipelineStep : p.countTick.pipelineStep mem par =
    { p.pipelineStep mem par with lineTicks := p.lineTicks + 1 } := by
  simp only [pipelineStep_eq, Ppu.lands, Ppu.pops, countTick_queueAfterFetch]
  rfl

theorem windowVisible_eq : p.windowVisible =
    decide (p.lcdc.getLsbD 5 = true ∧ p.lcdc.getLsbD 0 = true ∧ p.wy.toNat ≤ p.ly.toNat ∧ p.wx.toNat ≤ 166) := by
  simp only [Ppu.windowVisible, Ppu.windowEnabled, Ppu.bgEnabled, bitOf, Bool.decide_and, Bool.decide_eq_true,
    Bool.and_assoc]

/-- Whether the popped pixel fills the line, which ends the transfer. -/
def Ppu.fillsLine : Bool := p.lands mem par ∧ p.pushedX = 159

theorem pipelineStep_full_iff (hpushed : p.pushedX < 160) :
    (p.pipelineStep mem par).pushedX = 160 ↔ p.fillsLine mem par = true := by
  have hafter : (p.pipelineStep mem par).pushedX = if p.lands mem par then p.pushedX + 1 else p.pushedX :=
    congrArg Ppu.pushedX (pipelineStep_eq mem par p)
  rw [hafter, Ppu.fillsLine, decide_eq_true_iff]
  by_cases h : p.lands mem par = true
  · rw [if_pos h]
    exact ⟨fun h' => ⟨h, by omega⟩, fun ⟨_, h'⟩ => by omega⟩
  · rw [if_neg h]
    exact ⟨fun h' => absurd h' (by omega), fun h' => absurd h'.1 h⟩

/-- The PPU after a tick of pixel transfer: the pipeline's steps, and H-blank when they fill the line. -/
def Ppu.afterTransferTick : Ppu :=
  { p.pipelineStep mem par with
    lineTicks := p.lineTicks + 1
    mode := if p.fillsLine mem par then .hblank else .transfer
    windowLine := if p.fillsLine mem par && p.windowVisible then p.windowLine + 1 else p.windowLine }

theorem tick_transfer (hon : p.lcdc.getLsbD 7 = true) (hwas : p.lcdWasOn = true) (hmode : p.mode = .transfer)
    (hpushed : p.pushedX < 160) : p.tick mem par flags =
      (p.afterTransferTick mem par, requestIf (p.fillsLine mem par && p.hblankSelected) flags .lcdStat) := by
  have htick : p.countTick.modeTick mem par flags =
      if (p.pipelineStep mem par).pushedX = 160 then
        { p.pipelineStep mem par with lineTicks := p.lineTicks + 1 }.enterHblank flags
      else ({ p.pipelineStep mem par with lineTicks := p.lineTicks + 1 }, flags) := by
    rw [← countTick_pipelineStep]
    simp only [Ppu.modeTick, show p.countTick.mode = _ from hmode]
    rw [← Ppu.pipelineStep, countTick_pipelineStep]
    rfl
  rw [Ppu.tick_on mem par p flags hon hwas, htick, Ppu.afterTransferTick, pipelineStep_eq]
  by_cases hfills : p.fillsLine mem par = true
  · rw [if_pos (by rw [← pipelineStep_eq]; exact (pipelineStep_full_iff mem par p hpushed).mpr hfills), hfills]
    rfl
  · rw [if_neg (by rw [← pipelineStep_eq]; exact mt (pipelineStep_full_iff mem par p hpushed).mp hfills),
      Bool.eq_false_iff.mpr hfills, ← hmode]
    rfl

/-- The pop step writes one pixel of the framebuffer at most. -/
theorem pipelineStep_read (hpushed : p.pushedX < 160) (row : Nat) {column : Nat} (hcolumn : column < 160) :
    Cells.read par.ramp.shade0 (p.pipelineStep mem par).framebuffer (pixelKey row column) =
      if p.lands mem par = true ∧ row = p.ly.toNat ∧ column = p.pushedX then (p.queueAfterFetch mem par).headD 0
      else Cells.read par.ramp.shade0 p.framebuffer (pixelKey row column) := by
  rw [pipelineStep_eq]
  by_cases h : p.lands mem par = true
  · simp only [h, if_true, true_and, Cells.read_write, pixelKey_inj hcolumn hpushed]
  · simp only [h, Bool.false_eq_true, false_and, if_false]

end Sys2Proof.Machine

namespace Sys2Proof.Proofs

open Sys2Proof.Machine

/-- Settles O49: the last tick of a line is its transition, its requests read bit by bit. -/
theorem lineTransition : Obligations.LineTransition := by
  intro s hon hwas hmode hticks hly next t
  have ht : t = { s with ppu := s.ppu.afterLine s.params, intFlags := s.ppu.lineFlags s.intFlags } :=
    ppuTick_eq (tick_line_end s.mem s.params s.ppu s.intFlags hon hwas hmode hticks hly)
  rw [ht]
  refine ⟨rfl, ?_, ?_, fun k hk => ?_, rfl⟩
  · refine (lineFlags_getLsbD ..).trans ?_
    simp only [decide_true, decide_false, Bool.and_true, Bool.and_false, Bool.or_false, Nat.zero_ne_one]
    rfl
  · refine (lineFlags_getLsbD ..).trans ?_
    simp only [decide_true, decide_false, Bool.and_true, Bool.and_false, Bool.or_false, Nat.one_ne_zero]
    rfl
  · refine (lineFlags_getLsbD ..).trans ?_
    simp only [decide_eq_false (show ¬ k = 0 by omega), decide_eq_false (show ¬ k = 1 by omega), Bool.and_false,
      Bool.or_false]

/-- Settles O54: the tick that sees bit 7 fall, the ticks after it, and the tick that sees it rise. -/
theorem lcdOffAndOn : Obligations.LcdOffAndOn := by
  refine fun s => ⟨fun hoff hwas => ?_, fun hoff hwas => ?_, fun hon hwas => ?_⟩
  · have htick := s.ppu.tick_off s.mem s.params s.intFlags hoff
    rw [Ppu.offTick, if_pos hwas] at htick
    exact ppuTick_eq htick
  · have htick := s.ppu.tick_off s.mem s.params s.intFlags hoff
    rw [Ppu.offTick, if_neg (ne_true_of_eq_false hwas)] at htick
    exact ppuTick_eq htick
  · exact ppuTick_eq (tick_turns_on s.mem s.params s.ppu s.intFlags hon hwas)

/-- Settles O59: the pipeline's steps field by field, and the end of the transfer when the line is full. -/
theorem transferTick : Obligations.TransferTick := by
  intro s hon hwas hmode hpushed p pushes queue pops lands ends visible t
  have ht := ppuTick_eq (tick_transfer s.mem s.params s.ppu s.intFlags hon hwas hmode hpushed)
  rw [Ppu.afterTransferTick] at ht
  have hvisible : s.ppu.windowVisible = visible := windowVisible_eq s.ppu
  have hfields := pipelineStep_eq s.mem s.params s.ppu
  have hframe : t.ppu.framebuffer = (s.ppu.pipelineStep s.mem s.params).framebuffer := congrArg (·.ppu.framebuffer) ht
  refine ⟨?_, fun row column hcolumn => ?_, ?_, rfl⟩
  · rw [hframe, ← hvisible]
    refine (congrArg State.ppu ht).trans ?_
    rw [hfields]
    rfl
  · have hread := pipelineStep_read s.mem s.params s.ppu hpushed row hcolumn
    show State.readPixel (ppuTick s) row column = _
    rw [ht]
    exact hread
  · show (ppuTick s).intFlags = _
    rw [ht]
    rfl

end Sys2Proof.Proofs
end

