-- ==== Sys2Proof/Proofs/Schedule.lean ====
section
/-! The schedule of pixel transfer (spec/61_video.md R462, R466-R468): the pipeline keeps to it tick by tick, whatever
the registers are, and what it draws when nothing is written. -/

namespace Sys2Proof.Machine

/-! ## The schedule by itself -/

/-- The pixels queued `k` ticks after the start. -/
def scheduledQueue (k : Nat) : Nat := 8 * transferGroups k - transferPops k

/-- Whether the tick after `k` ticks pushes a group. -/
def scheduledPush (k : Nat) : Bool := transferFetch k = .push ∧ scheduledQueue k ≤ 8

/-- Whether the tick after `k` ticks pops a pixel. -/
def scheduledPop (k : Nat) : Bool := 8 ≤ scheduledQueue k + if scheduledPush k then 8 else 0

/-- The schedule at k + 1 is what the pipeline's steps make of the schedule at k. -/
structure ScheduleStep (k : Nat) : Prop where
  fetch : transferFetch (k + 1) = (transferFetch k).next (scheduledPush k)
  groups : transferGroups (k + 1) = transferGroups k + if scheduledPush k then 1 else 0
  pops : transferPops (k + 1) = transferPops k + if scheduledPop k then 1 else 0
  enough : transferPops k ≤ 8 * transferGroups k

/-- From tick 17 on the schedule repeats every eight ticks. -/
theorem schedule_periodic {k : Nat} (h : 17 ≤ k) : transferFetch (k + 8) = transferFetch k ∧
    transferGroups (k + 8) = transferGroups k + 1 ∧ transferPops (k + 8) = transferPops k + 8 := by
  have h10 : ¬ k < 10 := by omega
  have h17 : ¬ k < 17 := by omega
  have h10' : ¬ k + 8 < 10 := by omega
  have h17' : ¬ k + 8 < 17 := by omega
  have hphase : (k + 8 - 17) % 8 = (k - 17) % 8 := by omega
  simp only [transferFetch, transferGroups, transferPops, if_neg h10, if_neg h17, if_neg h10', if_neg h17', hphase]
  exact ⟨trivial, by omega, by omega⟩

theorem scheduleStep_periodic {k : Nat} (h : 17 ≤ k) (hk : ScheduleStep k) : ScheduleStep (k + 8) := by
  obtain ⟨hfetch, hgroups, hpops⟩ := schedule_periodic h
  obtain ⟨hfetch', hgroups', hpops'⟩ := schedule_periodic (show 17 ≤ k + 1 by omega)
  have hqueue : scheduledQueue (k + 8) = scheduledQueue k := by
    rw [scheduledQueue, hgroups, hpops, scheduledQueue]; omega
  have hpush : scheduledPush (k + 8) = scheduledPush k := by rw [scheduledPush, hfetch, hqueue, scheduledPush]
  have hpop : scheduledPop (k + 8) = scheduledPop k := by rw [scheduledPop, hqueue, hpush, scheduledPop]
  have hcomm : k + 8 + 1 = k + 1 + 8 := rfl
  constructor
  · rw [hcomm, hfetch', hfetch, hpush]; exact hk.fetch
  · rw [hcomm, hgroups', hgroups, hpush, hk.groups]; omega
  · rw [hcomm, hpops', hpops, hpop, hk.pops]; omega
  · rw [hgroups, hpops]; have := hk.enough; omega

theorem scheduleStep_first : ∀ k < 25, ScheduleStep k := by
  have h : ∀ k < 25, transferFetch (k + 1) = (transferFetch k).next (scheduledPush k) ∧
      transferGroups (k + 1) = transferGroups k + (if scheduledPush k then 1 else 0) ∧
      transferPops (k + 1) = transferPops k + (if scheduledPop k then 1 else 0) ∧
      transferPops k ≤ 8 * transferGroups k := by decide
  intro k hk
  obtain ⟨hfetch, hgroups, hpops, henough⟩ := h k hk
  exact ⟨hfetch, hgroups, hpops, henough⟩

theorem scheduleStep (k : Nat) : ScheduleStep k := by
  induction k using Nat.strongRecOn with
  | _ k ih =>
    by_cases hk : k < 25
    · exact scheduleStep_first k hk
    · have hback : k - 8 + 8 = k := by omega
      rw [← hback]
      exact scheduleStep_periodic (by omega) (ih (k - 8) (by omega))

theorem scheduledQueue_succ (k : Nat) : scheduledQueue (k + 1) =
    (scheduledQueue k + if scheduledPush k then 8 else 0) - if scheduledPop k then 1 else 0 := by
  have h := scheduleStep k
  have henough := h.enough
  rw [scheduledQueue, h.groups, h.pops, scheduledQueue]
  cases scheduledPush k <;> cases scheduledPop k <;> simp only [Bool.false_eq_true, if_true, if_false] <;> omega

theorem scheduledQueue_le (k : Nat) : scheduledQueue k ≤ 16 := by
  unfold scheduledQueue transferGroups transferPops
  split
  · omega
  · split <;> omega

/-- The pops fill the line exactly at the transfer's length. -/
theorem transferPops_full_iff (fineX : Nat) {k : Nat} (h : k < transferTicks fineX) :
    transferPops (k + 1) - fineX = 160 ↔ k + 1 = transferTicks fineX := by
  have hlt : k < 168 + fineX := h
  rw [transferPops, transferTicks]
  split <;> omega

theorem transferPops_lt (fineX : Nat) {k : Nat} (h : k < transferTicks fineX) : transferPops k - fineX < 160 := by
  have hlt : k < 168 + fineX := h
  unfold transferPops
  split <;> omega

/-! ## The pipeline on schedule -/

/-- The pipeline's fields are the schedule's `k` ticks after the start. -/
structure Ppu.OnSchedule (p : Ppu) (k : Nat) : Prop where
  fetchState : p.fetchState = transferFetch k
  fetchX : p.fetchX = 8 * transferGroups k
  lineX : p.lineX = transferPops k
  pushedX : p.pushedX = transferPops k - p.fineX
  fifo : p.fifo.length = scheduledQueue k

variable (mem : Memory) (par : Config.Params) {p : Ppu} {k : Nat}

theorem transferInv_iff : p.TransferInv ↔
    80 ≤ p.lineTicks ∧ p.lineTicks - 80 < transferTicks p.fineX ∧ p.OnSchedule (p.lineTicks - 80) :=
  ⟨fun ⟨h, h', h1, h2, h3, h4, h5⟩ => ⟨h, h', h1, h2, h3, h4, h5⟩,
    fun ⟨h, h', h1, h2, h3, h4, h5⟩ => ⟨h, h', h1, h2, h3, h4, h5⟩⟩

theorem Ppu.OnSchedule.pushes (h : p.OnSchedule k) : p.pushes = scheduledPush k := by
  rw [Ppu.pushes, h.fetchState, h.fifo, scheduledPush]

theorem queueAfterFetch_length : (p.queueAfterFetch mem par).length = p.fifo.length + if p.pushes then 8 else 0 := by
  rw [Ppu.queueAfterFetch, ← Ppu.pushes]
  split <;> simp

theorem Ppu.OnSchedule.pops (h : p.OnSchedule k) : p.pops mem par = scheduledPop k := by
  rw [Ppu.pops, queueAfterFetch_length, h.pushes, h.fifo, scheduledPop]

theorem Ppu.OnSchedule.lands (h : p.OnSchedule k) :
    p.lands mem par = decide (scheduledPop k = true ∧ p.fineX ≤ transferPops k) := by
  rw [Ppu.lands, h.pops, h.lineX]

/-- The pipeline's steps keep the schedule, whatever the registers and the memory are. -/
theorem Ppu.OnSchedule.pipelineStep (h : p.OnSchedule k) : (p.pipelineStep mem par).OnSchedule (k + 1) := by
  have hstep := scheduleStep k
  have hqueue : (p.queueAfterFetch mem par).length = scheduledQueue k + if scheduledPush k then 8 else 0 := by
    rw [queueAfterFetch_length, h.pushes, h.fifo]
  rw [pipelineStep_eq, h.lands, h.pops, h.pushes]
  constructor
  · exact (congrArg (FetchState.next _) h.fetchState).trans hstep.fetch.symm
  · simp only [h.fetchX, hstep.groups]; split <;> omega
  · simp only [h.lineX, hstep.pops]; split <;> rfl
  · simp only [h.pushedX, hstep.pops, decide_eq_true_eq]
    cases scheduledPop k with
    | false => rfl
    | true => simp only [true_and, if_true]; split <;> omega
  · rw [scheduledQueue_succ, ← hqueue]
    simp only []
    split
    · rw [List.length_tail]
    · rfl

theorem Ppu.OnSchedule.pushedX_lt (h : p.OnSchedule k) (hk : k < transferTicks p.fineX) : p.pushedX < 160 := by
  rw [h.pushedX]; exact transferPops_lt p.fineX hk

/-- The transfer ends with the last tick of its length. -/
theorem Ppu.OnSchedule.fillsLine_iff (h : p.OnSchedule k) (hk : k < transferTicks p.fineX) :
    p.fillsLine mem par = true ↔ k + 1 = transferTicks p.fineX := by
  have hfine : (p.pipelineStep mem par).fineX = p.fineX := by rw [pipelineStep_eq]
  rw [← pipelineStep_full_iff mem par p (h.pushedX_lt hk), (h.pipelineStep mem par).pushedX, hfine,
    transferPops_full_iff p.fineX hk]

/-! ## What an undisturbed transfer draws -/

/-- The PPU `n` ticks after the start of the transfer, its queue the pixels from the next column on. -/
def Ppu.drawing (p : Ppu) (n : Nat) (framebuffer : List (Nat × Colour)) : Ppu :=
  p.withPipeline .transfer (80 + n) (8 * transferGroups n) (transferPops n) (transferPops n - p.fineX) (transferFetch n)
    ((List.range' (transferPops n) (scheduledQueue n)).map (p.pixel mem par)) framebuffer

variable (p) (n : Nat) (framebuffer : List (Nat × Colour))

theorem drawing_onSchedule : (p.drawing mem par n framebuffer).OnSchedule n :=
  ⟨rfl, rfl, rfl, rfl, by simp [Ppu.drawing, Ppu.withPipeline]⟩

theorem drawing_pixel : (p.drawing mem par n framebuffer).pixel mem par = p.pixel mem par :=
  funext fun u => pixel_withPipeline mem par p u ..

theorem drawing_queueAfterFetch : (p.drawing mem par n framebuffer).queueAfterFetch mem par =
    (List.range' (transferPops n) (scheduledQueue n + if scheduledPush n then 8 else 0)).map (p.pixel mem par) := by
  have hpushes := (drawing_onSchedule mem par p n framebuffer).pushes
  rw [Ppu.queueAfterFetch, ← Ppu.pushes, hpushes, drawing_pixel]
  split
  case isTrue h =>
    have hnext : transferPops n + scheduledQueue n = 8 * transferGroups n :=
      Nat.add_sub_cancel' (scheduleStep n).enough
    have hgroup : (List.range 8).map (fun i => p.pixel mem par ((p.drawing mem par n framebuffer).fetchX + i)) =
        (List.range' (transferPops n + scheduledQueue n) 8).map (p.pixel mem par) := by
      rw [hnext, List.range'_eq_map_range, List.map_map]
      rfl
    rw [hgroup, ← List.range'_append_1, List.map_append]
    rfl
  case isFalse h => rfl

/-- The pipeline's steps change the pipeline's fields alone. -/
theorem pipelineStep_withPipeline : p.pipelineStep mem par =
    p.withPipeline p.mode p.lineTicks (p.pipelineStep mem par).fetchX (p.pipelineStep mem par).lineX
      (p.pipelineStep mem par).pushedX (p.pipelineStep mem par).fetchState (p.pipelineStep mem par).fifo
      (p.pipelineStep mem par).framebuffer := by
  rw [pipelineStep_eq]
  rfl

theorem drawing_pipelineStep : (p.drawing mem par n framebuffer).pipelineStep mem par =
    { p.drawing mem par (n + 1) ((p.drawing mem par n framebuffer).pipelineStep mem par).framebuffer with
      lineTicks := 80 + n } := by
  have hsched := drawing_onSchedule mem par p n framebuffer
  have hnext := hsched.pipelineStep mem par
  have hfields := pipelineStep_eq mem par (p.drawing mem par n framebuffer)
  have hfifo : ((p.drawing mem par n framebuffer).pipelineStep mem par).fifo =
      (List.range' (transferPops (n + 1)) (scheduledQueue (n + 1))).map (p.pixel mem par) := by
    rw [hfields, hsched.pops, drawing_queueAfterFetch, (scheduleStep n).pops, scheduledQueue_succ]
    cases scheduledPop n with
    | false => rfl
    | true => simp only [if_true, ← List.map_tail, List.tail_range']
  have hfine : ((p.drawing mem par n framebuffer).pipelineStep mem par).fineX = p.fineX := by rw [hfields]; rfl
  have hpushed := hnext.pushedX
  rw [hfine] at hpushed
  refine (pipelineStep_withPipeline mem par (p.drawing mem par n framebuffer)).trans ?_
  rw [hnext.fetchX, hnext.lineX, hpushed, hnext.fetchState, hfifo]
  rfl

/-- The columns that are drawn `n` ticks after the start show their pixels, all other ones are as before. -/
def Ppu.Drawn (p : Ppu) (n : Nat) (framebuffer : List (Nat × Colour)) : Prop :=
  ∀ row column, column < 160 → Cells.read par.ramp.shade0 framebuffer (pixelKey row column) =
    if row = p.ly.toNat ∧ column < transferPops n - p.fineX then p.pixel mem par (column + p.fineX)
    else Cells.read par.ramp.shade0 p.framebuffer (pixelKey row column)

variable {p n framebuffer}

/-- The pixel at the head of the queue when one is popped. -/
theorem drawing_headD (h : scheduledPop n = true) :
    ((p.drawing mem par n framebuffer).queueAfterFetch mem par).headD 0 = p.pixel mem par (transferPops n) := by
  obtain ⟨m, hm⟩ : ∃ m, (scheduledQueue n + if scheduledPush n then 8 else 0) = m + 1 :=
    Nat.exists_eq_add_of_le' (Nat.le_trans (by decide) (of_decide_eq_true h))
  rw [drawing_queueAfterFetch, hm]
  rfl

theorem drawn_pipelineStep (hn : n < transferTicks p.fineX) (h : p.Drawn mem par n framebuffer) :
    p.Drawn mem par (n + 1) ((p.drawing mem par n framebuffer).pipelineStep mem par).framebuffer := by
  intro row column hcolumn
  have hsched := drawing_onSchedule mem par p n framebuffer
  rw [pipelineStep_read mem par _ (hsched.pushedX_lt hn) row hcolumn, hsched.lands]
  show (if decide (scheduledPop n = true ∧ p.fineX ≤ transferPops n) = true ∧ row = p.ly.toNat ∧
      column = transferPops n - p.fineX then _ else Cells.read par.ramp.shade0 framebuffer (pixelKey row column)) = _
  rw [h row column hcolumn, (scheduleStep n).pops]
  split
  case isTrue hlands =>
    obtain ⟨hlanded, hrow, hat⟩ := hlands
    obtain ⟨hpop, hfine⟩ := of_decide_eq_true hlanded
    have hdrawn : row = p.ly.toNat ∧ column < (transferPops n + if scheduledPop n then 1 else 0) - p.fineX :=
      ⟨hrow, by rw [if_pos hpop]; omega⟩
    rw [if_pos hdrawn, drawing_headD mem par hpop, show column + p.fineX = transferPops n by omega]
  case isFalse hlands =>
    refine if_congr (and_congr_right fun hrow => ?_) rfl rfl
    cases hpop : scheduledPop n with
    | false => simp only [Bool.false_eq_true, if_false, Nat.add_zero]
    | true =>
      have hne : p.fineX ≤ transferPops n → column ≠ transferPops n - p.fineX :=
        fun hfine hat => hlands ⟨decide_eq_true ⟨hpop, hfine⟩, hrow, hat⟩
      simp only [if_true]
      omega

/-! ## The ticks of a line's transfer -/

variable (s : State)

/-- The PPU at the start of the line's transfer: the sprites scanned and the fine scroll latched. -/
def State.scanned : Ppu := { s.ppu.oamScan s.mem with fineX := s.ppu.scx.toNat % 8 }

/-- The tick that ends OAM scan starts the transfer. -/
theorem ppuTick_start (hon : s.ppu.lcdc.getLsbD 7 = true) (hwas : s.ppu.lcdWasOn = true) (hticks : s.ppu.lineTicks = 79)
    (hmode : s.ppu.mode = .oamScan) :
    ppuTick s = { s with ppu := s.scanned.drawing s.mem s.params 0 s.ppu.framebuffer } := by
  apply ppuTick_eq
  have hend : s.ppu.countTick.lineTicks = Config.oamScanTicks := congrArg (· + 1) hticks
  rw [Ppu.tick_on _ _ _ _ hon hwas]
  simp only [Ppu.modeTick, show s.ppu.countTick.mode = _ from hmode, if_pos hend]
  rw [Ppu.drawing, show transferPops 0 - s.scanned.fineX = 0 from Nat.zero_sub _]
  show (({ s.ppu with lineTicks := s.ppu.lineTicks + 1 }.oamScan s.mem).startTransfer, s.intFlags) = _
  rw [hticks]
  rfl

/-- A tick of the transfer draws on; the last one enters H-blank. -/
theorem ppuTick_drawing (hon : s.ppu.lcdc.getLsbD 7 = true) (hwas : s.ppu.lcdWasOn = true)
    (hn : n < transferTicks s.scanned.fineX) :
    let t := { s with ppu := s.scanned.drawing s.mem s.params n framebuffer }
    let next := s.scanned.drawing s.mem s.params (n + 1) (t.ppu.pipelineStep s.mem s.params).framebuffer
    let ends : Bool := n + 1 = transferTicks s.scanned.fineX
    ppuTick t = { s with
      ppu := { next with
        mode := if ends then .hblank else .transfer
        windowLine := if ends && s.scanned.windowVisible then s.ppu.windowLine + 1 else s.ppu.windowLine }
      intFlags := requestIf (ends && s.scanned.hblankSelected) s.intFlags .lcdStat } := by
  intro t next ends
  have hsched := drawing_onSchedule s.mem s.params s.scanned n framebuffer
  have hends : (s.scanned.drawing s.mem s.params n framebuffer).fillsLine s.mem s.params = ends :=
    (Bool.eq_iff_iff.mpr ((hsched.fillsLine_iff s.mem s.params hn).trans decide_eq_true_iff.symm))
  have htick := ppuTick_eq (s := t) (tick_transfer s.mem s.params _ s.intFlags hon hwas rfl (hsched.pushedX_lt hn))
  rw [htick, Ppu.afterTransferTick, hends, drawing_pipelineStep]
  rfl

/-- The transfer up to its last tick. -/
theorem ppuTick_iterate (hon : s.ppu.lcdc.getLsbD 7 = true) (hwas : s.ppu.lcdWasOn = true)
    (hticks : s.ppu.lineTicks = 79) (hmode : s.ppu.mode = .oamScan) (hn : n < transferTicks s.scanned.fineX) :
    ∃ framebuffer, ppuTick^[n + 1] s = { s with ppu := s.scanned.drawing s.mem s.params n framebuffer } ∧
      s.scanned.Drawn s.mem s.params n framebuffer := by
  induction n with
  | zero => exact ⟨s.ppu.framebuffer, ppuTick_start s hon hwas hticks hmode, fun row column _ =>
      (if_neg fun h => by simp [transferPops] at h).symm⟩
  | succ n ih =>
    obtain ⟨framebuffer, hstate, hdrawn⟩ := ih (by omega)
    have htick := ppuTick_drawing (framebuffer := framebuffer) s hon hwas (show n < _ by omega)
    have hends : decide (n + 1 = transferTicks s.scanned.fineX) = false := decide_eq_false (by omega)
    simp only [hends] at htick
    refine ⟨_, ?_, drawn_pipelineStep s.mem s.params (show n < _ by omega) hdrawn⟩
    rw [Function.iterate_succ_apply', hstate, htick]
    rfl

/-- The tick that fills the line. -/
theorem ppuTick_last (hon : s.ppu.lcdc.getLsbD 7 = true) (hwas : s.ppu.lcdWasOn = true)
    (hticks : s.ppu.lineTicks = 79) (hmode : s.ppu.mode = .oamScan) :
    ∃ framebuffer, s.scanned.Drawn s.mem s.params (transferTicks s.scanned.fineX) framebuffer ∧
      ppuTick^[transferTicks s.scanned.fineX + 1] s = { s with
        ppu := { s.scanned.drawing s.mem s.params (transferTicks s.scanned.fineX) framebuffer with
          mode := .hblank
          windowLine := if s.scanned.windowVisible then s.ppu.windowLine + 1 else s.ppu.windowLine }
        intFlags := requestIf s.scanned.hblankSelected s.intFlags .lcdStat } := by
  obtain ⟨n, hn⟩ : ∃ n, transferTicks s.scanned.fineX = n + 1 := ⟨167 + s.scanned.fineX, by rw [transferTicks]; omega⟩
  obtain ⟨framebuffer, hstate, hdrawn⟩ := ppuTick_iterate s hon hwas hticks hmode (show n < _ by omega)
  have htick := ppuTick_drawing (framebuffer := framebuffer) s hon hwas (show n < _ by omega)
  simp only [decide_eq_true hn.symm, if_true, Bool.true_and] at htick
  rw [hn]
  refine ⟨_, drawn_pipelineStep s.mem s.params (show n < _ by omega) hdrawn, ?_⟩
  rw [Function.iterate_succ_apply', hstate, htick]

theorem transferPops_end (fineX : Nat) : transferPops (transferTicks fineX) - fineX = 160 := by
  rw [transferPops, transferTicks, if_neg (by omega)]
  omega

end Sys2Proof.Machine

namespace Sys2Proof.Proofs

open Sys2Proof.Machine

/-- Settles O52: the transfer draws on until its last tick, which enters H-blank. -/
theorem pixelTransferLength : Obligations.PixelTransferLength := by
  intro s hon hwas hticks hmode fine
  obtain ⟨framebuffer, -, hend⟩ := ppuTick_last s hon hwas hticks hmode
  refine ⟨fun n hn => ?_, ?_⟩
  · obtain ⟨framebuffer, hstate, -⟩ := ppuTick_iterate s hon hwas hticks hmode hn
    rw [hstate]
    rfl
  · have hlength : 168 + fine = transferTicks s.scanned.fineX := rfl
    have hticks' : 80 + transferTicks s.scanned.fineX = 248 + fine := by rw [← hlength]; omega
    rw [hlength, hend]
    exact ⟨rfl, transferPops_end s.scanned.fineX, hticks'⟩

/-- Settles O60: when the transfer ends, every column of the line is drawn. -/
theorem lineDrawn : Obligations.LineDrawn := by
  intro s hon hwas hticks hmode fine scanned visible t
  obtain ⟨framebuffer, hdrawn, hend⟩ := ppuTick_last s hon hwas hticks hmode
  have hlength : 168 + fine = transferTicks s.scanned.fineX := rfl
  have hpushed := transferPops_end s.scanned.fineX
  have hticks' : 80 + transferTicks s.scanned.fineX = 248 + fine := by rw [← hlength]; omega
  have hvisible : s.scanned.windowVisible = visible := windowVisible_eq s.scanned
  rw [hvisible, Ppu.drawing, hpushed, hticks'] at hend
  have ht : t = _ := hend
  rw [ht]
  refine ⟨fun x hx => ?_, fun row x hrow hx => ?_, rfl, rfl, rfl⟩
  · exact (hdrawn s.ppu.ly.toNat x hx).trans (if_pos ⟨rfl, by rw [hpushed]; exact hx⟩)
  · exact (hdrawn row x hx).trans (if_neg fun h => hrow h.1)

end Sys2Proof.Proofs
end

