-- ==== Sys2Proof/Proofs/Frames.lean ====
section
/-! The timing of lines and frames (spec/61_video.md R462, R492, R494): what a tick with the LCD on does, mode by mode,
and the position in the frame that it advances. -/

namespace Sys2Proof.Machine

/-- The timing part of the PPU's invariant while the LCD is on. -/
structure Ppu.Timing (p : Ppu) : Prop where
  line : p.ly.toNat ≤ 153
  vblank : p.mode = .vblank ↔ 144 ≤ p.ly.toNat
  ticks : p.lineTicks < 456
  oamScan : p.mode = .oamScan → p.lineTicks < 80
  transfer : p.mode = .transfer → p.TransferInv
  fine : p.mode = .transfer → p.fineX ≤ 7

variable (mem : Memory) (par : Config.Params) {p : Ppu} (flags : BitVec 5)

/-- At the top of the screen and before the transfer every condition of the timing is met. -/
theorem timing_of_top (hly : p.ly = 0) (hticks : p.lineTicks < 80) (hvblank : p.mode ≠ .vblank)
    (htransfer : p.mode ≠ .transfer) : p.Timing :=
  have hline : p.ly.toNat = 0 := by rw [hly]; rfl
  ⟨by omega, ⟨fun h => absurd h hvblank, fun h => by omega⟩, by omega, fun _ => hticks, fun h => absurd h htransfer,
    fun h => absurd h htransfer⟩

/-- A tick inside a mode other than pixel transfer. -/
structure Ppu.Waits (p : Ppu) : Prop where
  mode : p.mode ≠ .transfer
  oamScan : p.mode = .oamScan → p.lineTicks + 1 < 80
  ticks : p.lineTicks + 1 < 456

/-- The last tick of a line. -/
structure Ppu.EndsLine (p : Ppu) : Prop where
  mode : p.mode = .hblank ∨ p.mode = .vblank
  ticks : p.lineTicks = 455

/-- What a tick with the LCD on does: it is counted, starts or advances the transfer, or ends the line. -/
theorem tick_cases (hon : p.lcdc.getLsbD 7 = true) (hwas : p.lcdWasOn = true) (h : p.Timing) :
    (p.Waits ∧ p.tick mem par flags = (p.countTick, flags)) ∨
    (p.mode = .oamScan ∧ p.lineTicks = 79 ∧
      p.tick mem par flags = ((p.countTick.oamScan mem).startTransfer, flags)) ∨
    (p.mode = .transfer ∧ (p.tick mem par flags).1 = p.afterTransferTick mem par) ∨
    (p.EndsLine ∧ (p.tick mem par flags).1 = p.afterLine par) := by
  have htick := p.tick_on mem par flags hon hwas
  have hticks := h.ticks
  have hcount : p.countTick.mode = p.mode := rfl
  cases hmode : p.mode with
  | transfer =>
    obtain ⟨-, hrunning, hsched⟩ := transferInv_iff.mp (h.transfer hmode)
    exact .inr (.inr (.inl ⟨rfl, congrArg Prod.fst
      (tick_transfer mem par p flags hon hwas hmode (hsched.pushedX_lt hrunning))⟩))
  | oamScan =>
    have hscan := h.oamScan hmode
    by_cases hend : p.lineTicks = 79
    · refine .inr (.inl ⟨rfl, hend, htick.trans ?_⟩)
      simp only [Ppu.modeTick, hcount, hmode]
      exact if_pos (congrArg (· + 1) hend)
    · refine .inl ⟨⟨by rw [hmode]; decide, fun _ => by omega, by omega⟩, htick.trans ?_⟩
      simp only [Ppu.modeTick, hcount, hmode]
      exact if_neg fun h80 => hend (Nat.succ.inj h80)
  | hblank | vblank =>
    have hends : p.mode = .hblank ∨ p.mode = .vblank := by rw [hmode]; decide
    by_cases hend : p.lineTicks = 455
    · exact .inr (.inr (.inr ⟨⟨hends, hend⟩,
        congrArg Prod.fst (tick_line_end mem par p flags hon hwas hends hend h.line)⟩))
    · refine .inl ⟨⟨by rw [hmode]; decide, fun hscan => (by rw [hmode] at hscan; cases hscan), by omega⟩,
        htick.trans ?_⟩
      simp only [Ppu.modeTick, hcount, hmode]
      exact if_neg fun h456 => hend (Nat.succ.inj h456)

/-! ## The timing is kept -/

theorem countTick_timing (h : p.Timing) (hwaits : p.Waits) : p.countTick.Timing :=
  ⟨h.line, h.vblank, hwaits.ticks, hwaits.oamScan, fun hmode => absurd hmode hwaits.mode,
    fun hmode => absurd hmode hwaits.mode⟩

theorem startTransfer_timing (h : p.Timing) (hmode : p.mode = .oamScan) (hticks : p.lineTicks = 79) :
    ((p.countTick.oamScan mem).startTransfer).Timing := by
  have hcounted : p.countTick.lineTicks = 80 := congrArg (· + 1) hticks
  have hvisible : ¬ 144 ≤ p.ly.toNat := fun hly => by have := h.vblank.mpr hly; rw [hmode] at this; cases this
  refine ⟨h.line, ⟨nofun, fun hly => absurd hly hvisible⟩, ?_, nofun, fun _ => ?_, fun _ => ?_⟩
  · exact (congrArg (· < 456) hcounted).mpr (by decide)
  · refine transferInv_iff.mpr ?_
    show 80 ≤ p.countTick.lineTicks ∧ p.countTick.lineTicks - 80 < _ ∧ Ppu.OnSchedule _ (p.countTick.lineTicks - 80)
    rw [hcounted]
    exact ⟨Nat.le_refl 80, by rw [transferTicks]; omega, ⟨rfl, rfl, rfl, (Nat.zero_sub _).symm, rfl⟩⟩
  · exact Nat.le_of_lt_succ (Nat.mod_lt _ (by decide))

theorem afterTransferTick_onSchedule {k : Nat} (h : p.OnSchedule k) :
    (p.afterTransferTick mem par).OnSchedule (k + 1) :=
  have hnext := h.pipelineStep mem par
  ⟨hnext.fetchState, hnext.fetchX, hnext.lineX, hnext.pushedX, hnext.fifo⟩

theorem afterTransferTick_timing (h : p.Timing) (hmode : p.mode = .transfer) :
    (p.afterTransferTick mem par).Timing := by
  obtain ⟨hstart, hrunning, hsched⟩ := transferInv_iff.mp (h.transfer hmode)
  have hfine := h.fine hmode
  have hvisible : ¬ 144 ≤ p.ly.toNat := fun hly => by have := h.vblank.mpr hly; rw [hmode] at this; cases this
  have hnext := afterTransferTick_onSchedule mem par hsched
  have hly : (p.afterTransferTick mem par).ly = p.ly := by rw [Ppu.afterTransferTick, pipelineStep_eq]
  have hfineX : (p.afterTransferTick mem par).fineX = p.fineX := by rw [Ppu.afterTransferTick, pipelineStep_eq]
  have hticks : (p.afterTransferTick mem par).lineTicks = p.lineTicks + 1 := rfl
  have hmode' : (p.afterTransferTick mem par).mode = if p.fillsLine mem par then .hblank else .transfer := rfl
  have hlength : p.lineTicks - 80 < 168 + p.fineX := hrunning
  constructor
  · rw [hly]; exact h.line
  · rw [hly, hmode']
    refine ⟨fun hvblank => ?_, fun h144 => absurd h144 hvisible⟩
    split at hvblank <;> cases hvblank
  · rw [hticks]; omega
  · rw [hmode']
    intro hscan
    split at hscan <;> cases hscan
  · rw [hmode', transferInv_iff, hticks, hfineX]
    intro htransfer
    have hmore : ¬ p.fillsLine mem par = true := fun hfills => by rw [if_pos hfills] at htransfer; cases htransfer
    rw [hsched.fillsLine_iff mem par hrunning] at hmore
    have hk : p.lineTicks + 1 - 80 = p.lineTicks - 80 + 1 := by omega
    exact ⟨by omega, by rw [hk]; omega, by rw [hk]; exact hnext⟩
  · rw [hfineX]; exact fun _ => hfine

theorem afterLine_timing (h : p.Timing) (hends : p.EndsLine) : (p.afterLine par).Timing := by
  have hnext := nextLy_toNat p h.line
  have hly := h.line
  have h144 : p.nextLy = 144 ↔ p.nextLy.toNat = 144 := BitVec.toNat_eq
  have hmode : (p.afterLine par).mode =
      if p.nextLy = 144 then .vblank else if p.nextLy.toNat < 144 then .oamScan else p.mode := rfl
  have hkept : ¬ (p.afterLine par).mode = .transfer := by
    rw [hmode]
    rcases hends.mode with hm | hm <;> rw [hm] <;> split_ifs <;> nofun
  refine ⟨?_, ?_, (by decide : 0 < 456), fun _ => (by decide : 0 < 80), fun ht => absurd ht hkept,
    fun ht => absurd ht hkept⟩
  · show p.nextLy.toNat ≤ 153
    rw [hnext]; split <;> omega
  · show (p.afterLine par).mode = .vblank ↔ 144 ≤ p.nextLy.toNat
    rw [hmode]
    split_ifs with hfirst hlt
    · exact ⟨fun _ => (h144.mp hfirst).ge, fun _ => rfl⟩
    · exact ⟨nofun, fun h => absurd hlt (Nat.not_lt.mpr h)⟩
    · rw [h144] at hfirst
      rw [h.vblank]
      split at hnext <;> omega

theorem tick_timing (hon : p.lcdc.getLsbD 7 = true) (hwas : p.lcdWasOn = true) (h : p.Timing) :
    (p.tick mem par flags).1.Timing := by
  rcases tick_cases mem par flags hon hwas h with
      ⟨hwaits, ht⟩ | ⟨hmode, hticks, ht⟩ | ⟨hmode, ht⟩ | ⟨hends, ht⟩ <;> rw [ht]
  · exact countTick_timing h hwaits
  · exact startTransfer_timing mem h hmode hticks
  · exact afterTransferTick_timing mem par h hmode
  · exact afterLine_timing par h hends

/-! ## The position in the frame -/

/-- The ticks since the start of line 0. -/
def Ppu.position (p : Ppu) : Nat := 456 * p.ly.toNat + p.lineTicks

/-- The tick on the PPU `n` ticks into the frame that had `frames` behind it: the count goes up with line 144. -/
structure Ppu.InFrame (n frames : Nat) (p : Ppu) : Prop where
  on : p.lcdc.getLsbD 7 = true
  wasOn : p.lcdWasOn = true
  timing : p.Timing
  position : p.position = n
  frames : p.frameCounter = if n < 65664 then frames else (frames + 1) % 2 ^ par.frameCounterBits

/-- Within a line nothing of the frame moves but the tick. -/
theorem inFrame_within_line {n frames : Nat} {q : Ppu} (h : p.InFrame par n frames) (hq : q.Timing)
    (hlcdc : q.lcdc = p.lcdc) (hwas : q.lcdWasOn = p.lcdWasOn) (hly : q.ly = p.ly)
    (hticks : q.lineTicks = p.lineTicks + 1) (hframes : q.frameCounter = p.frameCounter)
    (hwithin : p.lineTicks < 455) : q.InFrame par (n + 1) frames := by
  have hposition : 456 * p.ly.toNat + p.lineTicks = n := h.position
  refine ⟨hlcdc ▸ h.on, hwas ▸ h.wasOn, hq, ?_, ?_⟩
  · rw [Ppu.position, hly, hticks]; omega
  · rw [hframes, h.frames]
    exact if_congr (by omega) rfl rfl

theorem tick_inFrame {n frames : Nat} (h : p.InFrame par n frames) (hn : n + 1 < 70224) :
    (p.tick mem par flags).1.InFrame par (n + 1) frames := by
  have hposition : 456 * p.ly.toNat + p.lineTicks = n := h.position
  have htiming := tick_timing mem par flags h.on h.wasOn h.timing
  rcases tick_cases mem par flags h.on h.wasOn h.timing with
    ⟨hwaits, ht⟩ | ⟨hmode, hticks, ht⟩ | ⟨hmode, ht⟩ | ⟨hends, ht⟩ <;> rw [ht] at htiming ⊢
  · exact inFrame_within_line par h htiming rfl rfl rfl rfl rfl (Nat.succ_lt_succ_iff.mp hwaits.ticks)
  · exact inFrame_within_line par h htiming rfl rfl rfl rfl rfl (by omega)
  · obtain ⟨-, hrunning, -⟩ := transferInv_iff.mp (h.timing.transfer hmode)
    have hlength : p.lineTicks - 80 < 168 + p.fineX := hrunning
    have hfine := h.timing.fine hmode
    have hfields := pipelineStep_eq mem par p
    rw [Ppu.afterTransferTick, hfields] at htiming ⊢
    exact inFrame_within_line par h htiming rfl rfl rfl rfl rfl (by omega)
  · have hticks := hends.ticks
    have hly : (p.afterLine par).ly.toNat = p.ly.toNat + 1 :=
      (nextLy_toNat p h.timing.line).trans (if_neg (by omega))
    have hline : p.nextLy = 144 ↔ n + 1 = 65664 := by
      have h144 : p.nextLy = 144 ↔ p.nextLy.toNat = 144 := BitVec.toNat_eq
      have hly' : p.nextLy.toNat = p.ly.toNat + 1 := hly
      rw [h144, hly']
      omega
    refine ⟨h.on, h.wasOn, htiming, ?_, ?_⟩
    · show 456 * (p.afterLine par).ly.toNat + 0 = n + 1
      rw [hly]; omega
    · show (if p.nextLy = 144 then (p.frameCounter + 1) % 2 ^ par.frameCounterBits else p.frameCounter) = _
      rw [h.frames]
      by_cases hfirst : n + 1 = 65664
      · rw [if_pos (hline.mpr hfirst), if_pos (by omega), if_neg (by omega)]
      · rw [if_neg (mt hline.mp hfirst)]
        exact if_congr (by omega) rfl rfl

/-- The frame's last tick is line 0's start. -/
theorem tick_frame_end {frames : Nat} (h : p.InFrame par 70223 frames) :
    let q := (p.tick mem par flags).1
    q.mode = .oamScan ∧ q.ly = 0 ∧ q.lineTicks = 0 ∧ q.frameCounter = (frames + 1) % 2 ^ par.frameCounterBits := by
  have hposition : 456 * p.ly.toNat + p.lineTicks = 70223 := h.position
  have hline := h.timing.line
  have hticks := h.timing.ticks
  have hly : p.ly.toNat = 153 := by omega
  have hvblank : p.mode = .vblank := h.timing.vblank.mpr (by omega)
  have hnext : p.nextLy = 0 := if_pos (BitVec.eq_of_toNat_eq hly)
  have htick := tick_line_end mem par p flags h.on h.wasOn (.inr hvblank) (by omega) hline
  have hframes : p.frameCounter = (frames + 1) % 2 ^ par.frameCounterBits := h.frames.trans (if_neg (by decide))
  rw [htick, Ppu.afterLine, hnext]
  exact ⟨rfl, rfl, rfl, hframes⟩

/-! ## The machine's cycles -/

variable (s : State)

/-- The machine `n` ticks into a frame. -/
def State.InFrame (n frames : Nat) : Prop := s.ppu.InFrame s.params n frames

variable {s} {n frames : Nat}

theorem tick_state_inFrame (h : s.InFrame n frames) (hn : n + 1 < 70224) : (tick s).InFrame (n + 1) frames :=
  tick_inFrame (p := s.ppu) s.mem s.params _ h hn

theorem dmaTick_inFrame (h : s.InFrame n frames) : (dmaTick s).InFrame n frames := by
  unfold dmaTick
  split_ifs <;> exact h

theorem cycle_inFrame (h : s.InFrame n frames) (hn : n + 4 < 70224) : (cycle s).InFrame (n + 4) frames :=
  dmaTick_inFrame (tick_state_inFrame (tick_state_inFrame (tick_state_inFrame (tick_state_inFrame h
    (by omega)) (by omega)) (by omega)) (by omega))

theorem cycles_inFrame (k : Nat) (h : s.InFrame 0 frames) (hk : 4 * k < 70224) :
    (cycles k s).InFrame (4 * k) frames := by
  induction k with
  | zero => exact h
  | succ k ih =>
    rw [cycles_succ']
    exact cycle_inFrame (ih (by omega)) (by omega)

/-- The frame's last cycle. -/
theorem cycle_frame_end (h : s.InFrame 70220 frames) :
    (cycle s).ppu.mode = .oamScan ∧ (cycle s).ppu.ly = 0 ∧ (cycle s).ppu.lineTicks = 0 ∧
      (cycle s).ppu.frameCounter = (frames + 1) % 2 ^ s.params.frameCounterBits := by
  have hlast := tick_state_inFrame (tick_state_inFrame (tick_state_inFrame h (by decide)) (by decide)) (by decide)
  rw [cycle, dmaTick_ppu]
  exact tick_frame_end (p := (tick (tick (tick s))).ppu) s.mem s.params
    (timerTick (tick (tick (tick s)))).intFlags hlast

end Sys2Proof.Machine

namespace Sys2Proof.Proofs

open Sys2Proof.Machine

/-- Settles O53: each cycle but the last advances the position by four, and the last one returns to line 0. -/
theorem frameTiming : Obligations.FrameTiming := by
  intro s hon hwas hmode hly hticks t
  have hline : s.ppu.ly.toNat = 0 := by rw [hly]; rfl
  have htiming : s.ppu.Timing :=
    timing_of_top hly (by omega) (by rw [hmode]; decide) (by rw [hmode]; decide)
  have hstart : s.InFrame 0 s.ppu.frameCounter :=
    ⟨hon, hwas, htiming, by rw [Ppu.position, hline, hticks], (if_pos (by decide)).symm⟩
  have hend := cycle_frame_end (cycles_inFrame 17555 hstart (by decide))
  have ht : t = cycle (cycles 17555 s) := cycles_succ' 17555 s
  rw [cycles_params 17555 s] at hend
  rw [ht]
  exact hend

end Sys2Proof.Proofs
end

