-- ==== Sys2Proof/Proofs/Invariant.lean ====
section
/-! The invariant of the machine: every tick, bus write and CPU update keeps it, and so does every step
(spec/10_state.md, spec/20_memory.md, spec/61_video.md). -/

namespace Sys2Proof.Machine

/-! ## The PPU -/

/-- The part of the PPU's invariant about what it stores: the buffers, the counters and the framebuffer. -/
structure Ppu.Stored (par : Config.Params) (p : Ppu) : Prop where
  sprites : p.lineSprites.length ≤ 10
  spriteIndex : ∀ sp ∈ p.lineSprites, sp.index < 40
  pushed : p.pushedX ≤ 160
  fine : p.fineX ≤ 7
  fifo : p.fifo.length ≤ 16
  frames : p.frameCounter < 2 ^ par.frameCounterBits
  canonical : Cells.wf par.ramp.shade0 p.framebuffer = true
  pixels : ∀ c ∈ p.framebuffer, c.1 < 160 * 144

/-- The part of the PPU's invariant about the LCD turned off. -/
def Ppu.OffInv (p : Ppu) : Prop :=
  p.lcdWasOn = false → p.mode = .hblank ∧ p.lineTicks = 0 ∧ p.ly = 0 ∧ p.fifo = [] ∧ p.lineSprites = []

variable {mem : Memory} {par : Config.Params} {p : Ppu} {flags : BitVec 5}

theorem ppuInv_iff : p.Inv par ↔ p.Timing ∧ p.Stored par ∧ p.OffInv :=
  ⟨fun h => ⟨⟨h.line, h.vblank, h.ticks, h.oamScan, h.transfer, fun _ => h.fine⟩,
      ⟨h.sprites, h.spriteIndex, h.pushed, h.fine, h.fifo, h.frames, h.canonical, h.pixels⟩, h.off⟩,
    fun ⟨ht, hs, hoff⟩ => ⟨ht.line, ht.vblank, ht.ticks, ht.oamScan, ht.transfer, hoff, hs.sprites, hs.spriteIndex,
      hs.pushed, hs.fine, hs.fifo, hs.frames, hs.canonical, hs.pixels⟩⟩

theorem oamScan_stored (h : p.Stored par) : ((p.oamScan mem).startTransfer).Stored par := by
  have hsprites : ((p.oamScan mem).startTransfer).lineSprites = (sortedSprites mem p).take 10 :=
    oamScan_lineSprites mem p
  refine ⟨?_, ?_, Nat.zero_le _, Nat.le_of_lt_succ (Nat.mod_lt _ (by decide)), Nat.zero_le _, h.frames, h.canonical,
    h.pixels⟩
  · rw [hsprites]; exact List.length_take_le 10 _
  · rw [hsprites]
    intro sp hsp
    obtain ⟨k, ⟨hk, -⟩, rfl⟩ := mem_coveringSprites.mp (mem_sortedSprites.mp (List.mem_of_mem_take hsp))
    exact hk

theorem pixelKey_lt {row column : Nat} (hrow : row < 144) (hcolumn : column < 160) :
    pixelKey row column < 160 * 144 := by
  simp only [pixelKey, Config.screenWidth]; omega

theorem afterTransferTick_stored (htiming : p.Timing) (hmode : p.mode = .transfer) (h : p.Stored par) :
    (p.afterTransferTick mem par).Stored par := by
  obtain ⟨-, hrunning, hsched⟩ := transferInv_iff.mp (htiming.transfer hmode)
  have hvisible : p.ly.toNat < 144 :=
    Nat.not_le.mp fun hly => by have := htiming.vblank.mpr hly; rw [hmode] at this; cases this
  have hpushed := hsched.pushedX_lt hrunning
  have hqueue := (afterTransferTick_onSchedule mem par hsched).fifo
  have hfields := pipelineStep_eq mem par p
  have hframe : (p.afterTransferTick mem par).framebuffer =
      if p.lands mem par then
        Cells.write par.ramp.shade0 p.framebuffer (pixelKey p.ly.toNat p.pushedX) ((p.queueAfterFetch mem par).headD 0)
      else p.framebuffer := congrArg Ppu.framebuffer hfields
  have hfull : (p.afterTransferTick mem par).pushedX = if p.lands mem par then p.pushedX + 1 else p.pushedX :=
    congrArg Ppu.pushedX hfields
  constructor
  · exact (congrArg (·.lineSprites.length ≤ 10) hfields).mpr h.sprites
  · exact (congrArg (fun q : Ppu => ∀ sp ∈ q.lineSprites, sp.index < 40) hfields).mpr h.spriteIndex
  · rw [hfull]; split <;> omega
  · exact (congrArg (·.fineX ≤ 7) hfields).mpr h.fine
  · rw [hqueue]; exact scheduledQueue_le _
  · exact (congrArg (·.frameCounter < 2 ^ par.frameCounterBits) hfields).mpr h.frames
  · rw [hframe]
    split
    · exact Cells.wf_write _ _ _ h.canonical
    · exact h.canonical
  · rw [hframe]
    split
    · exact Cells.keys_write _ (P := (· < 160 * 144)) _ (pixelKey_lt hvisible hpushed) h.pixels
    · exact h.pixels

theorem afterLine_stored (h : p.Stored par) : (p.afterLine par).Stored par := by
  refine ⟨Nat.zero_le _, nofun, h.pushed, h.fine, Nat.zero_le _, ?_, h.canonical, h.pixels⟩
  show (if p.nextLy = 144 then _ else _) < _
  split
  · exact Nat.mod_lt _ (Nat.two_pow_pos _)
  · exact h.frames

theorem countTick_stored (h : p.Stored par) : p.countTick.Stored par :=
  ⟨h.sprites, h.spriteIndex, h.pushed, h.fine, h.fifo, h.frames, h.canonical, h.pixels⟩

theorem tick_stored (hon : p.lcdc.getLsbD 7 = true) (hwas : p.lcdWasOn = true) (htiming : p.Timing)
    (h : p.Stored par) : (p.tick mem par flags).1.Stored par := by
  rcases tick_cases mem par flags hon hwas htiming with ⟨-, ht⟩ | ⟨-, -, ht⟩ | ⟨hmode, ht⟩ | ⟨-, ht⟩ <;> rw [ht]
  · exact countTick_stored h
  · exact oamScan_stored (countTick_stored h)
  · exact afterTransferTick_stored htiming hmode h
  · exact afterLine_stored h

theorem tick_lcdWasOn (hon : p.lcdc.getLsbD 7 = true) (hwas : p.lcdWasOn = true) (htiming : p.Timing) :
    (p.tick mem par flags).1.lcdWasOn = true := by
  rcases tick_cases mem par flags hon hwas htiming with ⟨-, ht⟩ | ⟨-, -, ht⟩ | ⟨-, ht⟩ | ⟨-, ht⟩ <;> rw [ht]
  · exact hwas
  · exact hwas
  · rw [Ppu.afterTransferTick, pipelineStep_eq]; exact hwas
  · exact hwas

theorem offTick_inv (h : p.Inv par) : p.offTick.Inv par := by
  obtain ⟨-, hstored, -⟩ := ppuInv_iff.mp h
  unfold Ppu.offTick
  split
  · exact ppuInv_iff.mpr ⟨timing_of_top rfl (by decide : 0 < 80) nofun nofun,
      ⟨Nat.zero_le _, nofun, hstored.pushed, hstored.fine, Nat.zero_le _, hstored.frames, hstored.canonical,
        hstored.pixels⟩,
      fun _ => ⟨rfl, rfl, rfl, rfl, rfl⟩⟩
  · exact h

/-- Every tick keeps the PPU's invariant. -/
theorem ppu_tick_inv (h : p.Inv par) : (p.tick mem par flags).1.Inv par := by
  cases hon : p.lcdc.getLsbD 7 with
  | false => rw [Ppu.tick_off mem par p flags hon]; exact offTick_inv h
  | true =>
    cases hwas : p.lcdWasOn with
    | false =>
      obtain ⟨-, hstored, -⟩ := ppuInv_iff.mp h
      rw [tick_turns_on mem par p flags hon hwas]
      exact ppuInv_iff.mpr ⟨timing_of_top rfl (by decide : 1 < 80) nofun nofun,
        ⟨hstored.sprites, hstored.spriteIndex, hstored.pushed, hstored.fine, hstored.fifo, hstored.frames,
          hstored.canonical, hstored.pixels⟩, nofun⟩
    | true =>
      obtain ⟨htiming, hstored, -⟩ := ppuInv_iff.mp h
      exact ppuInv_iff.mpr ⟨tick_timing mem par flags hon hwas htiming, tick_stored hon hwas htiming hstored,
        fun hoff => absurd (tick_lcdWasOn hon hwas htiming) (ne_true_of_eq_false hoff)⟩

/-- A PPU with other values in the registers that the CPU writes. -/
def Ppu.withRegisters (p : Ppu) (lcdc scy scx lyc bgp obp0 obp1 wy wx : Byte) (statSel : BitVec 4) : Ppu :=
  { p with
    lcdc := lcdc, scy := scy, scx := scx, lyc := lyc, bgp := bgp, obp0 := obp0, obp1 := obp1, wy := wy, wx := wx
    statSel := statSel }

/-- The invariant does not speak of the registers that the CPU writes. -/
theorem withRegisters_inv (h : p.Inv par) (lcdc scy scx lyc bgp obp0 obp1 wy wx : Byte) (statSel : BitVec 4) :
    (p.withRegisters lcdc scy scx lyc bgp obp0 obp1 wy wx statSel).Inv par :=
  have htransfer (hmode : p.mode = .transfer) :
      (p.withRegisters lcdc scy scx lyc bgp obp0 obp1 wy wx statSel).TransferInv :=
    have ht := h.transfer hmode
    ⟨ht.started, ht.running, ht.fetchState, ht.fetchX, ht.lineX, ht.pushedX, ht.fifo⟩
  ⟨h.line, h.vblank, h.ticks, h.oamScan, htransfer, h.off, h.sprites, h.spriteIndex, h.pushed, h.fine, h.fifo, h.frames,
    h.canonical, h.pixels⟩

/-! ## The cartridge -/

theorem coerceBank_ne_zero (v : Byte) : coerceBank v ≠ 0 := by
  unfold coerceBank
  split
  · decide
  · assumption

theorem coerceBank_five_lt (v : Byte) : (coerceBank (v &&& 0x1F)).toNat < 32 := by revert v; decide

theorem coerceBank_seven_lt (v : Byte) : (coerceBank (v &&& 0x7F)).toNat < 128 := by revert v; decide

variable {c : Cartridge} {s : State}

theorem writeControl_inv (h : c.Inv) (a : Word) (v : Byte) : (c.writeControl a v).Inv := by
  have kept (ramEnabled : Bool) (ramSel : BitVec 2) (bankMode : Bool) :
      { c with ramEnabled := ramEnabled, ramSel := ramSel, bankMode := bankMode }.Inv :=
    ⟨h.romCanonical, h.romKeys, h.ramCanonical, h.ramKeys, h.romSelNonzero, h.romSelA, h.romSelB, h.banks⟩
  have selected {sel : Byte} (hne : sel ≠ 0) (hA : c.family = .familyA → sel.toNat < 32)
      (hB : c.family = .familyB → sel.toNat < 128) : { c with romSel := sel }.Inv :=
    ⟨h.romCanonical, h.romKeys, h.ramCanonical, h.ramKeys, hne, hA, hB, h.banks⟩
  unfold Cartridge.writeControl
  split
  next => exact h
  next hfamily =>
    split_ifs
    · exact kept _ _ _
    · exact selected (coerceBank_ne_zero _) (fun _ => coerceBank_five_lt v)
        fun hB => absurd (hfamily.symm.trans hB) nofun
    · exact kept _ _ _
    · exact kept _ _ _
  next hfamily =>
    split_ifs
    · exact kept _ _ _
    · exact selected (coerceBank_ne_zero _) (fun hA => absurd (hfamily.symm.trans hA) nofun)
        fun _ => coerceBank_seven_lt v
    · exact kept _ _ _
    · exact h

/-- The key of an accessible RAM byte lies inside the declared banks. -/
theorem ramKey_lt (h : c.ramAccessible = true) {a : Word} (ha : a.toNat < 0xC000) :
    c.ramKey a < c.ramBanks * Config.ramBankSize := by
  obtain ⟨-, -, hbank⟩ := (ramAccessible_iff c).mp h
  have hlast : (c.activeRamBank + 1) * 8192 ≤ c.ramBanks * 8192 := Nat.mul_le_mul_right 8192 hbank
  show c.activeRamBank * 8192 + (a.toNat - 0xA000) < c.ramBanks * 8192
  omega

theorem writeRam_inv (h : c.Inv) {a : Word} (ha : a.toNat < 0xC000) (v : Byte) : (c.writeRam a v).Inv := by
  by_cases hacc : c.ramAccessible = true
  · rw [writeRam_of_accessible c a v hacc]
    have hkeys := Memory.keys_write (P := (· < c.ramBanks * Config.ramBankSize)) v (ramKey_lt hacc ha) h.ramKeys
    exact ⟨h.romCanonical, h.romKeys, Memory.wf_write _ _ _ h.ramCanonical, hkeys, h.romSelNonzero, h.romSelA,
      h.romSelB, h.banks⟩
  · rw [writeRam_of_not_accessible c a v hacc]; exact h

/-! ## The devices and memories -/

/-- The invariant of the machine without its CPU. -/
def State.DevicesInv (s : State) : Prop :=
  s.mem.wf = true ∧ (∀ x ∈ s.mem, coreKey x.1 = true) ∧ s.dma.Inv ∧ s.ppu.Inv s.params ∧ s.cart.Inv

theorem stateInv_iff : s.Inv ↔ s.cpu.Inv ∧ s.DevicesInv :=
  ⟨fun ⟨hcpu, hwf, hkeys, hdma, hppu, hcart⟩ => ⟨hcpu, hwf, hkeys, hdma, hppu, hcart⟩,
    fun ⟨hcpu, hwf, hkeys, hdma, hppu, hcart⟩ => ⟨hcpu, hwf, hkeys, hdma, hppu, hcart⟩⟩

theorem tick_devicesInv (h : s.DevicesInv) : (tick s).DevicesInv := by
  obtain ⟨hwf, hkeys, hdma, hppu, hcart⟩ := h
  exact ⟨hwf, hkeys, hdma, ppu_tick_inv hppu, hcart⟩

theorem coreKey_iff (k : Nat) : coreKey k = true ↔ 0x8000 ≤ k ∧ k < 0xA000 ∨ 0xC000 ≤ k ∧ k < 0xE000 ∨
    0xFE00 ≤ k ∧ k < 0xFEA0 ∨ 0xFF80 ≤ k ∧ k < 0xFFFF := by
  simp only [coreKey, Bool.or_eq_true, Bool.and_eq_true, decide_eq_true_eq, or_assoc]

theorem write_devicesInv (h : s.DevicesInv) {k : Nat} (hk : coreKey k = true) (v : Byte) :
    { s with mem := s.mem.write k v }.DevicesInv := by
  obtain ⟨hwf, hkeys, hrest⟩ := h
  exact ⟨Memory.wf_write _ _ _ hwf, Memory.keys_write (P := (coreKey · = true)) v hk hkeys, hrest⟩

theorem dmaTick_devicesInv (h : s.DevicesInv) : (dmaTick s).DevicesInv := by
  have hdma : (dmaTick s).dma.Inv := cycle_dma s ▸ cycle_dma_inv s h.2.2.1
  revert hdma
  unfold dmaTick
  split_ifs with hidle hdelay <;> intro hdma
  · exact h
  · obtain ⟨hwf, hkeys, -, hrest⟩ := h
    exact ⟨hwf, hkeys, hdma, hrest⟩
  · have hoffset := h.2.2.1.active (by simpa using hidle)
    have hkey : coreKey (oamKey s.dma.offset) = true := by rw [coreKey_iff, oamKey]; omega
    obtain ⟨hwf, hkeys, -, hrest⟩ := write_devicesInv h hkey (busRead s s.dma.sourceAddress)
    exact ⟨hwf, hkeys, hdma, hrest⟩

theorem cycle_devicesInv (h : s.DevicesInv) : (cycle s).DevicesInv :=
  dmaTick_devicesInv (tick_devicesInv (tick_devicesInv (tick_devicesInv (tick_devicesInv h))))

theorem ioWrite_devicesInv (h : s.DevicesInv) (v : Byte) (r : IoReg) : (ioWrite s v r).DevicesInv := by
  obtain ⟨hwf, hkeys, hdma, hppu, hcart⟩ := h
  have registers (lcdc scy scx lyc bgp obp0 obp1 wy wx : Byte) (statSel : BitVec 4) :
      { s with ppu := s.ppu.withRegisters lcdc scy scx lyc bgp obp0 obp1 wy wx statSel }.DevicesInv :=
    ⟨hwf, hkeys, hdma, withRegisters_inv hppu .., hcart⟩
  cases r with
  | lcdc | stat | scy | scx | lyc | bgp | obp0 | obp1 | wy | wx => exact registers _ _ _ _ _ _ _ _ _ _
  | dma => exact ⟨hwf, hkeys, dmaStart_inv v, hppu, hcart⟩
  | _ => exact ⟨hwf, hkeys, hdma, hppu, hcart⟩

theorem busWrite_devicesInv (h : s.DevicesInv) (a : Word) (v : Byte) : (busWrite s a v).DevicesInv := by
  have hbounds := region_bounds a
  unfold busWrite
  generalize regionOf a = region at hbounds
  cases region with
  | rom =>
    obtain ⟨hwf, hkeys, hdma, hppu, hcart⟩ := h
    exact ⟨hwf, hkeys, hdma, hppu, writeControl_inv hcart a v⟩
  | externalRam =>
    obtain ⟨hwf, hkeys, hdma, hppu, hcart⟩ := h
    exact ⟨hwf, hkeys, hdma, hppu, writeRam_inv hcart hbounds.2 v⟩
  | vram => exact write_devicesInv h ((coreKey_iff _).mpr (.inl hbounds)) v
  | wram => exact write_devicesInv h ((coreKey_iff _).mpr (.inr (.inl hbounds))) v
  | hram => exact write_devicesInv h ((coreKey_iff _).mpr (.inr (.inr (.inr hbounds)))) v
  | oam =>
    simp only
    split
    · exact h
    · exact write_devicesInv h ((coreKey_iff _).mpr (.inr (.inr (.inl hbounds)))) v
  | io =>
    simp only
    split
    · exact ioWrite_devicesInv h v _
    · exact h
  | echo | unusable | intEnable => exact h

/-! ## The step -/

variable (s) in
theorem perform_devicesInv (l : List Access) (h : s.DevicesInv) : (perform l s).DevicesInv :=
  perform_keeps (fun _ hu => cycle_devicesInv hu) (fun _ a _ v hu => busWrite_devicesInv hu a v) h

theorem cycles_devicesInv (n : Nat) (h : s.DevicesInv) : (cycles n s).DevicesInv := by
  induction n with
  | zero => exact h
  | succ n ih => rw [cycles_succ']; exact cycle_devicesInv ih

/-- The invariant inside a step, where the EI latch may be set. -/
def State.InstructionInv (s : State) : Prop := s.cpu.f &&& 0x0F = 0 ∧ s.DevicesInv

theorem withCpu_instructionInv {p : Cpu} (hf : p.f = s.cpu.f) (h : s.InstructionInv) : (s.withCpu p).InstructionInv :=
  ⟨hf ▸ h.1, h.2⟩

theorem cycle_instructionInv (h : s.InstructionInv) : (cycle s).InstructionInv :=
  ⟨(cycle_cpu s).symm ▸ h.1, cycle_devicesInv h.2⟩

theorem performs_instructionInv {t : State} {n : Nat} {as : List Word} (hperforms : Performs s t n as)
    (h : s.InstructionInv) : t.InstructionInv := by
  obtain ⟨l, -, -, ht, hf⟩ := hperforms
  refine ⟨hf h.1, ?_⟩
  rw [ht]
  exact perform_devicesInv s l h.2

theorem afterFetch_instructionInv (n : Nat) (h : s.InstructionInv) : (afterFetch n s).InstructionInv := by
  rw [afterFetch_eq]
  exact ⟨h.1, cycles_devicesInv n h.2⟩

theorem dispatch_instructionInv (h : s.InstructionInv) : (dispatch s).InstructionInv := by
  rw [dispatch_eq s rfl]
  exact ⟨h.1, perform_devicesInv (s.clearFlag _) _ h.2⟩

theorem interruptPhase_instructionInv (h : s.InstructionInv) : (interruptPhase s).InstructionInv := by
  rcases interruptPhase_cases s with hphase | hphase <;> rw [hphase]
  · exact h
  · exact dispatch_instructionInv h

theorem haltedPoll_instructionInv (h : s.InstructionInv) : (haltedPoll s).InstructionInv := by
  obtain ⟨p, hf, hpoll | hpoll⟩ := haltedPoll_cases s <;> rw [hpoll]
  · exact dispatch_instructionInv (withCpu_instructionInv hf h)
  · exact cycle_instructionInv (withCpu_instructionInv hf h)

/-- The EI latch at the end of a step is clear. -/
theorem endOfStep_inv (h : s.InstructionInv) : (endOfStep s).Inv := by
  rw [endOfStep_eq]
  exact stateInv_iff.mpr ⟨⟨h.1, rfl⟩, h.2⟩

theorem step_inv {t : State} (h : s.Inv) (hstep : step s = .next t) : t.Inv := by
  obtain ⟨hcpu, hdevices⟩ := stateInv_iff.mp h
  have hinv : s.InstructionInv := ⟨hcpu.flagsLow, hdevices⟩
  obtain ⟨-, ⟨-, rfl⟩ | ⟨-, i, n, k, as, u, -, hperforms, rfl⟩⟩ := step_cases hstep
  · exact endOfStep_inv (haltedPoll_instructionInv hinv)
  · exact endOfStep_inv (interruptPhase_instructionInv
      (performs_instructionInv hperforms (afterFetch_instructionInv n hinv)))

end Sys2Proof.Machine

namespace Sys2Proof.Proofs

open Sys2Proof.Machine

/-- Settles O55: the invariant is kept by what a step is made of, and what loading fixed is never written. -/
theorem stepKeepsInvariant : Obligations.StepKeepsInvariant := by
  intro s t h hstep
  obtain ⟨⟨hrunning, -⟩, -⟩ := step_cases hstep
  obtain ⟨hstatus, hparams, hbuttons, ⟨hrom, hromLen, hheader, hrejected, hfamily, hbattery, hromBanks, hramBanks⟩⟩ :=
    step_sameLoad hstep
  exact ⟨step_inv h hstep, hstatus.trans hrunning, hparams, hbuttons, hrom, hromLen, hheader, hrejected, hfamily,
    hbattery,
    hromBanks, hramBanks⟩

end Sys2Proof.Proofs
end

