-- ==== Sys2Proof/Proofs/Reset.lean ====
section
/-! The reset state (spec/70_reset_and_hazards.md R520): its memories as their images give them, its cartridge, and the
invariant. -/

namespace Sys2Proof.Machine

/-! ## The memories at reset -/

theorem ofBytes_keys {base n : Nat} {bytes : List Byte} {x : Host.Cell}
    (h : x ∈ Memory.ofBytes base (bytes.take n)) : base ≤ x.1 ∧ x.1 < base + n := by
  obtain ⟨hfirst, hlast⟩ := Cells.keys_ofList unlistedByte base (bytes.take n) x h
  have := List.length_take_le n bytes
  exact ⟨hfirst, by omega⟩

theorem ofBytes_read_key {base n k : Nat} (bytes : List Byte) (h : k < n) :
    (Memory.ofBytes base (bytes.take n)).read (base + k) = bytes.getD k 0 := by
  rw [Memory.ofBytes, Memory.read, Cells.read_ofList, if_pos (Nat.le_add_right base k), Nat.add_sub_cancel_left,
    List.getD_eq_getElem?_getD, List.getElem?_take_of_lt h]
  rfl

variable (st : Config.Start)

theorem initialMemory_keys {x : Host.Cell} (h : x ∈ initialMemory st) : coreKey x.1 = true := by
  rw [coreKey_iff]
  simp only [initialMemory, List.mem_append] at h
  rcases h with ((h | h) | h) | h
  · have := ofBytes_keys h; omega
  · have := ofBytes_keys h; omega
  · have := ofBytes_keys h; omega
  · have := ofBytes_keys h; omega

theorem initialMemory_wf : (initialMemory st).wf = true := by
  have image {lo base : Nat} (n : Nat) (bytes : List Byte) (h : lo ≤ base) :
      Cells.wfFrom unlistedByte lo (Memory.ofBytes base (bytes.take n)) = true := Cells.wfFrom_ofList _ _ h
  have below {base n mid : Nat} {bytes : List Byte} (h : base + n ≤ mid) :
      ∀ x ∈ Memory.ofBytes base (bytes.take n), x.1 < mid := fun x hx => Nat.lt_of_lt_of_le (ofBytes_keys hx).2 h
  rw [initialMemory, List.append_assoc, List.append_assoc]
  exact Cells.wfFrom_append _ (Nat.zero_le 0xC000) (image _ _ (by decide)) (below (by decide))
    (Cells.wfFrom_append _ (by decide : 0xC000 ≤ 0xFE00) (image _ _ (by decide)) (below (by decide))
      (Cells.wfFrom_append _ (by decide : 0xFE00 ≤ 0xFF80) (image _ _ (by decide)) (below (by decide))
        (image _ _ (by decide))))

/-- Reading one of two memories one after the other, the key in the first. -/
theorem Memory.read_append_left {m n : Memory} {k : Nat} (h : ∀ x ∈ n, x.1 ≠ k) : Memory.read (m ++ n) k = m.read k :=
  Cells.read_append_left _ h

theorem Memory.read_append_right {m n : Memory} {k : Nat} (h : ∀ x ∈ m, x.1 ≠ k) : Memory.read (m ++ n) k = n.read k :=
  Cells.read_append _ h

theorem ofBytes_key_ne {base n k : Nat} {bytes : List Byte} (h : k < base ∨ base + n ≤ k) :
    ∀ x ∈ Memory.ofBytes base (bytes.take n), x.1 ≠ k := fun x hx hk => by
  have := ofBytes_keys hx
  omega

theorem initialMemory_vram {k : Nat} (h : k < 8192) : (initialMemory st).read (0x8000 + k) = st.initVram.getD k 0 := by
  rw [initialMemory, Memory.read_append_left (ofBytes_key_ne (by omega)),
    Memory.read_append_left (ofBytes_key_ne (by omega)), Memory.read_append_left (ofBytes_key_ne (by omega)),
    ofBytes_read_key _ h]

theorem initialMemory_wram {k : Nat} (h : k < 8192) : (initialMemory st).read (0xC000 + k) = st.initWram.getD k 0 := by
  rw [initialMemory, Memory.read_append_left (ofBytes_key_ne (by omega)),
    Memory.read_append_left (ofBytes_key_ne (by omega)), Memory.read_append_right (ofBytes_key_ne (by omega)),
    ofBytes_read_key _ h]

theorem initialMemory_oam {k : Nat} (h : k < 160) : (initialMemory st).read (0xFE00 + k) = st.initOam.getD k 0 := by
  rw [initialMemory, Memory.read_append_left (ofBytes_key_ne (by omega)), List.append_assoc,
    Memory.read_append_right (ofBytes_key_ne (by omega)), Memory.read_append_right (ofBytes_key_ne (by omega)),
    ofBytes_read_key _ h]

theorem initialMemory_hram {k : Nat} (h : k < 127) : (initialMemory st).read (0xFF80 + k) = st.initHram.getD k 0 := by
  rw [initialMemory, List.append_assoc, List.append_assoc, Memory.read_append_right (ofBytes_key_ne (by omega)),
    Memory.read_append_right (ofBytes_key_ne (by omega)), Memory.read_append_right (ofBytes_key_ne (by omega)),
    ofBytes_read_key _ h]

/-! ## The cartridge at reset -/

/-- A cartridge with the controller of reset, of an image and of RAM inside its banks. -/
theorem loaded_inv {c : Cartridge} (image : List Byte) (hrom : c.rom = Memory.ofBytes 0 image)
    (hlen : c.romLen = image.length) (hsel : c.romSel = 1) (hram : c.ram.wf = true)
    (hkeys : ∀ x ∈ c.ram, x.1 < c.ramBanks * Config.ramBankSize)
    (hbanks : c.rejected = none → 2 ≤ c.romBanks ∧ c.romBanks ≤ 512 ∧ c.ramBanks ≤ 16) : c.Inv := by
  refine ⟨?_, ?_, hram, hkeys, by rw [hsel]; decide, fun _ => by rw [hsel]; decide,
    fun _ => by rw [hsel]; decide, hbanks⟩
  · rw [hrom]; exact Memory.wf_ofBytes 0 image
  · rw [hrom, hlen]
    intro x hx
    have := (Cells.keys_ofList unlistedByte 0 image x hx).2
    omega

theorem initialRam_wf (ramBanks : Nat) (battery : Option (List Byte)) : (initialRam ramBanks battery).wf = true := by
  unfold initialRam
  split
  · split
    · rfl
    · exact Memory.wf_ofBytes 0 _
  · rfl

theorem initialRam_keys (ramBanks : Nat) (battery : Option (List Byte)) :
    ∀ x ∈ initialRam ramBanks battery, x.1 < ramBanks * Config.ramBankSize := by
  unfold initialRam
  split
  next save =>
    split
    next => nofun
    next hne =>
      intro x hx
      have hlt : x.1 < 0 + Config.ramBankSize := (ofBytes_keys hx).2
      have hle : 1 * Config.ramBankSize ≤ ramBanks * Config.ramBankSize :=
        Nat.mul_le_mul_right _ (Nat.one_le_iff_ne_zero.mpr hne)
      omega
  next => nofun

theorem romBankCount_bounds {code : Byte} {n : Nat} (h : romBankCount code = some n) : 2 ≤ n ∧ n ≤ 512 := by
  obtain ⟨hcode, rfl⟩ := (romBankCount_eq_some code n).mp h
  have hpos := Nat.two_pow_pos code.toNat
  have hmax : 2 ^ code.toNat ≤ 2 ^ 8 := Nat.pow_le_pow_right (by decide) hcode
  omega

theorem ramBankCount_bound {code : Byte} {n : Nat} (h : ramBankCount code = some n) : n ≤ 16 := by
  obtain ⟨hcode, rfl⟩ := (ramBankCount_eq_some code n).mp h
  generalize code.toNat = k at hcode
  revert k; decide

theorem loadCartridge_inv (image : List Byte) (battery : Option (List Byte)) : (loadCartridge image battery).Inv := by
  by_cases hadmitted : (loadCartridge image battery).rejected = none
  · obtain ⟨info, romBanks, ramBanks, hlen, htype, hrom, hram⟩ := codes_of_admitted hadmitted
    rw [loadCartridge_of_codes battery hlen htype hrom hram]
    exact loaded_inv image rfl rfl rfl (initialRam_wf ramBanks battery) (initialRam_keys ramBanks battery) fun _ =>
      ⟨(romBankCount_bounds hrom).1, (romBankCount_bounds hrom).2, ramBankCount_bound hram⟩
  · have rejected {c : Cartridge} (hrom : c.rom = Memory.ofBytes 0 image) (hlen : c.romLen = image.length)
        (hsel : c.romSel = 1) (hram : c.ram = []) (hrejected : c.rejected ≠ none) : c.Inv :=
      loaded_inv image hrom hlen hsel (by rw [hram]; rfl) (by rw [hram]; nofun) fun h => absurd h hrejected
    revert hadmitted
    unfold loadCartridge
    dsimp only
    split_ifs
    · exact fun h => rejected rfl rfl rfl rfl h
    · split
      · exact fun h => rejected rfl rfl rfl rfl h
      · split
        · exact fun h => rejected rfl rfl rfl rfl h
        · split
          · exact fun h => rejected rfl rfl rfl rfl h
          · exact fun h => absurd rfl h

/-! ## The reset state -/

theorem resetWith_inv : (resetWith st).Inv := by
  have hflags : (0xB0 : Byte) &&& 0x0F = 0 := by decide
  refine stateInv_iff.mpr ⟨⟨hflags, rfl⟩, initialMemory_wf st, fun x hx => initialMemory_keys st hx, ?_, ?_,
    loadCartridge_inv st.cart st.battery⟩
  · exact ⟨Nat.zero_le 2, Nat.zero_le 160, nofun, nofun⟩
  · exact ppuInv_iff.mpr ⟨timing_of_top rfl (by decide : 0 < 80) nofun nofun,
      ⟨Nat.zero_le 10, nofun, Nat.zero_le 160, Nat.zero_le 7, Nat.zero_le 16, Nat.two_pow_pos _, rfl, nofun⟩, nofun⟩

theorem reset_eq_resetWith : State.reset = resetWith Config.defaultStart := rfl

/-- The bus reads the memory of reset in the regions of the core's memories. -/
theorem busRead_resetWith {base k : Nat} (r : Region) (hr : r.isRam = true ∨ r = .oam) (hfirst : r.first = base)
    (hk : base + k < r.stop) :
      busRead (resetWith st) (BitVec.ofNat 16 (base + k)) = (initialMemory st).read (base + k) := by
  have hstop : r.stop ≤ 65536 := by cases r <;> decide
  have haddr : (BitVec.ofNat 16 (base + k)).toNat = base + k := by
    rw [BitVec.toNat_ofNat]; exact Nat.mod_eq_of_lt (Nat.lt_of_lt_of_le hk hstop)
  have hregion : regionOf (BitVec.ofNat 16 (base + k)) = r :=
    regionOf_eq r (by rw [haddr, hfirst]; exact Nat.le_add_right base k) (by rw [haddr]; exact hk)
  rcases hr with hr | rfl
  · rw [busRead_ram _ _ (by rw [hregion]; exact hr), haddr]; rfl
  · rw [busRead_oam_free _ hregion rfl, haddr]; rfl

/-- A register of the I/O block reads as its byte. -/
theorem busRead_io {s : State} {a : Word} (r : IoReg) {v : Byte} (hregion : regionOf a = .io)
    (hreg : ioRegAt a = some r) (hbyte : ioRead s r = v) : busRead s a = v := by
  unfold busRead
  simp only [hregion, hreg, hbyte]

end Sys2Proof.Machine

namespace Sys2Proof.Proofs

open Sys2Proof.Machine

/-- Settles O56: the images are canonical and inside their memories, the cartridge as loading leaves it. -/
theorem resetHoldsInvariant : Obligations.ResetHoldsInvariant :=
  ⟨resetWith_inv, reset_eq_resetWith ▸ resetWith_inv Config.defaultStart⟩

/-- Settles O57: the memories read their images; every other field is that of `State.reset`. -/
theorem resetState : Obligations.ResetState := by
  intro st s
  have hvram (k : Nat) (hk : k < 8192) :=
    (busRead_resetWith st (base := 0x8000) (k := k) .vram (.inl rfl) rfl (by rw [Region.stop]; omega)).trans
      (initialMemory_vram st hk)
  have hwram (k : Nat) (hk : k < 8192) :=
    (busRead_resetWith st (base := 0xC000) (k := k) .wram (.inl rfl) rfl (by rw [Region.stop]; omega)).trans
      (initialMemory_wram st hk)
  have hoam (k : Nat) (hk : k < 160) :=
    (busRead_resetWith st (base := 0xFE00) (k := k) .oam (.inr rfl) rfl (by rw [Region.stop]; omega)).trans
      (initialMemory_oam st hk)
  have hhram (k : Nat) (hk : k < 127) :=
    (busRead_resetWith st (base := 0xFF80) (k := k) .hram (.inl rfl) rfl (by rw [Region.stop]; omega)).trans
      (initialMemory_hram st hk)
  have hflags : (0b111#3 ++ 0x01#5 : Byte) = 0xE1 := by decide
  have hstat : (0b1#1 ++ 0#4 ++ BitVec.ofBool true ++ LcdMode.oamScan.number : Byte) = 0x86 := by decide
  have hio {a : Word} (r : IoReg) {v : Byte} := busRead_io (s := s) (a := a) r (v := v)
  exact ⟨rfl, rfl, hio .intFlags rfl rfl hflags, rfl, hvram, hwram, hoam, hhram, rfl, rfl, hio .lcdc rfl rfl rfl,
    hio .stat rfl rfl hstat, hio .scy rfl rfl rfl, hio .scx rfl rfl rfl, hio .ly rfl rfl rfl, hio .lyc rfl rfl rfl,
    hio .bgp rfl rfl rfl, hio .obp0 rfl rfl rfl, hio .obp1 rfl rfl rfl, hio .wy rfl rfl rfl, hio .wx rfl rfl rfl,
    rfl, rfl, rfl, rfl, rfl, rfl, rfl, rfl, rfl, rfl, rfl, fun _ _ => rfl, rfl, rfl, rfl, rfl, hio .sb rfl rfl rfl,
    hio .sc rfl rfl rfl, rfl, rfl⟩

end Sys2Proof.Proofs
end
